-- ==== Sys2Proof/Word.lean ====
section
/-! DEFINITION. The words of the block: 32-bit words and binary32 words (00_scope.md R13). -/

namespace Sys2Proof

/-- A word is 32 bits, bit 0 the least significant (00_scope.md R13). -/
abbrev Word := BitVec 32

/-- A binary32 value held as its word (00_scope.md R13: `f32(w)` and `bits(v)` do not change a bit). -/
abbrev F32 := BitVec 32

/-- One word of a word-addressed space and its address (20_memory.md R62; DEDUCED, log 8). -/
abbrev Cell := Nat × Word

/-- An exact quotient `num / den`. -/
structure Ratio where
  num : Int
  den : Nat
  deriving DecidableEq, Repr

/-- The name of one free value: the state's counter and the place inside the command that draws it (log 5). -/
abbrev Site := List Nat

end Sys2Proof
end

