-- ==== Sys2Proof/Machine/Binary32.lean ====
section
/-! DEFINITION. binary32 words: fields, classes, exact values and rounding (00_scope.md R13 to R15). -/

namespace Sys2Proof

/-- Bit 31, the sign (00_scope.md R13). -/
def F32.sign (w : F32) : Bool := decide (2 ^ 31 ≤ w.toNat)

/-- Bits 30:0. The words of one sign are ordered by it as their values are. -/
def F32.mag (w : F32) : Nat := w.toNat % 2 ^ 31

/-- Bits 30:23, the biased exponent (00_scope.md R13). -/
def F32.expField (w : F32) : Nat := w.mag / 2 ^ 23

/-- Bits 22:0, the fraction (00_scope.md R13). -/
def F32.frac (w : F32) : Nat := w.mag % 2 ^ 23

/-- The magnitude field of an infinity. -/
def F32.infMag : Nat := 0x7F800000

def F32.isNaN (w : F32) : Bool := decide (F32.infMag < w.mag)

def F32.isInf (w : F32) : Bool := decide (w.mag = F32.infMag)

/-- Neither a NaN nor an infinity. -/
def F32.isFinite (w : F32) : Bool := decide (w.mag < F32.infMag)

def F32.isZero (w : F32) : Bool := decide (w.mag = 0)

/-- Exponent field 0 and fraction field not 0 (41_biquad.md R140). -/
def F32.isSubnormal (w : F32) : Bool := decide (w.expField = 0) && decide (w.frac ≠ 0)

/-- The magnitude of a finite value, in units of 2^-149: every finite binary32 value is a whole number of them. -/
def F32.units (w : F32) : Nat :=
  if w.expField = 0 then w.frac else (2 ^ 23 + w.frac) * 2 ^ (w.expField - 1)

/-- A finite value in units of 2^-149, with its sign. -/
def F32.unitsZ (w : F32) : Int := if w.sign then -(w.units : Int) else (w.units : Int)

/-- The word's place in the order of the binary32 values; the two zeros share one place. -/
def F32.key (w : F32) : Int := if w.sign then -(w.mag : Int) else (w.mag : Int)

/-- `a < b` as binary32 values: false on a NaN, and -0.0 = +0.0 (10_state.md R44). -/
def F32.lt (a b : F32) : Bool := !a.isNaN && !b.isNaN && decide (a.key < b.key)

/-- `a ≤ b` as binary32 values. -/
def F32.le (a b : F32) : Bool := !a.isNaN && !b.isNaN && decide (a.key ≤ b.key)

/-- `a > 0`, for a word that may be anything. -/
def F32.isPos (w : F32) : Bool := F32.lt 0 w

/-- +0.0 (40_ring_buffer.md R124). -/
def F32.zero : F32 := 0x00000000

/-- 1.0. -/
def F32.one : F32 := 0x3F800000

/-- The same word with bit 31 inverted. -/
def F32.neg (w : F32) : F32 := w ^^^ 0x80000000

/-- The word with a sign and the given bits 30:0. -/
def F32.ofMag (negative : Bool) (m : Nat) : F32 :=
  BitVec.ofNat 32 ((if negative then 2 ^ 31 else 0) + m)

/-- `m / 2^sh` rounded to the nearest integer, ties to even. -/
def roundHalfEven (m sh : Nat) : Nat :=
  let q := m / 2 ^ sh
  let r := m % 2 ^ sh
  if 2 * r < 2 ^ sh then q
  else if 2 ^ sh < 2 * r then q + 1
  else q + q % 2

/-- Bits 30:0 of the binary32 nearest to `m · 2^-(149+sh)`, ties to even; past the largest finite value, infinity
(00_scope.md R15, IEEE 754 round to nearest even). `d` bits are dropped: as many as leave 24, and never fewer than
put the last one kept at 2^-149. -/
def roundMag (m sh : Nat) : Nat :=
  let d := max sh (Nat.log2 m - 23)
  min ((d - sh) * 2 ^ 23 + roundHalfEven m d) F32.infMag

/-- FTZ: a subnormal of either sign becomes +0.0 (41_biquad.md R140). -/
def F32.ftz (v : F32) : F32 := if v.isSubnormal then F32.zero else v

/-- `clamp(v, lo, hi)` with binary32 comparisons; a value equal to a bound gives that bound (10_state.md R44,
log 14). A NaN gives the lower bound. -/
def F32.clamp (v lo hi : F32) : F32 :=
  if v.isNaN then lo else if v.le lo then lo else if hi.le v then hi else v

end Sys2Proof
end

