-- ==== Sys2Proof/Machine/RealParam.lean ====
section
/-! DEFINITION. The real parameters of the configuration (00_scope.md R10): an exact quotient, or the name of a real of
which the model fixes only the sign (log 2). -/

namespace Sys2Proof

noncomputable def Ratio.toReal (q : Ratio) : ℝ := (q.num : ℝ) / (q.den : ℝ)

/-- A positive real with the floors of its multiples, the one thing the block computes from a real parameter outside
COEF_EVAL (44_coefficients.md R220). -/
structure OpenReal where
  value : ℝ
  pos : 0 < value
  floorMul : Nat → Nat
  floorMul_eq : ∀ b : Nat, (floorMul b : ℤ) = ⌊(b : ℝ) * value⌋

/-- The OPEN reals by name: an opaque constant of which nothing but `OpenReal` is known. The argument only shows that
there is one. -/
opaque Config.openRealOf [Inhabited OpenReal] : Nat → OpenReal

/-- The real 1, as an `OpenReal`. -/
def OpenReal.one : OpenReal := { value := 1, pos := one_pos, floorMul := id, floorMul_eq := fun b => by simp }

/-- The OPEN real of a name: any positive real (00_scope.md R10; a free value, log 2). -/
def Config.openReal : Nat → OpenReal := @Config.openRealOf ⟨OpenReal.one⟩

namespace Machine

/-- A real parameter of the configuration (00_scope.md R10). -/
inductive RealParam where
  /-- an exact quotient -/
  | exact (q : Ratio)
  /-- the OPEN real of a name, or its negative: any real but 0, an irrational one included -/
  | named (negative : Bool) (n : Nat)
  deriving DecidableEq, Repr

/-- The parameter's value. -/
noncomputable def RealParam.toReal : RealParam → ℝ
  | .exact q => q.toReal
  | .named negative n => if negative then -(Config.openReal n).value else (Config.openReal n).value

/-- The parameter is a real: a quotient has a denominator. -/
def RealParam.wf : RealParam → Bool
  | .exact q => decide (0 < q.den)
  | .named _ _ => true

/-- The parameter is a real above 0. -/
def RealParam.isPos : RealParam → Bool
  | .exact q => decide (0 < q.den) && decide (0 < q.num)
  | .named negative _ => !negative

/-- `floor(b · r)` over the reals, for a parameter above 0; 0 for any other (44_coefficients.md R220). -/
def RealParam.floorMul (r : RealParam) (b : Nat) : Nat :=
  match r with
  | .exact q => ((b : Int) * q.num / (q.den : Int)).toNat
  | .named negative n => if negative then 0 else (Config.openReal n).floorMul b

end Machine

end Sys2Proof
end

