-- ==== Sys2Proof/Machine/RealFormula.lean ====
section
/-! DEFINITION. The real formulas of 41_biquad.md and 44_coefficients.md as data, their exact real value, and the
law of COEF_EVAL (00_scope.md R14, R17). Nothing here is run: the step only builds a formula. -/

namespace Sys2Proof

/-- A formula over the reals with its operands put in (00_scope.md R14, R17). -/
inductive RealFormula where
  /-- a parameter of the configuration -/
  | param (r : Machine.RealParam)
  /-- the exact value of a finite binary32 operand -/
  | value (w : F32)
  /-- an integer operand -/
  | nat (n : Nat)
  | pi
  | add (a b : RealFormula)
  | sub (a b : RealFormula)
  | mul (a b : RealFormula)
  | div (a b : RealFormula)
  | neg (a : RealFormula)
  | pow (a b : RealFormula)
  | sin (a : RealFormula)
  | cos (a : RealFormula)
  | sinh (a : RealFormula)
  | ln (a : RealFormula)
  /-- the OPEN function AP_IN_GAIN (44_coefficients.md R214) -/
  | apInGain (t : RealFormula)
  deriving DecidableEq, Repr

/-- The exact real value of a finite binary32 word. -/
noncomputable def F32.toReal (w : F32) : ℝ := (w.unitsZ : ℝ) / 2 ^ 149

/-- The exact real value of a formula; `ap` is AP_IN_GAIN. -/
noncomputable def RealFormula.eval (ap : ℝ → ℝ) : RealFormula → ℝ
  | .param r => r.toReal
  | .value w => w.toReal
  | .nat n => n
  | .pi => Real.pi
  | .add a b => a.eval ap + b.eval ap
  | .sub a b => a.eval ap - b.eval ap
  | .mul a b => a.eval ap * b.eval ap
  | .div a b => a.eval ap / b.eval ap
  | .neg a => -a.eval ap
  | .pow a b => (a.eval ap) ^ (b.eval ap)
  | .sin a => Real.sin (a.eval ap)
  | .cos a => Real.cos (a.eval ap)
  | .sinh a => Real.sinh (a.eval ap)
  | .ln a => Real.log (a.eval ap)
  | .apInGain t => ap (t.eval ap)

/-- A real rounded to the nearest integer, ties to even. -/
noncomputable def roundHalfEvenReal (y : ℝ) : ℤ :=
  if Int.fract y < 1 / 2 then ⌊y⌋
  else if 1 / 2 < Int.fract y then ⌊y⌋ + 1
  else ⌊y⌋ + ⌊y⌋ % 2

/-- The exponent of the last bit a binary32 of the size of `x` keeps: 24 bits, and never below 2^-149. -/
noncomputable def lastPlace (x : ℝ) : ℤ := max (Int.log 2 |x| - 23) (-149)

/-- A real rounded to binary32, to nearest even; 0 gives +0.0, and a magnitude past the range gives an infinity
(00_scope.md R15, R17). -/
noncomputable def roundReal (x : ℝ) : F32 :=
  if x = 0 then F32.zero
  else
    F32.ofMag (decide (x < 0))
      (min ((lastPlace x + 149) * 2 ^ 23 + roundHalfEvenReal (|x| / (2 : ℝ) ^ lastPlace x)).toNat F32.infMag)

/-- `w` and `r` are at most `tol` units in the last place apart: at most `tol` places of the binary32 order
(00_scope.md R17; DEDUCED, log 4). -/
def withinUlps (tol : Nat) (w r : F32) : Prop := (w.key - r.key).natAbs ≤ tol

/-- The law of COEF_EVAL on one formula (00_scope.md R17): the result is no NaN, is within COEF_TOL units in the last
place of the exact real value rounded to binary32, and is +0.0 where the exact value is 0. -/
def CoefLaw (ap : ℝ → ℝ) (tol : Nat) (e : RealFormula) (w : F32) : Prop :=
  w.isNaN = false ∧ withinUlps tol w (roundReal (e.eval ap)) ∧ (e.eval ap = 0 → w = F32.zero)

end Sys2Proof
end

