-- ==== Sys2Proof/Config.lean ====
section
/-! DEFINITION. What a build fixes (00_scope.md R10): the parameter record, the OPEN functions, and the free values.
An opaque constant has no body: a claim about the model holds whatever it is. -/

namespace Sys2Proof

namespace Machine

/-- NUMERIC_MODE, with the word format of a FIXED build (00_scope.md R3, R10). -/
inductive NumericMode where
  | float
  | fixed (w frac : Nat)
  deriving DecidableEq, Repr

/-- The parameter record of 00_scope.md R10. `dampTable` and `dbTable` give the OPEN functions DAMP_CUTOFF and DB2LIN at
the points a configuration names; elsewhere they are opaque (log 3). -/
structure Params where
  maxCombs : Nat
  maxAps : Nat
  numModes : Nat
  rom : List Word
  rbCap : Nat
  fsMax : Nat
  blockMax : Nat
  numeric : NumericMode
  atten : RealParam
  combK : RealParam
  combFbExp : RealParam
  cBright : RealParam
  kAp : RealParam
  apFbExp : RealParam
  stereoRatio : RealParam
  dampBw : RealParam
  bpBw : RealParam
  decayMin : F32
  decayMax : F32
  levelMin : F32
  levelMax : F32
  dampTable : List (F32 × Nat × F32)
  dbTable : List (F32 × F32)
  deriving DecidableEq, Repr

end Machine

/-- A free word: `93_implementation_defined.md` 1.6, 1.7 and 1.9 (log 5, log 7). -/
opaque Config.freeWord : Site → BitVec 32

/-- DAMP_CUTOFF of brightness and sample rate, OPEN (00_scope.md R10, log 3). -/
opaque Config.dampCutoff : F32 → Nat → F32

/-- DB2LIN, OPEN (00_scope.md R10, log 3). -/
opaque Config.db2lin : F32 → F32

/-- AP_IN_GAIN, OPEN (00_scope.md R10, 44_coefficients.md R214). -/
opaque Config.apInGain : ℝ → ℝ

/-- COEF_EVAL with its tolerance COEF_TOL and its law (00_scope.md R17). -/
structure CoefEval where
  tol : Nat
  fn : RealFormula → F32
  law : ∀ e, CoefLaw Config.apInGain tol e (fn e)

/-- COEF_EVAL and COEF_TOL are OPEN: an opaque constant of which nothing but the law is known. The argument only shows
that some function meets the law. -/
opaque Config.coefEvalOf [Inhabited CoefEval] : CoefEval

theorem F32.mag_lt (w : F32) : w.mag < 2 ^ 31 := Nat.mod_lt _ (by decide)

theorem withinUlps_max (w r : F32) : withinUlps (2 ^ 32) w r := by
  have h1 := F32.mag_lt w
  have h2 := F32.mag_lt r
  unfold withinUlps F32.key
  split <;> split <;> omega

/-- Some function meets the law of COEF_EVAL, at a tolerance that spans the format. -/
def CoefEval.trivial : CoefEval :=
  { tol := 2 ^ 32
    fn := fun _ => F32.zero
    law := fun _ => ⟨by decide, withinUlps_max _ _, fun _ => rfl⟩ }

/-- COEF_EVAL of this build (00_scope.md R17). -/
def Config.coefEval : CoefEval := @Config.coefEvalOf ⟨CoefEval.trivial⟩

end Sys2Proof
end

