-- ==== Sys2Proof/Machine/Arith.lean ====
section
/-! DEFINITION. The datapath's three operations, fadd, fsub and fmul (00_scope.md R15), and the NaN they produce. -/

namespace Sys2Proof

/-- The NaN of an arithmetic operation: any NaN, of either sign and with any payload (93_implementation_defined.md 1.9;
a free value, log 5). `site` names the operation that produces it. -/
def F32.freeNaN (site : Site) : F32 :=
  let w : F32 := Config.freeWord site
  w ||| (if w.frac = 0 then 0x7F800001 else 0x7F800000)

/-- fadd: binary32 addition, round to nearest even (00_scope.md R15; log 13). An exact sum of 0 is -0.0 only where both
operands are negative. -/
def F32.add (site : Site) (a b : F32) : F32 :=
  if a.isNaN || b.isNaN then F32.freeNaN site
  else if a.isInf then (if b.isInf && a.sign != b.sign then F32.freeNaN site else a)
  else if b.isInf then b
  else
    let z := a.unitsZ + b.unitsZ
    if z = 0 then F32.ofMag (a.sign && b.sign) 0
    else F32.ofMag (decide (z < 0)) (roundMag z.natAbs 0)

/-- fsub: `a - b` (00_scope.md R15). -/
def F32.sub (site : Site) (a b : F32) : F32 := F32.add site a b.neg

/-- fmul: binary32 multiplication, round to nearest even (00_scope.md R15; log 13). -/
def F32.mul (site : Site) (a b : F32) : F32 :=
  let negative := a.sign != b.sign
  if a.isNaN || b.isNaN then F32.freeNaN site
  else if a.isInf || b.isInf then
    (if a.isZero || b.isZero then F32.freeNaN site else F32.ofMag negative F32.infMag)
  else F32.ofMag negative (roundMag (a.units * b.units) 149)

end Sys2Proof
end

