-- ==== Sys2Proof/Syntax.lean ====
section
/-! DEFINITION. The thirty commands, one constructor per row of spec/opcode_table.json (30_encoding.md R93), and the
transaction that carries one (R90). IDX and IMM16 are numbers; WellFormed.lean says which the encoding can hold. -/

namespace Sys2Proof

/-- CH: 0 = L, 1 = R (30_encoding.md R94). -/
inductive Chan where
  | left
  | right
  deriving DecidableEq, Repr

/-- SEL of an RB command: a comb's ring or an allpass's ring (30_encoding.md R95). -/
inductive RingSel where
  | comb
  | allpass
  deriving DecidableEq, Repr

/-- SEL of a BQ command: a comb's damping filter or the bandpass pair (30_encoding.md R96). -/
inductive FilterSel where
  | damp
  | bandpass
  deriving DecidableEq, Repr

/-- One command with its operand words (30_encoding.md R93). -/
inductive Instr where
  | rbPush (ch : Chan) (sel : RingSel) (idx : Nat) (v : Word)
  | rbRead (ch : Chan) (sel : RingSel) (idx : Nat) (k : Word)
  | rbWrite (ch : Chan) (sel : RingSel) (idx : Nat) (k v : Word)
  | rbSetlen (ch : Chan) (sel : RingSel) (idx : Nat) (n : Word)
  | rbClear (ch : Chan) (sel : RingSel) (idx : Nat)
  | rbStat (ch : Chan) (sel : RingSel) (idx : Nat)
  | bqSetlp (ch : Chan) (sel : FilterSel) (idx : Nat) (cutoffHz bwOct : F32) (fs : Word)
  | bqSethp (ch : Chan) (sel : FilterSel) (idx : Nat) (cutoffHz bwOct : F32) (fs : Word)
  | bqSetpk (ch : Chan) (sel : FilterSel) (idx : Nat) (freqHz gainDb bwOct : F32) (fs : Word)
  | bqReset (ch : Chan) (sel : FilterSel) (idx : Nat)
  | bqProc (ch : Chan) (sel : FilterSel) (idx : Nat) (x : F32)
  | bqLdcoef (ch : Chan) (sel : FilterSel) (idx : Nat) (b0 b1 b2 a1 a2 : F32)
  | bqRdcoef (ch : Chan) (sel : FilterSel) (idx : Nat)
  | bqRdhist (ch : Chan) (sel : FilterSel) (idx : Nat)
  | cfCfg (ch : Chan) (idx : Nat) (delay : Word) (pct cutoffHz bwOct : F32) (fs : Word)
  | cfSetg (ch : Chan) (idx : Nat) (g : F32)
  | cfProc (ch : Chan) (idx : Nat) (x : Word)
  | cfRdstate (ch : Chan) (idx : Nat)
  | apCfg (ch : Chan) (idx : Nat) (delay : Word) (pct : F32)
  | apSetg (ch : Chan) (idx : Nat) (gin g : F32)
  | apProc (ch : Chan) (idx : Nat) (x : Word)
  | apRdstate (ch : Chan) (idx : Nat)
  | engConfig (fs : Word)
  | engActivate
  | engProcess (n : Nat)
  | engCleanup
  | engCsrr (addr : Nat)
  | engCsrw (addr : Nat) (v : Word)
  | memRd (space addr : Nat)
  | memWr (space addr : Nat) (w : Word)
  deriving DecidableEq, Repr

/-- What the host delivers: a command word, and operand words whose count the link carries (30_encoding.md R90). -/
structure Transaction where
  cmd : Word
  ops : List Word
  deriving DecidableEq, Repr

/-- The pseudo-instructions (30_encoding.md R108). -/
inductive Pseudo where
  | rbPeek (ch : Chan) (sel : RingSel) (idx : Nat)
  | engSetmode (m : Word)
  | engSetflags (v : Word)
  | engSetdecay (t : F32)
  | engClrerr
  | engStatus
  deriving DecidableEq, Repr

end Sys2Proof
end

