-- ==== Sys2Proof/Machine/State.lean ====
section
/-! DEFINITION. The state of the block (10_state.md, 20_memory.md), the reasons a step can stop, and reset. -/

namespace Sys2Proof.Machine

/-- What a ring slot that is not listed reads as (40_ring_buffer.md R124; 10_state.md R47). -/
inductive Fill where
  /-- the ring has been cleared: 0x00000000 -/
  | zero
  /-- the storage is unspecified: one free value per slot (log 7) -/
  | unspecified (site : Site)
  deriving DecidableEq, Repr

/-- The storage of one ring (10_state.md R27): the slots that differ from the fill, by rising index. -/
structure RingStore where
  cells : List Cell
  fill : Fill
  deriving DecidableEq, Repr

/-- A ring buffer (10_state.md R27). -/
structure Ring where
  stor : RingStore
  cursor : Word
  len : Word
  deriving DecidableEq, Repr

/-- A biquad: five coefficients and four words of history (10_state.md R28). -/
structure Biquad where
  b0 : F32
  b1 : F32
  b2 : F32
  a1 : F32
  a2 : F32
  x1 : F32
  x2 : F32
  y1 : F32
  y2 : F32
  deriving DecidableEq, Repr

/-- A comb with its ring `RB[ch][c i]` and its damping filter `BQ[ch][d i]` (10_state.md R29). -/
structure Comb where
  ring : Ring
  damp : Biquad
  g : F32
  last : Word
  pct : F32
  bright : F32
  base : Word
  deriving DecidableEq, Repr

/-- An allpass with its ring `RB[ch][a j]` (10_state.md R30). -/
structure Allpass where
  ring : Ring
  gin : F32
  g : F32
  last : Word
  pct : F32
  base : Word
  deriving DecidableEq, Repr

/-- All the instances of one channel (10_state.md R23): MAX_COMBS combs, MAX_APS allpasses, the bandpass pair. -/
structure Channel where
  combs : List Comb
  aps : List Allpass
  lp : Biquad
  hp : Biquad
  deriving DecidableEq, Repr

/-- estate: three values, the fourth never occurs (10_state.md R22). -/
inductive EngineState where
  | uninit
  | configured
  | running
  deriving DecidableEq, Repr

/-- A response: the response word and its data words (30_encoding.md R102). -/
structure Response where
  word : Word
  data : List Word
  deriving DecidableEq, Repr

/-- The whole machine. INVENTORY.md lists each field with the rule that names it. -/
structure State where
  params : Params
  estate : EngineState
  errCode : BitVec 8
  fs : Word
  recomputeCount : Word
  nC : Word
  nA : Word
  cacheT : F32
  cacheS : Bool
  cacheM : Word
  decayMs : Word
  dryDb : Word
  wetDb : Word
  flags : BitVec 4
  mode : Word
  chL : Channel
  chR : Channel
  inL : List Cell
  inR : List Cell
  outL : List Cell
  outR : List Cell
  link : List Transaction
  responses : List Response
  freeCtr : Nat
  deriving DecidableEq, Repr

/-- A sample bank (20_memory.md R60). -/
inductive BankId where
  | inL
  | inR
  | outL
  | outR
  deriving DecidableEq, Repr

/-- The model fault the spec names: it is not an error code (20_memory.md R67, 60_exceptions.md R310). -/
inductive Fault where
  /-- MEM.RD, or ENG.PROCESS at an input bank, reads a bank word that nothing has written since reset: the word holds no
  value and the model supplies none. Safe: the spec gives no value and asks for this fault. -/
  | unwrittenSample (bank : BankId) (addr : Nat)
  deriving DecidableEq, Repr

/-- Reasons to have no meaning for an instruction. -/
inductive Refusal where
  /-- Raised by an arm of `exec` whose instruction has no meaning yet; no arm raises it now. Safe: nothing is claimed of
  such an instruction. -/
  | notModelled (mnemonic : String)
  deriving DecidableEq, Repr

/-- What a step answers. -/
abbrev Result := Host.Outcome State Fault Refusal

/-- A biquad with every field +0.0 (DESIGN CHOICE at reset, log 6). -/
def Biquad.zero : Biquad := ⟨0, 0, 0, 0, 0, 0, 0, 0, 0⟩

/-- A ring right after reset: its storage is unspecified (10_state.md R48); cursor and length are DESIGN CHOICE (log 6). -/
def Ring.afterReset (site : Site) : Ring := { stor := ⟨[], .unspecified site⟩, cursor := 0, len := 0 }

/-- A comb right after reset (DESIGN CHOICE, log 6). -/
def Comb.afterReset (site : Site) : Comb :=
  { ring := Ring.afterReset site, damp := Biquad.zero, g := 0, last := 0, pct := 0, bright := 0, base := 0 }

/-- An allpass right after reset (DESIGN CHOICE, log 6). -/
def Allpass.afterReset (site : Site) : Allpass :=
  { ring := Ring.afterReset site, gin := 0, g := 0, last := 0, pct := 0, base := 0 }

/-- The instances of a channel right after reset: MAX_COMBS combs and MAX_APS allpasses (10_state.md R23, R48). -/
def Channel.afterReset (p : Params) (ch : Nat) : Channel :=
  { combs := (List.range p.maxCombs).map fun i => Comb.afterReset [0, i, ch, 0]
    aps := (List.range p.maxAps).map fun j => Allpass.afterReset [1, j, ch, 0]
    lp := Biquad.zero
    hp := Biquad.zero }

/-- Power-on reset of a block built with the parameters `p` (10_state.md R48, 70_reset_and_hazards.md R340, R341). -/
def State.resetOf (p : Params) : State :=
  { params := p
    estate := .uninit
    errCode := 0
    fs := 0
    recomputeCount := 0
    nC := 0
    nA := 0
    cacheT := 0
    cacheS := false
    cacheM := 0
    decayMs := 0
    dryDb := 0
    wetDb := 0
    flags := 0
    mode := 0
    chL := Channel.afterReset p 0
    chR := Channel.afterReset p 1
    inL := []
    inR := []
    outL := []
    outR := []
    link := []
    responses := []
    freeCtr := 1 }

/-- PRESET_ROM of the record TC (95_test_vectors.md 0.2): one mode, one comb. -/
def romTC : List Word :=
  [1, 0, 0x42C80000, 0x43C80000, 0x40000000, 0x42960000, 0x3F000000] ++ List.replicate 37 0

/-- The parameter record TC of 95_test_vectors.md 0.2, with a value for every OPEN parameter that meets its premises
(DESIGN CHOICE, log 1). -/
def paramsTC : Params :=
  { maxCombs := 8
    maxAps := 8
    numModes := 1
    rom := romTC
    rbCap := 4096
    fsMax := 192000
    blockMax := 16
    numeric := .float
    atten := .exact ⟨1, 1000⟩
    combK := .exact ⟨1000, 1⟩
    combFbExp := .exact ⟨89, 100⟩
    cBright := .exact ⟨1, 10⟩
    kAp := .exact ⟨1500, 1⟩
    apFbExp := .exact ⟨88, 100⟩
    stereoRatio := .exact ⟨5, 4⟩
    dampBw := .exact ⟨3, 2⟩
    bpBw := .exact ⟨2, 1⟩
    decayMin := 0x42C80000
    decayMax := 0x461C4000
    levelMin := 0xC28C0000
    levelMax := 0x41200000
    dampTable := [(0x3F000000, 1000, 0x437A0000), (0x3F000000, 44100, 0x459C4000), (0x3F000000, 192000, 0x469C4000)]
    dbTable := [] }

/-- The machine right after reset, built with the record TC (DESIGN CHOICE, log 1; State.resetOf takes any record). -/
def State.reset : State := State.resetOf paramsTC

end Sys2Proof.Machine
end

