-- ==== Sys2Proof/Machine/Ops.lean ====
section
/-! DEFINITION. The shared operations: word memories, rings (40_ring_buffer.md section 1), sample banks (20_memory.md),
and the two ways a command ends, `raise` and `respond` (60_exceptions.md R301, 30_encoding.md R102). The block has no
traps, so there is no exception entry and no return from one (60_exceptions.md R304, R306). -/

namespace Sys2Proof.Machine

/-! ## Lists of cells in rising order of address -/

/-- The word listed at an address. -/
def findCell : List Cell → Nat → Option Word
  | [], _ => none
  | (b, w) :: cs, a => if b = a then some w else findCell cs a

/-- List `w` at `a`, in its place. -/
def putCell : List Cell → Nat → Word → List Cell
  | [], a, w => [(a, w)]
  | (b, v) :: cs, a, w =>
    if a < b then (a, w) :: (b, v) :: cs
    else if a = b then (a, w) :: cs
    else (b, v) :: putCell cs a w

/-- Unlist `a`. -/
def dropCell : List Cell → Nat → List Cell
  | [], _ => []
  | (b, v) :: cs, a => if b = a then dropCell cs a else (b, v) :: dropCell cs a

/-- The addresses strictly rise from above `lo`. -/
def risingFrom : Nat → List Cell → Bool
  | _, [] => true
  | lo, (b, _) :: cs => decide (lo ≤ b) && risingFrom (b + 1) cs

/-- Every address is below the size of the space (20_memory.md R62). -/
def belowSize (size : Nat) (cs : List Cell) : Bool := cs.all fun c => decide (c.1 < size)

/-! ## Sample banks (20_memory.md R60, R61, R67) -/

/-- The cells of a bank. -/
def State.bank (s : State) : BankId → List Cell
  | .inL => s.inL
  | .inR => s.inR
  | .outL => s.outL
  | .outR => s.outR

/-- The state with a bank's cells replaced. -/
def State.setBank (s : State) : BankId → List Cell → State
  | .inL, cs => { s with inL := cs }
  | .inR, cs => { s with inR := cs }
  | .outL, cs => { s with outL := cs }
  | .outR, cs => { s with outR := cs }

/-- MemRead of a bank word (20_memory.md R62). A word that nothing has written since reset holds no value: this is the one
definition of what an unlisted bank address reads as (R67). -/
def State.readBank (s : State) (b : BankId) (a : Nat) : Option Word := findCell (s.bank b) a

/-- MemWrite of a bank word (20_memory.md R62). -/
def State.writeBank (s : State) (b : BankId) (a : Nat) (w : Word) : State := s.setBank b (putCell (s.bank b) a w)

/-- The canonical form of a bank's memory: addresses strictly rising and inside the bank. (No listed word can equal what an
unlisted one reads as, which is no value.) -/
def bankWf (p : Params) (cs : List Cell) : Bool := risingFrom 0 cs && belowSize p.blockMax cs

/-! ## Ring storage (10_state.md R27, 20_memory.md R75) -/

/-- What an unlisted slot of a ring reads as: the one definition of it (40_ring_buffer.md R124; log 7). -/
def Fill.word : Fill → Nat → Word
  | .zero, _ => 0
  | .unspecified site, a => Config.freeWord (a :: site)

/-- The word in a slot. -/
def RingStore.read (m : RingStore) (a : Nat) : Word :=
  match findCell m.cells a with
  | some w => w
  | none => m.fill.word a

/-- Put a word in a slot; a word equal to what the unlisted slot reads as is not listed. -/
def RingStore.write (m : RingStore) (a : Nat) (w : Word) : RingStore :=
  { m with cells := if w = m.fill.word a then dropCell m.cells a else putCell m.cells a w }

/-- The canonical form of a ring's storage: slots strictly rising, inside the capacity, and none equal to what the unlisted
slot reads as. -/
def RingStore.wf (rbCap : Nat) (m : RingStore) : Bool :=
  risingFrom 0 m.cells && belowSize rbCap m.cells && m.cells.all fun c => decide (c.2 ≠ m.fill.word c.1)

/-- Every slot 0x00000000. -/
def RingStore.cleared : RingStore := ⟨[], .zero⟩

/-! ## The ring primitives (40_ring_buffer.md section 1) -/

/-- `rb_push`: the ring after a push, and the word the slot held before it (40_ring_buffer.md R121). -/
def Ring.push (r : Ring) (w : Word) : Ring × Word :=
  ({ r with
      stor := r.stor.write r.cursor.toNat w
      cursor := BitVec.ofNat 32 ((r.cursor.toNat + 1) % r.len.toNat) },
    r.stor.read r.cursor.toNat)

/-- `rb_slot`: the slot of the word written `k` pushes before the most recent one, `k` clamped (40_ring_buffer.md R122). -/
def Ring.slot (r : Ring) (k : Word) : Nat :=
  let k' := min k.toNat (r.len.toNat - 1)
  (((r.cursor.toNat : Int) - 1 - (k' : Int)) % (r.len.toNat : Int)).toNat

/-- The word `k` steps back (40_ring_buffer.md R126). -/
def Ring.readBack (r : Ring) (k : Word) : Word := r.stor.read (r.slot k)

/-- The ring with the word `k` steps back replaced (40_ring_buffer.md R127). -/
def Ring.writeBack (r : Ring) (k v : Word) : Ring := { r with stor := r.stor.write (r.slot k) v }

/-- `rb_setlen`: storage untouched, a cursor at or beyond the new length becomes 0 (40_ring_buffer.md R123). -/
def Ring.setLen (r : Ring) (n : Word) : Ring :=
  { r with len := n, cursor := if n ≤ r.cursor then 0 else r.cursor }

/-- `rb_clear`: every slot and the cursor 0, the length unchanged (40_ring_buffer.md R124). -/
def Ring.clear (r : Ring) : Ring := { r with stor := RingStore.cleared, cursor := 0 }

/-- The invariant of a defined ring: 1 ≤ len ≤ RB_CAP and cursor < len (10_state.md R27), its storage in canonical form. -/
def Ring.wf (rbCap : Nat) (r : Ring) : Bool :=
  decide (1 ≤ r.len.toNat) && decide (r.len.toNat ≤ rbCap) && decide (r.cursor.toNat < r.len.toNat) &&
    r.stor.wf rbCap

/-! ## How a command ends -/

/-- The error codes (60_exceptions.md R300). -/
inductive ErrorCode where
  | illegalCmd
  | badState
  | indexRange
  | csrAddr
  | readOnly
  | invalidDelay
  | capacity
  | sampleRate
  | modeRange
  | badParam
  | presetInvalid
  | blockSize
  deriving DecidableEq, Repr

/-- The value of a code (60_exceptions.md R300). -/
def ErrorCode.value : ErrorCode → BitVec 8
  | .illegalCmd => 0x01
  | .badState => 0x02
  | .indexRange => 0x03
  | .csrAddr => 0x04
  | .readOnly => 0x05
  | .invalidDelay => 0x06
  | .capacity => 0x07
  | .sampleRate => 0x08
  | .modeRange => 0x09
  | .badParam => 0x0A
  | .presetInvalid => 0x0B
  | .blockSize => 0x0C

/-- The response of a failing command: the code and no data words (30_encoding.md R102). -/
def ErrorCode.response (e : ErrorCode) : Response := ⟨e.value.zeroExtend 32, []⟩

/-- The response of a successful command: status OK and the data words (30_encoding.md R102). -/
def okResponse (data : List Word) : Response := ⟨0, data⟩

/-- `raise Error(code)`: nothing changes but the sticky `err_code`, set if it was 0 (60_exceptions.md R301, R303). -/
def State.raise (s : State) (e : ErrorCode) : State :=
  { s with
    errCode := if s.errCode = 0 then e.value else s.errCode
    responses := e.response :: s.responses }

/-- `respond(d1, ..., dk)`: status OK with the data words (30_encoding.md R102). -/
def State.respond (s : State) (data : List Word) : State := { s with responses := okResponse data :: s.responses }

/-- A command that fails with a code. -/
def failWith (s : State) (e : ErrorCode) : Result := .next (s.raise e)

/-- A command that succeeds with data words. -/
def succeed (s : State) (data : List Word) : Result := .next (s.respond data)

/-- The state with the counter of free values moved on (log 5). -/
def State.bumpFree (s : State) : State := { s with freeCtr := s.freeCtr + 1 }

end Sys2Proof.Machine
end

