-- ==== Sys2Proof/Machine/Flags.lean ====
section
/-! DEFINITION. The block's flags (10_state.md R45): the bits of FLAGS and STATUS. It has no arithmetic condition codes and
records no floating-point exception (R45, R46), so no command computes any other flag. -/

namespace Sys2Proof.Machine

/-- FLAGS bit 0 (10_state.md R41). -/
def State.combsEn (s : State) : Bool := s.flags.getLsbD 0

/-- FLAGS bit 1 (10_state.md R41). -/
def State.apsEn (s : State) : Bool := s.flags.getLsbD 1

/-- FLAGS bit 2 (10_state.md R41). -/
def State.bpEn (s : State) : Bool := s.flags.getLsbD 2

/-- FLAGS bit 3 (10_state.md R41). -/
def State.stereoEn (s : State) : Bool := s.flags.getLsbD 3

/-- The encoding of estate (10_state.md R22). -/
def EngineState.code : EngineState → BitVec 2
  | .uninit => 0
  | .configured => 1
  | .running => 2

/-- STATUS: STATE in bits 1:0, ERR_CODE in bits 15:8, all other bits 0 (10_state.md R37). -/
def State.statusWord (s : State) : Word :=
  (s.errCode.zeroExtend 32 <<< 8) ||| s.estate.code.zeroExtend 32

end Sys2Proof.Machine
end

