-- ==== Sys2Proof/Machine/Operands.lean ====
section
/-! DEFINITION. How operands are read: the sample-word conversions (10_state.md R25), the instance a command selects
(30_encoding.md R94 to R98), and the checks every unit command makes first (60_exceptions.md R302). -/

namespace Sys2Proof.Machine

/-! ## Sample words (10_state.md R24 to R26) -/

/-- The binary32 value of a signed integer scaled by 2^-frac, rounded to nearest even (10_state.md R25). The word 0 gives
+0.0: R25 names no sign for it (DESIGN CHOICE, log 20). -/
def fixedToF32 (frac : Nat) (w : Word) : F32 :=
  F32.ofMag (decide (w.toInt < 0)) (roundMag (w.toInt.natAbs * 2 ^ (149 - frac)) 0)

/-- A value scaled by 2^frac, rounded half even and clamped to a `width`-bit signed range (10_state.md R25). -/
def f32ToFixed (width frac : Nat) (v : F32) : Word :=
  let top : Int := 2 ^ (width - 1) - 1
  let bottom : Int := -(2 ^ (width - 1))
  if v.isNaN then 0
  else if v.isInf then BitVec.ofInt 32 (if v.sign then bottom else top)
  else
    let n : Int := roundHalfEven (v.units * 2 ^ frac) 149
    BitVec.ofInt 32 (min (max (if v.sign then -n else n) bottom) top)

/-- S2F: the binary32 value of a sample word (10_state.md R25). -/
def Params.s2f (p : Params) (w : Word) : F32 :=
  match p.numeric with
  | .float => w
  | .fixed _ frac => fixedToF32 frac w

/-- F2S: the sample word of a binary32 value (10_state.md R25). -/
def Params.f2s (p : Params) (v : F32) : Word :=
  match p.numeric with
  | .float => v
  | .fixed w frac => f32ToFixed w frac v

/-! ## Instances (30_encoding.md R94 to R97) -/

/-- The instances of a channel (30_encoding.md R94). -/
def State.chan (s : State) : Chan → Channel
  | .left => s.chL
  | .right => s.chR

/-- The state with a channel's instances replaced. -/
def State.setChan (s : State) : Chan → Channel → State
  | .left, c => { s with chL := c }
  | .right, c => { s with chR := c }

/-- What a lookup gives past the end of a channel's combs; no state of a built block has it looked at (log 18). -/
def Comb.absent : Comb := Comb.afterReset [0]

/-- What a lookup gives past the end of a channel's allpasses; no state of a built block has it looked at
(log 18). -/
def Allpass.absent : Allpass := Allpass.afterReset [0]

/-- `CF[ch][i]` (30_encoding.md R97). -/
def Channel.comb (c : Channel) (i : Nat) : Comb := c.combs.getD i Comb.absent

/-- `AP[ch][j]` (30_encoding.md R97). -/
def Channel.ap (c : Channel) (j : Nat) : Allpass := c.aps.getD j Allpass.absent

/-- The channel with one comb replaced. -/
def Channel.setComb (c : Channel) (i : Nat) (x : Comb) : Channel := { c with combs := c.combs.set i x }

/-- The channel with one allpass replaced. -/
def Channel.setAp (c : Channel) (j : Nat) (x : Allpass) : Channel := { c with aps := c.aps.set j x }

/-- The ring an RB command selects (30_encoding.md R95). -/
def Channel.ring (c : Channel) : RingSel → Nat → Ring
  | .comb, i => (c.comb i).ring
  | .allpass, j => (c.ap j).ring

/-- The channel with that ring replaced. -/
def Channel.setRing (c : Channel) : RingSel → Nat → Ring → Channel
  | .comb, i, r => c.setComb i { c.comb i with ring := r }
  | .allpass, j, r => c.setAp j { c.ap j with ring := r }

/-- The filter a BQ command selects (30_encoding.md R96). -/
def Channel.filter (c : Channel) : FilterSel → Nat → Biquad
  | .damp, i => (c.comb i).damp
  | .bandpass, i => if i = 0 then c.lp else c.hp

/-- The channel with that filter replaced. -/
def Channel.setFilter (c : Channel) : FilterSel → Nat → Biquad → Channel
  | .damp, i, q => c.setComb i { c.comb i with damp := q }
  | .bandpass, i, q => if i = 0 then { c with lp := q } else { c with hp := q }

/-- `RB[ch][r]`. -/
def State.ring (s : State) (ch : Chan) (sel : RingSel) (idx : Nat) : Ring := (s.chan ch).ring sel idx

/-- The state with `RB[ch][r]` replaced. -/
def State.setRing (s : State) (ch : Chan) (sel : RingSel) (idx : Nat) (r : Ring) : State :=
  s.setChan ch ((s.chan ch).setRing sel idx r)

/-- `BQ[ch][q]`. -/
def State.filter (s : State) (ch : Chan) (sel : FilterSel) (idx : Nat) : Biquad := (s.chan ch).filter sel idx

/-- The state with `BQ[ch][q]` replaced. -/
def State.setFilter (s : State) (ch : Chan) (sel : FilterSel) (idx : Nat) (q : Biquad) : State :=
  s.setChan ch ((s.chan ch).setFilter sel idx q)

/-- `CF[ch][i]`. -/
def State.comb (s : State) (ch : Chan) (idx : Nat) : Comb := (s.chan ch).comb idx

/-- The state with `CF[ch][i]` replaced. -/
def State.setComb (s : State) (ch : Chan) (idx : Nat) (c : Comb) : State := s.setChan ch ((s.chan ch).setComb idx c)

/-- `AP[ch][j]`. -/
def State.ap (s : State) (ch : Chan) (idx : Nat) : Allpass := (s.chan ch).ap idx

/-- The state with `AP[ch][j]` replaced. -/
def State.setAp (s : State) (ch : Chan) (idx : Nat) (a : Allpass) : State := s.setChan ch ((s.chan ch).setAp idx a)

/-- The index check of an RB command (30_encoding.md R95). -/
def Params.hasRing (p : Params) : RingSel → Nat → Bool
  | .comb, i => decide (i < p.maxCombs)
  | .allpass, j => decide (j < p.maxAps)

/-- The index check of a BQ command (30_encoding.md R96). -/
def Params.hasFilter (p : Params) : FilterSel → Nat → Bool
  | .damp, i => decide (i < p.maxCombs)
  | .bandpass, i => decide (i < 2)

/-- The index check of a CF command (30_encoding.md R97). -/
def Params.hasComb (p : Params) (i : Nat) : Bool := decide (i < p.maxCombs)

/-- The index check of an AP command (30_encoding.md R97). -/
def Params.hasAp (p : Params) (j : Nat) : Bool := decide (j < p.maxAps)

/-- The checks every RB, BQ, CF and AP command makes before its own: RUNNING, else BAD_STATE, then the instance index, else
INDEX_RANGE (40_ring_buffer.md R120, 41_biquad.md R141, 42_comb.md R170, 43_allpass.md R190; 60_exceptions.md R302). -/
def unitCommand (s : State) (inRange : Bool) (body : Result) : Result :=
  if s.estate ≠ .running then failWith s .badState
  else if inRange = false then failWith s .indexRange
  else body

/-- A command whose own checks gave a code fails with it; otherwise it goes on (60_exceptions.md R301). -/
def checked (s : State) (check : Option ErrorCode) (body : Result) : Result :=
  match check with
  | some e => failWith s e
  | none => body

/-- The first check that fails, in order (60_exceptions.md R302). -/
def firstError : List (Option ErrorCode) → Option ErrorCode
  | [] => none
  | some e :: _ => some e
  | none :: cs => firstError cs

/-- A check: the code where the condition does not hold. -/
def require (ok : Bool) (e : ErrorCode) : Option ErrorCode := if ok then none else some e

end Sys2Proof.Machine
end

