-- ==== Sys2Proof/Machine/Coefficients.lean ====
section
/-! DEFINITION. Coefficient derivation (44_coefficients.md), the filter designs (41_biquad.md R144 to R149), the ROM
layout and the validity of a mode (20_memory.md R70 to R74), and the well-formedness of a parameter record
(00_scope.md R11, R12). -/

namespace Sys2Proof.Machine

/-! ## The coefficient ROM (20_memory.md section 3) -/

/-- REC_WORDS (20_memory.md R70). -/
def Params.recWords (p : Params) : Nat := 4 + 3 * p.maxCombs + 2 * p.maxAps

/-- The size of the ROM in words (20_memory.md R60). -/
def Params.romSize (p : Params) : Nat := p.numModes * p.recWords

/-- MemRead of the ROM (20_memory.md R68; log 18). -/
def Params.romRead (p : Params) (a : Nat) : Word := p.rom.getD a 0

/-- `rom(m, off)` (20_memory.md R71). -/
def Params.romAt (p : Params) (m off : Nat) : Word := p.romRead (m * p.recWords + off)

/-- nComb of a mode (20_memory.md R72). -/
def Params.nComb (p : Params) (m : Nat) : Word := p.romAt m 0

/-- nAp of a mode (20_memory.md R72). -/
def Params.nAp (p : Params) (m : Nat) : Word := p.romAt m 1

/-- bpLowHz of a mode (20_memory.md R72). -/
def Params.bpLowHz (p : Params) (m : Nat) : F32 := p.romAt m 2

/-- bpHighHz of a mode (20_memory.md R72). -/
def Params.bpHighHz (p : Params) (m : Nat) : F32 := p.romAt m 3

/-- comb[i].delayMs of a mode (20_memory.md R72). -/
def Params.combDelay (p : Params) (m i : Nat) : F32 := p.romAt m (4 + 3 * i)

/-- comb[i].pct of a mode (20_memory.md R72). -/
def Params.combPct (p : Params) (m i : Nat) : F32 := p.romAt m (5 + 3 * i)

/-- comb[i].bright of a mode (20_memory.md R72). -/
def Params.combBright (p : Params) (m i : Nat) : F32 := p.romAt m (6 + 3 * i)

/-- ap[j].delayMs of a mode (20_memory.md R72). -/
def Params.apDelay (p : Params) (m j : Nat) : F32 := p.romAt m (4 + 3 * p.maxCombs + 2 * j)

/-- ap[j].pct of a mode (20_memory.md R72). -/
def Params.apPct (p : Params) (m j : Nat) : F32 := p.romAt m (5 + 3 * p.maxCombs + 2 * j)

/-! ## Lengths (44_coefficients.md section 4) -/

/-- `base_len`: floor(delayMs · fs / 1000) over the reals (44_coefficients.md R219); 0 for a delay that is not a finite
positive number, which no valid mode has (log 12). -/
def baseLen (delayMs : F32) (fs : Nat) : Nat :=
  if delayMs.isFinite && delayMs.isPos then delayMs.units * fs / (1000 * 2 ^ 149) else 0

/-- floor(b · STEREO_RATIO) (44_coefficients.md R220). -/
def Params.scaleLen (p : Params) (b : Nat) : Nat := p.stereoRatio.floorMul b

/-- `stereo_len` (44_coefficients.md R220). -/
def Params.stereoLen (p : Params) (b i : Nat) (ch : Chan) (s : Bool) : Nat :=
  if s && ((decide (i % 2 = 0) && decide (ch = .right)) || (decide (i % 2 = 1) && decide (ch = .left)))
  then p.scaleLen b else b

/-! ## Filter designs (41_biquad.md R144 to R149) -/

/-- A bandwidth in octaves: an operand word, or a parameter of the configuration (44_coefficients.md R218, R223). -/
inductive Bandwidth where
  | operand (w : F32)
  | param (r : RealParam)
  deriving DecidableEq, Repr

/-- The bandwidth is finite (41_biquad.md R144); a parameter always is (00_scope.md R10). -/
def Bandwidth.isFinite : Bandwidth → Bool
  | .operand w => w.isFinite
  | .param _ => true

/-- The bandwidth is above 0 (41_biquad.md R144). -/
def Bandwidth.isPos : Bandwidth → Bool
  | .operand w => w.isPos
  | .param r => r.isPos

/-- The exact real value of a bandwidth. -/
def Bandwidth.formula : Bandwidth → RealFormula
  | .operand w => .value w
  | .param r => .param r

/-- `f0 < fs / 2` over the reals, for a finite `f0` (41_biquad.md R144). -/
def belowNyquist (f0 : F32) (fs : Nat) : Bool := decide (2 * f0.unitsZ < (fs : Int) * 2 ^ 149)

/-- `DesignOK(f0, bw, fs)`: its first failing check (41_biquad.md R144). -/
def Params.designCheck (p : Params) (f0 : F32) (bw : Bandwidth) (fs : Nat) : Option ErrorCode :=
  firstError
    [ require (decide (1 ≤ fs) && decide (fs ≤ p.fsMax)) .sampleRate,
      require (f0.isFinite && bw.isFinite) .badParam,
      require (f0.isPos && belowNyquist f0 fs) .badParam,
      require bw.isPos .badParam ]

/-- The formulas of the five coefficients of a design (41_biquad.md R146 to R148). -/
structure Design where
  b0 : RealFormula
  b1 : RealFormula
  b2 : RealFormula
  a1 : RealFormula
  a2 : RealFormula
  deriving DecidableEq, Repr

/-- w0 = 2·π·f0 / fs (41_biquad.md R145). -/
def designW0 (f0 : F32) (fs : Nat) : RealFormula := .div (.mul (.mul (.nat 2) .pi) (.value f0)) (.nat fs)

/-- alpha = sin(w0) · sinh((ln 2 / 2) · bw · w0 / sin(w0)) (41_biquad.md R145). -/
def designAlpha (f0 : F32) (bw : Bandwidth) (fs : Nat) : RealFormula :=
  let w0 := designW0 f0 fs
  .mul (.sin w0)
    (.sinh (.div (.mul (.mul (.div (.ln (.nat 2)) (.nat 2)) bw.formula) w0) (.sin w0)))

/-- The low-pass design (41_biquad.md R146). -/
def lowPass (f0 : F32) (bw : Bandwidth) (fs : Nat) : Design :=
  let c : RealFormula := .cos (designW0 f0 fs)
  let alpha := designAlpha f0 bw fs
  let a0 : RealFormula := .add (.nat 1) alpha
  { b0 := .div (.div (.sub (.nat 1) c) (.nat 2)) a0
    b1 := .div (.sub (.nat 1) c) a0
    b2 := .div (.div (.sub (.nat 1) c) (.nat 2)) a0
    a1 := .div (.mul (.neg (.nat 2)) c) a0
    a2 := .div (.sub (.nat 1) alpha) a0 }

/-- The high-pass design (41_biquad.md R147). -/
def highPass (f0 : F32) (bw : Bandwidth) (fs : Nat) : Design :=
  let c : RealFormula := .cos (designW0 f0 fs)
  let alpha := designAlpha f0 bw fs
  let a0 : RealFormula := .add (.nat 1) alpha
  { b0 := .div (.div (.add (.nat 1) c) (.nat 2)) a0
    b1 := .div (.neg (.add (.nat 1) c)) a0
    b2 := .div (.div (.add (.nat 1) c) (.nat 2)) a0
    a1 := .div (.mul (.neg (.nat 2)) c) a0
    a2 := .div (.sub (.nat 1) alpha) a0 }

/-- The peaking design (41_biquad.md R148). -/
def peaking (f0 gainDb : F32) (bw : Bandwidth) (fs : Nat) : Design :=
  let c : RealFormula := .cos (designW0 f0 fs)
  let alpha := designAlpha f0 bw fs
  let a : RealFormula := .pow (.nat 10) (.div (.value gainDb) (.nat 40))
  let a0 : RealFormula := .add (.nat 1) (.div alpha a)
  { b0 := .div (.add (.nat 1) (.mul alpha a)) a0
    b1 := .div (.mul (.neg (.nat 2)) c) a0
    b2 := .div (.sub (.nat 1) (.mul alpha a)) a0
    a1 := .div (.mul (.neg (.nat 2)) c) a0
    a2 := .div (.sub (.nat 1) (.div alpha a)) a0 }

/-- COEF_EVAL (00_scope.md R17). -/
def coefEval (e : RealFormula) : F32 := Config.coefEval.fn e

/-- Store a design: the five coefficients become COEF_EVAL of their formulas, the history is untouched (41_biquad.md R149). -/
def Biquad.store (q : Biquad) (d : Design) : Biquad :=
  { q with b0 := coefEval d.b0, b1 := coefEval d.b1, b2 := coefEval d.b2, a1 := coefEval d.a1, a2 := coefEval d.a2 }

/-! ## Gains (44_coefficients.md section 2) -/

/-- `(pct/100)^exponent` (44_coefficients.md R212, R213). -/
def percentPower (pct : F32) (exponent : RealParam) : RealFormula :=
  .pow (.div (.value pct) (.nat 100)) (.param exponent)

/-- `comb_gain(L, pct, f, T, fs)` (44_coefficients.md R212). -/
def Params.combGain (p : Params) (len : Nat) (pct bright t : F32) (fs : Nat) : F32 :=
  coefEval
    (.pow (.param p.atten)
      (.div
        (.div
          (.div
            (.mul (.mul (.param p.combK) (.nat len)) (.add (.nat 1) (.mul (.param p.cBright) (.value bright))))
            (percentPower pct p.combFbExp))
          (.value t))
        (.nat fs)))

/-- `ap_gain(L, pct, T, fs)` (44_coefficients.md R213). -/
def Params.apGain (p : Params) (len : Nat) (pct t : F32) (fs : Nat) : F32 :=
  coefEval
    (.pow (.param p.atten)
      (.div (.div (.div (.mul (.param p.kAp) (.nat len)) (percentPower pct p.apFbExp)) (.value t)) (.nat fs)))

/-- `ap_in_gain(T)` (44_coefficients.md R214). -/
def apInGain (t : F32) : F32 := coefEval (.apInGain (.value t))

/-! ## OPEN functions at the points a configuration names (log 3) -/

/-- DAMP_CUTOFF (44_coefficients.md R218). -/
def Params.dampCutoff (p : Params) (bright : F32) (fs : Nat) : F32 :=
  match p.dampTable.find? fun r => decide (r.1 = bright) && decide (r.2.1 = fs) with
  | some r => r.2.2
  | none => Config.dampCutoff bright fs

/-- DB2LIN, with its one law: ±0 gives 1.0 exactly (44_coefficients.md R224). -/
def Params.db2lin (p : Params) (v : F32) : F32 :=
  if v.isZero then F32.one
  else match p.dbTable.find? fun r => decide (r.1 = v) with
    | some r => r.2
    | none => Config.db2lin v

/-! ## The clamped controls (10_state.md R44) -/

/-- `clampT()` (10_state.md R44, 44_coefficients.md R211). -/
def State.clampT (s : State) : F32 := F32.clamp s.decayMs s.params.decayMin s.params.decayMax

/-- `clampL` of a level (10_state.md R44). -/
def Params.clampLevel (p : Params) (v : F32) : F32 := F32.clamp v p.levelMin p.levelMax

/-- The dry gain (44_coefficients.md R224). -/
def State.dryGain (s : State) : F32 := s.params.db2lin (s.params.clampLevel s.dryDb)

/-- The wet gain (44_coefficients.md R224). -/
def State.wetGain (s : State) : F32 := s.params.db2lin (s.params.clampLevel s.wetDb)

/-! ## Validity of a mode (20_memory.md R74) -/

/-- Check 1: the line counts. -/
def Params.countCheck (p : Params) (m : Nat) : Option ErrorCode :=
  require (decide ((p.nComb m).toNat ≤ p.maxCombs) && decide ((p.nAp m).toNat ≤ p.maxAps)) .presetInvalid

/-- A positive finite binary32 value. -/
def finitePos (w : F32) : Bool := w.isFinite && w.isPos

/-- Check 2 of one comb: finite values, delayMs > 0, pct > 0, 0 ≤ bright ≤ 1. -/
def Params.combCheck (p : Params) (m i : Nat) : Option ErrorCode :=
  require
    (finitePos (p.combDelay m i) && finitePos (p.combPct m i) && (p.combBright m i).isFinite &&
      F32.le 0 (p.combBright m i) && F32.le (p.combBright m i) F32.one)
    .presetInvalid

/-- Check 3 of one allpass: finite values, delayMs > 0, pct > 0. -/
def Params.apCheck (p : Params) (m j : Nat) : Option ErrorCode :=
  require (finitePos (p.apDelay m j) && finitePos (p.apPct m j)) .presetInvalid

/-- A length is at least 1, else INVALID_DELAY, and at most RB_CAP, else CAPACITY. -/
def Params.lenCheck (p : Params) (len : Nat) : Option ErrorCode :=
  firstError [require (decide (1 ≤ len)) .invalidDelay, require (decide (len ≤ p.rbCap)) .capacity]

/-- Check 4 of one line: both channels, L before R, and both stereo settings, off before on. -/
def Params.lineCheck (p : Params) (base i : Nat) : Option ErrorCode :=
  firstError
    [ p.lenCheck (p.stereoLen base i .left false), p.lenCheck (p.stereoLen base i .left true),
      p.lenCheck (p.stereoLen base i .right false), p.lenCheck (p.stereoLen base i .right true) ]

/-- Check 5 reports BAD_PARAM whatever check of DesignOK fails (log 17). -/
def asBadParam (c : Option ErrorCode) : Option ErrorCode := c.map fun _ => .badParam

/-- Check 5 of one comb's damping filter. -/
def Params.dampCheck (p : Params) (m fs i : Nat) : Option ErrorCode :=
  asBadParam (p.designCheck (p.dampCutoff (p.combBright m i) fs) (.param p.dampBw) fs)

/-- Check 5 of a bandpass cutoff. -/
def Params.bandCheck (p : Params) (f0 : F32) (fs : Nat) : Option ErrorCode :=
  asBadParam (p.designCheck f0 (.param p.bpBw) fs)

/-- `ValidMode(m, fs)`: its first failing check, in order (20_memory.md R74). -/
def Params.modeCheck (p : Params) (fs m : Nat) : Option ErrorCode :=
  let combs := List.range (p.nComb m).toNat
  let aps := List.range (p.nAp m).toNat
  firstError
    [ p.countCheck m,
      firstError (combs.map fun i => p.combCheck m i),
      firstError (aps.map fun j => p.apCheck m j),
      firstError (combs.map fun i => p.lineCheck (baseLen (p.combDelay m i) fs) i),
      firstError (aps.map fun j => p.lineCheck (baseLen (p.apDelay m j) fs) j),
      firstError (combs.map fun i => p.dampCheck m fs i),
      p.bandCheck (p.bpHighHz m) fs,
      p.bandCheck (p.bpLowHz m) fs ]

/-- Every mode of the ROM at one rate, in ascending order; the first failure wins (45_engine.md R247). -/
def Params.romCheck (p : Params) (fs : Nat) : Option ErrorCode :=
  firstError ((List.range p.numModes).map fun m => p.modeCheck fs m)

/-! ## Well-formed parameter records (00_scope.md R11, R12) -/

/-- The FIXED word format is in range (00_scope.md R10). -/
def numericWf : NumericMode → Bool
  | .float => true
  | .fixed w frac => decide (2 ≤ w) && decide (w ≤ 32) && decide (frac < w)

/-- A line whose delay has a length fits the capacity at FS_MAX on both channels and both stereo settings (00_scope.md R12;
log 12). -/
def Params.lineFits (p : Params) (delayMs : F32) (i : Nat) : Bool :=
  let b := baseLen delayMs p.fsMax
  [Chan.left, Chan.right].all fun ch => [false, true].all fun s => decide (p.stereoLen b i ch s ≤ p.rbCap)

/-- The capacity check of 00_scope.md R12. -/
def Params.capacityOk (p : Params) : Bool :=
  (List.range p.numModes).all fun m =>
    ((List.range (min (p.nComb m).toNat p.maxCombs)).all fun i => p.lineFits (p.combDelay m i) i) &&
      ((List.range (min (p.nAp m).toNat p.maxAps)).all fun j => p.lineFits (p.apDelay m j) j)

/-- The ranges of the size parameters (00_scope.md R10); each fits the CSR that reports it (log 12). -/
def Params.sizesOk (p : Params) : Bool :=
  decide (1 ≤ p.maxCombs) && decide (p.maxCombs ≤ 64) && decide (1 ≤ p.maxAps) && decide (p.maxAps ≤ 64) &&
    decide (1 ≤ p.numModes) && decide (p.numModes < 2 ^ 32) && decide (1 ≤ p.rbCap) && decide (p.rbCap < 2 ^ 32) &&
    decide (1 ≤ p.fsMax) && decide (p.fsMax < 2 ^ 32) && decide (1 ≤ p.blockMax) && decide (p.blockMax ≤ 65535) &&
    numericWf p.numeric

/-- The ranges of the real and binary32 parameters (00_scope.md R10). -/
def Params.realsOk (p : Params) : Bool :=
  p.atten.wf && p.combK.wf && p.combFbExp.wf && p.cBright.wf && p.kAp.isPos && p.apFbExp.wf && p.stereoRatio.isPos &&
    p.dampBw.isPos && p.bpBw.isPos &&
    finitePos p.decayMin && p.decayMax.isFinite && F32.le p.decayMin p.decayMax && F32.le p.levelMin p.levelMax

/-- The record is well formed (00_scope.md R11). -/
def Params.wf (p : Params) : Bool :=
  p.sizesOk && p.realsOk && decide (p.rom.length = p.romSize) && decide (p.romSize ≤ 65536) &&
    p.capacityOk

/-- Elaboration: a record that is not well formed builds no block (00_scope.md R11, 60_exceptions.md R308). -/
def elaborate (p : Params) : Option State := if p.wf then some (State.resetOf p) else none

end Sys2Proof.Machine
end

