-- ==== Sys2Proof/Machine/Biquad.lean ====
section
/-! DEFINITION. The biquad recursion and the BQ commands (41_biquad.md). -/

namespace Sys2Proof.Machine

/-- `bq_process`: direct form I, left to right, the output flushed (41_biquad.md R142; 90_conflicts.md C1). -/
def Biquad.process (site : Site) (q : Biquad) (x : F32) : Biquad × F32 :=
  let p0 := F32.mul (0 :: site) q.b0 x
  let p1 := F32.mul (1 :: site) q.b1 q.x1
  let p2 := F32.mul (2 :: site) q.b2 q.x2
  let p3 := F32.mul (3 :: site) q.a1 q.y1
  let p4 := F32.mul (4 :: site) q.a2 q.y2
  let t := F32.sub (8 :: site)
    (F32.sub (7 :: site) (F32.add (6 :: site) (F32.add (5 :: site) p0 p1) p2) p3) p4
  let y := F32.ftz t
  ({ q with x1 := x, x2 := q.x1, y1 := y, y2 := q.y1 }, y)

/-- `bq_reset`: the history +0.0, the coefficients unchanged (41_biquad.md R143). -/
def Biquad.resetHistory (q : Biquad) : Biquad := { q with x1 := 0, x2 := 0, y1 := 0, y2 := 0 }

/-- Load the five coefficients, the history untouched (41_biquad.md R155). -/
def Biquad.load (q : Biquad) (b0 b1 b2 a1 a2 : F32) : Biquad :=
  { q with b0 := b0, b1 := b1, b2 := b2, a1 := a1, a2 := a2 }

/-- BQ.SETLP (41_biquad.md R150). -/
def execBqSetlp (ch : Chan) (sel : FilterSel) (idx : Nat) (cutoffHz bwOct : F32) (fs : Word) (s : State) : Result :=
  unitCommand s (s.params.hasFilter sel idx)
    (checked s (s.params.designCheck cutoffHz (.operand bwOct) fs.toNat)
      (succeed
        (s.setFilter ch sel idx ((s.filter ch sel idx).store (lowPass cutoffHz (.operand bwOct) fs.toNat))) []))

/-- BQ.SETHP (41_biquad.md R151). -/
def execBqSethp (ch : Chan) (sel : FilterSel) (idx : Nat) (cutoffHz bwOct : F32) (fs : Word) (s : State) : Result :=
  unitCommand s (s.params.hasFilter sel idx)
    (checked s (s.params.designCheck cutoffHz (.operand bwOct) fs.toNat)
      (succeed
        (s.setFilter ch sel idx ((s.filter ch sel idx).store (highPass cutoffHz (.operand bwOct) fs.toNat))) []))

/-- BQ.SETPK (41_biquad.md R152): DesignOK first, then a finite gain. -/
def execBqSetpk (ch : Chan) (sel : FilterSel) (idx : Nat) (freqHz gainDb bwOct : F32) (fs : Word) (s : State) : Result :=
  unitCommand s (s.params.hasFilter sel idx)
    (checked s
      (firstError [s.params.designCheck freqHz (.operand bwOct) fs.toNat, require gainDb.isFinite .badParam])
      (succeed
        (s.setFilter ch sel idx
          ((s.filter ch sel idx).store (peaking freqHz gainDb (.operand bwOct) fs.toNat))) []))

/-- BQ.RESET (41_biquad.md R153). -/
def execBqReset (ch : Chan) (sel : FilterSel) (idx : Nat) (s : State) : Result :=
  unitCommand s (s.params.hasFilter sel idx)
    (succeed (s.setFilter ch sel idx (s.filter ch sel idx).resetHistory) [])

/-- BQ.PROC (41_biquad.md R154). -/
def execBqProc (ch : Chan) (sel : FilterSel) (idx : Nat) (x : F32) (s : State) : Result :=
  let r := (s.filter ch sel idx).process [s.freeCtr] x
  unitCommand s (s.params.hasFilter sel idx) (succeed (s.setFilter ch sel idx r.1).bumpFree [r.2])

/-- BQ.LDCOEF (41_biquad.md R155). -/
def execBqLdcoef (ch : Chan) (sel : FilterSel) (idx : Nat) (b0 b1 b2 a1 a2 : F32) (s : State) : Result :=
  unitCommand s (s.params.hasFilter sel idx)
    (succeed (s.setFilter ch sel idx ((s.filter ch sel idx).load b0 b1 b2 a1 a2)) [])

/-- BQ.RDCOEF (41_biquad.md R156). -/
def execBqRdcoef (ch : Chan) (sel : FilterSel) (idx : Nat) (s : State) : Result :=
  let q := s.filter ch sel idx
  unitCommand s (s.params.hasFilter sel idx) (succeed s [q.b0, q.b1, q.b2, q.a1, q.a2])

/-- BQ.RDHIST (41_biquad.md R157). -/
def execBqRdhist (ch : Chan) (sel : FilterSel) (idx : Nat) (s : State) : Result :=
  let q := s.filter ch sel idx
  unitCommand s (s.params.hasFilter sel idx) (succeed s [q.x1, q.x2, q.y1, q.y2])

end Sys2Proof.Machine
end

