-- ==== Sys2Proof/Machine/CombFilter.lean ====
section
/-! DEFINITION. One comb step and the CF commands (42_comb.md). -/

namespace Sys2Proof.Machine

/-- `cf_step`: one sample through a comb; the comb after it and the output sample word (42_comb.md R171). -/
def Comb.step (p : Params) (site : Site) (c : Comb) (x : F32) : Comb × Word :=
  let lf := p.s2f c.last
  let t1 := F32.mul (0 :: site) c.g x
  let t2 := F32.mul (1 :: site) c.g lf
  let d := c.damp.process (2 :: site) t2
  let fin := F32.ftz (F32.add (3 :: site) t1 d.2)
  let o := c.ring.push (p.f2s fin)
  ({ c with ring := o.1, damp := d.1, last := o.2 }, o.2)

/-- The checks of a delay operand: the line's own length, then the length stereo enhancement may give it
(42_comb.md R172, 43_allpass.md R192). -/
def Params.delayCheck (p : Params) (delay : Word) : Option ErrorCode :=
  firstError
    [ require (decide (delay ≠ 0)) .invalidDelay,
      require (decide (delay.toNat ≤ p.rbCap)) .capacity,
      require (decide (p.scaleLen delay.toNat ≠ 0)) .invalidDelay,
      require (decide (p.scaleLen delay.toNat ≤ p.rbCap)) .capacity ]

/-- CF.CFG (42_comb.md R172). -/
def execCfCfg (ch : Chan) (idx : Nat) (delay : Word) (pct cutoffHz bwOct : F32) (fs : Word) (s : State) : Result :=
  let c := s.comb ch idx
  unitCommand s (s.params.hasComb idx)
    (checked s
      (firstError
        [ s.params.delayCheck delay, require (finitePos pct) .badParam,
          s.params.designCheck cutoffHz (.operand bwOct) fs.toNat ])
      (succeed
        (s.setComb ch idx
          { c with
            base := delay
            ring := c.ring.setLen delay
            pct := pct
            damp := c.damp.store (lowPass cutoffHz (.operand bwOct) fs.toNat) }) []))

/-- CF.SETG (42_comb.md R173). -/
def execCfSetg (ch : Chan) (idx : Nat) (g : F32) (s : State) : Result :=
  unitCommand s (s.params.hasComb idx) (succeed (s.setComb ch idx { s.comb ch idx with g := g }) [])

/-- CF.PROC (42_comb.md R174). -/
def execCfProc (ch : Chan) (idx : Nat) (x : Word) (s : State) : Result :=
  let r := (s.comb ch idx).step s.params [s.freeCtr] (s.params.s2f x)
  unitCommand s (s.params.hasComb idx) (succeed (s.setComb ch idx r.1).bumpFree [r.2])

/-- CF.RDSTATE (42_comb.md R175). -/
def execCfRdstate (ch : Chan) (idx : Nat) (s : State) : Result :=
  let c := s.comb ch idx
  unitCommand s (s.params.hasComb idx) (succeed s [c.g, c.last, c.pct, c.bright, c.base])

end Sys2Proof.Machine
end

