-- ==== Sys2Proof/Machine/AllpassFilter.lean ====
section
/-! DEFINITION. One allpass step and the AP commands (43_allpass.md). -/

namespace Sys2Proof.Machine

/-- `ap_step`: one sample through an allpass; the allpass after it and the output sample word (43_allpass.md R191). There is
no feedforward term (R197; 90_conflicts.md C2). -/
def Allpass.step (p : Params) (site : Site) (a : Allpass) (x : F32) : Allpass × Word :=
  let lf := p.s2f a.last
  let gg := F32.mul (0 :: site) a.gin a.g
  let t1 := F32.mul (1 :: site) gg x
  let t2 := F32.mul (2 :: site) a.g lf
  let fin := F32.ftz (F32.add (3 :: site) t1 t2)
  let o := a.ring.push (p.f2s fin)
  ({ a with ring := o.1, last := o.2 }, o.2)

/-- AP.CFG (43_allpass.md R192). -/
def execApCfg (ch : Chan) (idx : Nat) (delay : Word) (pct : F32) (s : State) : Result :=
  let a := s.ap ch idx
  unitCommand s (s.params.hasAp idx)
    (checked s
      (firstError [s.params.delayCheck delay, require (finitePos pct) .badParam])
      (succeed (s.setAp ch idx { a with base := delay, ring := a.ring.setLen delay, pct := pct }) []))

/-- AP.SETG (43_allpass.md R193). -/
def execApSetg (ch : Chan) (idx : Nat) (gin g : F32) (s : State) : Result :=
  unitCommand s (s.params.hasAp idx) (succeed (s.setAp ch idx { s.ap ch idx with gin := gin, g := g }) [])

/-- AP.PROC (43_allpass.md R194). -/
def execApProc (ch : Chan) (idx : Nat) (x : Word) (s : State) : Result :=
  let r := (s.ap ch idx).step s.params [s.freeCtr] (s.params.s2f x)
  unitCommand s (s.params.hasAp idx) (succeed (s.setAp ch idx r.1).bumpFree [r.2])

/-- AP.RDSTATE (43_allpass.md R195). -/
def execApRdstate (ch : Chan) (idx : Nat) (s : State) : Result :=
  let a := s.ap ch idx
  unitCommand s (s.params.hasAp idx) (succeed s [a.gin, a.g, a.last, a.pct, a.base])

end Sys2Proof.Machine
end

