-- ==== Sys2Proof/Machine/Registers.lean ====
section
/-! DEFINITION. The control and status registers (10_state.md R36 to R43) and ENG.CSRR, ENG.CSRW. -/

namespace Sys2Proof.Machine

/-- The registers of the map (10_state.md R36). -/
inductive Csr where
  | status | errclr | sampleRate | recomputeCount | numModes | maxCombs | maxAps | rbCap | blockMax | fsMax | numeric
  | decayMs | dryDb | wetDb | flags | mode
  | activeCombs | activeAps | cacheDecay | cacheStereo | cacheMode
  deriving DecidableEq, Repr

/-- The register at an address; an address not in the map is unimplemented (10_state.md R36). -/
def Csr.ofAddr : Nat → Option Csr
  | 0x0000 => some .status
  | 0x0001 => some .errclr
  | 0x0002 => some .sampleRate
  | 0x0003 => some .recomputeCount
  | 0x0004 => some .numModes
  | 0x0005 => some .maxCombs
  | 0x0006 => some .maxAps
  | 0x0007 => some .rbCap
  | 0x0008 => some .blockMax
  | 0x0009 => some .fsMax
  | 0x000A => some .numeric
  | 0x0010 => some .decayMs
  | 0x0011 => some .dryDb
  | 0x0012 => some .wetDb
  | 0x0013 => some .flags
  | 0x0014 => some .mode
  | 0x0020 => some .activeCombs
  | 0x0021 => some .activeAps
  | 0x0022 => some .cacheDecay
  | 0x0023 => some .cacheStereo
  | 0x0024 => some .cacheMode
  | _ => none

/-- The address of a register (10_state.md R36). -/
def Csr.addr : Csr → Nat
  | .status => 0x0000
  | .errclr => 0x0001
  | .sampleRate => 0x0002
  | .recomputeCount => 0x0003
  | .numModes => 0x0004
  | .maxCombs => 0x0005
  | .maxAps => 0x0006
  | .rbCap => 0x0007
  | .blockMax => 0x0008
  | .fsMax => 0x0009
  | .numeric => 0x000A
  | .decayMs => 0x0010
  | .dryDb => 0x0011
  | .wetDb => 0x0012
  | .flags => 0x0013
  | .mode => 0x0014
  | .activeCombs => 0x0020
  | .activeAps => 0x0021
  | .cacheDecay => 0x0022
  | .cacheStereo => 0x0023
  | .cacheMode => 0x0024

/-- NUMERIC: bit 0 the regime, FX_W in bits 15:8, FX_FRAC in bits 23:16, both 0 in FLOAT (10_state.md R36, R39). -/
def NumericMode.word : NumericMode → Word
  | .float => 0
  | .fixed w frac => BitVec.ofNat 32 (1 + w % 256 * 2 ^ 8 + frac % 256 * 2 ^ 16)

/-- The contents of a register (10_state.md R36 to R43). -/
def State.csrRead (s : State) : Csr → Word
  | .status => s.statusWord
  | .errclr => 0
  | .sampleRate => s.fs
  | .recomputeCount => s.recomputeCount
  | .numModes => BitVec.ofNat 32 s.params.numModes
  | .maxCombs => BitVec.ofNat 32 s.params.maxCombs
  | .maxAps => BitVec.ofNat 32 s.params.maxAps
  | .rbCap => BitVec.ofNat 32 s.params.rbCap
  | .blockMax => BitVec.ofNat 32 s.params.blockMax
  | .fsMax => BitVec.ofNat 32 s.params.fsMax
  | .numeric => s.params.numeric.word
  | .decayMs => s.decayMs
  | .dryDb => s.dryDb
  | .wetDb => s.wetDb
  | .flags => s.flags.zeroExtend 32
  | .mode => s.mode
  | .activeCombs => s.nC
  | .activeAps => s.nA
  | .cacheDecay => s.cacheT
  | .cacheStereo => if s.cacheS then 1 else 0
  | .cacheMode => s.cacheM

/-- A write to a register: RO raises READ_ONLY, MODE rejects a value out of range (45_engine.md R252). -/
def csrWrite (s : State) (v : Word) : Csr → Result
  | .errclr => succeed { s with errCode := 0 } []
  | .decayMs => succeed { s with decayMs := v } []
  | .dryDb => succeed { s with dryDb := v } []
  | .wetDb => succeed { s with wetDb := v } []
  | .flags => succeed { s with flags := v.truncate 4 } []
  | .mode => if v.toNat < s.params.numModes then succeed { s with mode := v } [] else failWith s .modeRange
  | _ => failWith s .readOnly

/-- ENG.CSRR (45_engine.md R251). -/
def execEngCsrr (addr : Nat) (s : State) : Result :=
  match Csr.ofAddr addr with
  | none => failWith s .csrAddr
  | some c => succeed s [s.csrRead c]

/-- ENG.CSRW (45_engine.md R252). -/
def execEngCsrw (addr : Nat) (v : Word) (s : State) : Result :=
  match Csr.ofAddr addr with
  | none => failWith s .csrAddr
  | some c => csrWrite s v c

end Sys2Proof.Machine
end

