-- ==== Sys2Proof/Machine/Engine.lean ====
section
/-! DEFINITION. The engine top (45_engine.md): reload, recompute, change detection, the per-sample datapath, and ENG.CONFIG,
ENG.ACTIVATE, ENG.PROCESS, ENG.CLEANUP. -/

namespace Sys2Proof.Machine

/-- A list with each entry replaced by a function of its index, which counts from `i`. -/
def mapFrom {α : Type} (f : Nat → α → α) : Nat → List α → List α
  | _, [] => []
  | i, x :: xs => f i x :: mapFrom f (i + 1) xs

/-- The same change made to both channels. -/
def State.mapChans (s : State) (f : Chan → Channel → Channel) : State :=
  { s with chL := f .left s.chL, chR := f .right s.chR }

/-! ## Unspecified values (10_state.md R47; log 7) -/

/-- A biquad's history becomes unspecified. -/
def Biquad.loseHistory (site : Site) (q : Biquad) : Biquad :=
  { q with
    x1 := Config.freeWord (1 :: site)
    x2 := Config.freeWord (2 :: site)
    y1 := Config.freeWord (3 :: site)
    y2 := Config.freeWord (4 :: site) }

/-- Every field of a biquad is unspecified. -/
def Biquad.unspecified (site : Site) : Biquad :=
  Biquad.loseHistory site
    { Biquad.zero with
      b0 := Config.freeWord (5 :: site)
      b1 := Config.freeWord (6 :: site)
      b2 := Config.freeWord (7 :: site)
      a1 := Config.freeWord (8 :: site)
      a2 := Config.freeWord (9 :: site) }

/-- Every field of a ring is unspecified. -/
def Ring.unspecified (site : Site) : Ring :=
  { stor := ⟨[], .unspecified (0 :: site)⟩
    cursor := Config.freeWord (1 :: 1 :: site)
    len := Config.freeWord (2 :: 1 :: site) }

/-- Every field of a comb is unspecified. -/
def Comb.unspecified (site : Site) : Comb :=
  { ring := Ring.unspecified (0 :: site)
    damp := Biquad.unspecified (1 :: site)
    g := Config.freeWord (2 :: site)
    last := Config.freeWord (3 :: site)
    pct := Config.freeWord (4 :: site)
    bright := Config.freeWord (5 :: site)
    base := Config.freeWord (6 :: site) }

/-- Every field of an allpass is unspecified. -/
def Allpass.unspecified (site : Site) : Allpass :=
  { ring := Ring.unspecified (0 :: site)
    gin := Config.freeWord (1 :: site)
    g := Config.freeWord (2 :: site)
    last := Config.freeWord (3 :: site)
    pct := Config.freeWord (4 :: site)
    base := Config.freeWord (5 :: site) }

/-- The place of a channel in a site. -/
def chanTag : Chan → Nat
  | .left => 0
  | .right => 1

/-- Every per-instance record of a channel is unspecified (45_engine.md R250). -/
def Channel.unspecified (ctr : Nat) (ch : Chan) (c : Channel) : Channel :=
  { combs := mapFrom (fun i _ => Comb.unspecified [i, 0, chanTag ch, ctr]) 0 c.combs
    aps := mapFrom (fun j _ => Allpass.unspecified [j, 1, chanTag ch, ctr]) 0 c.aps
    lp := Biquad.unspecified [2, chanTag ch, ctr]
    hp := Biquad.unspecified [3, chanTag ch, ctr] }

/-! ## What ENG.CONFIG leaves before its reload (45_engine.md R246; 92_eei_decisions.md D61) -/

/-- A ring of length 1 whose storage is unspecified. -/
def Ring.configured (site : Site) : Ring := { stor := ⟨[], .unspecified site⟩, cursor := 0, len := 1 }

/-- Coefficients +0.0, history unspecified. -/
def Biquad.configured (site : Site) : Biquad := Biquad.loseHistory site Biquad.zero

/-- Gains, pct and bright +0.0, base 1; `last` unspecified. -/
def Comb.configured (site : Site) : Comb :=
  { ring := Ring.configured (0 :: site)
    damp := Biquad.configured (1 :: site)
    g := 0
    last := Config.freeWord (3 :: site)
    pct := 0
    bright := 0
    base := 1 }

/-- Gains and pct +0.0, base 1; `last` unspecified. -/
def Allpass.configured (site : Site) : Allpass :=
  { ring := Ring.configured (0 :: site)
    gin := 0
    g := 0
    last := Config.freeWord (3 :: site)
    pct := 0
    base := 1 }

/-- Every instance of a channel at its CONFIG default. -/
def Channel.configured (ctr : Nat) (ch : Chan) (c : Channel) : Channel :=
  { combs := mapFrom (fun i _ => Comb.configured [i, 0, chanTag ch, ctr]) 0 c.combs
    aps := mapFrom (fun j _ => Allpass.configured [j, 1, chanTag ch, ctr]) 0 c.aps
    lp := Biquad.configured [2, chanTag ch, ctr]
    hp := Biquad.configured [3, chanTag ch, ctr] }

/-! ## Reload and recompute (45_engine.md R242, R243) -/

/-- What reload writes to comb `i` of mode `m` (45_engine.md R242; 44_coefficients.md R218, R219). -/
def Comb.reload (p : Params) (fs m i : Nat) (c : Comb) : Comb :=
  { c with
    pct := p.combPct m i
    bright := p.combBright m i
    base := BitVec.ofNat 32 (baseLen (p.combDelay m i) fs)
    damp := c.damp.store (lowPass (p.dampCutoff (p.combBright m i) fs) (.param p.dampBw) fs) }

/-- What reload writes to allpass `j` of mode `m` (45_engine.md R242). -/
def Allpass.reload (p : Params) (fs m j : Nat) (a : Allpass) : Allpass :=
  { a with pct := p.apPct m j, base := BitVec.ofNat 32 (baseLen (p.apDelay m j) fs) }

/-- Reload of one channel: its active lines and the bandpass pair (45_engine.md R242; 44_coefficients.md R223). -/
def Channel.reload (p : Params) (fs m : Nat) (c : Channel) : Channel :=
  { combs := mapFrom (fun i x => if i < (p.nComb m).toNat then x.reload p fs m i else x) 0 c.combs
    aps := mapFrom (fun j x => if j < (p.nAp m).toNat then x.reload p fs m j else x) 0 c.aps
    lp := c.lp.store (lowPass (p.bpHighHz m) (.param p.bpBw) fs)
    hp := c.hp.store (highPass (p.bpLowHz m) (.param p.bpBw) fs) }

/-- `reload(m)` (45_engine.md R242). -/
def State.reload (s : State) (m : Nat) : State :=
  { s with
    nC := s.params.nComb m
    nA := s.params.nAp m
    chL := s.chL.reload s.params s.fs.toNat m
    chR := s.chR.reload s.params s.fs.toNat m }

/-- What recompute writes to an active comb (45_engine.md R243; 44_coefficients.md R212, R215, R220). -/
def Comb.recompute (p : Params) (fs : Nat) (t : F32) (st : Bool) (ch : Chan) (i : Nat) (c : Comb) : Comb :=
  let len := p.stereoLen c.base.toNat i ch st
  { c with ring := c.ring.setLen (BitVec.ofNat 32 len), g := p.combGain len c.pct c.bright t fs }

/-- What recompute writes to an active allpass (45_engine.md R243; 44_coefficients.md R213, R214, R220). -/
def Allpass.recompute (p : Params) (fs : Nat) (t : F32) (st : Bool) (ch : Chan) (j : Nat) (a : Allpass) : Allpass :=
  let len := p.stereoLen a.base.toNat j ch st
  { a with ring := a.ring.setLen (BitVec.ofNat 32 len), g := p.apGain len a.pct t fs, gin := apInGain t }

/-- Recompute of one channel: its active lines (45_engine.md R243). -/
def Channel.recompute (p : Params) (fs nC nA : Nat) (t : F32) (st : Bool) (ch : Chan) (c : Channel) : Channel :=
  { c with
    combs := mapFrom (fun i x => if i < nC then x.recompute p fs t st ch i else x) 0 c.combs
    aps := mapFrom (fun j x => if j < nA then x.recompute p fs t st ch j else x) 0 c.aps }

/-- `recompute(T, s, m)` (45_engine.md R243). -/
def State.recompute (s : State) (t : F32) (st : Bool) (m : Word) : State :=
  { s with
    chL := s.chL.recompute s.params s.fs.toNat s.nC.toNat s.nA.toNat t st .left
    chR := s.chR.recompute s.params s.fs.toNat s.nC.toNat s.nA.toNat t st .right
    cacheT := t
    cacheS := st
    cacheM := m
    recomputeCount := s.recomputeCount + 1 }

/-- Two binary32 values differ: a NaN differs from everything, the zeros do not differ (45_engine.md R244). -/
def valuesDiffer (a b : F32) : Bool := a.isNaN || b.isNaN || decide (a.key ≠ b.key)

/-- The mode control differs from the mode last loaded (45_engine.md R244). -/
def State.modeChanged (s : State) : Bool := decide (s.mode ≠ s.cacheM)

/-- The mode, the clamped decay time or the stereo flag differs from the cached one (45_engine.md R244). -/
def State.anyChanged (s : State) : Bool :=
  s.modeChanged || valuesDiffer s.clampT s.cacheT || (s.stereoEn != s.cacheS)

/-- `detect()` (45_engine.md R244). -/
def State.detect (s : State) : State :=
  let loaded := if s.modeChanged then s.reload s.mode.toNat else s
  if s.anyChanged then loaded.recompute s.clampT s.stereoEn s.mode else loaded

/-! ## The per-sample datapath (45_engine.md R253 to R257) -/

/-- What every sample of a block reads and none writes (45_engine.md R245, R257). -/
structure MixEnv where
  params : Params
  combsEn : Bool
  apsEn : Bool
  bpEn : Bool
  nC : Nat
  nA : Nat
  dry : F32
  wet : F32
  ctr : Nat
  deriving DecidableEq, Repr

/-- The block's constants, taken after `detect()` (45_engine.md R245). -/
def State.mixEnv (s : State) : MixEnv :=
  { params := s.params, combsEn := s.combsEn, apsEn := s.apsEn, bpEn := s.bpEn, nC := s.nC.toNat, nA := s.nA.toNat,
    dry := s.dryGain, wet := s.wetGain, ctr := s.freeCtr }

/-- The comb stage: the active combs in ascending index, every one given `x`, summed onto `acc` (45_engine.md R253, R254). -/
def combStage (e : MixEnv) (site : Site) (x : F32) : Nat → List Comb → F32 → List Comb × F32
  | _, [], acc => ([], acc)
  | i, c :: cs, acc =>
    if i < e.nC then
      let o := c.step e.params (0 :: i :: site) x
      let rest := combStage e site x (i + 1) cs (F32.add (1 :: i :: site) acc (e.params.s2f o.2))
      (o.1 :: rest.1, rest.2)
    else (c :: cs, acc)

/-- The allpass chain: the active allpasses in ascending index, in series (45_engine.md R253; 43_allpass.md R198). -/
def apStage (e : MixEnv) (site : Site) : Nat → List Allpass → F32 → List Allpass × F32
  | _, [], acc => ([], acc)
  | j, a :: as, acc =>
    if j < e.nA then
      let o := a.step e.params (j :: site) acc
      let rest := apStage e site (j + 1) as (e.params.s2f o.2)
      (o.1 :: rest.1, rest.2)
    else (a :: as, acc)

/-- The bandpass stage: low-pass, then high-pass (45_engine.md R253). -/
def bandStage (site : Site) (c : Channel) (x : F32) : Channel × F32 :=
  let l := c.lp.process (0 :: site) x
  let h := c.hp.process (1 :: site) l.2
  ({ c with lp := l.1, hp := h.1 }, h.2)

/-- `sample_step(ch, x)`: one sample of one channel; a disabled stage is not run (45_engine.md R253, R255). -/
def sampleStep (e : MixEnv) (site : Site) (c : Channel) (x : F32) : Channel × F32 :=
  let combs := if e.combsEn then combStage e (0 :: site) x 0 c.combs x else (c.combs, x)
  let c1 : Channel := { c with combs := combs.1 }
  let aps := if e.apsEn then apStage e (1 :: site) 0 c1.aps combs.2 else (c1.aps, combs.2)
  let c2 : Channel := { c1 with aps := aps.1 }
  let band := if e.bpEn then bandStage (2 :: site) c2 aps.2 else (c2, aps.2)
  let dt := F32.mul (3 :: site) x e.dry
  let wt := F32.mul (4 :: site) band.2 e.wet
  (band.1, F32.add (5 :: site) dt wt)

/-- Sample `k` of both channels: both reads before either write, L before R (45_engine.md R249, R256). -/
def processSample (e : MixEnv) (k : Nat) (s : State) : Except Fault State :=
  match s.readBank .inL k, s.readBank .inR k with
  | none, _ => .error (.unwrittenSample .inL k)
  | some _, none => .error (.unwrittenSample .inR k)
  | some xl, some xr =>
    let l := sampleStep e [k, 0, e.ctr] s.chL (e.params.s2f xl)
    let r := sampleStep e [k, 1, e.ctr] s.chR (e.params.s2f xr)
    .ok ((({ s with chL := l.1, chR := r.1 } : State).writeBank .outL k (e.params.f2s l.2)).writeBank .outR k
      (e.params.f2s r.2))

/-- `n` samples from sample `k` on, in ascending order (45_engine.md R249; log 19). -/
def processFrom (e : MixEnv) : Nat → Nat → State → Except Fault State
  | 0, _, s => .ok s
  | n + 1, k, s =>
    match processSample e k s with
    | .error f => .error f
    | .ok s' => processFrom e n (k + 1) s'

/-! ## Commands -/

/-- A ring cleared, a filter's history zeroed and `last` 0, for every instance of a channel (45_engine.md R248). -/
def Channel.silence (c : Channel) : Channel :=
  { combs := c.combs.map fun x => { x with ring := x.ring.clear, damp := x.damp.resetHistory, last := 0 }
    aps := c.aps.map fun x => { x with ring := x.ring.clear, last := 0 }
    lp := c.lp.resetHistory
    hp := c.hp.resetHistory }

/-- The checks of ENG.CONFIG: the rate, then every mode of the ROM at it (45_engine.md R246, R247). -/
def Params.configCheck (p : Params) (fs : Word) : Option ErrorCode :=
  firstError [require (decide (fs ≠ 0) && decide (fs.toNat ≤ p.fsMax)) .sampleRate, p.romCheck fs.toNat]

/-- The state after a CONFIG whose checks passed (45_engine.md R246). -/
def State.configure (s : State) (fs : Word) : State :=
  let blank := { s with fs := fs }.mapChans (Channel.configured s.freeCtr)
  { (blank.reload s.mode.toNat).recompute s.clampT s.stereoEn s.mode with estate := .configured }

/-- ENG.CONFIG (45_engine.md R246). -/
def execEngConfig (fs : Word) (s : State) : Result :=
  checked s (s.params.configCheck fs) (succeed (s.configure fs).bumpFree [])

/-- ENG.ACTIVATE (45_engine.md R248). -/
def execEngActivate (s : State) : Result :=
  checked s (require (decide (s.estate ≠ .uninit)) .badState)
    (succeed { s.mapChans (fun _ c => c.silence) with estate := .running } [])

/-- ENG.PROCESS (45_engine.md R249). -/
def execEngProcess (n : Nat) (s : State) : Result :=
  checked s
    (firstError
      [require (decide (s.estate = .running)) .badState, require (decide (n ≤ s.params.blockMax)) .blockSize])
    (match processFrom s.detect.mixEnv n 0 s.detect with
      | .error f => .fault f
      | .ok s' => succeed s'.bumpFree [])

/-- ENG.CLEANUP (45_engine.md R250; log 7, log 16). -/
def execEngCleanup (s : State) : Result :=
  succeed
    { s.mapChans (Channel.unspecified s.freeCtr) with
      estate := .uninit
      fs := 0
      nC := 0
      nA := 0
      cacheT := 0
      cacheS := false
      cacheM := 0 }.bumpFree []

end Sys2Proof.Machine
end

