-- ==== Sys2Proof/Machine/RingBuffer.lean ====
section
/-! DEFINITION. The RB commands (40_ring_buffer.md section 2). -/

namespace Sys2Proof.Machine

/-- RB.PUSH (40_ring_buffer.md R125). -/
def execRbPush (ch : Chan) (sel : RingSel) (idx : Nat) (v : Word) (s : State) : Result :=
  let r := (s.ring ch sel idx).push v
  unitCommand s (s.params.hasRing sel idx) (succeed (s.setRing ch sel idx r.1) [r.2])

/-- RB.READ (40_ring_buffer.md R126). -/
def execRbRead (ch : Chan) (sel : RingSel) (idx : Nat) (k : Word) (s : State) : Result :=
  unitCommand s (s.params.hasRing sel idx) (succeed s [(s.ring ch sel idx).readBack k])

/-- RB.WRITE (40_ring_buffer.md R127). -/
def execRbWrite (ch : Chan) (sel : RingSel) (idx : Nat) (k v : Word) (s : State) : Result :=
  unitCommand s (s.params.hasRing sel idx)
    (succeed (s.setRing ch sel idx ((s.ring ch sel idx).writeBack k v)) [])

/-- RB.SETLEN (40_ring_buffer.md R128). -/
def execRbSetlen (ch : Chan) (sel : RingSel) (idx : Nat) (n : Word) (s : State) : Result :=
  unitCommand s (s.params.hasRing sel idx)
    (checked s
      (firstError
        [require (decide (n ≠ 0)) .invalidDelay, require (decide (n.toNat ≤ s.params.rbCap)) .capacity])
      (succeed (s.setRing ch sel idx ((s.ring ch sel idx).setLen n)) []))

/-- RB.CLEAR (40_ring_buffer.md R129). -/
def execRbClear (ch : Chan) (sel : RingSel) (idx : Nat) (s : State) : Result :=
  unitCommand s (s.params.hasRing sel idx) (succeed (s.setRing ch sel idx (s.ring ch sel idx).clear) [])

/-- RB.STAT (40_ring_buffer.md R130). -/
def execRbStat (ch : Chan) (sel : RingSel) (idx : Nat) (s : State) : Result :=
  unitCommand s (s.params.hasRing sel idx) (succeed s [(s.ring ch sel idx).len, (s.ring ch sel idx).cursor])

end Sys2Proof.Machine
end

