-- ==== Sys2Proof/Machine/SampleMemory.lean ====
section
/-! DEFINITION. The MEM commands (46_sample_memory.md). -/

namespace Sys2Proof.Machine

/-- A space a MEM command names (20_memory.md R60, 30_encoding.md R98). -/
inductive Space where
  | bank (b : BankId)
  | rom
  deriving DecidableEq, Repr

/-- The space of an IDX (30_encoding.md R98). -/
def Space.ofIdx : Nat → Option Space
  | 0 => some (.bank .inL)
  | 1 => some (.bank .inR)
  | 2 => some (.bank .outL)
  | 3 => some (.bank .outR)
  | 4 => some .rom
  | _ => none

/-- The size of a space in words (20_memory.md R60). -/
def Params.spaceSize (p : Params) : Space → Nat
  | .bank _ => p.blockMax
  | .rom => p.romSize

/-- The checks of a MEM command (46_sample_memory.md R282): the space, then the address, each INDEX_RANGE. No state check. -/
def memCommand (s : State) (space addr : Nat) (body : Space → Result) : Result :=
  match Space.ofIdx space with
  | none => failWith s .indexRange
  | some sp => if addr < s.params.spaceSize sp then body sp else failWith s .indexRange

/-- MemRead of a space as a command: a bank word that holds no value is the model fault (20_memory.md R67). -/
def readSpace (s : State) (addr : Nat) : Space → Result
  | .rom => succeed s [s.params.romRead addr]
  | .bank b =>
    match s.readBank b addr with
    | some w => succeed s [w]
    | none => .fault (.unwrittenSample b addr)

/-- MemWrite of a space as a command: the ROM is READ_ONLY (20_memory.md R68). -/
def writeSpace (s : State) (addr : Nat) (w : Word) : Space → Result
  | .rom => failWith s .readOnly
  | .bank b => succeed (s.writeBank b addr w) []

/-- MEM.RD (46_sample_memory.md R280). -/
def execMemRd (space addr : Nat) (s : State) : Result := memCommand s space addr (readSpace s addr)

/-- MEM.WR (46_sample_memory.md R281). -/
def execMemWr (space addr : Nat) (w : Word) (s : State) : Result := memCommand s space addr (writeSpace s addr w)

end Sys2Proof.Machine
end

