-- ==== Sys2Proof/Machine/Dispatch.lean ====
section
/-! DEFINITION. One arm per command (30_encoding.md R93), in the opcode map's order. -/

namespace Sys2Proof.Machine

/-- The meaning of a command in a state. -/
def exec (i : Instr) (s : State) : Host.Outcome State Fault Refusal :=
  match i with
  | .rbPush ch sel idx v => Sys2Proof.Machine.execRbPush ch sel idx v s
  | .rbRead ch sel idx k => Sys2Proof.Machine.execRbRead ch sel idx k s
  | .rbWrite ch sel idx k v => Sys2Proof.Machine.execRbWrite ch sel idx k v s
  | .rbSetlen ch sel idx n => Sys2Proof.Machine.execRbSetlen ch sel idx n s
  | .rbClear ch sel idx => Sys2Proof.Machine.execRbClear ch sel idx s
  | .rbStat ch sel idx => Sys2Proof.Machine.execRbStat ch sel idx s
  | .bqSetlp ch sel idx c b r => Sys2Proof.Machine.execBqSetlp ch sel idx c b r s
  | .bqSethp ch sel idx c b r => Sys2Proof.Machine.execBqSethp ch sel idx c b r s
  | .bqSetpk ch sel idx c g b r => Sys2Proof.Machine.execBqSetpk ch sel idx c g b r s
  | .bqReset ch sel idx => Sys2Proof.Machine.execBqReset ch sel idx s
  | .bqProc ch sel idx x => Sys2Proof.Machine.execBqProc ch sel idx x s
  | .bqLdcoef ch sel idx b0 b1 b2 a1 a2 => Sys2Proof.Machine.execBqLdcoef ch sel idx b0 b1 b2 a1 a2 s
  | .bqRdcoef ch sel idx => Sys2Proof.Machine.execBqRdcoef ch sel idx s
  | .bqRdhist ch sel idx => Sys2Proof.Machine.execBqRdhist ch sel idx s
  | .cfCfg ch idx d p c b r => Sys2Proof.Machine.execCfCfg ch idx d p c b r s
  | .cfSetg ch idx g => Sys2Proof.Machine.execCfSetg ch idx g s
  | .cfProc ch idx x => Sys2Proof.Machine.execCfProc ch idx x s
  | .cfRdstate ch idx => Sys2Proof.Machine.execCfRdstate ch idx s
  | .apCfg ch idx d p => Sys2Proof.Machine.execApCfg ch idx d p s
  | .apSetg ch idx gin g => Sys2Proof.Machine.execApSetg ch idx gin g s
  | .apProc ch idx x => Sys2Proof.Machine.execApProc ch idx x s
  | .apRdstate ch idx => Sys2Proof.Machine.execApRdstate ch idx s
  | .engConfig r => Sys2Proof.Machine.execEngConfig r s
  | .engActivate => Sys2Proof.Machine.execEngActivate s
  | .engProcess n => Sys2Proof.Machine.execEngProcess n s
  | .engCleanup => Sys2Proof.Machine.execEngCleanup s
  | .engCsrr a => Sys2Proof.Machine.execEngCsrr a s
  | .engCsrw a v => Sys2Proof.Machine.execEngCsrw a v s
  | .memRd sp a => Sys2Proof.Machine.execMemRd sp a s
  | .memWr sp a w => Sys2Proof.Machine.execMemWr sp a w s

end Sys2Proof.Machine
end

