-- ==== Sys2Proof/WellFormed.lean ====
section
/-! DEFINITION. The commands the encoding can hold: IDX is 6 bits wide and IMM16 is 16 (30_encoding.md R91). An index that
fits its field and names no instance is a legal command that raises INDEX_RANGE, not an ill-formed one (R95 to R98). -/

namespace Sys2Proof

/-- IDX, bits 21:16 (30_encoding.md R91). -/
def idxFits (idx : Nat) : Bool := decide (idx < 64)

/-- IMM16, bits 15:0 (30_encoding.md R91). -/
def immFits (imm : Nat) : Bool := decide (imm < 65536)

/-- Every field of the command fits its bits. -/
def Instr.wf : Instr → Bool
  | .rbPush _ _ idx _ => idxFits idx
  | .rbRead _ _ idx _ => idxFits idx
  | .rbWrite _ _ idx _ _ => idxFits idx
  | .rbSetlen _ _ idx _ => idxFits idx
  | .rbClear _ _ idx => idxFits idx
  | .rbStat _ _ idx => idxFits idx
  | .bqSetlp _ _ idx _ _ _ => idxFits idx
  | .bqSethp _ _ idx _ _ _ => idxFits idx
  | .bqSetpk _ _ idx _ _ _ _ => idxFits idx
  | .bqReset _ _ idx => idxFits idx
  | .bqProc _ _ idx _ => idxFits idx
  | .bqLdcoef _ _ idx _ _ _ _ _ => idxFits idx
  | .bqRdcoef _ _ idx => idxFits idx
  | .bqRdhist _ _ idx => idxFits idx
  | .cfCfg _ idx _ _ _ _ _ => idxFits idx
  | .cfSetg _ idx _ => idxFits idx
  | .cfProc _ idx _ => idxFits idx
  | .cfRdstate _ idx => idxFits idx
  | .apCfg _ idx _ _ => idxFits idx
  | .apSetg _ idx _ _ => idxFits idx
  | .apProc _ idx _ => idxFits idx
  | .apRdstate _ idx => idxFits idx
  | .engConfig _ => true
  | .engActivate => true
  | .engProcess n => immFits n
  | .engCleanup => true
  | .engCsrr addr => immFits addr
  | .engCsrw addr _ => immFits addr
  | .memRd space addr => idxFits space && immFits addr
  | .memWr space addr _ => idxFits space && immFits addr

end Sys2Proof
end

