-- ==== Sys2Proof/Decode.lean ====
section
/-! DEFINITION. The decoder of a transaction (30_encoding.md R91 to R105), then the encoder. Both read one table of rows,
R93's opcode map. -/

namespace Sys2Proof

/-- Bits `hi` down to `lo` of a word as a number (00_scope.md R13). -/
def bits (w : Word) (hi lo : Nat) : Nat := w.toNat / 2 ^ lo % 2 ^ (hi - lo + 1)

/-- The fields of a command word (30_encoding.md R91). -/
structure Fields where
  unit : Nat
  op : Nat
  ch : Nat
  sel : Nat
  idx : Nat
  imm : Nat
  deriving DecidableEq, Repr

/-- 30_encoding.md R91. -/
def fieldsOf (w : Word) : Fields :=
  { unit := bits w 31 28, op := bits w 27 24, ch := bits w 23 23, sel := bits w 22 22, idx := bits w 21 16,
    imm := bits w 15 0 }

/-- The rows of the opcode map by name (30_encoding.md R93). -/
inductive Op where
  | rbPush | rbRead | rbWrite | rbSetlen | rbClear | rbStat
  | bqSetlp | bqSethp | bqSetpk | bqReset | bqProc | bqLdcoef | bqRdcoef | bqRdhist
  | cfCfg | cfSetg | cfProc | cfRdstate
  | apCfg | apSetg | apProc | apRdstate
  | engConfig | engActivate | engProcess | engCleanup | engCsrr | engCsrw
  | memRd | memWr
  deriving DecidableEq, Repr

/-- One row of R93: UNIT, OP, which of the other fields the command uses, and its operand count k. -/
structure Row where
  name : Op
  unit : Nat
  op : Nat
  usesCh : Bool
  usesSel : Bool
  usesIdx : Bool
  usesImm : Bool
  count : Nat
  deriving DecidableEq, Repr

/-- A row whose fields are CH, SEL and IDX. -/
def rowChSelIdx (name : Op) (unit op count : Nat) : Row := ⟨name, unit, op, true, true, true, false, count⟩

/-- A row whose fields are CH and IDX. -/
def rowChIdx (name : Op) (unit op count : Nat) : Row := ⟨name, unit, op, true, false, true, false, count⟩

/-- The opcode map (30_encoding.md R93), in the table's order. -/
def rows : List Row :=
  [ rowChSelIdx .rbPush 1 0 1, rowChSelIdx .rbRead 1 1 1, rowChSelIdx .rbWrite 1 2 2, rowChSelIdx .rbSetlen 1 3 1,
    rowChSelIdx .rbClear 1 4 0, rowChSelIdx .rbStat 1 5 0,
    rowChSelIdx .bqSetlp 2 0 3, rowChSelIdx .bqSethp 2 1 3, rowChSelIdx .bqSetpk 2 2 4, rowChSelIdx .bqReset 2 3 0,
    rowChSelIdx .bqProc 2 4 1, rowChSelIdx .bqLdcoef 2 5 5, rowChSelIdx .bqRdcoef 2 6 0, rowChSelIdx .bqRdhist 2 7 0,
    rowChIdx .cfCfg 3 0 5, rowChIdx .cfSetg 3 1 1, rowChIdx .cfProc 3 2 1, rowChIdx .cfRdstate 3 3 0,
    rowChIdx .apCfg 4 0 2, rowChIdx .apSetg 4 1 2, rowChIdx .apProc 4 2 1, rowChIdx .apRdstate 4 3 0,
    ⟨.engConfig, 5, 0, false, false, false, false, 1⟩, ⟨.engActivate, 5, 1, false, false, false, false, 0⟩,
    ⟨.engProcess, 5, 2, false, false, false, true, 0⟩, ⟨.engCleanup, 5, 3, false, false, false, false, 0⟩,
    ⟨.engCsrr, 5, 4, false, false, false, true, 0⟩, ⟨.engCsrw, 5, 5, false, false, false, true, 1⟩,
    ⟨.memRd, 6, 0, false, false, true, true, 0⟩, ⟨.memWr, 6, 1, false, false, true, true, 1⟩ ]

/-- A field the command does not use must be zero (30_encoding.md R93). -/
def unusedZero (used : Bool) (v : Nat) : Bool := used || decide (v = 0)

/-- The row's UNIT and OP, and every unused field zero (30_encoding.md R93, R103). -/
def Row.fits (r : Row) (f : Fields) : Bool :=
  decide (r.unit = f.unit) && decide (r.op = f.op) && unusedZero r.usesCh f.ch && unusedZero r.usesSel f.sel &&
    unusedZero r.usesIdx f.idx && unusedZero r.usesImm f.imm

/-- The row's `mask` of spec/opcode_table.json: UNIT, OP and every unused field. -/
def Row.mask (r : Row) : Word :=
  BitVec.ofNat 32 (0xFF000000 + (if r.usesCh then 0 else 0x800000) + (if r.usesSel then 0 else 0x400000) +
    (if r.usesIdx then 0 else 0x3F0000) + (if r.usesImm then 0 else 0xFFFF))

/-- The row's `match` of spec/opcode_table.json. -/
def Row.pattern (r : Row) : Word := BitVec.ofNat 32 (r.unit * 2 ^ 28 + r.op * 2 ^ 24)

/-- The row of a command word, where one fits (30_encoding.md R103). -/
def rowOf (w : Word) : Option Row := rows.find? fun r => r.fits (fieldsOf w)

/-- Why a transaction is no command: each is ILLEGAL_CMD (30_encoding.md R104). -/
inductive DecodeError where
  | reservedUnit
  | reservedOp
  | unusedField
  | wrongCount
  deriving DecidableEq, Repr

/-- The name of the fault of a command word that fits no row. -/
def noRowError (w : Word) : DecodeError :=
  let f := fieldsOf w
  if f.unit = 0 || decide (7 ≤ f.unit) then .reservedUnit
  else if rows.any (fun r => decide (r.unit = f.unit) && decide (r.op = f.op)) then .unusedField
  else .reservedOp

/-- CH (30_encoding.md R94). -/
def Chan.ofBit (b : Nat) : Chan := if b = 0 then .left else .right

/-- SEL of an RB command (30_encoding.md R95). -/
def RingSel.ofBit (b : Nat) : RingSel := if b = 0 then .comb else .allpass

/-- SEL of a BQ command (30_encoding.md R96). -/
def FilterSel.ofBit (b : Nat) : FilterSel := if b = 0 then .damp else .bandpass

/-- The command of a row from its fields and its operand words, in R93's operand order; none where the count of operand
words is not the row's. -/
def buildInstr (name : Op) (f : Fields) (ops : List Word) : Option Instr :=
  let ch := Chan.ofBit f.ch
  let ring := RingSel.ofBit f.sel
  let filt := FilterSel.ofBit f.sel
  match name, ops with
  | .rbPush, [v] => some (.rbPush ch ring f.idx v)
  | .rbRead, [k] => some (.rbRead ch ring f.idx k)
  | .rbWrite, [k, v] => some (.rbWrite ch ring f.idx k v)
  | .rbSetlen, [n] => some (.rbSetlen ch ring f.idx n)
  | .rbClear, [] => some (.rbClear ch ring f.idx)
  | .rbStat, [] => some (.rbStat ch ring f.idx)
  | .bqSetlp, [c, b, r] => some (.bqSetlp ch filt f.idx c b r)
  | .bqSethp, [c, b, r] => some (.bqSethp ch filt f.idx c b r)
  | .bqSetpk, [c, g, b, r] => some (.bqSetpk ch filt f.idx c g b r)
  | .bqReset, [] => some (.bqReset ch filt f.idx)
  | .bqProc, [x] => some (.bqProc ch filt f.idx x)
  | .bqLdcoef, [b0, b1, b2, a1, a2] => some (.bqLdcoef ch filt f.idx b0 b1 b2 a1 a2)
  | .bqRdcoef, [] => some (.bqRdcoef ch filt f.idx)
  | .bqRdhist, [] => some (.bqRdhist ch filt f.idx)
  | .cfCfg, [d, p, c, b, r] => some (.cfCfg ch f.idx d p c b r)
  | .cfSetg, [g] => some (.cfSetg ch f.idx g)
  | .cfProc, [x] => some (.cfProc ch f.idx x)
  | .cfRdstate, [] => some (.cfRdstate ch f.idx)
  | .apCfg, [d, p] => some (.apCfg ch f.idx d p)
  | .apSetg, [gin, g] => some (.apSetg ch f.idx gin g)
  | .apProc, [x] => some (.apProc ch f.idx x)
  | .apRdstate, [] => some (.apRdstate ch f.idx)
  | .engConfig, [r] => some (.engConfig r)
  | .engActivate, [] => some .engActivate
  | .engProcess, [] => some (.engProcess f.imm)
  | .engCleanup, [] => some .engCleanup
  | .engCsrr, [] => some (.engCsrr f.imm)
  | .engCsrw, [v] => some (.engCsrw f.imm v)
  | .memRd, [] => some (.memRd f.idx f.imm)
  | .memWr, [w] => some (.memWr f.idx f.imm w)
  | _, _ => none

/-- The decoder (30_encoding.md R103): the command a transaction holds, or the name of what is wrong with it. -/
def decode (t : Transaction) : Except DecodeError Instr :=
  match rowOf t.cmd with
  | none => .error (noRowError t.cmd)
  | some r =>
    match buildInstr r.name (fieldsOf t.cmd) t.ops with
    | none => .error .wrongCount
    | some i => .ok i

/-! ## The encoder -/

/-- CH as a bit (30_encoding.md R94). -/
def Chan.toBit : Chan → Nat
  | .left => 0
  | .right => 1

/-- SEL of an RB command as a bit (30_encoding.md R95). -/
def RingSel.toBit : RingSel → Nat
  | .comb => 0
  | .allpass => 1

/-- SEL of a BQ command as a bit (30_encoding.md R96). -/
def FilterSel.toBit : FilterSel → Nat
  | .damp => 0
  | .bandpass => 1

/-- The command word of the given fields (30_encoding.md R91). -/
def packFields (f : Fields) : Word :=
  BitVec.ofNat 32
    (f.unit * 2 ^ 28 + f.op * 2 ^ 24 + f.ch * 2 ^ 23 + f.sel * 2 ^ 22 + f.idx * 2 ^ 16 + f.imm)

/-- The command word of a row whose fields are CH, SEL and IDX. -/
def packChSelIdx (unit op : Nat) (ch : Chan) (sel idx : Nat) : Word := packFields ⟨unit, op, ch.toBit, sel, idx, 0⟩

/-- The transaction that carries a command (30_encoding.md R91, R93): its command word and its operand words. -/
def encode : Instr → Transaction
  | .rbPush ch sel idx v => ⟨packChSelIdx 1 0 ch sel.toBit idx, [v]⟩
  | .rbRead ch sel idx k => ⟨packChSelIdx 1 1 ch sel.toBit idx, [k]⟩
  | .rbWrite ch sel idx k v => ⟨packChSelIdx 1 2 ch sel.toBit idx, [k, v]⟩
  | .rbSetlen ch sel idx n => ⟨packChSelIdx 1 3 ch sel.toBit idx, [n]⟩
  | .rbClear ch sel idx => ⟨packChSelIdx 1 4 ch sel.toBit idx, []⟩
  | .rbStat ch sel idx => ⟨packChSelIdx 1 5 ch sel.toBit idx, []⟩
  | .bqSetlp ch sel idx c b r => ⟨packChSelIdx 2 0 ch sel.toBit idx, [c, b, r]⟩
  | .bqSethp ch sel idx c b r => ⟨packChSelIdx 2 1 ch sel.toBit idx, [c, b, r]⟩
  | .bqSetpk ch sel idx c g b r => ⟨packChSelIdx 2 2 ch sel.toBit idx, [c, g, b, r]⟩
  | .bqReset ch sel idx => ⟨packChSelIdx 2 3 ch sel.toBit idx, []⟩
  | .bqProc ch sel idx x => ⟨packChSelIdx 2 4 ch sel.toBit idx, [x]⟩
  | .bqLdcoef ch sel idx b0 b1 b2 a1 a2 => ⟨packChSelIdx 2 5 ch sel.toBit idx, [b0, b1, b2, a1, a2]⟩
  | .bqRdcoef ch sel idx => ⟨packChSelIdx 2 6 ch sel.toBit idx, []⟩
  | .bqRdhist ch sel idx => ⟨packChSelIdx 2 7 ch sel.toBit idx, []⟩
  | .cfCfg ch idx d p c b r => ⟨packChSelIdx 3 0 ch 0 idx, [d, p, c, b, r]⟩
  | .cfSetg ch idx g => ⟨packChSelIdx 3 1 ch 0 idx, [g]⟩
  | .cfProc ch idx x => ⟨packChSelIdx 3 2 ch 0 idx, [x]⟩
  | .cfRdstate ch idx => ⟨packChSelIdx 3 3 ch 0 idx, []⟩
  | .apCfg ch idx d p => ⟨packChSelIdx 4 0 ch 0 idx, [d, p]⟩
  | .apSetg ch idx gin g => ⟨packChSelIdx 4 1 ch 0 idx, [gin, g]⟩
  | .apProc ch idx x => ⟨packChSelIdx 4 2 ch 0 idx, [x]⟩
  | .apRdstate ch idx => ⟨packChSelIdx 4 3 ch 0 idx, []⟩
  | .engConfig r => ⟨packFields ⟨5, 0, 0, 0, 0, 0⟩, [r]⟩
  | .engActivate => ⟨packFields ⟨5, 1, 0, 0, 0, 0⟩, []⟩
  | .engProcess n => ⟨packFields ⟨5, 2, 0, 0, 0, n⟩, []⟩
  | .engCleanup => ⟨packFields ⟨5, 3, 0, 0, 0, 0⟩, []⟩
  | .engCsrr a => ⟨packFields ⟨5, 4, 0, 0, 0, a⟩, []⟩
  | .engCsrw a v => ⟨packFields ⟨5, 5, 0, 0, 0, a⟩, [v]⟩
  | .memRd sp a => ⟨packFields ⟨6, 0, 0, 0, sp, a⟩, []⟩
  | .memWr sp a w => ⟨packFields ⟨6, 1, 0, 0, sp, a⟩, [w]⟩

/-- The one command each pseudo-instruction expands to (30_encoding.md R108). -/
def Pseudo.expand : Pseudo → Instr
  | .rbPeek ch sel idx => .rbRead ch sel idx 0
  | .engSetmode m => .engCsrw 0x0014 m
  | .engSetflags v => .engCsrw 0x0013 v
  | .engSetdecay t => .engCsrw 0x0010 t
  | .engClrerr => .engCsrw 0x0001 0
  | .engStatus => .engCsrr 0x0000

/-! ## The opcode table's numbering -/

/-- `n` operand words from the bits of a number, the first in bits 31:0. -/
def operandWords : Nat → Nat → List Word
  | 0, _ => []
  | n + 1, v => BitVec.ofNat 32 v :: operandWords n (v / 2 ^ 32)

/-- The transaction of an instruction given as one number (bit 0 is the least significant bit of the command word, and
the operand words count on from bit 32), of which `nbits` bits are given and the rest are 0. The host link carries the
count the command's row requires (30_encoding.md R90; log 11). -/
def tableTransaction (nbits w : Nat) : Transaction :=
  let v := w % 2 ^ nbits
  let cmd := BitVec.ofNat 32 v
  let count := match rowOf cmd with
    | some r => r.count
    | none => 0
  ⟨cmd, operandWords count (v / 2 ^ 32)⟩

/-- The instruction the decoder reads from an instruction whose bits are `w`. -/
def decodeTableWord (nbits w : Nat) : Option Instr :=
  match decode (tableTransaction nbits w) with
  | .ok i => some i
  | .error _ => none

end Sys2Proof
end

