-- ==== Sys2Proof/Machine/HostLink.lean ====
section
/-! DEFINITION. How the block takes a transaction from the host link (30_encoding.md R90, R103; log 10). -/

namespace Sys2Proof.Machine

/-- The state with the transactions not yet taken replaced. -/
def State.setLink (s : State) (l : List Transaction) : State := { s with link := l }

/-- What a transaction asks for: its command, or ILLEGAL_CMD (30_encoding.md R103, R104). -/
def commandOf (t : Transaction) : Except ErrorCode Instr :=
  match decode t with
  | .ok i => .ok i
  | .error _ => .error .illegalCmd

/-- Deliver a transaction as the next one the block takes. -/
def State.deliver (s : State) (t : Transaction) : State := s.setLink (t :: s.link)

end Sys2Proof.Machine
end

