-- ==== Sys2Proof/Machine/Step.lean ====
section
/-! DEFINITION. One step: one transaction, taken from the host link and run to completion (00_scope.md R9, 10_state.md R21,
20_memory.md R65). -/

namespace Sys2Proof.Machine

/-- One step. With no transaction delivered the block holds its state (60_exceptions.md R316); a transaction that decodes to
no command fails with ILLEGAL_CMD (30_encoding.md R103); any other runs its command. -/
def step (s : State) : Host.Outcome State Fault Refusal :=
  match s.link with
  | [] => .next s
  | t :: rest =>
    match commandOf t with
    | .error e => failWith (s.setLink rest) e
    | .ok i => exec i (s.setLink rest)

/-- The state with the instruction `w`, numbered as the opcode table numbers it, delivered as the next transaction
(log 10, log 11). -/
def State.withFetchWord (s : State) (nbits w : Nat) : State := s.deliver (tableTransaction nbits w)

end Sys2Proof.Machine
end

