-- ==== Sys2Proof/Machine/Assembly.lean ====
section
/-! DEFINITION. The assembler syntax: one line of text to one command (30_encoding.md R106 to R108; log 15). No step reads
it: the host link carries words. -/

namespace Sys2Proof.Machine

/-! ## Text -/

/-- What separates words of a line. -/
def isBlank (c : Char) : Bool := c = ' ' || c = '\t'

/-- The text without blanks at either end. -/
def trimBlanks (t : List Char) : List Char := ((t.dropWhile isBlank).reverse.dropWhile isBlank).reverse

/-- The number a digit stands for in base 16. -/
def hexDigit (c : Char) : Option Nat :=
  if '0' ≤ c ∧ c ≤ '9' then some (c.toNat - '0'.toNat)
  else if 'a' ≤ c ∧ c ≤ 'f' then some (c.toNat - 'a'.toNat + 10)
  else if 'A' ≤ c ∧ c ≤ 'F' then some (c.toNat - 'A'.toNat + 10)
  else none

/-- The number a run of digits adds to `acc`. -/
def digitsFrom (base : Nat) : Nat → List Char → Option Nat
  | acc, [] => some acc
  | acc, c :: cs =>
    match hexDigit c with
    | some d => if d < base then digitsFrom base (acc * base + d) cs else none
    | none => none

/-- The number a run of at least one digit stands for. -/
def digits (base : Nat) (t : List Char) : Option Nat := if t.isEmpty then none else digitsFrom base 0 t

/-! ## Literals (30_encoding.md R107) -/

/-- A literal. -/
inductive Literal where
  /-- a decimal integer, or a hexadecimal word -/
  | integer (n : Nat)
  /-- a literal with a decimal point or an exponent: `± num · 10^exp` -/
  | real (negative : Bool) (num : Nat) (exp : Int)
  deriving DecidableEq, Repr

/-- A signed decimal exponent. -/
def exponentOf : List Char → Option Int
  | '-' :: t => (digits 10 t).map fun n => -(n : Int)
  | '+' :: t => (digits 10 t).map fun n => (n : Int)
  | t => (digits 10 t).map fun n => (n : Int)

/-- Is this an exponent mark. -/
def isExpMark (c : Char) : Bool := c = 'e' || c = 'E'

/-- A literal with a decimal point or an exponent, without its sign. -/
def realOf (negative : Bool) (t : List Char) : Option Literal :=
  let mantissa := t.takeWhile fun c => !isExpMark c
  let whole := mantissa.takeWhile fun c => c ≠ '.'
  let fracDigits := (mantissa.dropWhile fun c => c ≠ '.').drop 1
  let exponent : Option Int := if t.any isExpMark then exponentOf ((t.dropWhile fun c => !isExpMark c).drop 1) else some 0
  match digits 10 (whole ++ fracDigits), exponent with
  | some num, some e => some (.real negative num (e - fracDigits.length))
  | _, _ => none

/-- A literal of either kind. -/
def literalOf : List Char → Option Literal
  | '0' :: 'x' :: t => (digits 16 t).map .integer
  | '-' :: t => if t.any fun c => c = '.' || isExpMark c then realOf true t else none
  | t => if t.any fun c => c = '.' || isExpMark c then realOf false t else (digits 10 t).map .integer

/-- The binary32 value nearest to `± num · 10^exp`, ties to even (30_encoding.md R107). A quotient keeps two bits below
2^-149 and one bit that says whether anything was cut off. -/
def decimalToF32 (negative : Bool) (num : Nat) (exp : Int) : F32 :=
  match exp with
  | .ofNat e => F32.ofMag negative (roundMag (num * 10 ^ e * 2 ^ 149) 0)
  | .negSucc e =>
    let n := num * 2 ^ 151
    let d := 10 ^ (e + 1)
    F32.ofMag negative (roundMag (n / d * 2 + (if n % d = 0 then 0 else 1)) 3)

/-- The type of an operand position (30_encoding.md R100). -/
inductive Slot where
  | u32
  | f32
  | sample
  deriving DecidableEq, Repr

/-- An integer that fits a word. -/
def wordOf (n : Nat) : Option Word := if n < 2 ^ 32 then some (BitVec.ofNat 32 n) else none

/-- The operand word of a literal in a position (30_encoding.md R107). -/
def Params.literalWord (p : Params) : Slot → Literal → Option Word
  | _, .integer n => wordOf n
  | .u32, .real _ _ _ => none
  | .f32, .real neg num exp => some (decimalToF32 neg num exp)
  | .sample, .real neg num exp => some (p.f2s (decimalToF32 neg num exp))

/-- The operand words of a list of texts, one for each position and no more. -/
def Params.operandTexts (p : Params) : List Slot → List (List Char) → Option (List Word)
  | [], [] => some []
  | s :: ss, t :: ts =>
    match literalOf t, p.operandTexts ss ts with
    | some l, some ws => (p.literalWord s l).map fun w => w :: ws
    | _, _ => none
  | _, _ => none

/-! ## Names (30_encoding.md R106) -/

/-- The mnemonics, in lower case. -/
def mnemonics : List (String × Op) :=
  [ ("rb.push", .rbPush), ("rb.read", .rbRead), ("rb.write", .rbWrite), ("rb.setlen", .rbSetlen), ("rb.clear", .rbClear),
    ("rb.stat", .rbStat), ("bq.setlp", .bqSetlp), ("bq.sethp", .bqSethp), ("bq.setpk", .bqSetpk), ("bq.reset", .bqReset),
    ("bq.proc", .bqProc), ("bq.ldcoef", .bqLdcoef), ("bq.rdcoef", .bqRdcoef), ("bq.rdhist", .bqRdhist),
    ("cf.cfg", .cfCfg), ("cf.setg", .cfSetg), ("cf.proc", .cfProc), ("cf.rdstate", .cfRdstate), ("ap.cfg", .apCfg),
    ("ap.setg", .apSetg), ("ap.proc", .apProc), ("ap.rdstate", .apRdstate), ("eng.config", .engConfig),
    ("eng.activate", .engActivate), ("eng.process", .engProcess), ("eng.cleanup", .engCleanup), ("eng.csrr", .engCsrr),
    ("eng.csrw", .engCsrw), ("mem.rd", .memRd), ("mem.wr", .memWr) ]

/-- The register names (10_state.md R36). -/
def csrNames : List (String × Csr) :=
  [ ("STATUS", .status), ("ERRCLR", .errclr), ("SAMPLE_RATE", .sampleRate), ("RECOMPUTE_COUNT", .recomputeCount),
    ("NUM_MODES", .numModes), ("MAX_COMBS", .maxCombs), ("MAX_APS", .maxAps), ("RB_CAP", .rbCap),
    ("BLOCK_MAX", .blockMax), ("FS_MAX", .fsMax), ("NUMERIC", .numeric), ("DECAY_MS", .decayMs), ("DRY_DB", .dryDb),
    ("WET_DB", .wetDb), ("FLAGS", .flags), ("MODE", .mode), ("ACTIVE_COMBS", .activeCombs), ("ACTIVE_APS", .activeAps),
    ("CACHE_DECAY", .cacheDecay), ("CACHE_STEREO", .cacheStereo), ("CACHE_MODE", .cacheMode) ]

/-- The space names and ids (30_encoding.md R106, R98). -/
def spaceNames : List (String × Nat) := [("inl", 0), ("inr", 1), ("outl", 2), ("outr", 3), ("rom", 4)]

/-- The value a name has in a table. -/
def lookName {α : Type} (table : List (String × α)) (t : List Char) : Option α :=
  (table.find? fun r => r.1.toList = t).map fun r => r.2

/-- The number of an integer literal, decimal or hexadecimal (30_encoding.md R107; log 15 for what fields take one). -/
def integerOf (t : List Char) : Option Nat :=
  match literalOf t with
  | some (.integer n) => some n
  | _ => none

/-- The address of a register given by its name, or by a number (log 15). -/
def csrAddrOf (t : List Char) : Option Nat :=
  match lookName csrNames t with
  | some c => some c.addr
  | none => integerOf t

/-- CH of a channel name. -/
def channelOf : List Char → Option Nat
  | ['L'] => some 0
  | ['R'] => some 1
  | _ => none

/-- SEL and IDX of an instance name of a unit; the index is decimal (30_encoding.md R106; log 15). -/
def instanceOf (unit : Nat) (t : List Char) : Option (Nat × Nat) :=
  match unit, t with
  | 1, 'c' :: i => (digits 10 i).map fun n => (0, n)
  | 1, 'a' :: j => (digits 10 j).map fun n => (1, n)
  | 2, 'd' :: i => (digits 10 i).map fun n => (0, n)
  | 2, ['l', 'p'] => some (1, 0)
  | 2, ['h', 'p'] => some (1, 1)
  | 3, i => (digits 10 i).map fun n => (0, n)
  | 4, i => (digits 10 i).map fun n => (0, n)
  | _, _ => none

/-- The operand positions of a command (30_encoding.md R93, R100). -/
def opSlots : Op → List Slot
  | .rbPush => [.sample]
  | .rbRead => [.u32]
  | .rbWrite => [.u32, .sample]
  | .rbSetlen => [.u32]
  | .bqSetlp => [.f32, .f32, .u32]
  | .bqSethp => [.f32, .f32, .u32]
  | .bqSetpk => [.f32, .f32, .f32, .u32]
  | .bqProc => [.f32]
  | .bqLdcoef => [.f32, .f32, .f32, .f32, .f32]
  | .cfCfg => [.u32, .f32, .f32, .f32, .u32]
  | .cfSetg => [.f32]
  | .cfProc => [.sample]
  | .apCfg => [.u32, .f32]
  | .apSetg => [.f32, .f32]
  | .apProc => [.sample]
  | .engConfig => [.u32]
  | .engCsrw => [.u32]
  | .memWr => [.sample]
  | _ => []

/-- The position of the value of a register write: binary32 for the three binary32 controls (10_state.md R36). -/
def csrSlot (addr : Nat) : Slot := if addr = 0x10 ∨ addr = 0x11 ∨ addr = 0x12 then .f32 else .u32

/-! ## Lines -/

/-- The comment cut off (30_encoding.md R106). -/
def withoutComment (t : List Char) : List Char := t.takeWhile fun c => c ≠ ';'

/-- The operand texts of a line, split at commas. -/
def operandsOf (t : List Char) : List (List Char) :=
  if (trimBlanks t).isEmpty then [] else (t.splitOn ',').map trimBlanks

/-- The fields a line names, its operand positions, and the operand texts after the fields. -/
def lineFields (r : Row) : List (List Char) → Option (Fields × List Slot × List (List Char))
  | args =>
    if r.usesCh then
      match args with
      | c :: i :: rest =>
        match channelOf c, instanceOf r.unit i with
        | some ch, some (sel, idx) =>
          if idxFits idx then some (⟨r.unit, r.op, ch, sel, idx, 0⟩, opSlots r.name, rest) else none
        | _, _ => none
      | _ => none
    else if r.usesIdx then
      match args with
      | sp :: a :: rest =>
        match lookName spaceNames sp, integerOf a with
        | some space, some addr =>
          if immFits addr then some (⟨r.unit, r.op, 0, 0, space, addr⟩, opSlots r.name, rest) else none
        | _, _ => none
      | _ => none
    else if r.usesImm then
      match args with
      | a :: rest =>
        match if r.name = .engProcess then integerOf a else csrAddrOf a with
        | some imm =>
          if immFits imm then
            some (⟨r.unit, r.op, 0, 0, 0, imm⟩, if r.name = .engCsrw then [csrSlot imm] else [], rest)
          else none
        | none => none
      | _ => none
    else some (⟨r.unit, r.op, 0, 0, 0, 0⟩, opSlots r.name, args)

/-- A command line of a mnemonic of the opcode map (30_encoding.md R106). -/
def Params.assembleCommand (p : Params) (name : Op) (args : List (List Char)) : Option Instr :=
  match rows.find? fun r => r.name = name with
  | none => none
  | some r =>
    match lineFields r args with
    | none => none
    | some (f, slots, texts) => (p.operandTexts slots texts).bind fun ws => buildInstr name f ws

/-- One operand of a pseudo-instruction. -/
def Params.oneOperand (p : Params) (slot : Slot) : List (List Char) → Option Word
  | [t] => (literalOf t).bind fun l => p.literalWord slot l
  | _ => none

/-- A line of a pseudo-instruction (30_encoding.md R108). -/
def Params.pseudoOf (p : Params) (name : List Char) (args : List (List Char)) : Option Pseudo :=
  if name = "rb.peek".toList then
    match args with
    | [c, i] =>
      match channelOf c, instanceOf 1 i with
      | some ch, some (sel, idx) =>
        if idxFits idx then some (.rbPeek (Chan.ofBit ch) (RingSel.ofBit sel) idx) else none
      | _, _ => none
    | _ => none
  else if name = "eng.setmode".toList then (p.oneOperand .u32 args).map .engSetmode
  else if name = "eng.setflags".toList then (p.oneOperand .u32 args).map .engSetflags
  else if name = "eng.setdecay".toList then (p.oneOperand .f32 args).map .engSetdecay
  else if name = "eng.clrerr".toList then (if args.isEmpty then some .engClrerr else none)
  else if name = "eng.status".toList then (if args.isEmpty then some .engStatus else none)
  else none

/-- The command of a line; none where the line is not in the syntax, or holds no command. -/
def Params.assemble (p : Params) (line : List Char) : Option Instr :=
  let t := trimBlanks (withoutComment line)
  let name := t.takeWhile fun c => !isBlank c
  let args := operandsOf (t.dropWhile fun c => !isBlank c)
  match lookName mnemonics name with
  | some op => p.assembleCommand op args
  | none => (p.pseudoOf name args).map Pseudo.expand

/-! ## Writing a line -/

/-- The digit of a number below 16. -/
def digitChar (d : Nat) : Char := if d < 10 then Char.ofNat (48 + d) else Char.ofNat (87 + d)

/-- A number in a base, without leading zeros, for a number of at most `width` digits. -/
def numeral (base : Nat) : Nat → Nat → List Char
  | 0, _ => []
  | width + 1, n => (if n < base then [] else numeral base width (n / base)) ++ [digitChar (n % base)]

/-- A number below 2^32 as an integer literal of either kind (30_encoding.md R107). -/
def integerText (hex : Bool) (n : Nat) : List Char := if hex then '0' :: 'x' :: numeral 16 8 n else numeral 10 10 n

/-- A word as a hexadecimal literal, which stands for the word itself in any position (30_encoding.md R107). -/
def wordText (w : Word) : List Char := integerText true w.toNat

/-- A channel's name (30_encoding.md R106). -/
def chanText : Chan → List Char
  | .left => ['L']
  | .right => ['R']

/-- A ring's name (30_encoding.md R106). -/
def ringText (sel : RingSel) (idx : Nat) : List Char := (if sel = .comb then 'c' else 'a') :: integerText false idx

/-- A filter's name (30_encoding.md R106). -/
def filterText (sel : FilterSel) (idx : Nat) : List Char :=
  if sel = .damp then 'd' :: integerText false idx else if idx = 0 then ['l', 'p'] else ['h', 'p']

/-- A register's name (30_encoding.md R106, 10_state.md R36); a number for an address of no register (log 15). -/
def csrText (hex : Bool) : Nat → List Char
  | 0x0000 => "STATUS".toList
  | 0x0001 => "ERRCLR".toList
  | 0x0002 => "SAMPLE_RATE".toList
  | 0x0003 => "RECOMPUTE_COUNT".toList
  | 0x0004 => "NUM_MODES".toList
  | 0x0005 => "MAX_COMBS".toList
  | 0x0006 => "MAX_APS".toList
  | 0x0007 => "RB_CAP".toList
  | 0x0008 => "BLOCK_MAX".toList
  | 0x0009 => "FS_MAX".toList
  | 0x000A => "NUMERIC".toList
  | 0x0010 => "DECAY_MS".toList
  | 0x0011 => "DRY_DB".toList
  | 0x0012 => "WET_DB".toList
  | 0x0013 => "FLAGS".toList
  | 0x0014 => "MODE".toList
  | 0x0020 => "ACTIVE_COMBS".toList
  | 0x0021 => "ACTIVE_APS".toList
  | 0x0022 => "CACHE_DECAY".toList
  | 0x0023 => "CACHE_STEREO".toList
  | 0x0024 => "CACHE_MODE".toList
  | a => integerText hex a

/-- A space's name; none past the ROM (30_encoding.md R106, R98). -/
def spaceText : Nat → List Char
  | 0 => "inl".toList
  | 1 => "inr".toList
  | 2 => "outl".toList
  | 3 => "outr".toList
  | 4 => "rom".toList
  | _ => []

/-- A mnemonic and the texts after it. -/
def lineOf (name : String) : List (List Char) → List Char
  | [] => name.toList
  | arg :: args => name.toList ++ ' ' :: (arg ++ (args.map fun a => ',' :: ' ' :: a).flatten)

/-- A line of a command (30_encoding.md R106): its integers in decimal or in hexadecimal, its other words in
hexadecimal. -/
def commandLine (hex : Bool) : Instr → List Char
  | .rbPush ch sel idx v => lineOf "rb.push" [chanText ch, ringText sel idx, wordText v]
  | .rbRead ch sel idx k => lineOf "rb.read" [chanText ch, ringText sel idx, integerText hex k.toNat]
  | .rbWrite ch sel idx k v => lineOf "rb.write" [chanText ch, ringText sel idx, integerText hex k.toNat, wordText v]
  | .rbSetlen ch sel idx n => lineOf "rb.setlen" [chanText ch, ringText sel idx, integerText hex n.toNat]
  | .rbClear ch sel idx => lineOf "rb.clear" [chanText ch, ringText sel idx]
  | .rbStat ch sel idx => lineOf "rb.stat" [chanText ch, ringText sel idx]
  | .bqSetlp ch sel idx c b fs =>
    lineOf "bq.setlp" [chanText ch, filterText sel idx, wordText c, wordText b, integerText hex fs.toNat]
  | .bqSethp ch sel idx c b fs =>
    lineOf "bq.sethp" [chanText ch, filterText sel idx, wordText c, wordText b, integerText hex fs.toNat]
  | .bqSetpk ch sel idx c g b fs =>
    lineOf "bq.setpk" [chanText ch, filterText sel idx, wordText c, wordText g, wordText b, integerText hex fs.toNat]
  | .bqReset ch sel idx => lineOf "bq.reset" [chanText ch, filterText sel idx]
  | .bqProc ch sel idx x => lineOf "bq.proc" [chanText ch, filterText sel idx, wordText x]
  | .bqLdcoef ch sel idx b0 b1 b2 a1 a2 =>
    lineOf "bq.ldcoef" ([chanText ch, filterText sel idx] ++ [b0, b1, b2, a1, a2].map wordText)
  | .bqRdcoef ch sel idx => lineOf "bq.rdcoef" [chanText ch, filterText sel idx]
  | .bqRdhist ch sel idx => lineOf "bq.rdhist" [chanText ch, filterText sel idx]
  | .cfCfg ch idx d p c b fs =>
    lineOf "cf.cfg"
      [chanText ch, integerText false idx, integerText hex d.toNat, wordText p, wordText c, wordText b,
        integerText hex fs.toNat]
  | .cfSetg ch idx g => lineOf "cf.setg" [chanText ch, integerText false idx, wordText g]
  | .cfProc ch idx x => lineOf "cf.proc" [chanText ch, integerText false idx, wordText x]
  | .cfRdstate ch idx => lineOf "cf.rdstate" [chanText ch, integerText false idx]
  | .apCfg ch idx d p => lineOf "ap.cfg" [chanText ch, integerText false idx, integerText hex d.toNat, wordText p]
  | .apSetg ch idx gin g => lineOf "ap.setg" [chanText ch, integerText false idx, wordText gin, wordText g]
  | .apProc ch idx x => lineOf "ap.proc" [chanText ch, integerText false idx, wordText x]
  | .apRdstate ch idx => lineOf "ap.rdstate" [chanText ch, integerText false idx]
  | .engConfig fs => lineOf "eng.config" [integerText hex fs.toNat]
  | .engActivate => lineOf "eng.activate" []
  | .engProcess n => lineOf "eng.process" [integerText hex n]
  | .engCleanup => lineOf "eng.cleanup" []
  | .engCsrr addr => lineOf "eng.csrr" [csrText hex addr]
  | .engCsrw addr v =>
    lineOf "eng.csrw" [csrText hex addr, if csrSlot addr = .f32 then wordText v else integerText hex v.toNat]
  | .memRd space addr => lineOf "mem.rd" [spaceText space, integerText hex addr]
  | .memWr space addr w => lineOf "mem.wr" [spaceText space, integerText hex addr, wordText w]

/-- The syntax has a name for what the command selects: it names no filter of the bandpass pair past `hp` and no space
past `rom` (30_encoding.md R106). -/
def commandHasLine : Instr → Bool
  | .bqSetlp _ sel idx _ _ _ | .bqSethp _ sel idx _ _ _ | .bqSetpk _ sel idx _ _ _ _ | .bqReset _ sel idx
  | .bqProc _ sel idx _ | .bqLdcoef _ sel idx _ _ _ _ _ | .bqRdcoef _ sel idx | .bqRdhist _ sel idx =>
    decide (sel = .damp) || decide (idx < 2)
  | .memRd space _ | .memWr space _ _ => decide (space < 5)
  | .rbPush _ _ _ _ | .rbRead _ _ _ _ | .rbWrite _ _ _ _ _ | .rbSetlen _ _ _ _ | .rbClear _ _ _ | .rbStat _ _ _ => true
  | .cfCfg _ _ _ _ _ _ _ | .cfSetg _ _ _ | .cfProc _ _ _ | .cfRdstate _ _ => true
  | .apCfg _ _ _ _ | .apSetg _ _ _ _ | .apProc _ _ _ | .apRdstate _ _ => true
  | .engConfig _ | .engActivate | .engProcess _ | .engCleanup | .engCsrr _ | .engCsrw _ _ => true

/-- A line of a pseudo-instruction (30_encoding.md R108). -/
def pseudoLine (hex : Bool) : Pseudo → List Char
  | .rbPeek ch sel idx => lineOf "rb.peek" [chanText ch, ringText sel idx]
  | .engSetmode m => lineOf "eng.setmode" [integerText hex m.toNat]
  | .engSetflags v => lineOf "eng.setflags" [integerText hex v.toNat]
  | .engSetdecay t => lineOf "eng.setdecay" [wordText t]
  | .engClrerr => lineOf "eng.clrerr" []
  | .engStatus => lineOf "eng.status" []

end Sys2Proof.Machine
end

