-- ==== Sys2Proof/Safety.lean ====
section
/-! DEFINITION. What counts as a safe state, what a command may touch, and the other words the statements use. -/

namespace Sys2Proof.Machine

/-! ## How a command ends -/

/-- The state a failing command leaves: only the sticky error code, set if it was 0, and the response (60_exceptions.md R301,
R303). -/
def State.failed (s : State) (code : BitVec 8) : State :=
  { s with
    errCode := if s.errCode = 0 then code else s.errCode
    responses := ⟨code.zeroExtend 32, []⟩ :: s.responses }

/-- The state a command leaves that succeeds and changes nothing: only the response. -/
def State.answered (s : State) (data : List Word) : State := { s with responses := ⟨0, data⟩ :: s.responses }

/-- The states in which a command is accepted (45_engine.md R241): the RB, BQ, CF and AP commands and ENG.PROCESS in RUNNING
alone, ENG.ACTIVATE not in UNINIT, every other command in every state. -/
def acceptedIn (e : EngineState) : Instr → Bool
  | .rbPush _ _ _ _ | .rbRead _ _ _ _ | .rbWrite _ _ _ _ _ | .rbSetlen _ _ _ _ | .rbClear _ _ _ | .rbStat _ _ _ =>
    decide (e = .running)
  | .bqSetlp _ _ _ _ _ _ | .bqSethp _ _ _ _ _ _ | .bqSetpk _ _ _ _ _ _ _ | .bqReset _ _ _ | .bqProc _ _ _ _
  | .bqLdcoef _ _ _ _ _ _ _ _ | .bqRdcoef _ _ _ | .bqRdhist _ _ _ => decide (e = .running)
  | .cfCfg _ _ _ _ _ _ _ | .cfSetg _ _ _ | .cfProc _ _ _ | .cfRdstate _ _ => decide (e = .running)
  | .apCfg _ _ _ _ | .apSetg _ _ _ _ | .apProc _ _ _ | .apRdstate _ _ => decide (e = .running)
  | .engProcess _ => decide (e = .running)
  | .engActivate => decide (e ≠ .uninit)
  | .engConfig _ | .engCleanup | .engCsrr _ | .engCsrw _ _ | .memRd _ _ | .memWr _ _ _ => true

/-- The instance index of a command names an instance of the block (30_encoding.md R95 to R97). -/
def namesInstance (p : Params) : Instr → Bool
  | .rbPush _ sel i _ | .rbRead _ sel i _ | .rbWrite _ sel i _ _ | .rbSetlen _ sel i _ | .rbClear _ sel i
  | .rbStat _ sel i => p.hasRing sel i
  | .bqSetlp _ sel i _ _ _ | .bqSethp _ sel i _ _ _ | .bqSetpk _ sel i _ _ _ _ | .bqReset _ sel i | .bqProc _ sel i _
  | .bqLdcoef _ sel i _ _ _ _ _ | .bqRdcoef _ sel i | .bqRdhist _ sel i => p.hasFilter sel i
  | .cfCfg _ i _ _ _ _ _ | .cfSetg _ i _ | .cfProc _ i _ | .cfRdstate _ i => p.hasComb i
  | .apCfg _ j _ _ | .apSetg _ j _ _ | .apProc _ j _ | .apRdstate _ j => p.hasAp j
  | .engConfig _ | .engActivate | .engProcess _ | .engCleanup | .engCsrr _ | .engCsrw _ _ | .memRd _ _
  | .memWr _ _ _ => true

/-- How many data words a command that succeeds answers (30_encoding.md R93, R102). -/
def responseCount : Instr → Nat
  | .rbPush _ _ _ _ | .rbRead _ _ _ _ => 1
  | .rbWrite _ _ _ _ _ | .rbSetlen _ _ _ _ | .rbClear _ _ _ => 0
  | .rbStat _ _ _ => 2
  | .bqSetlp _ _ _ _ _ _ | .bqSethp _ _ _ _ _ _ | .bqSetpk _ _ _ _ _ _ _ | .bqReset _ _ _ => 0
  | .bqProc _ _ _ _ => 1
  | .bqLdcoef _ _ _ _ _ _ _ _ => 0
  | .bqRdcoef _ _ _ => 5
  | .bqRdhist _ _ _ => 4
  | .cfCfg _ _ _ _ _ _ _ | .cfSetg _ _ _ => 0
  | .cfProc _ _ _ => 1
  | .cfRdstate _ _ => 5
  | .apCfg _ _ _ _ | .apSetg _ _ _ _ => 0
  | .apProc _ _ _ => 1
  | .apRdstate _ _ => 5
  | .engConfig _ | .engActivate | .engProcess _ | .engCleanup => 0
  | .engCsrr _ => 1
  | .engCsrw _ _ => 0
  | .memRd _ _ => 1
  | .memWr _ _ _ => 0

/-- A run of commands, each of which answers a next state. -/
def execAll : List Instr → State → Option State
  | [], s => some s
  | i :: is, s =>
    match exec i s with
    | .next t => execAll is t
    | .fault _ => none
    | .refused _ => none

/-! ## What a command leaves alone -/

/-- Every engine register and every stored control register holds what it held, and so does the link. -/
structure SameRegisters (s t : State) : Prop where
  params : t.params = s.params
  estate : t.estate = s.estate
  errCode : t.errCode = s.errCode
  fs : t.fs = s.fs
  recomputeCount : t.recomputeCount = s.recomputeCount
  nC : t.nC = s.nC
  nA : t.nA = s.nA
  cacheT : t.cacheT = s.cacheT
  cacheS : t.cacheS = s.cacheS
  cacheM : t.cacheM = s.cacheM
  decayMs : t.decayMs = s.decayMs
  dryDb : t.dryDb = s.dryDb
  wetDb : t.wetDb = s.wetDb
  flags : t.flags = s.flags
  mode : t.mode = s.mode
  link : t.link = s.link

/-- Every word of every sample bank reads as it read. -/
def SameBanks (s t : State) : Prop := ∀ b a, t.readBank b a = s.readBank b a

/-- The registers of a comb other than its ring and its damping filter (10_state.md R29). -/
def Comb.SameRegs (c d : Comb) : Prop :=
  d.g = c.g ∧ d.last = c.last ∧ d.pct = c.pct ∧ d.bright = c.bright ∧ d.base = c.base

/-- The registers of an allpass other than its ring (10_state.md R30). -/
def Allpass.SameRegs (a b : Allpass) : Prop :=
  b.gin = a.gin ∧ b.g = a.g ∧ b.last = a.last ∧ b.pct = a.pct ∧ b.base = a.base

/-- Everything but the named rings, filters, comb registers, allpass registers and the list of responses is as it was. -/
structure Untouched (s t : State) (rings : Chan → RingSel → Nat → Prop) (filters : Chan → FilterSel → Nat → Prop)
    (combs aps : Chan → Nat → Prop) : Prop where
  registers : SameRegisters s t
  banks : SameBanks s t
  rings : ∀ ch sel i, s.params.hasRing sel i = true → ¬rings ch sel i → t.ring ch sel i = s.ring ch sel i
  filters : ∀ ch sel i, s.params.hasFilter sel i = true → ¬filters ch sel i → t.filter ch sel i = s.filter ch sel i
  combs : ∀ ch i, s.params.hasComb i = true → ¬combs ch i → (s.comb ch i).SameRegs (t.comb ch i)
  aps : ∀ ch j, s.params.hasAp j = true → ¬aps ch j → (s.ap ch j).SameRegs (t.ap ch j)

/-- No ring, or no filter. -/
def noneOf {α : Type} : Chan → α → Nat → Prop := fun _ _ _ => False

/-- No line. -/
def noLine : Chan → Nat → Prop := fun _ _ => False

/-- One ring, or one filter. -/
def only {α : Type} (ch : Chan) (sel : α) (idx : Nat) : Chan → α → Nat → Prop := fun c k i => c = ch ∧ k = sel ∧ i = idx

/-- One line. -/
def onlyLine (ch : Chan) (idx : Nat) : Chan → Nat → Prop := fun c i => c = ch ∧ i = idx

/-! ## The invariant of a built block -/

/-- MAX_COMBS combs and MAX_APS allpasses (10_state.md R23). -/
def Channel.shaped (p : Params) (c : Channel) : Bool :=
  decide (c.combs.length = p.maxCombs) && decide (c.aps.length = p.maxAps)

/-- Every ring meets its invariant (10_state.md R27). -/
def Channel.ringsWf (p : Params) (c : Channel) : Bool :=
  (c.combs.all fun x => x.ring.wf p.rbCap) && c.aps.all fun x => x.ring.wf p.rbCap

/-- A comb the engine may run: each length stereo enhancement can give it is in 1..RB_CAP, and its descriptor is in the
domain of 44_coefficients.md R212. -/
def Comb.usable (p : Params) (i : Nat) (c : Comb) : Bool :=
  decide (p.lineCheck c.base.toNat i = none) && finitePos c.pct && F32.le 0 c.bright && F32.le c.bright F32.one

/-- An allpass the engine may run. -/
def Allpass.usable (p : Params) (j : Nat) (a : Allpass) : Bool :=
  decide (p.lineCheck a.base.toNat j = none) && finitePos a.pct

/-- Every active line is usable (45_engine.md R243, R258). -/
def Channel.linesUsable (p : Params) (nC nA : Nat) (c : Channel) : Bool :=
  ((List.range nC).all fun i => (c.comb i).usable p i) && (List.range nA).all fun j => (c.ap j).usable p j

/-- What UNINIT leaves of the engine registers (10_state.md R48, 45_engine.md R250). -/
def State.released (s : State) : Bool :=
  decide (s.fs = 0) && decide (s.nC = 0) && decide (s.nA = 0) && decide (s.cacheT = 0) && decide (s.cacheS = false) &&
    decide (s.cacheM = 0)

/-- What CONFIGURED and RUNNING keep: a checked rate, the topology of the mode last loaded, a clamped decay time, usable
active lines and rings that meet their invariant. -/
def State.configuredOk (s : State) : Bool :=
  decide (1 ≤ s.fs.toNat) && decide (s.fs.toNat ≤ s.params.fsMax) && decide (s.params.romCheck s.fs.toNat = none) &&
    decide (s.nC = s.params.nComb s.cacheM.toNat) && decide (s.nA = s.params.nAp s.cacheM.toNat) &&
    F32.le s.params.decayMin s.cacheT && F32.le s.cacheT s.params.decayMax &&
    s.chL.ringsWf s.params && s.chR.ringsWf s.params &&
    s.chL.linesUsable s.params s.nC.toNat s.nA.toNat && s.chR.linesUsable s.params s.nC.toNat s.nA.toNat

/-- A response the block may return: a code of 60_exceptions.md R300, and data only with OK (30_encoding.md R102). -/
def Response.legal (r : Response) : Bool := decide (r.word.toNat ≤ 0x0C) && (decide (r.word = 0) || r.data.isEmpty)

/-- The invariant of a built block. -/
def State.inv (s : State) : Bool :=
  s.params.wf && s.chL.shaped s.params && s.chR.shaped s.params &&
    bankWf s.params s.inL && bankWf s.params s.inR && bankWf s.params s.outL && bankWf s.params s.outR &&
    decide (s.mode.toNat < s.params.numModes) && decide (s.cacheM.toNat < s.params.numModes) &&
    decide (s.nC.toNat ≤ s.params.maxCombs) && decide (s.nA.toNat ≤ s.params.maxAps) &&
    decide (s.errCode.toNat ≤ 0x0C) && s.responses.all Response.legal &&
    (if s.estate = .uninit then s.released else s.configuredOk)

/-- A biquad whose output history holds no subnormal (41_biquad.md R140, R142). -/
def Biquad.flushed (q : Biquad) : Bool := !q.y1.isSubnormal && !q.y2.isSubnormal

/-- Every biquad of a channel is flushed. -/
def Channel.flushed (c : Channel) : Bool := (c.combs.all fun x => x.damp.flushed) && c.lp.flushed && c.hp.flushed

/-- In RUNNING no biquad's output history holds a subnormal. -/
def State.flushed (s : State) : Bool :=
  if s.estate = .running then s.chL.flushed && s.chR.flushed else true

/-! ## Coefficients and filters -/

/-- The word COEF_EVAL may give for a real: no NaN, within COEF_TOL units in the last place of the real rounded to binary32,
and +0.0 for 0 (00_scope.md R17). -/
def CoefOf (x : ℝ) (w : F32) : Prop :=
  w.isNaN = false ∧ withinUlps Config.coefEval.tol w (roundReal x) ∧ (x = 0 → w = F32.zero)

/-- Every coefficient of a biquad is finite. -/
def Biquad.finiteCoefs (q : Biquad) : Bool :=
  q.b0.isFinite && q.b1.isFinite && q.b2.isFinite && q.a1.isFinite && q.a2.isFinite

/-- The history of a biquad is unchanged. -/
def Biquad.SameHistory (q r : Biquad) : Prop := r.x1 = q.x1 ∧ r.x2 = q.x2 ∧ r.y1 = q.y1 ∧ r.y2 = q.y2

/-- The coefficients of a biquad are unchanged. -/
def Biquad.SameCoefs (q r : Biquad) : Prop := r.b0 = q.b0 ∧ r.b1 = q.b1 ∧ r.b2 = q.b2 ∧ r.a1 = q.a1 ∧ r.a2 = q.a2

/-- w0 of a design, over the reals (41_biquad.md R145). -/
noncomputable def realW0 (f0 : ℝ) (fs : Nat) : ℝ := 2 * Real.pi * f0 / fs

/-- alpha of a design, over the reals (41_biquad.md R145). -/
noncomputable def realAlpha (f0 bw : ℝ) (fs : Nat) : ℝ :=
  Real.sin (realW0 f0 fs) * Real.sinh (Real.log 2 / 2 * bw * realW0 f0 fs / Real.sin (realW0 f0 fs))

/-- The five coefficients are the low-pass of 41_biquad.md R146, each as COEF_EVAL gives it. -/
def IsLowPass (q : Biquad) (f0 bw : ℝ) (fs : Nat) : Prop :=
  let c := Real.cos (realW0 f0 fs)
  let alpha := realAlpha f0 bw fs
  CoefOf ((1 - c) / 2 / (1 + alpha)) q.b0 ∧ CoefOf ((1 - c) / (1 + alpha)) q.b1 ∧ CoefOf ((1 - c) / 2 / (1 + alpha)) q.b2 ∧
    CoefOf (-2 * c / (1 + alpha)) q.a1 ∧ CoefOf ((1 - alpha) / (1 + alpha)) q.a2

/-- The five coefficients are the high-pass of 41_biquad.md R147, each as COEF_EVAL gives it. -/
def IsHighPass (q : Biquad) (f0 bw : ℝ) (fs : Nat) : Prop :=
  let c := Real.cos (realW0 f0 fs)
  let alpha := realAlpha f0 bw fs
  CoefOf ((1 + c) / 2 / (1 + alpha)) q.b0 ∧ CoefOf (-(1 + c) / (1 + alpha)) q.b1 ∧ CoefOf ((1 + c) / 2 / (1 + alpha)) q.b2 ∧
    CoefOf (-2 * c / (1 + alpha)) q.a1 ∧ CoefOf ((1 - alpha) / (1 + alpha)) q.a2

/-- The five coefficients are the peaking design of 41_biquad.md R148, each as COEF_EVAL gives it. -/
def IsPeaking (q : Biquad) (f0 gainDb bw : ℝ) (fs : Nat) : Prop :=
  let c := Real.cos (realW0 f0 fs)
  let alpha := realAlpha f0 bw fs
  let a := (10 : ℝ) ^ (gainDb / 40)
  CoefOf ((1 + alpha * a) / (1 + alpha / a)) q.b0 ∧ CoefOf (-2 * c / (1 + alpha / a)) q.b1 ∧
    CoefOf ((1 - alpha * a) / (1 + alpha / a)) q.b2 ∧ CoefOf (-2 * c / (1 + alpha / a)) q.a1 ∧
    CoefOf ((1 - alpha / a) / (1 + alpha / a)) q.a2

/-- The operands of a design are in its domain, over the reals (41_biquad.md R144). -/
def DesignDomain (p : Params) (f0 bw : F32) (fs : Word) : Prop :=
  1 ≤ fs.toNat ∧ fs.toNat ≤ p.fsMax ∧ f0.isFinite = true ∧ bw.isFinite = true ∧
    0 < f0.toReal ∧ f0.toReal < (fs.toNat : ℝ) / 2 ∧ 0 < bw.toReal

/-- The gain of an active comb (44_coefficients.md R212), as COEF_EVAL gives it. -/
def IsCombGain (p : Params) (len : Nat) (pct bright t : F32) (fs : Nat) (g : F32) : Prop :=
  CoefOf
    (p.atten.toReal ^
      (p.combK.toReal * len * (1 + p.cBright.toReal * bright.toReal) / (pct.toReal / 100) ^ p.combFbExp.toReal / t.toReal /
        fs))
    g

/-- The feedback gain of an active allpass (44_coefficients.md R213), as COEF_EVAL gives it. -/
def IsApGain (p : Params) (len : Nat) (pct t : F32) (fs : Nat) (g : F32) : Prop :=
  CoefOf (p.atten.toReal ^ (p.kAp.toReal * len / (pct.toReal / 100) ^ p.apFbExp.toReal / t.toReal / fs)) g

/-- The length a line has on a channel, over the reals (44_coefficients.md R220). -/
noncomputable def realStereoLen (p : Params) (base i : Nat) (ch : Chan) (s : Bool) : ℤ :=
  if s = true ∧ (i % 2 = 0 ∧ ch = .right ∨ i % 2 = 1 ∧ ch = .left) then ⌊(base : ℝ) * p.stereoRatio.toReal⌋ else base

/-! ## Validity of a mode, over the reals (20_memory.md R74) -/

/-- Check 1: the line counts are within the maxima. -/
def CountsOk (p : Params) (m : Nat) : Prop := (p.nComb m).toNat ≤ p.maxCombs ∧ (p.nAp m).toNat ≤ p.maxAps

/-- Check 2 of one comb. -/
def CombOk (p : Params) (m i : Nat) : Prop :=
  (p.combDelay m i).isFinite = true ∧ (p.combPct m i).isFinite = true ∧ (p.combBright m i).isFinite = true ∧
    0 < (p.combDelay m i).toReal ∧ 0 < (p.combPct m i).toReal ∧ 0 ≤ (p.combBright m i).toReal ∧
    (p.combBright m i).toReal ≤ 1

/-- Check 3 of one allpass. -/
def ApOk (p : Params) (m j : Nat) : Prop :=
  (p.apDelay m j).isFinite = true ∧ (p.apPct m j).isFinite = true ∧ 0 < (p.apDelay m j).toReal ∧ 0 < (p.apPct m j).toReal

/-- Checks 2 and 3 of every active line. -/
def DescriptorsOk (p : Params) (m : Nat) : Prop :=
  (∀ i, i < (p.nComb m).toNat → CombOk p m i) ∧ ∀ j, j < (p.nAp m).toNat → ApOk p m j

/-- The lengths of one line in the order of check 4: channel L before R, stereo off before on. -/
noncomputable def realLineLengths (p : Params) (fs i : Nat) (delay : F32) : List ℤ :=
  let base := ⌊delay.toReal * fs / 1000⌋.toNat
  [realStereoLen p base i .left false, realStereoLen p base i .left true, realStereoLen p base i .right false,
    realStereoLen p base i .right true]

/-- The lengths of every active line in the order of check 4: combs, then allpasses, in ascending index. -/
noncomputable def realLengths (p : Params) (fs m : Nat) : List ℤ :=
  ((List.range (p.nComb m).toNat).flatMap fun i => realLineLengths p fs i (p.combDelay m i)) ++
    (List.range (p.nAp m).toNat).flatMap fun j => realLineLengths p fs j (p.apDelay m j)

/-- A length fits a ring. -/
def LengthOk (p : Params) (len : ℤ) : Prop := 1 ≤ len ∧ len ≤ p.rbCap

/-- A cutoff is in the design domain at a rate (41_biquad.md R144). -/
def CutoffOk (fs : Nat) (f0 : F32) : Prop := f0.isFinite = true ∧ 0 < f0.toReal ∧ f0.toReal < (fs : ℝ) / 2

/-- Check 5: the damping cutoff of every active comb and both bandpass cutoffs. -/
def CutoffsOk (p : Params) (fs m : Nat) : Prop :=
  (∀ i, i < (p.nComb m).toNat → CutoffOk fs (p.dampCutoff (p.combBright m i) fs)) ∧ CutoffOk fs (p.bpHighHz m) ∧
    CutoffOk fs (p.bpLowHz m)

/-! ## One sample, as relations

The NaN an operation gives is a free value (93_implementation_defined.md 1.9), so each relation says that some choice of
them gives the result. -/

/-- `rb_push`: `w` in, `out` out (40_ring_buffer.md R121). -/
structure RingPushed (r : Ring) (w : Word) (r' : Ring) (out : Word) : Prop where
  out : out = r.stor.read r.cursor.toNat
  stor : ∀ a, r'.stor.read a = if a = r.cursor.toNat then w else r.stor.read a
  cursor : r'.cursor.toNat = (r.cursor.toNat + 1) % r.len.toNat
  len : r'.len = r.len

/-- `rb_setlen` to `n` (40_ring_buffer.md R123). -/
structure RingResized (r : Ring) (n : Nat) (r' : Ring) : Prop where
  stor : ∀ a, r'.stor.read a = r.stor.read a
  len : r'.len.toNat = n
  cursor : r'.cursor.toNat = if n ≤ r.cursor.toNat then 0 else r.cursor.toNat

/-- `bq_process`: `x` in, `y` out (41_biquad.md R142). -/
structure BiquadStep (q : Biquad) (x : F32) (q' : Biquad) (y : F32) : Prop where
  out : ∃ e0 e1 e2 e3 e4 e5 e6 e7 e8 : Site,
    y = F32.ftz
      (F32.sub e8
        (F32.sub e7
          (F32.add e6 (F32.add e5 (F32.mul e0 q.b0 x) (F32.mul e1 q.b1 q.x1)) (F32.mul e2 q.b2 q.x2))
          (F32.mul e3 q.a1 q.y1))
        (F32.mul e4 q.a2 q.y2))
  x1 : q'.x1 = x
  x2 : q'.x2 = q.x1
  y1 : q'.y1 = y
  y2 : q'.y2 = q.y1
  coefs : q.SameCoefs q'

/-- `cf_step`: `x` in, the sample word `out` out (42_comb.md R171). -/
structure CombStep (p : Params) (c : Comb) (x : F32) (c' : Comb) (out : Word) : Prop where
  step : ∃ (e1 e2 e3 : Site) (y : F32),
    BiquadStep c.damp (F32.mul e2 c.g (p.s2f c.last)) c'.damp y ∧
      RingPushed c.ring (p.f2s (F32.ftz (F32.add e3 (F32.mul e1 c.g x) y))) c'.ring out
  last : c'.last = out
  g : c'.g = c.g
  pct : c'.pct = c.pct
  bright : c'.bright = c.bright
  base : c'.base = c.base

/-- `ap_step`: `x` in, the sample word `out` out (43_allpass.md R191). -/
structure AllpassStep (p : Params) (a : Allpass) (x : F32) (a' : Allpass) (out : Word) : Prop where
  step : ∃ e0 e1 e2 e3 : Site,
    RingPushed a.ring
      (p.f2s (F32.ftz (F32.add e3 (F32.mul e1 (F32.mul e0 a.gin a.g) x) (F32.mul e2 a.g (p.s2f a.last))))) a'.ring out
  last : a'.last = out
  gin : a'.gin = a.gin
  g : a'.g = a.g
  pct : a'.pct = a.pct
  base : a'.base = a.base

/-- The comb stage: every active comb gets `x`, and their outputs are added to `x` in ascending index
(45_engine.md R253, R254). -/
def CombStage (e : MixEnv) (c : Channel) (x : F32) (c' : Channel) (y : F32) : Prop :=
  ∃ acc : Nat → F32, acc 0 = x ∧ acc e.nC = y ∧
    (∀ i, i < e.nC → ∃ (out : Word) (site : Site),
      CombStep e.params (c.comb i) x (c'.comb i) out ∧ acc (i + 1) = F32.add site (acc i) (e.params.s2f out)) ∧
    ∀ i, e.nC ≤ i → c'.comb i = c.comb i

/-- The allpass chain: the active allpasses in series (45_engine.md R253, 43_allpass.md R198). -/
def AllpassStage (e : MixEnv) (c : Channel) (x : F32) (c' : Channel) (y : F32) : Prop :=
  ∃ acc : Nat → F32, acc 0 = x ∧ acc e.nA = y ∧
    (∀ j, j < e.nA → ∃ out : Word,
      AllpassStep e.params (c.ap j) (acc j) (c'.ap j) out ∧ acc (j + 1) = e.params.s2f out) ∧
    ∀ j, e.nA ≤ j → c'.ap j = c.ap j

/-- The bandpass stage: low-pass, then high-pass (45_engine.md R253). -/
def BandStage (c : Channel) (x : F32) (c' : Channel) (y : F32) : Prop :=
  ∃ m, BiquadStep c.lp x c'.lp m ∧ BiquadStep c.hp m c'.hp y

/-- `sample_step`: one sample of one channel, each disabled stage bypassed and frozen (45_engine.md R253, R255). -/
def SampleStep (e : MixEnv) (c : Channel) (x : F32) (c' : Channel) (y : F32) : Prop :=
  ∃ a1 a2 a3 : F32,
    (if e.combsEn = true then CombStage e c x c' a1 else a1 = x ∧ c'.combs = c.combs) ∧
    (if e.apsEn = true then AllpassStage e c a1 c' a2 else a2 = a1 ∧ c'.aps = c.aps) ∧
    (if e.bpEn = true then BandStage c a2 c' a3 else a3 = a2 ∧ c'.lp = c.lp ∧ c'.hp = c.hp) ∧
    ∃ e1 e2 e3 : Site, y = F32.add e3 (F32.mul e1 x e.dry) (F32.mul e2 a3 e.wet)

/-! ## Where the engine changes by itself -/

/-- The state a successful command leaves the engine in (45_engine.md R240). -/
def estateAfter (e : EngineState) : Instr → EngineState
  | .engConfig _ => .configured
  | .engActivate => .running
  | .engCleanup => .uninit
  | .rbPush _ _ _ _ | .rbRead _ _ _ _ | .rbWrite _ _ _ _ _ | .rbSetlen _ _ _ _ | .rbClear _ _ _ | .rbStat _ _ _ => e
  | .bqSetlp _ _ _ _ _ _ | .bqSethp _ _ _ _ _ _ | .bqSetpk _ _ _ _ _ _ _ | .bqReset _ _ _ | .bqProc _ _ _ _ => e
  | .bqLdcoef _ _ _ _ _ _ _ _ | .bqRdcoef _ _ _ | .bqRdhist _ _ _ => e
  | .cfCfg _ _ _ _ _ _ _ | .cfSetg _ _ _ | .cfProc _ _ _ | .cfRdstate _ _ => e
  | .apCfg _ _ _ _ | .apSetg _ _ _ _ | .apProc _ _ _ | .apRdstate _ _ => e
  | .engProcess _ | .engCsrr _ | .engCsrw _ _ | .memRd _ _ | .memWr _ _ _ => e

/-- A control changed since the last recompute, the decay time compared as clamped (45_engine.md R244). -/
def ChangePending (s : State) : Prop := s.mode ≠ s.cacheM ∨ s.clampT ≠ s.cacheT ∨ s.stereoEn ≠ s.cacheS

/-- The command runs the recompute sequence (44_coefficients.md R210). -/
def Recomputes (i : Instr) (s : State) : Prop :=
  (∃ fs, i = .engConfig fs ∧ s.params.configCheck fs = none) ∨
    ∃ n, i = .engProcess n ∧ s.estate = .running ∧ n ≤ s.params.blockMax ∧ ChangePending s

/-- Two states that agree on all that channel L of a block reads: everything but channel R's instances and banks and the
responses. -/
structure AgreeOnLeft (s t : State) : Prop where
  registers : SameRegisters s t
  freeCtr : t.freeCtr = s.freeCtr
  chL : t.chL = s.chL
  inL : t.inL = s.inL
  outL : t.outL = s.outL

/-- Two states that agree on all that channel R of a block reads. -/
structure AgreeOnRight (s t : State) : Prop where
  registers : SameRegisters s t
  freeCtr : t.freeCtr = s.freeCtr
  chR : t.chR = s.chR
  inR : t.inR = s.inR
  outR : t.outR = s.outR

/-- Every gain and coefficient a block of a channel uses is finite, the product of each allpass's gains included. -/
def Channel.finiteGains (c : Channel) : Prop :=
  (∀ x ∈ c.combs, x.g.isFinite = true ∧ x.damp.finiteCoefs = true) ∧
    (∀ a ∈ c.aps, a.g.isFinite = true ∧ ∀ site, (F32.mul site a.gin a.g).isFinite = true) ∧
    c.lp.finiteCoefs = true ∧ c.hp.finiteCoefs = true

end Sys2Proof.Machine
end

