-- ==== Sys2Proof/Certificates/Slice0/Obligations.lean ====
section
/-! DEFINITION. The statements for the provers. Each docstring names the rules of spec/ it rests on. -/

open Sys2Proof Sys2Proof.Machine

/-! ## Encoding and decoding -/

/-- R91, R93, R94 to R100: no bit of a command or of its operands is lost between the encoder and the decoder. -/
def Obligations.DecodeEncodeRoundTrip : Prop := ∀ i : Instr, i.wf = true → decode (encode i) = .ok i

/-- R91, R93, R103: a transaction that decodes is the encoding of its command, so each command has one encoding. -/
def Obligations.EncodeDecodeRoundTrip : Prop :=
  ∀ (t : Transaction) (i : Instr), decode t = .ok i → i.wf = true ∧ encode i = t

/-- R103: a transaction decodes exactly where a row's mask and match fit its command word and its count is the row's, and
no two rows fit one word. -/
def Obligations.DecodeFollowsOpcodeTable : Prop :=
  (∀ t : Transaction,
      (∃ i, decode t = .ok i) ↔ ∃ r ∈ rows, t.cmd &&& r.mask = r.pattern ∧ t.ops.length = r.count) ∧
    ∀ w : Word, ∀ r ∈ rows, ∀ r' ∈ rows, w &&& r.mask = r.pattern → w &&& r'.mask = r'.pattern → r = r'

/-- R91, R93: words of each unit written from the encoding decode to the commands they stand for. -/
def Obligations.WordsOfEachUnitDecode : Prop :=
  decode ⟨0x10470000, [0x3F800000]⟩ = .ok (.rbPush .left .allpass 7 0x3F800000) ∧
    decode ⟨0x20C10000, [0x447A0000, 0x3F800000, 0xAC44]⟩ = .ok (.bqSetlp .right .bandpass 1 0x447A0000 0x3F800000 0xAC44) ∧
    decode ⟨0x32850000, [0x7FC00001]⟩ = .ok (.cfProc .right 5 0x7FC00001) ∧
    decode ⟨0x41000000, [0x3F800000, 0x3F000000]⟩ = .ok (.apSetg .left 0 0x3F800000 0x3F000000) ∧
    decode ⟨0x5200113A, []⟩ = .ok (.engProcess 4410) ∧
    decode ⟨0x61030010, [0xDEADBEEF]⟩ = .ok (.memWr 3 16 0xDEADBEEF)

/-! ## Steps and the ways a command ends -/

/-- R78, R90, R103: when the next transaction on the link is the encoding of a well-formed command, a step takes it from the
link and runs that command on the state that is left.
(The link is the model's form of the host, log 10.) -/
def Obligations.StepRunsDecoded : Prop :=
  ∀ (s : State) (i : Instr) (rest : List Transaction),
    i.wf = true → s.link = encode i :: rest → step s = exec i { s with link := rest }

/-- R92, R104: a transaction that no row of the opcode map fits, or whose operand count is not its row's, is ILLEGAL_CMD and
changes nothing but the error code; every word of a reserved unit is such a transaction. -/
def Obligations.ReservedEncodingsAreIllegal : Prop :=
  (∀ (s : State) (t : Transaction) (rest : List Transaction), s.link = t :: rest →
      (∀ r ∈ rows, ¬(t.cmd &&& r.mask = r.pattern ∧ t.ops.length = r.count)) →
      step s = .next (({ s with link := rest } : State).failed 0x01)) ∧
    ∀ (s : State) (t : Transaction) (rest : List Transaction), s.link = t :: rest →
      (bits t.cmd 31 28 = 0 ∨ 7 ≤ bits t.cmd 31 28) →
      step s = .next (({ s with link := rest } : State).failed 0x01)

/-- R102, R316: a block with no transaction holds its state; otherwise each step takes exactly one transaction and returns
exactly one response: a code of R300 in bits 7:0, bits 31:8 zero, the data words of the opcode map after OK, and none after
any other code. No step changes an elaboration parameter or the ROM (R39, R68). -/
def Obligations.OneResponsePerTransaction : Prop :=
  ∀ s t : State, step s = .next t →
    t.params = s.params ∧
      ((s.link = [] ∧ t = s) ∨
        ∃ tr r, s.link = tr :: t.link ∧ t.responses = r :: s.responses ∧ r.word.toNat ≤ 0x0C ∧ (r.word ≠ 0 → r.data = []) ∧
          (r.word = 0 → ∃ i, decode tr = .ok i ∧ r.data.length = responseCount i))

/-- R301, R303: a failing command returns its code with no data and leaves every piece of state as it was, but for the error
code, which it sets where it was 0; a command that succeeds writes the error code only if it is ENG.CSRW ERRCLR. -/
def Obligations.FailingCommandChangesNothing : Prop :=
  ∀ (s t : State) (tr : Transaction) (rest : List Transaction), s.link = tr :: rest → step s = .next t →
    ∃ r, t.responses = r :: s.responses ∧
      (r.word ≠ 0 →
        ∃ code : BitVec 8, code ≠ 0 ∧ r = ⟨code.zeroExtend 32, []⟩ ∧ t = ({ s with link := rest } : State).failed code) ∧
      (r.word = 0 → t.errCode = s.errCode ∨ t.errCode = 0 ∧ ∃ v, decode tr = .ok (.engCsrw 0x0001 v))

/-- R241, R95 to R97, R302: a command that the engine's state does not accept raises BAD_STATE and one that it accepts never
does; in RUNNING a command that names no instance of the block raises INDEX_RANGE, whatever its operands. -/
def Obligations.StateAndIndexGateCommands : Prop :=
  (∀ (i : Instr) (s : State), acceptedIn s.estate i = false → exec i s = .next (s.failed 0x02)) ∧
    (∀ (i : Instr) (s t : State) (r : Response), acceptedIn s.estate i = true → exec i s = .next t →
      t.responses = r :: s.responses → r.word ≠ 0x02) ∧
    ∀ (i : Instr) (s : State), s.estate = .running → namesInstance s.params i = false → exec i s = .next (s.failed 0x03)

/-- R240: reset leaves UNINIT; only ENG.CONFIG, ENG.ACTIVATE and ENG.CLEANUP move the engine's state, each to its own; a
failing command never does. -/
def Obligations.EngineStateMoves : Prop :=
  (∀ p : Params, (State.resetOf p).estate = .uninit) ∧
    ∀ (i : Instr) (s t : State), exec i s = .next t →
      ∃ r, t.responses = r :: s.responses ∧ t.estate = if r.word = 0 then estateAfter s.estate i else s.estate

/-- R33, R210, R353: the recompute counter moves by one, modulo 2^32, in an ENG.CONFIG that succeeds and in an accepted
ENG.PROCESS that finds a change, and nowhere else. -/
def Obligations.RecomputeCountCounts : Prop :=
  ∀ (i : Instr) (s t : State), s.inv = true → exec i s = .next t →
    (Recomputes i s → t.recomputeCount.toNat = (s.recomputeCount.toNat + 1) % 2 ^ 32) ∧
      (¬Recomputes i s → t.recomputeCount = s.recomputeCount)

/-- R67, R310: the one model fault is the read of a bank word that nothing has written, by MEM.RD of it or by an ENG.PROCESS
whose block reads it; and no command is refused. -/
def Obligations.OnlyUnwrittenSamplesFault : Prop :=
  (∀ (i : Instr) (s : State) (f : Fault), exec i s = .fault f →
      ∃ b a, f = .unwrittenSample b a ∧ s.readBank b a = none ∧
        ((∃ space, i = .memRd space a) ∨ ∃ n, i = .engProcess n ∧ a < n ∧ (b = .inL ∨ b = .inR))) ∧
    ∀ (i : Instr) (s : State) (r : Refusal), exec i s ≠ .refused r

/-! ## Reset and the invariant -/

/-- R48, R341, R36: what power-on reset leaves, for every parameter record. -/
def Obligations.ResetValues : Prop :=
  ∀ p : Params,
    let s := State.resetOf p
    s.params = p ∧ s.estate = .uninit ∧ s.errCode = 0 ∧ s.fs = 0 ∧ s.recomputeCount = 0 ∧ s.nC = 0 ∧ s.nA = 0 ∧
      s.cacheT = 0 ∧ s.cacheS = false ∧ s.cacheM = 0 ∧ s.decayMs = 0 ∧ s.dryDb = 0 ∧ s.wetDb = 0 ∧ s.flags = 0 ∧
      s.mode = 0 ∧ (∀ b a, s.readBank b a = none) ∧ exec (.engCsrr 0x0000) s = .next (s.answered [0]) ∧
      exec (.engCsrr 0x0013) s = .next (s.answered [0])

/-- The invariant of Safety.lean holds right after reset of this build. -/
def Obligations.InvariantAtReset : Prop := State.reset.inv = true

/-- R11, R27, R31, R42: a well-formed record elaborates to the block right after reset, which meets the invariant, and a record
that is not well formed to none.
(What well formed means where R10 to R12 leave it open is log 12.) -/
def Obligations.ElaborationMeetsInvariant : Prop :=
  ∀ p : Params, (p.wf = true → elaborate p = some (State.resetOf p) ∧ (State.resetOf p).inv = true) ∧
    (p.wf = false → elaborate p = none)

/-- R27, R31, R42, R47, R74: every step keeps the invariant: MODE < NUM_MODES, nC ≤ MAX_COMBS, nA ≤ MAX_APS, every memory in
its canonical form, and outside UNINIT a checked sample rate, every ring with 1 ≤ len ≤ RB_CAP and cursor < len, and every
active line with lengths that a recompute may give it. -/
def Obligations.StepKeepsInvariant : Prop := ∀ s t : State, s.inv = true → step s = .next t → t.inv = true

/-- R140, R142: in RUNNING no biquad's output history ever holds a subnormal. -/
def Obligations.StepKeepsHistoriesFlushed : Prop :=
  ∀ s t : State, s.inv = true → s.flushed = true → step s = .next t → t.flushed = true

/-! ## The ring unit -/

/-- R121, R125: RB.PUSH stores the word at the cursor unconverted, moves the cursor modulo the length, and returns the word
the slot held. -/
def Obligations.RingPush : Prop :=
  ∀ (ch : Chan) (sel : RingSel) (idx : Nat) (v : Word) (s : State),
    s.inv = true → s.estate = .running → s.params.hasRing sel idx = true →
    ∃ t out, exec (.rbPush ch sel idx v) s = .next t ∧ t.responses = ⟨0, [out]⟩ :: s.responses ∧
      RingPushed (s.ring ch sel idx) v (t.ring ch sel idx) out ∧
      Untouched s t (only ch sel idx) noneOf noLine noLine

/-- R122, R127: RB.WRITE replaces the word `min k (len - 1)` pushes before the most recent one, and nothing else. -/
def Obligations.RingWrite : Prop :=
  ∀ (ch : Chan) (sel : RingSel) (idx : Nat) (k v : Word) (s : State),
    s.inv = true → s.estate = .running → s.params.hasRing sel idx = true →
    let r := s.ring ch sel idx
    let slot : Int := ((r.cursor.toNat : Int) - 1 - min (k.toNat : Int) (r.len.toNat - 1)) % r.len.toNat
    ∃ t, exec (.rbWrite ch sel idx k v) s = .next t ∧ t.responses = ⟨0, []⟩ :: s.responses ∧
      (∀ a : Nat, (t.ring ch sel idx).stor.read a = if (a : Int) = slot then v else r.stor.read a) ∧
      (t.ring ch sel idx).cursor = r.cursor ∧ (t.ring ch sel idx).len = r.len ∧
      Untouched s t (only ch sel idx) noneOf noLine noLine

/-- R123, R128: RB.SETLEN refuses a length of 0 and one above the capacity, and otherwise sets the length, keeps every slot
and takes a cursor that the length no longer covers to 0. -/
def Obligations.RingSetLength : Prop :=
  ∀ (ch : Chan) (sel : RingSel) (idx : Nat) (n : Word) (s : State),
    s.inv = true → s.estate = .running → s.params.hasRing sel idx = true →
    (n = 0 → exec (.rbSetlen ch sel idx n) s = .next (s.failed 0x06)) ∧
      (s.params.rbCap < n.toNat → exec (.rbSetlen ch sel idx n) s = .next (s.failed 0x07)) ∧
      (n ≠ 0 → n.toNat ≤ s.params.rbCap →
        ∃ t, exec (.rbSetlen ch sel idx n) s = .next t ∧ t.responses = ⟨0, []⟩ :: s.responses ∧
          RingResized (s.ring ch sel idx) n.toNat (t.ring ch sel idx) ∧
          Untouched s t (only ch sel idx) noneOf noLine noLine)

/-- R124, R129: RB.CLEAR makes every slot 0x00000000 and the cursor 0, and keeps the length. -/
def Obligations.RingClear : Prop :=
  ∀ (ch : Chan) (sel : RingSel) (idx : Nat) (s : State),
    s.inv = true → s.estate = .running → s.params.hasRing sel idx = true →
    ∃ t, exec (.rbClear ch sel idx) s = .next t ∧ t.responses = ⟨0, []⟩ :: s.responses ∧
      (∀ a, (t.ring ch sel idx).stor.read a = 0) ∧ (t.ring ch sel idx).cursor = 0 ∧
      (t.ring ch sel idx).len = (s.ring ch sel idx).len ∧
      Untouched s t (only ch sel idx) noneOf noLine noLine

/-- R131: a cleared ring of length len is a FIFO of len words. Each push returns the word pushed exactly len pushes earlier,
or 0x00000000; RB.READ k gives the word of the (k+1)-th most recent push and changes nothing. -/
def Obligations.RingIsFifo : Prop :=
  ∀ (ch : Chan) (sel : RingSel) (idx : Nat) (ws : List Word) (s : State),
    s.inv = true → s.estate = .running → s.params.hasRing sel idx = true →
    let len := (s.ring ch sel idx).len.toNat
    ∃ t, execAll (.rbClear ch sel idx :: ws.map (.rbPush ch sel idx)) s = some t ∧
      t.responses =
        ((List.range ws.length).map fun j => (⟨0, [if j < len then 0 else ws.getD (j - len) 0]⟩ : Response)).reverse ++
          ⟨0, []⟩ :: s.responses ∧
      ∀ k : Word, k.toNat < len → k.toNat < ws.length →
        exec (.rbRead ch sel idx k) t = .next (t.answered [ws.getD (ws.length - 1 - k.toNat) 0])

/-! ## The commands that only read -/

/-- R66, R122, R126, R130, R156, R157, R175, R195: each read command of a unit answers the words its rule names and changes
nothing. -/
def Obligations.UnitReadsAnswer : Prop :=
  ∀ (ch : Chan) (idx : Nat) (s : State), s.estate = .running →
    (∀ (sel : RingSel) (k : Word), s.params.hasRing sel idx = true →
      let r := s.ring ch sel idx
      exec (.rbRead ch sel idx k) s =
          .next (s.answered
            [r.stor.read (((r.cursor.toNat : Int) - 1 - (min k.toNat (r.len.toNat - 1) : Nat)) % r.len.toNat).toNat]) ∧
        exec (.rbStat ch sel idx) s = .next (s.answered [r.len, r.cursor])) ∧
    (∀ sel : FilterSel, s.params.hasFilter sel idx = true →
      let q := s.filter ch sel idx
      exec (.bqRdcoef ch sel idx) s = .next (s.answered [q.b0, q.b1, q.b2, q.a1, q.a2]) ∧
        exec (.bqRdhist ch sel idx) s = .next (s.answered [q.x1, q.x2, q.y1, q.y2])) ∧
    (s.params.hasComb idx = true →
      let c := s.comb ch idx
      exec (.cfRdstate ch idx) s = .next (s.answered [c.g, c.last, c.pct, c.bright, c.base])) ∧
    (s.params.hasAp idx = true →
      let a := s.ap ch idx
      exec (.apRdstate ch idx) s = .next (s.answered [a.gin, a.g, a.last, a.pct, a.base]))

/-! ## The biquad unit -/

/-- R142, R154: BQ.PROC gives the flushed direct-form-I sum, taken left to right, and shifts the history; the coefficients
stay. -/
def Obligations.BiquadProc : Prop :=
  ∀ (ch : Chan) (sel : FilterSel) (idx : Nat) (x : F32) (s : State),
    s.inv = true → s.estate = .running → s.params.hasFilter sel idx = true →
    ∃ (t : State) (y : F32), exec (.bqProc ch sel idx x) s = .next t ∧ t.responses = ⟨0, [y]⟩ :: s.responses ∧ y.isSubnormal = false ∧
      BiquadStep (s.filter ch sel idx) x (t.filter ch sel idx) y ∧
      Untouched s t noneOf (only ch sel idx) noLine noLine

/-- R143, R153, R155: BQ.RESET makes the history +0.0 and keeps the coefficients; BQ.LDCOEF takes any five words as the
coefficients and keeps the history. -/
def Obligations.BiquadResetAndLoad : Prop :=
  ∀ (ch : Chan) (sel : FilterSel) (idx : Nat) (b0 b1 b2 a1 a2 : F32) (s : State),
    s.inv = true → s.estate = .running → s.params.hasFilter sel idx = true →
    (∃ t, exec (.bqReset ch sel idx) s = .next t ∧ t.responses = ⟨0, []⟩ :: s.responses ∧
      (let q := t.filter ch sel idx;
        q.x1 = 0x00000000 ∧ q.x2 = 0x00000000 ∧ q.y1 = 0x00000000 ∧ q.y2 = 0x00000000) ∧
      (s.filter ch sel idx).SameCoefs (t.filter ch sel idx) ∧ Untouched s t noneOf (only ch sel idx) noLine noLine) ∧
    ∃ t, exec (.bqLdcoef ch sel idx b0 b1 b2 a1 a2) s = .next t ∧ t.responses = ⟨0, []⟩ :: s.responses ∧
      (let q := t.filter ch sel idx;
        q.b0 = b0 ∧ q.b1 = b1 ∧ q.b2 = b2 ∧ q.a1 = a1 ∧ q.a2 = a2) ∧
      (s.filter ch sel idx).SameHistory (t.filter ch sel idx) ∧ Untouched s t noneOf (only ch sel idx) noLine noLine

/-- R144 to R147, R149 to R151: inside the design domain BQ.SETLP and BQ.SETHP store the low-pass and the high-pass design
and keep the history.
(What a unit in the last place is rests on log 4.) -/
def Obligations.PassDesigns : Prop :=
  ∀ (ch : Chan) (sel : FilterSel) (idx : Nat) (f0 bw : F32) (fs : Word) (s : State),
    s.inv = true → s.estate = .running → s.params.hasFilter sel idx = true → DesignDomain s.params f0 bw fs →
    (∃ t, exec (.bqSetlp ch sel idx f0 bw fs) s = .next t ∧ t.responses = ⟨0, []⟩ :: s.responses ∧
      IsLowPass (t.filter ch sel idx) f0.toReal bw.toReal fs.toNat ∧
      (s.filter ch sel idx).SameHistory (t.filter ch sel idx) ∧ Untouched s t noneOf (only ch sel idx) noLine noLine) ∧
    ∃ t, exec (.bqSethp ch sel idx f0 bw fs) s = .next t ∧ t.responses = ⟨0, []⟩ :: s.responses ∧
      IsHighPass (t.filter ch sel idx) f0.toReal bw.toReal fs.toNat ∧
      (s.filter ch sel idx).SameHistory (t.filter ch sel idx) ∧ Untouched s t noneOf (only ch sel idx) noLine noLine

/-- R144, R145, R148, R149, R152: inside the design domain, with a finite gain, BQ.SETPK stores the peaking design and keeps
the history; with a gain that is not finite it raises BAD_PARAM.
(What a unit in the last place is rests on log 4.) -/
def Obligations.PeakingDesign : Prop :=
  ∀ (ch : Chan) (sel : FilterSel) (idx : Nat) (f0 gainDb bw : F32) (fs : Word) (s : State),
    s.inv = true → s.estate = .running → s.params.hasFilter sel idx = true → DesignDomain s.params f0 bw fs →
    (gainDb.isFinite = true →
      ∃ t, exec (.bqSetpk ch sel idx f0 gainDb bw fs) s = .next t ∧ t.responses = ⟨0, []⟩ :: s.responses ∧
        IsPeaking (t.filter ch sel idx) f0.toReal gainDb.toReal bw.toReal fs.toNat ∧
        (s.filter ch sel idx).SameHistory (t.filter ch sel idx) ∧ Untouched s t noneOf (only ch sel idx) noLine noLine) ∧
      (gainDb.isFinite = false → exec (.bqSetpk ch sel idx f0 gainDb bw fs) s = .next (s.failed 0x0A))

/-- R144, R150 to R152: a sample rate out of range is SAMPLE_RATE, whatever the other operands; at a rate in range, operands
outside the design domain are BAD_PARAM. -/
def Obligations.DesignDomainChecked : Prop :=
  ∀ (ch : Chan) (sel : FilterSel) (idx : Nat) (f0 gainDb bw : F32) (fs : Word) (s : State),
    s.estate = .running → s.params.hasFilter sel idx = true →
    ((fs.toNat < 1 ∨ s.params.fsMax < fs.toNat) →
      exec (.bqSetlp ch sel idx f0 bw fs) s = .next (s.failed 0x08) ∧
        exec (.bqSethp ch sel idx f0 bw fs) s = .next (s.failed 0x08) ∧
        exec (.bqSetpk ch sel idx f0 gainDb bw fs) s = .next (s.failed 0x08)) ∧
    (1 ≤ fs.toNat → fs.toNat ≤ s.params.fsMax → ¬DesignDomain s.params f0 bw fs →
      exec (.bqSetlp ch sel idx f0 bw fs) s = .next (s.failed 0x0A) ∧
        exec (.bqSethp ch sel idx f0 bw fs) s = .next (s.failed 0x0A) ∧
        exec (.bqSetpk ch sel idx f0 gainDb bw fs) s = .next (s.failed 0x0A))

/-! ## The comb and allpass units -/

/-- R171, R174: CF.PROC runs one comb step on the sample and answers the word that leaves the ring. -/
def Obligations.CombProc : Prop :=
  ∀ (ch : Chan) (idx : Nat) (x : Word) (s : State),
    s.inv = true → s.estate = .running → s.params.hasComb idx = true →
    ∃ t out, exec (.cfProc ch idx x) s = .next t ∧ t.responses = ⟨0, [out]⟩ :: s.responses ∧
      CombStep s.params (s.comb ch idx) (s.params.s2f x) (t.comb ch idx) out ∧
      Untouched s t (only ch .comb idx) (only ch .damp idx) (onlyLine ch idx) noLine

/-- R191, R194, R197: AP.PROC runs one allpass step on the sample and answers the word that leaves the ring, with no term that
adds the input to it. -/
def Obligations.AllpassProc : Prop :=
  ∀ (ch : Chan) (idx : Nat) (x : Word) (s : State),
    s.inv = true → s.estate = .running → s.params.hasAp idx = true →
    ∃ t out, exec (.apProc ch idx x) s = .next t ∧ t.responses = ⟨0, [out]⟩ :: s.responses ∧
      AllpassStep s.params (s.ap ch idx) (s.params.s2f x) (t.ap ch idx) out ∧
      Untouched s t (only ch .allpass idx) noneOf noLine (onlyLine ch idx)

/-- R173, R193: CF.SETG and AP.SETG load any words as gains and keep the line's other registers. -/
def Obligations.GainLoads : Prop :=
  ∀ (ch : Chan) (idx : Nat) (gin g : F32) (s : State), s.inv = true → s.estate = .running →
    (s.params.hasComb idx = true →
      ∃ t, exec (.cfSetg ch idx g) s = .next t ∧ t.responses = ⟨0, []⟩ :: s.responses ∧
        t.comb ch idx = { s.comb ch idx with g := g } ∧ Untouched s t noneOf noneOf (onlyLine ch idx) noLine) ∧
    (s.params.hasAp idx = true →
      ∃ t, exec (.apSetg ch idx gin g) s = .next t ∧ t.responses = ⟨0, []⟩ :: s.responses ∧
        t.ap ch idx = { s.ap ch idx with gin := gin, g := g } ∧ Untouched s t noneOf noneOf noLine (onlyLine ch idx))

/-- R172, R192: CF.CFG and AP.CFG on operands that pass their checks set the base, the ring's length and the percent, and
CF.CFG the damping low-pass; both keep the gains, the last output and every word of the ring.
(What a unit in the last place is rests on log 4.) -/
def Obligations.LineConfig : Prop :=
  ∀ (ch : Chan) (idx : Nat) (d : Word) (pct : F32) (s : State),
    s.inv = true → s.estate = .running → 1 ≤ d.toNat → d.toNat ≤ s.params.rbCap →
    1 ≤ ⌊(d.toNat : ℝ) * s.params.stereoRatio.toReal⌋ → ⌊(d.toNat : ℝ) * s.params.stereoRatio.toReal⌋ ≤ s.params.rbCap →
    pct.isFinite = true → 0 < pct.toReal →
    (∀ (f0 bw : F32) (fs : Word), s.params.hasComb idx = true → DesignDomain s.params f0 bw fs →
      ∃ t, exec (.cfCfg ch idx d pct f0 bw fs) s = .next t ∧ t.responses = ⟨0, []⟩ :: s.responses ∧
        (let c := s.comb ch idx;
          let c' := t.comb ch idx;
          c'.base = d ∧ c'.pct = pct ∧ c'.g = c.g ∧ c'.last = c.last ∧ c'.bright = c.bright ∧
            RingResized c.ring d.toNat c'.ring ∧ IsLowPass c'.damp f0.toReal bw.toReal fs.toNat ∧
            c.damp.SameHistory c'.damp) ∧
        Untouched s t (only ch .comb idx) (only ch .damp idx) (onlyLine ch idx) noLine) ∧
    (s.params.hasAp idx = true →
      ∃ t, exec (.apCfg ch idx d pct) s = .next t ∧ t.responses = ⟨0, []⟩ :: s.responses ∧
        (let a := s.ap ch idx;
          let a' := t.ap ch idx;
          a'.base = d ∧ a'.pct = pct ∧ a'.gin = a.gin ∧ a'.g = a.g ∧ a'.last = a.last ∧
            RingResized a.ring d.toNat a'.ring) ∧
        Untouched s t (only ch .allpass idx) noneOf noLine (onlyLine ch idx))

/-- R172, R192, R302: the checks of CF.CFG and AP.CFG report in order: a delay of 0, a delay above the capacity, a scaled
delay of 0, a scaled delay above the capacity, a percent that is not finite and positive, and for CF.CFG then the design
domain. -/
def Obligations.LineConfigChecks : Prop :=
  ∀ (ch : Chan) (idx : Nat) (d : Word) (pct f0 bw : F32) (fs : Word) (s : State),
    s.inv = true → s.estate = .running →
    let scaled := ⌊(d.toNat : ℝ) * s.params.stereoRatio.toReal⌋
    let lineCode : Option (BitVec 8) :=
      if d.toNat = 0 then some 0x06
      else if s.params.rbCap < d.toNat then some 0x07
      else if scaled = 0 then some 0x06
      else if s.params.rbCap < scaled then some 0x07
      else if ¬(pct.isFinite = true ∧ 0 < pct.toReal) then some 0x0A
      else none
    (s.params.hasAp idx = true → ∀ code, lineCode = some code → exec (.apCfg ch idx d pct) s = .next (s.failed code)) ∧
    (s.params.hasComb idx = true →
      (∀ code, lineCode = some code → exec (.cfCfg ch idx d pct f0 bw fs) s = .next (s.failed code)) ∧
      (lineCode = none → (fs.toNat < 1 ∨ s.params.fsMax < fs.toNat) →
        exec (.cfCfg ch idx d pct f0 bw fs) s = .next (s.failed 0x08)) ∧
      (lineCode = none → 1 ≤ fs.toNat → fs.toNat ≤ s.params.fsMax → ¬DesignDomain s.params f0 bw fs →
        exec (.cfCfg ch idx d pct f0 bw fs) s = .next (s.failed 0x0A)))

/-- R176: a comb with a cleared ring of length N, `last` 0, a zero damping history and finite coefficients answers N words of
0 to N inputs, whatever they are, and then the product of its gain and the first input, where that product is a number
other than zero. -/
def Obligations.CombFirstEcho : Prop :=
  ∀ (ch : Chan) (idx : Nat) (x : Word) (xs : List Word) (z : Word) (s : State),
    s.inv = true → s.estate = .running → s.params.hasComb idx = true →
    (∀ a, (s.comb ch idx).ring.stor.read a = 0) → (s.comb ch idx).last = 0 →
    (s.comb ch idx).damp.x1 = 0 → (s.comb ch idx).damp.x2 = 0 → (s.comb ch idx).damp.y1 = 0 →
    (s.comb ch idx).damp.y2 = 0 → (s.comb ch idx).damp.finiteCoefs = true → (s.comb ch idx).g.isFinite = true →
    xs.length + 1 = (s.comb ch idx).ring.len.toNat →
    (∀ site, (F32.mul site (s.comb ch idx).g (s.params.s2f x)).isNaN = false ∧
      (F32.mul site (s.comb ch idx).g (s.params.s2f x)).isZero = false) →
    ∃ t site, execAll ((x :: xs ++ [z]).map (.cfProc ch idx)) s = some t ∧
      t.responses =
        ⟨0, [s.params.f2s (F32.ftz (F32.mul site (s.comb ch idx).g (s.params.s2f x)))]⟩ ::
          (List.replicate (xs.length + 1) (⟨0, [0]⟩ : Response) ++ s.responses)

/-! ## The engine -/

/-- R246, R247: ENG.CONFIG refuses a rate of 0 or above FS_MAX, and otherwise reports the first failing check of the lowest
failing mode of the ROM. (ValidModeMeaning says which code each check gives, and in which order.) -/
def Obligations.ConfigReportsFirstFailure : Prop :=
  ∀ (fs : Word) (s : State), s.inv = true →
    ((fs = 0 ∨ s.params.fsMax < fs.toNat) → exec (.engConfig fs) s = .next (s.failed 0x08)) ∧
      ∀ (m : Nat) (e : ErrorCode), fs ≠ 0 → fs.toNat ≤ s.params.fsMax → m < s.params.numModes →
        (∀ m', m' < m → s.params.modeCheck fs.toNat m' = none) → s.params.modeCheck fs.toNat m = some e →
        exec (.engConfig fs) s = .next (s.failed e.value)

/-- R74: what each check of a mode asks over the reals, in order, and the code the first failing one gives: the counts and the
descriptors PRESET_INVALID, the first length that does not fit INVALID_DELAY below 1 and CAPACITY above RB_CAP, the filter
cutoffs BAD_PARAM; none where all pass. -/
def Obligations.ValidModeMeaning : Prop :=
  ∀ (p : Params) (fs m : Nat), p.realsOk = true → 1 ≤ fs → fs ≤ p.fsMax →
    let code := (p.modeCheck fs m).map ErrorCode.value
    (¬CountsOk p m ∨ ¬DescriptorsOk p m → code = some 0x0B) ∧
    (CountsOk p m → DescriptorsOk p m → ∀ (earlier later : List ℤ) (len : ℤ),
      realLengths p fs m = earlier ++ len :: later → (∀ e ∈ earlier, LengthOk p e) →
      (len < 1 → code = some 0x06) ∧ (p.rbCap < len → code = some 0x07)) ∧
    (CountsOk p m → DescriptorsOk p m → (∀ len ∈ realLengths p fs m, LengthOk p len) → ¬CutoffsOk p fs m →
      code = some 0x0A) ∧
    (p.modeCheck fs m = none ↔
      CountsOk p m ∧ DescriptorsOk p m ∧ (∀ len ∈ realLengths p fs m, LengthOk p len) ∧ CutoffsOk p fs m)

/-- R246, R242, R243, R223: an ENG.CONFIG whose checks pass sets the rate, the topology of the mode in MODE, the caches and
the counter, designs the bandpass pair, enters CONFIGURED, and keeps every control register and every bank word.
(What a unit in the last place is rests on log 4.) -/
def Obligations.ConfigSetsEngine : Prop :=
  ∀ (fs : Word) (s : State), s.inv = true → s.params.configCheck fs = none →
    ∃ t, exec (.engConfig fs) s = .next t ∧ t.responses = ⟨0, []⟩ :: s.responses ∧
      t.estate = .configured ∧ t.fs = fs ∧ t.nC = s.params.romAt s.mode.toNat 0 ∧ t.nA = s.params.romAt s.mode.toNat 1 ∧
      t.cacheT = s.clampT ∧ t.cacheS = s.stereoEn ∧ t.cacheM = s.mode ∧
      t.recomputeCount.toNat = (s.recomputeCount.toNat + 1) % 2 ^ 32 ∧
      t.params = s.params ∧ t.errCode = s.errCode ∧ t.decayMs = s.decayMs ∧ t.dryDb = s.dryDb ∧ t.wetDb = s.wetDb ∧
      t.flags = s.flags ∧ t.mode = s.mode ∧ t.link = s.link ∧ SameBanks s t ∧
      ∀ ch, IsLowPass (t.filter ch .bandpass 0) (F32.toReal (s.params.romAt s.mode.toNat 3)) s.params.bpBw.toReal fs.toNat ∧
        IsHighPass (t.filter ch .bandpass 1) (F32.toReal (s.params.romAt s.mode.toNat 2)) s.params.bpBw.toReal fs.toNat

/-- R246, R242, R243, R212, R218 to R220: what an ENG.CONFIG whose checks pass leaves in each comb: an active one gets its
descriptor, its lengths, its damping design and its gain; an inactive one the defaults.
(What a unit in the last place is rests on log 4.) -/
def Obligations.ConfigSetsCombs : Prop :=
  ∀ (fs : Word) (s : State), s.inv = true → s.params.configCheck fs = none →
    ∃ t, exec (.engConfig fs) s = .next t ∧
      ∀ ch i, i < s.params.maxCombs →
        let c := t.comb ch i
        let m := s.mode.toNat
        let delay : F32 := s.params.romAt m (4 + 3 * i)
        c.ring.cursor = 0 ∧
        if i < (s.params.romAt m 0).toNat then
          c.pct = s.params.romAt m (5 + 3 * i) ∧ c.bright = s.params.romAt m (6 + 3 * i) ∧
            (c.base.toNat : ℤ) = ⌊delay.toReal * fs.toNat / 1000⌋ ∧
            (c.ring.len.toNat : ℤ) = realStereoLen s.params c.base.toNat i ch s.stereoEn ∧
            IsLowPass c.damp (s.params.dampCutoff c.bright fs.toNat).toReal s.params.dampBw.toReal fs.toNat ∧
            IsCombGain s.params c.ring.len.toNat c.pct c.bright s.clampT fs.toNat c.g
        else
          c.pct = 0 ∧ c.bright = 0 ∧ c.g = 0 ∧ c.base = 1 ∧ c.ring.len = 1 ∧ c.damp.b0 = 0 ∧ c.damp.b1 = 0 ∧
            c.damp.b2 = 0 ∧ c.damp.a1 = 0 ∧ c.damp.a2 = 0

/-- R246, R242, R243, R213, R214, R219, R220: what an ENG.CONFIG whose checks pass leaves in each allpass.
(What a unit in the last place is rests on log 4.) -/
def Obligations.ConfigSetsAllpasses : Prop :=
  ∀ (fs : Word) (s : State), s.inv = true → s.params.configCheck fs = none →
    ∃ t gin, exec (.engConfig fs) s = .next t ∧ CoefOf (Config.apInGain s.clampT.toReal) gin ∧
      ∀ ch j, j < s.params.maxAps →
        let a := t.ap ch j
        let m := s.mode.toNat
        let delay : F32 := s.params.romAt m (4 + 3 * s.params.maxCombs + 2 * j)
        a.ring.cursor = 0 ∧
        if j < (s.params.romAt m 1).toNat then
          a.pct = s.params.romAt m (5 + 3 * s.params.maxCombs + 2 * j) ∧
            (a.base.toNat : ℤ) = ⌊delay.toReal * fs.toNat / 1000⌋ ∧
            (a.ring.len.toNat : ℤ) = realStereoLen s.params a.base.toNat j ch s.stereoEn ∧ a.gin = gin ∧
            IsApGain s.params a.ring.len.toNat a.pct s.clampT fs.toNat a.g
        else a.pct = 0 ∧ a.gin = 0 ∧ a.g = 0 ∧ a.base = 1 ∧ a.ring.len = 1

/-- R248: ENG.ACTIVATE from CONFIGURED or RUNNING zeroes every ring, every filter history and every last output, enters
RUNNING, and keeps everything else. -/
def Obligations.ActivateSilences : Prop :=
  ∀ s : State, s.inv = true → s.estate ≠ .uninit →
    ∃ t, exec .engActivate s = .next t ∧ t.responses = ⟨0, []⟩ :: s.responses ∧ t.estate = .running ∧
      SameRegisters { s with estate := .running } t ∧ SameBanks s t ∧
      (∀ ch sel i, s.params.hasRing sel i = true →
        (∀ a, (t.ring ch sel i).stor.read a = 0) ∧ (t.ring ch sel i).cursor = 0 ∧
          (t.ring ch sel i).len = (s.ring ch sel i).len) ∧
      (∀ ch sel i, s.params.hasFilter sel i = true →
        (s.filter ch sel i).SameCoefs (t.filter ch sel i) ∧ (t.filter ch sel i).x1 = 0 ∧ (t.filter ch sel i).x2 = 0 ∧
          (t.filter ch sel i).y1 = 0 ∧ (t.filter ch sel i).y2 = 0) ∧
      (∀ ch i, s.params.hasComb i = true →
        (t.comb ch i).last = 0 ∧ (t.comb ch i).g = (s.comb ch i).g ∧ (t.comb ch i).pct = (s.comb ch i).pct ∧
          (t.comb ch i).bright = (s.comb ch i).bright ∧ (t.comb ch i).base = (s.comb ch i).base) ∧
      ∀ ch j, s.params.hasAp j = true →
        (t.ap ch j).last = 0 ∧ (t.ap ch j).gin = (s.ap ch j).gin ∧ (t.ap ch j).g = (s.ap ch j).g ∧
          (t.ap ch j).pct = (s.ap ch j).pct ∧ (t.ap ch j).base = (s.ap ch j).base

/-- R250: ENG.CLEANUP, accepted in every state, returns the engine to UNINIT, and keeps the control registers, the error code,
the counter and every bank word. -/
def Obligations.CleanupReleases : Prop :=
  ∀ s : State, ∃ t, exec .engCleanup s = .next t ∧ t.responses = ⟨0, []⟩ :: s.responses ∧
    SameRegisters { s with estate := .uninit, fs := 0, nC := 0, nA := 0, cacheT := 0, cacheS := false, cacheM := 0 } t ∧
    SameBanks s t

/-- R36 to R43, R251: what ENG.CSRR answers at each address of the map, and CSR_ADDR at every other; it changes nothing. -/
def Obligations.CsrReads : Prop :=
  ∀ s : State, s.inv = true →
    (∃ w : Word, exec (.engCsrr 0x0000) s = .next (s.answered [w]) ∧
      w.toNat = s.estate.code.toNat + 2 ^ 8 * s.errCode.toNat) ∧
    exec (.engCsrr 0x0001) s = .next (s.answered [0]) ∧
    exec (.engCsrr 0x0002) s = .next (s.answered [s.fs]) ∧
    exec (.engCsrr 0x0003) s = .next (s.answered [s.recomputeCount]) ∧
    (∀ r ∈ [(0x0004, s.params.numModes), (0x0005, s.params.maxCombs), (0x0006, s.params.maxAps), (0x0007, s.params.rbCap),
        (0x0008, s.params.blockMax), (0x0009, s.params.fsMax)],
      ∃ w : Word, exec (.engCsrr r.1) s = .next (s.answered [w]) ∧ w.toNat = r.2) ∧
    (∃ w : Word, exec (.engCsrr 0x000A) s = .next (s.answered [w]) ∧
      w.toNat = match s.params.numeric with
        | .float => 0
        | .fixed fxW fxFrac => 1 + 2 ^ 8 * fxW + 2 ^ 16 * fxFrac) ∧
    exec (.engCsrr 0x0010) s = .next (s.answered [s.decayMs]) ∧
    exec (.engCsrr 0x0011) s = .next (s.answered [s.dryDb]) ∧
    exec (.engCsrr 0x0012) s = .next (s.answered [s.wetDb]) ∧
    (∃ w : Word, exec (.engCsrr 0x0013) s = .next (s.answered [w]) ∧ w.toNat = s.flags.toNat) ∧
    exec (.engCsrr 0x0014) s = .next (s.answered [s.mode]) ∧
    exec (.engCsrr 0x0020) s = .next (s.answered [s.nC]) ∧
    exec (.engCsrr 0x0021) s = .next (s.answered [s.nA]) ∧
    exec (.engCsrr 0x0022) s = .next (s.answered [s.cacheT]) ∧
    exec (.engCsrr 0x0023) s = .next (s.answered [if s.cacheS = true then 1 else 0]) ∧
    exec (.engCsrr 0x0024) s = .next (s.answered [s.cacheM]) ∧
    ∀ a, ¬(a ≤ 0x000A ∨ 0x0010 ≤ a ∧ a ≤ 0x0014 ∨ 0x0020 ≤ a ∧ a ≤ 0x0024) →
      exec (.engCsrr a) s = .next (s.failed 0x04)

/-- R38, R40, R41, R42, R252: what ENG.CSRW does at each address of the map, and CSR_ADDR at every other. -/
def Obligations.CsrWrites : Prop :=
  ∀ (s : State) (v : Word),
    exec (.engCsrw 0x0001 v) s = .next (({ s with errCode := 0 } : State).answered []) ∧
    exec (.engCsrw 0x0010 v) s = .next (({ s with decayMs := v } : State).answered []) ∧
    exec (.engCsrw 0x0011 v) s = .next (({ s with dryDb := v } : State).answered []) ∧
    exec (.engCsrw 0x0012 v) s = .next (({ s with wetDb := v } : State).answered []) ∧
    (∃ f : BitVec 4, f.toNat = v.toNat % 16 ∧
      exec (.engCsrw 0x0013 v) s = .next (({ s with flags := f } : State).answered [])) ∧
    (v.toNat < s.params.numModes →
      exec (.engCsrw 0x0014 v) s = .next (({ s with mode := v } : State).answered [])) ∧
    (s.params.numModes ≤ v.toNat → exec (.engCsrw 0x0014 v) s = .next (s.failed 0x09)) ∧
    (∀ a, a = 0x0000 ∨ 0x0002 ≤ a ∧ a ≤ 0x000A ∨ 0x0020 ≤ a ∧ a ≤ 0x0024 →
      exec (.engCsrw a v) s = .next (s.failed 0x05)) ∧
    ∀ a, ¬(a ≤ 0x000A ∨ 0x0010 ≤ a ∧ a ≤ 0x0014 ∨ 0x0020 ≤ a ∧ a ≤ 0x0024) →
      exec (.engCsrw a v) s = .next (s.failed 0x04)

/-- R249, R258, R67: in RUNNING, a block of at most BLOCK_MAX samples whose input words are all written is processed: OK, the
inputs and the output words from n on are kept, the output words below n are written, and no register changes but those that
change detection sets. A longer block is BLOCK_SIZE. -/
def Obligations.ProcessCompletes : Prop :=
  ∀ (n : Nat) (s : State), s.inv = true → s.estate = .running →
    (s.params.blockMax < n → exec (.engProcess n) s = .next (s.failed 0x0C)) ∧
    (n ≤ s.params.blockMax → (∀ k, k < n → s.readBank .inL k ≠ none ∧ s.readBank .inR k ≠ none) →
      ∃ t, exec (.engProcess n) s = .next t ∧ t.responses = ⟨0, []⟩ :: s.responses ∧
        SameRegisters
          { s with
            nC := s.params.nComb s.mode.toNat, nA := s.params.nAp s.mode.toNat, cacheT := s.clampT, cacheS := s.stereoEn,
            cacheM := s.mode, recomputeCount := t.recomputeCount }
          t ∧
        (∀ a, t.readBank .inL a = s.readBank .inL a ∧ t.readBank .inR a = s.readBank .inR a) ∧
        (∀ a, n ≤ a → t.readBank .outL a = s.readBank .outL a ∧ t.readBank .outR a = s.readBank .outR a) ∧
        ∀ a, a < n → t.readBank .outL a ≠ none ∧ t.readBank .outR a ≠ none)

/-- R67: an accepted block faults exactly where an input word below n was never written, and names the first such word.
(Which of two unwritten words is named first rests on log 9.) -/
def Obligations.ProcessFaultsOnUnwritten : Prop :=
  ∀ (n k : Nat) (s : State), s.estate = .running → n ≤ s.params.blockMax → k < n →
    (∀ j, j < k → s.readBank .inL j ≠ none ∧ s.readBank .inR j ≠ none) →
    (s.readBank .inL k = none → exec (.engProcess n) s = .fault (.unwrittenSample .inL k)) ∧
      (s.readBank .inL k ≠ none → s.readBank .inR k = none →
        exec (.engProcess n) s = .fault (.unwrittenSample .inR k))

/-- R249, R253 to R257: ENG.PROCESS runs change detection once and then, on each channel, one sample step after another on
the input words, and writes each result to the output bank. -/
def Obligations.ProcessRunsSampleSteps : Prop :=
  ∀ (n : Nat) (s : State) (xl xr : Nat → Word), s.inv = true → s.estate = .running → n ≤ s.params.blockMax →
    (∀ k, k < n → s.readBank .inL k = some (xl k) ∧ s.readBank .inR k = some (xr k)) →
    let e := s.detect.mixEnv
    (e.combsEn = s.flags.getLsbD 0 ∧ e.apsEn = s.flags.getLsbD 1 ∧ e.bpEn = s.flags.getLsbD 2 ∧ e.dry = s.dryGain ∧
      e.wet = s.wetGain ∧ e.nC = (s.params.nComb s.mode.toNat).toNat ∧ e.nA = (s.params.nAp s.mode.toNat).toNat) ∧
    ∃ (t : State) (l r : Nat → Channel) (yl yr : Nat → F32), exec (.engProcess n) s = .next t ∧
      l 0 = s.detect.chL ∧ r 0 = s.detect.chR ∧ t.chL = l n ∧ t.chR = r n ∧
      ∀ k, k < n →
        SampleStep e (l k) (s.params.s2f (xl k)) (l (k + 1)) (yl k) ∧
          SampleStep e (r k) (s.params.s2f (xr k)) (r (k + 1)) (yr k) ∧
          t.readBank .outL k = some (s.params.f2s (yl k)) ∧ t.readBank .outR k = some (s.params.f2s (yr k))

/-- R244: where no control changed since the last recompute, an empty block changes nothing at all. -/
def Obligations.NoChangeNoRecompute : Prop :=
  ∀ s : State, s.inv = true → s.estate = .running → ¬ChangePending s →
    ∃ t, exec (.engProcess 0) s = .next t ∧ t.responses = ⟨0, []⟩ :: s.responses ∧
      Untouched s t noneOf noneOf noLine noLine

/-- R243, R244, R212 to R215, R220, R222: where the decay time or the stereo flag changed and the mode did not, an empty block
sets every active line's length and gains from its stored base, percent and brightness, and keeps every word of every ring,
every filter and every inactive line.
(What a unit in the last place is rests on log 4.) -/
def Obligations.ChangeRecomputesLines : Prop :=
  ∀ s : State, s.inv = true → s.estate = .running → s.mode = s.cacheM → ChangePending s →
    ∃ t gin, exec (.engProcess 0) s = .next t ∧ CoefOf (Config.apInGain s.clampT.toReal) gin ∧
      t.cacheT = s.clampT ∧ t.cacheS = s.stereoEn ∧ t.nC = s.nC ∧ t.nA = s.nA ∧
      (∀ ch sel i, s.params.hasFilter sel i = true → t.filter ch sel i = s.filter ch sel i) ∧
      (∀ ch i, i < s.params.maxCombs →
        let c := s.comb ch i
        let c' := t.comb ch i
        if i < s.nC.toNat then
          (∃ len : Nat, (len : ℤ) = realStereoLen s.params c.base.toNat i ch s.stereoEn ∧ RingResized c.ring len c'.ring ∧
            IsCombGain s.params len c.pct c.bright s.clampT s.fs.toNat c'.g) ∧
            c'.last = c.last ∧ c'.pct = c.pct ∧ c'.bright = c.bright ∧ c'.base = c.base
        else c' = c) ∧
      ∀ ch j, j < s.params.maxAps →
        let a := s.ap ch j
        let a' := t.ap ch j
        if j < s.nA.toNat then
          (∃ len : Nat, (len : ℤ) = realStereoLen s.params a.base.toNat j ch s.stereoEn ∧ RingResized a.ring len a'.ring ∧
            IsApGain s.params len a.pct s.clampT s.fs.toNat a'.g) ∧
            a'.gin = gin ∧ a'.last = a.last ∧ a'.pct = a.pct ∧ a'.base = a.base
        else a' = a

/-- R242, R243, R244, R212 to R215, R123, R348: where MODE changed, an empty block loads the new mode: its topology, its
descriptors, its lengths, its filter designs and the gains of its active lines; it keeps every word of every ring, a cursor
that the new length still covers, every filter history, every last output and every inactive line.
(What a unit in the last place is rests on log 4.) -/
def Obligations.ModeSwitchReloads : Prop :=
  ∀ s : State, s.inv = true → s.estate = .running → s.mode ≠ s.cacheM →
    ∃ t gin, exec (.engProcess 0) s = .next t ∧ CoefOf (Config.apInGain s.clampT.toReal) gin ∧
      t.cacheT = s.clampT ∧ t.cacheS = s.stereoEn ∧ t.cacheM = s.mode ∧
      t.nC = s.params.romAt s.mode.toNat 0 ∧ t.nA = s.params.romAt s.mode.toNat 1 ∧
      (∀ ch, IsLowPass (t.filter ch .bandpass 0) (F32.toReal (s.params.romAt s.mode.toNat 3)) s.params.bpBw.toReal s.fs.toNat ∧
        IsHighPass (t.filter ch .bandpass 1) (F32.toReal (s.params.romAt s.mode.toNat 2)) s.params.bpBw.toReal
          s.fs.toNat) ∧
      (∀ ch sel i, s.params.hasFilter sel i = true → (s.filter ch sel i).SameHistory (t.filter ch sel i)) ∧
      (∀ ch i, i < s.params.maxCombs →
        let c := t.comb ch i
        let delay : F32 := s.params.romAt s.mode.toNat (4 + 3 * i)
        if i < t.nC.toNat then
          c.pct = s.params.romAt s.mode.toNat (5 + 3 * i) ∧ c.bright = s.params.romAt s.mode.toNat (6 + 3 * i) ∧
            c.last = (s.comb ch i).last ∧ (c.base.toNat : ℤ) = ⌊delay.toReal * s.fs.toNat / 1000⌋ ∧
            (∃ len : Nat, (len : ℤ) = realStereoLen s.params c.base.toNat i ch s.stereoEn ∧
              RingResized (s.comb ch i).ring len c.ring ∧
              IsCombGain s.params len c.pct c.bright s.clampT s.fs.toNat c.g) ∧
            IsLowPass c.damp (s.params.dampCutoff c.bright s.fs.toNat).toReal s.params.dampBw.toReal s.fs.toNat
        else c = s.comb ch i) ∧
      ∀ ch j, j < s.params.maxAps →
        let a := t.ap ch j
        let delay : F32 := s.params.romAt s.mode.toNat (4 + 3 * s.params.maxCombs + 2 * j)
        if j < t.nA.toNat then
          a.pct = s.params.romAt s.mode.toNat (5 + 3 * s.params.maxCombs + 2 * j) ∧ a.last = (s.ap ch j).last ∧
            (a.base.toNat : ℤ) = ⌊delay.toReal * s.fs.toNat / 1000⌋ ∧ a.gin = gin ∧
            ∃ len : Nat, (len : ℤ) = realStereoLen s.params a.base.toNat j ch s.stereoEn ∧
              RingResized (s.ap ch j).ring len a.ring ∧ IsApGain s.params len a.pct s.clampT s.fs.toNat a.g
        else a = s.ap ch j

/-- R257: what a block does on one channel does not depend on the other: two states that agree on all that one channel reads
give it the same instances and the same output words.
(That the free NaNs are drawn by a counter is log 5.) -/
def Obligations.ChannelsAreIndependent : Prop :=
  ∀ (n : Nat) (s s' t t' : State), exec (.engProcess n) s = .next t → exec (.engProcess n) s' = .next t' →
    (AgreeOnLeft s s' → t'.chL = t.chL ∧ ∀ a, t'.readBank .outL a = t.readBank .outL a) ∧
      (AgreeOnRight s s' → t'.chR = t.chR ∧ ∀ a, t'.readBank .outR a = t.readBank .outR a)

/-- R259: after ENG.ACTIVATE, with finite gains and coefficients, finite dry and wet gains that are not negative, and no
change pending, a block of words 0 gives words 0. (R259 does not say that the product of an allpass's two gains must be
finite too: where it overflows, the infinity times 0 is a NaN. The premise `finiteGains` asks for it.) -/
def Obligations.SilenceInSilenceOut : Prop :=
  ∀ (n : Nat) (s : State), s.inv = true → s.estate ≠ .uninit → ¬ChangePending s →
    s.chL.finiteGains → s.chR.finiteGains →
    s.dryGain.isFinite = true → s.dryGain.sign = false → s.wetGain.isFinite = true → s.wetGain.sign = false →
    n ≤ s.params.blockMax → (∀ k, k < n → s.readBank .inL k = some 0 ∧ s.readBank .inR k = some 0) →
    ∃ t u, exec .engActivate s = .next t ∧ exec (.engProcess n) t = .next u ∧
      ∀ k, k < n → u.readBank .outL k = some 0 ∧ u.readBank .outR k = some 0

/-! ## The sample banks and the ROM -/

/-- R280 to R282, R68: MEM.RD answers the bank word or the ROM word, and changes nothing; an unwritten bank word is the model
fault; a space or an address out of range is INDEX_RANGE. -/
def Obligations.MemReads : Prop :=
  ∀ (a : Nat) (s : State), s.inv = true →
    (∀ r ∈ [(0, BankId.inL), (1, BankId.inR), (2, BankId.outL), (3, BankId.outR)],
      (s.params.blockMax ≤ a → exec (.memRd r.1 a) s = .next (s.failed 0x03)) ∧
        (a < s.params.blockMax →
          (∀ w, s.readBank r.2 a = some w → exec (.memRd r.1 a) s = .next (s.answered [w])) ∧
            (s.readBank r.2 a = none → exec (.memRd r.1 a) s = .fault (.unwrittenSample r.2 a)))) ∧
    (∀ h : a < s.params.rom.length, exec (.memRd 4 a) s = .next (s.answered [s.params.rom[a]])) ∧
    (s.params.rom.length ≤ a → exec (.memRd 4 a) s = .next (s.failed 0x03)) ∧
    ∀ space, 4 < space → exec (.memRd space a) s = .next (s.failed 0x03)

/-- R281, R282, R68, R61: MEM.WR replaces one bank word, bit for bit, and MEM.RD gives it back; no other word of any bank and
no other state changes. The ROM is READ_ONLY, and a space or an address out of range is INDEX_RANGE. -/
def Obligations.MemWrites : Prop :=
  ∀ (a : Nat) (w : Word) (s : State), s.inv = true →
    (∀ r ∈ [(0, BankId.inL), (1, BankId.inR), (2, BankId.outL), (3, BankId.outR)],
      (s.params.blockMax ≤ a → exec (.memWr r.1 a w) s = .next (s.failed 0x03)) ∧
        (a < s.params.blockMax →
          ∃ t, exec (.memWr r.1 a w) s = .next t ∧ t.responses = ⟨0, []⟩ :: s.responses ∧
            exec (.memRd r.1 a) t = .next (t.answered [w]) ∧
            (∀ b a', t.readBank b a' = if b = r.2 ∧ a' = a then some w else s.readBank b a') ∧
            SameRegisters s t ∧ t.chL = s.chL ∧ t.chR = s.chR)) ∧
    (a < s.params.rom.length → exec (.memWr 4 a w) s = .next (s.failed 0x05)) ∧
    (s.params.rom.length ≤ a → exec (.memWr 4 a w) s = .next (s.failed 0x03)) ∧
    ∀ space, 4 < space → exec (.memWr space a w) s = .next (s.failed 0x03)

/-! ## Arithmetic and conversions -/

/-- R15: on finite operands fadd, fsub and fmul are the exact result rounded to the nearest binary32, ties to even, wherever
that exact result is not 0.
(Overflow to infinity is log 13.) -/
def Obligations.ArithmeticRoundsExactly : Prop :=
  ∀ (site : Site) (a b : F32), a.isFinite = true → b.isFinite = true →
    (a.toReal + b.toReal ≠ 0 → F32.add site a b = roundReal (a.toReal + b.toReal)) ∧
      (a.toReal - b.toReal ≠ 0 → F32.sub site a b = roundReal (a.toReal - b.toReal)) ∧
      (a.toReal * b.toReal ≠ 0 → F32.mul site a b = roundReal (a.toReal * b.toReal))

/-- R15 and 93_implementation_defined.md 1.9: a NaN operand, the difference of two infinities and the product of zero and an
infinity give a NaN; the claim holds for whichever NaN it is. -/
def Obligations.NanIsContagious : Prop :=
  ∀ (site : Site) (a b : F32),
    (a.isNaN = true ∨ b.isNaN = true →
      (F32.add site a b).isNaN = true ∧ (F32.sub site a b).isNaN = true ∧ (F32.mul site a b).isNaN = true) ∧
    (a.isInf = true → b.isInf = true → a.sign = b.sign → (F32.sub site a b).isNaN = true) ∧
    (a.isZero = true → b.isInf = true → (F32.mul site a b).isNaN = true ∧ (F32.mul site b a).isNaN = true)

/-- R140: FTZ gives +0.0 for a subnormal of either sign and keeps every other word, NaNs included; what it gives is never
subnormal. -/
def Obligations.FlushToZero : Prop :=
  ∀ v : F32, (F32.ftz v).isSubnormal = false ∧
    (v.isFinite = true → v.toReal ≠ 0 → |v.toReal| < 1 / 2 ^ 126 → F32.ftz v = 0x00000000) ∧
    ((1 / 2 ^ 126 ≤ |v.toReal| ∨ v.isZero = true ∨ v.isFinite = false) → F32.ftz v = v)

/-- R25, R26: S2F and F2S of each numeric regime. FLOAT keeps every bit. FIXED reads all 32 bits as a signed integer scaled by
2^-FX_FRAC, rounded to binary32, and writes the value scaled by 2^FX_FRAC, rounded half to even and clamped to FX_W bits; a
NaN gives 0 and an infinity saturates. (The word 0 is read as a zero; that it is +0.0 is log 20 and no part of this.) -/
def Obligations.SampleConversions : Prop :=
  ∀ (p : Params) (v : F32) (w : Word), p.wf = true →
    (p.numeric = .float → p.s2f w = w ∧ p.f2s v = v) ∧
    ∀ fxW fxFrac, p.numeric = .fixed fxW fxFrac →
      (w ≠ 0 → p.s2f w = roundReal ((w.toInt : ℝ) / 2 ^ fxFrac)) ∧
      (w = 0 → (p.s2f w).isZero = true) ∧
      (v.isNaN = true → p.f2s v = 0) ∧
      (v.isInf = true → (p.f2s v).toInt = if v.sign = true then -2 ^ (fxW - 1) else 2 ^ (fxW - 1) - 1) ∧
      (v.isFinite = true →
        (p.f2s v).toInt = min (max (roundHalfEvenReal (v.toReal * 2 ^ fxFrac)) (-2 ^ (fxW - 1))) (2 ^ (fxW - 1) - 1))

/-- R44, R211, R224: the decay time the formulas read is finite, positive and inside its bounds, whatever word DECAY_MS holds:
a NaN and a value at or below the lower bound give that bound, a value at or above the upper one that bound, a value from one
to the other itself. A level is clamped the same way (at a bound it has the bound's value), and a level of 0 dB is a gain of
exactly 1.0. -/
def Obligations.ControlsAreClamped : Prop :=
  ∀ s : State, s.inv = true →
    let lo := s.params.decayMin
    let hi := s.params.decayMax
    (s.clampT.isFinite = true ∧ 0 < s.clampT.toReal ∧ lo.toReal ≤ s.clampT.toReal ∧ s.clampT.toReal ≤ hi.toReal) ∧
    (F32.isNaN s.decayMs = true → s.clampT = lo) ∧ (F32.le s.decayMs lo = true → s.clampT = lo) ∧
    (F32.le hi s.decayMs = true → s.clampT = hi) ∧
    (F32.le lo s.decayMs = true → F32.le s.decayMs hi = true → s.clampT = s.decayMs) ∧
    (∀ v : F32,
      let l := s.params.clampLevel v
      F32.le s.params.levelMin l = true ∧ F32.le l s.params.levelMax = true ∧ (v.isNaN = true → l = s.params.levelMin) ∧
        (F32.lt v s.params.levelMin = true → l = s.params.levelMin) ∧
        (F32.lt s.params.levelMax v = true → l = s.params.levelMax) ∧
        (F32.lt s.params.levelMin v = true → F32.lt v s.params.levelMax = true → l = v) ∧
        (F32.le v s.params.levelMin = true → F32.key l = F32.key s.params.levelMin) ∧
        (F32.le s.params.levelMax v = true → F32.key l = F32.key s.params.levelMax) ∧
        (F32.le s.params.levelMin v = true → F32.le v s.params.levelMax = true → F32.key l = F32.key v)) ∧
    (s.dryGain = s.params.db2lin (s.params.clampLevel s.dryDb) ∧ s.wetGain = s.params.db2lin (s.params.clampLevel s.wetDb)) ∧
    ∀ v : F32, v.isZero = true → s.params.db2lin v = 0x3F800000

/-! ## The assembler syntax -/

/-- R107: a literal with a decimal point or an exponent is the binary32 value nearest to it, ties to even.
(log 15.) -/
def Obligations.DecimalLiteralsRound : Prop :=
  ∀ (negative : Bool) (num : Nat) (exp : Int), num ≠ 0 →
    decimalToF32 negative num exp = roundReal ((if negative = true then -1 else 1) * (num : ℝ) * (10 : ℝ) ^ exp)

/-- R106, R107, R108, R103: the line of a command, its integers written in decimal or in hexadecimal, assembles to that
command; the line of a pseudo-instruction assembles to its expansion; a comment changes nothing; and a line the assembler
takes is a command the syntax can name, whose transaction decodes back to it. (A register number, and a decimal integer as
a word, rest on log 15.) -/
def Obligations.AssemblerLines : Prop :=
  ∀ (p : Params) (hex : Bool),
    (∀ i : Instr, i.wf = true → commandHasLine i = true → p.assemble (commandLine hex i) = some i) ∧
    ((∀ (ch : Chan) (sel : RingSel) (idx : Nat), idx < 64 →
        p.assemble (pseudoLine hex (.rbPeek ch sel idx)) = some (.rbRead ch sel idx 0)) ∧
      (∀ m : Word, p.assemble (pseudoLine hex (.engSetmode m)) = some (.engCsrw 0x0014 m)) ∧
      (∀ v : Word, p.assemble (pseudoLine hex (.engSetflags v)) = some (.engCsrw 0x0013 v)) ∧
      (∀ t : F32, p.assemble (pseudoLine hex (.engSetdecay t)) = some (.engCsrw 0x0010 t)) ∧
      p.assemble (pseudoLine hex .engClrerr) = some (.engCsrw 0x0001 0) ∧
      p.assemble (pseudoLine hex .engStatus) = some (.engCsrr 0x0000)) ∧
    (∀ line comment : List Char, p.assemble (line ++ ';' :: comment) = p.assemble line) ∧
    ∀ (line : List Char) (i : Instr), p.assemble line = some i →
      i.wf = true ∧ commandHasLine i = true ∧ decode (encode i) = .ok i
end

