-- ==== Sys2Proof/Laws/Assembly.lean ====
section
/-! SUPPORT. What the assembler reads back from a printed integer and from a printed line (30_encoding.md R106, R107). -/

namespace Sys2Proof.Machine

theorem hexDigit_digitChar : ∀ d, d < 16 → hexDigit (digitChar d) = some d := by decide

/-- The digits before the last one, and then the last one. -/
theorem digitsFrom_append (base acc : Nat) (t : List Char) (c : Char) :
    digitsFrom base acc (t ++ [c]) = (digitsFrom base acc t).bind fun m => digitsFrom base m [c] := by
  induction t generalizing acc with
  | nil => rfl
  | cons x xs ih =>
    simp only [List.cons_append, digitsFrom]
    cases hexDigit x with
    | none => rfl
    | some d =>
      by_cases h : d < base
      · simp only [if_pos h]
        exact ih _
      · simp [h]

/-- A printed number reads back as itself. -/
theorem digitsFrom_numeral {base width n : Nat} (h2 : 2 ≤ base) (h16 : base ≤ 16) (hn : n < base ^ width) :
    digitsFrom base 0 (numeral base width n) = some n := by
  induction width generalizing n with
  | zero => simp at hn; simp [numeral, digitsFrom, hn]
  | succ w ih =>
    have hm : n % base < base := Nat.mod_lt _ (by omega)
    rw [numeral]
    by_cases hlt : n < base
    · simp [hlt, digitsFrom, hexDigit_digitChar n (by omega), Nat.mod_eq_of_lt hlt]
    · rw [if_neg hlt, digitsFrom_append, ih (Nat.div_lt_of_lt_mul (by rwa [Nat.pow_succ, Nat.mul_comm] at hn))]
      simp [digitsFrom, hexDigit_digitChar _ (by omega : n % base < 16), hm, Nat.div_add_mod']

/-- A printed number has a digit. -/
theorem numeral_ne_nil (base width n : Nat) : numeral base (width + 1) n ≠ [] := by simp [numeral]

/-- A printed number holds digits alone. -/
theorem mem_numeral {base width n : Nat} {c : Char} (hb : 0 < base) (h : c ∈ numeral base width n) :
    ∃ d, d < base ∧ c = digitChar d := by
  induction width generalizing n with
  | zero => simp [numeral] at h
  | succ w ih =>
    rw [numeral, List.mem_append] at h
    rcases h with h | h
    · split at h
      · simp at h
      · exact ih h
    · exact ⟨_, Nat.mod_lt _ hb, by simpa using h⟩

theorem digitChar_plain : ∀ d, d < 16 →
    isBlank (digitChar d) = false ∧ digitChar d ≠ ',' ∧ digitChar d ≠ ';' ∧ digitChar d ≠ '.' ∧ digitChar d ≠ '-' ∧
      digitChar d ≠ 'x' := by decide

theorem digitChar_decimal : ∀ d, d < 10 → isExpMark (digitChar d) = false := by decide

theorem digits_numeral {base width n : Nat} (h2 : 2 ≤ base) (h16 : base ≤ 16) (hn : n < base ^ (width + 1)) :
    digits base (numeral base (width + 1) n) = some n := by
  rw [digits, if_neg (by simpa using numeral_ne_nil base width n), digitsFrom_numeral h2 h16 hn]

/-- An integer literal of either kind reads back as its number (30_encoding.md R107). -/
theorem literalOf_integerText {hex : Bool} {n : Nat} (h : n < 2 ^ 32) :
    literalOf (integerText hex n) = some (.integer n) := by
  cases hex with
  | true =>
    rw [integerText, if_pos rfl, literalOf, digits_numeral (by decide) (by decide) (by omega)]
    rfl
  | false =>
    have hd := digits_numeral (base := 10) (width := 9) (n := n) (by decide) (by decide) (by omega)
    have hmem : ∀ c ∈ numeral 10 10 n, c ≠ '-' ∧ c ≠ 'x' ∧ c ≠ '.' ∧ isExpMark c = false := by
      intro c hc
      obtain ⟨d, hd10, rfl⟩ := mem_numeral (by decide) hc
      have := digitChar_plain d (by omega)
      exact ⟨this.2.2.2.2.1, this.2.2.2.2.2, this.2.2.2.1, digitChar_decimal d hd10⟩
    rw [integerText, if_neg (by decide)]
    generalize numeral 10 10 n = t at hd hmem
    unfold literalOf
    split
    · exact absurd rfl (hmem 'x' (by simp)).2.1
    · exact absurd rfl (hmem '-' (by simp)).1
    · have : (t.any fun c => c = '.' || isExpMark c) = false := by
        rw [List.any_eq_false]
        intro c hc
        simp [(hmem c hc).2.2.1, (hmem c hc).2.2.2]
      rw [this, hd]
      rfl

/-- The same for a field that takes an integer. -/
theorem integerOf_integerText {hex : Bool} {n : Nat} (h : n < 2 ^ 32) : integerOf (integerText hex n) = some n := by
  rw [integerOf, literalOf_integerText h]

/-- A word's text stands for the word in every operand position (30_encoding.md R107). -/
theorem literalWord_integerText {hex : Bool} (p : Params) (slot : Slot) (w : Word) :
    (literalOf (integerText hex w.toNat)).bind (p.literalWord slot) = some w := by
  rw [literalOf_integerText w.isLt]
  cases slot <;> simp [Params.literalWord, wordOf, w.isLt]

/-- A comment changes nothing (30_encoding.md R106). -/
theorem withoutComment_append (line comment : List Char) :
    withoutComment (line ++ ';' :: comment) = withoutComment line := by
  induction line with
  | nil => rfl
  | cons c cs ih =>
    simp only [withoutComment, List.cons_append, List.takeWhile_cons] at ih ⊢
    rw [ih]

/-! ## Lines -/

/-- A text with a character and no blank, no comma and no comment mark. -/
def Plain (t : List Char) : Prop := t ≠ [] ∧ ∀ c ∈ t, isBlank c = false ∧ c ≠ ',' ∧ c ≠ ';'

theorem dropWhile_plain {t : List Char} (h : ∀ c ∈ t, isBlank c = false) : t.dropWhile isBlank = t := by
  cases t with
  | nil => rfl
  | cons c cs => simp [h c (by simp)]

theorem trimBlanks_plain {t : List Char} (h : ∀ c ∈ t, isBlank c = false) : trimBlanks t = t := by
  rw [trimBlanks, dropWhile_plain h, dropWhile_plain (by simpa using h), List.reverse_reverse]

/-- A text with a character other than a blank keeps one. -/
theorem trimBlanks_ne_nil {t : List Char} {c : Char} (hc : c ∈ t) (hb : isBlank c = false) : trimBlanks t ≠ [] := by
  intro h
  rw [trimBlanks, List.reverse_eq_nil_iff, List.dropWhile_eq_nil_iff] at h
  have hd : t.dropWhile isBlank ≠ [] := by
    rw [Ne, List.dropWhile_eq_nil_iff]
    intro h'
    simp [h' c hc] at hb
  have hx := List.head_dropWhile_not isBlank hd
  simp [h _ (List.mem_reverse.2 (List.head_mem hd))] at hx

theorem trimBlanks_cons (t : List Char) : trimBlanks (' ' :: t) = trimBlanks t := rfl

/-- The texts after a mnemonic, as texts between commas. -/
theorem flatten_commas (args : List (List Char)) (arg : List Char) :
    arg ++ (args.map fun a => ',' :: ' ' :: a).flatten =
      [','].intercalate (arg :: args.map fun a => ' ' :: a) := by
  induction args generalizing arg with
  | nil => simp [List.intercalate]
  | cons a as ih =>
    have := ih (' ' :: a)
    simp [List.intercalate] at this ⊢
    simpa using this


theorem trimBlanks_ends {x c : Char} {t u : List Char} (ht : t = u ++ [c]) (hc : isBlank c = false)
    (hx : isBlank x = false) :
    trimBlanks (x :: t) = x :: t := by
  subst ht
  simp [trimBlanks, hx, hc]

/-- Joined plain texts end in a character that is no blank. -/
theorem ends_plain {arg : List Char} {args : List (List Char)} (h : ∀ a ∈ arg :: args, Plain a) :
    ∃ u c, arg ++ (args.map fun a => ',' :: ' ' :: a).flatten = u ++ [c] ∧ isBlank c = false := by
  induction args generalizing arg with
  | nil =>
    have ha := h arg (by simp)
    exact ⟨arg.dropLast, arg.getLast ha.1, by simp [List.dropLast_append_getLast], (ha.2 _ (List.getLast_mem ha.1)).1⟩
  | cons a as ih =>
    obtain ⟨u, c, hu, hc⟩ := ih (arg := a) fun b hb => h b (by simp [List.mem_cons.1 hb])
    exact ⟨arg ++ ',' :: ' ' :: u, c, by simp [hu], hc⟩

/-- Joined plain texts split into the same texts. -/
theorem operandsOf_line {arg : List Char} {args : List (List Char)} (h : ∀ a ∈ arg :: args, Plain a) :
    operandsOf (' ' :: (arg ++ (args.map fun a => ',' :: ' ' :: a).flatten)) = arg :: args := by
  have hne : ∀ t, trimBlanks (' ' :: (arg ++ t)) ≠ [] := by
    obtain ⟨c, hc⟩ := List.exists_mem_of_ne_nil _ (h arg (by simp)).1
    exact fun t => trimBlanks_ne_nil (c := c) (by simp [hc]) ((h arg (by simp)).2 c hc).1
  rw [operandsOf, if_neg (by simpa using hne _)]
  rw [show ' ' :: (arg ++ (args.map fun a => ',' :: ' ' :: a).flatten) =
      [','].intercalate ((arg :: args).map fun a => ' ' :: a) by
    rw [← List.cons_append, flatten_commas]; rfl]
  rw [List.splitOn_intercalate]
  · rw [List.map_map]
    conv_rhs => rw [← List.map_id (arg :: args)]
    apply List.map_congr_left
    intro a ha
    exact (trimBlanks_cons a).trans (trimBlanks_plain fun c hc => ((h a ha).2 c hc).1)
  · intro l hl
    simp only [List.mem_map] at hl
    obtain ⟨a, ha, rfl⟩ := hl
    simp only [List.mem_cons, not_or]
    exact ⟨by decide, fun hc => ((h a ha).2 _ hc).2.1 rfl⟩
  · simp

theorem withoutComment_plain {t : List Char} (h : ∀ c ∈ t, c ≠ ';') : withoutComment t = t := by
  rw [withoutComment, List.takeWhile_eq_self_iff]
  simpa using h

/-- How the assembler reads a line it printed: the name, and the texts after it. -/
theorem assemble_lineOf (p : Params) {name : String} {args : List (List Char)} (hn : Plain name.toList)
    (h : ∀ a ∈ args, Plain a) :
    p.assemble (lineOf name args) =
      match lookName mnemonics name.toList with
      | some op => p.assembleCommand op args
      | none => (p.pseudoOf name.toList args).map Pseudo.expand := by
  have hb : ∀ c ∈ name.toList, isBlank c = false := fun c hc => (hn.2 c hc).1
  cases args with
  | nil =>
    have ht : trimBlanks (withoutComment (lineOf name [])) = name.toList := by
      rw [lineOf, withoutComment_plain fun c hc => (hn.2 c hc).2.2, trimBlanks_plain hb]
    have h1 : name.toList.takeWhile (fun c => !isBlank c) = name.toList := by
      rw [List.takeWhile_eq_self_iff]; simpa using hb
    have h2 : name.toList.dropWhile (fun c => !isBlank c) = [] := by
      rw [List.dropWhile_eq_nil_iff]; simpa using hb
    rw [Params.assemble, ht, h1, h2]
    all_goals rfl
  | cons arg args =>
    have hargs : ∀ c ∈ arg ++ (args.map fun a => ',' :: ' ' :: a).flatten, c ≠ ';' := by
      intro c hc
      simp only [List.mem_append, List.mem_flatten, List.mem_map] at hc
      rcases hc with hc | ⟨_, ⟨a, ha, rfl⟩, hc⟩
      · exact ((h arg (by simp)).2 c hc).2.2
      · rcases List.mem_cons.1 hc with rfl | hc
        · decide
        rcases List.mem_cons.1 hc with rfl | hc
        · decide
        exact ((h a (by simp [ha])).2 c hc).2.2
    have hw : withoutComment (lineOf name (arg :: args)) = lineOf name (arg :: args) := by
      apply withoutComment_plain
      intro c hc
      simp only [lineOf, List.mem_append, List.mem_cons] at hc
      rcases hc with hc | rfl | hc
      · exact (hn.2 c hc).2.2
      · decide
      · exact hargs c (by simpa using hc)
    have ht : trimBlanks (lineOf name (arg :: args)) = lineOf name (arg :: args) := by
      obtain ⟨u, c, hu, hc⟩ := ends_plain h
      obtain ⟨x, xs, hx⟩ := List.exists_cons_of_ne_nil hn.1
      rw [lineOf, hu, hx, List.cons_append]
      exact trimBlanks_ends (u := xs ++ ' ' :: u) (by simp) hc (hb x (by simp [hx]))
    have h1 : (lineOf name (arg :: args)).takeWhile (fun c => !isBlank c) = name.toList := by
      rw [lineOf, List.takeWhile_append_of_pos (by simpa using hb)]
      simp [isBlank]
    have h2 : (lineOf name (arg :: args)).dropWhile (fun c => !isBlank c) =
        ' ' :: (arg ++ (args.map fun a => ',' :: ' ' :: a).flatten) := by
      rw [lineOf, List.dropWhile_append_of_pos (by simpa using hb)]
      simp [isBlank]
    rw [Params.assemble, hw, ht, h1, h2, operandsOf_line h]
    all_goals rfl

/-- A printed integer is plain. -/
theorem plain_integerText (hex : Bool) (n : Nat) : Plain (integerText hex n) := by
  have hd : ∀ base, 0 < base → base ≤ 16 → ∀ width, ∀ c ∈ numeral base width n, isBlank c = false ∧ c ≠ ',' ∧ c ≠ ';' := by
    intro base h0 h16 width c hc
    obtain ⟨d, hlt, rfl⟩ := mem_numeral h0 hc
    have := digitChar_plain d (by omega)
    exact ⟨this.1, this.2.1, this.2.2.1⟩
  cases hex with
  | true =>
    refine ⟨by simp [integerText], fun c hc => ?_⟩
    simp only [integerText, if_true, List.mem_cons] at hc
    rcases hc with rfl | rfl | hc
    · decide
    · decide
    · exact hd 16 (by decide) (by decide) 8 c hc
  | false => exact ⟨numeral_ne_nil 10 9 n, hd 10 (by decide) (by decide) 10⟩

end Sys2Proof.Machine
end

