-- ==== Sys2Proof/Laws/State.lean ====
section
/-! SUPPORT. One lemma per field per update of the state, so that no proof unfolds a record update. -/

namespace Sys2Proof.Machine

/-! ## respond -/

@[simp] theorem State.respond_params (s : State) (d : List Word) : (s.respond d).params = s.params := rfl
@[simp] theorem State.respond_estate (s : State) (d : List Word) : (s.respond d).estate = s.estate := rfl
@[simp] theorem State.respond_errCode (s : State) (d : List Word) : (s.respond d).errCode = s.errCode := rfl
@[simp] theorem State.respond_fs (s : State) (d : List Word) : (s.respond d).fs = s.fs := rfl
@[simp] theorem State.respond_recomputeCount (s : State) (d : List Word) : (s.respond d).recomputeCount = s.recomputeCount := rfl
@[simp] theorem State.respond_nC (s : State) (d : List Word) : (s.respond d).nC = s.nC := rfl
@[simp] theorem State.respond_nA (s : State) (d : List Word) : (s.respond d).nA = s.nA := rfl
@[simp] theorem State.respond_cacheT (s : State) (d : List Word) : (s.respond d).cacheT = s.cacheT := rfl
@[simp] theorem State.respond_cacheS (s : State) (d : List Word) : (s.respond d).cacheS = s.cacheS := rfl
@[simp] theorem State.respond_cacheM (s : State) (d : List Word) : (s.respond d).cacheM = s.cacheM := rfl
@[simp] theorem State.respond_decayMs (s : State) (d : List Word) : (s.respond d).decayMs = s.decayMs := rfl
@[simp] theorem State.respond_dryDb (s : State) (d : List Word) : (s.respond d).dryDb = s.dryDb := rfl
@[simp] theorem State.respond_wetDb (s : State) (d : List Word) : (s.respond d).wetDb = s.wetDb := rfl
@[simp] theorem State.respond_flags (s : State) (d : List Word) : (s.respond d).flags = s.flags := rfl
@[simp] theorem State.respond_mode (s : State) (d : List Word) : (s.respond d).mode = s.mode := rfl
@[simp] theorem State.respond_chL (s : State) (d : List Word) : (s.respond d).chL = s.chL := rfl
@[simp] theorem State.respond_chR (s : State) (d : List Word) : (s.respond d).chR = s.chR := rfl
@[simp] theorem State.respond_inL (s : State) (d : List Word) : (s.respond d).inL = s.inL := rfl
@[simp] theorem State.respond_inR (s : State) (d : List Word) : (s.respond d).inR = s.inR := rfl
@[simp] theorem State.respond_outL (s : State) (d : List Word) : (s.respond d).outL = s.outL := rfl
@[simp] theorem State.respond_outR (s : State) (d : List Word) : (s.respond d).outR = s.outR := rfl
@[simp] theorem State.respond_link (s : State) (d : List Word) : (s.respond d).link = s.link := rfl
@[simp] theorem State.respond_responses (s : State) (d : List Word) : (s.respond d).responses = okResponse d :: s.responses := rfl
@[simp] theorem State.respond_freeCtr (s : State) (d : List Word) : (s.respond d).freeCtr = s.freeCtr := rfl

/-! ## raise -/

@[simp] theorem State.raise_params (s : State) (e : ErrorCode) : (s.raise e).params = s.params := rfl
@[simp] theorem State.raise_estate (s : State) (e : ErrorCode) : (s.raise e).estate = s.estate := rfl
@[simp] theorem State.raise_errCode (s : State) (e : ErrorCode) : (s.raise e).errCode = if s.errCode = 0 then e.value else s.errCode := rfl
@[simp] theorem State.raise_fs (s : State) (e : ErrorCode) : (s.raise e).fs = s.fs := rfl
@[simp] theorem State.raise_recomputeCount (s : State) (e : ErrorCode) : (s.raise e).recomputeCount = s.recomputeCount := rfl
@[simp] theorem State.raise_nC (s : State) (e : ErrorCode) : (s.raise e).nC = s.nC := rfl
@[simp] theorem State.raise_nA (s : State) (e : ErrorCode) : (s.raise e).nA = s.nA := rfl
@[simp] theorem State.raise_cacheT (s : State) (e : ErrorCode) : (s.raise e).cacheT = s.cacheT := rfl
@[simp] theorem State.raise_cacheS (s : State) (e : ErrorCode) : (s.raise e).cacheS = s.cacheS := rfl
@[simp] theorem State.raise_cacheM (s : State) (e : ErrorCode) : (s.raise e).cacheM = s.cacheM := rfl
@[simp] theorem State.raise_decayMs (s : State) (e : ErrorCode) : (s.raise e).decayMs = s.decayMs := rfl
@[simp] theorem State.raise_dryDb (s : State) (e : ErrorCode) : (s.raise e).dryDb = s.dryDb := rfl
@[simp] theorem State.raise_wetDb (s : State) (e : ErrorCode) : (s.raise e).wetDb = s.wetDb := rfl
@[simp] theorem State.raise_flags (s : State) (e : ErrorCode) : (s.raise e).flags = s.flags := rfl
@[simp] theorem State.raise_mode (s : State) (e : ErrorCode) : (s.raise e).mode = s.mode := rfl
@[simp] theorem State.raise_chL (s : State) (e : ErrorCode) : (s.raise e).chL = s.chL := rfl
@[simp] theorem State.raise_chR (s : State) (e : ErrorCode) : (s.raise e).chR = s.chR := rfl
@[simp] theorem State.raise_inL (s : State) (e : ErrorCode) : (s.raise e).inL = s.inL := rfl
@[simp] theorem State.raise_inR (s : State) (e : ErrorCode) : (s.raise e).inR = s.inR := rfl
@[simp] theorem State.raise_outL (s : State) (e : ErrorCode) : (s.raise e).outL = s.outL := rfl
@[simp] theorem State.raise_outR (s : State) (e : ErrorCode) : (s.raise e).outR = s.outR := rfl
@[simp] theorem State.raise_link (s : State) (e : ErrorCode) : (s.raise e).link = s.link := rfl
@[simp] theorem State.raise_responses (s : State) (e : ErrorCode) : (s.raise e).responses = e.response :: s.responses := rfl
@[simp] theorem State.raise_freeCtr (s : State) (e : ErrorCode) : (s.raise e).freeCtr = s.freeCtr := rfl

/-! ## bumpFree -/

@[simp] theorem State.bumpFree_params (s : State) : (s.bumpFree).params = s.params := rfl
@[simp] theorem State.bumpFree_estate (s : State) : (s.bumpFree).estate = s.estate := rfl
@[simp] theorem State.bumpFree_errCode (s : State) : (s.bumpFree).errCode = s.errCode := rfl
@[simp] theorem State.bumpFree_fs (s : State) : (s.bumpFree).fs = s.fs := rfl
@[simp] theorem State.bumpFree_recomputeCount (s : State) : (s.bumpFree).recomputeCount = s.recomputeCount := rfl
@[simp] theorem State.bumpFree_nC (s : State) : (s.bumpFree).nC = s.nC := rfl
@[simp] theorem State.bumpFree_nA (s : State) : (s.bumpFree).nA = s.nA := rfl
@[simp] theorem State.bumpFree_cacheT (s : State) : (s.bumpFree).cacheT = s.cacheT := rfl
@[simp] theorem State.bumpFree_cacheS (s : State) : (s.bumpFree).cacheS = s.cacheS := rfl
@[simp] theorem State.bumpFree_cacheM (s : State) : (s.bumpFree).cacheM = s.cacheM := rfl
@[simp] theorem State.bumpFree_decayMs (s : State) : (s.bumpFree).decayMs = s.decayMs := rfl
@[simp] theorem State.bumpFree_dryDb (s : State) : (s.bumpFree).dryDb = s.dryDb := rfl
@[simp] theorem State.bumpFree_wetDb (s : State) : (s.bumpFree).wetDb = s.wetDb := rfl
@[simp] theorem State.bumpFree_flags (s : State) : (s.bumpFree).flags = s.flags := rfl
@[simp] theorem State.bumpFree_mode (s : State) : (s.bumpFree).mode = s.mode := rfl
@[simp] theorem State.bumpFree_chL (s : State) : (s.bumpFree).chL = s.chL := rfl
@[simp] theorem State.bumpFree_chR (s : State) : (s.bumpFree).chR = s.chR := rfl
@[simp] theorem State.bumpFree_inL (s : State) : (s.bumpFree).inL = s.inL := rfl
@[simp] theorem State.bumpFree_inR (s : State) : (s.bumpFree).inR = s.inR := rfl
@[simp] theorem State.bumpFree_outL (s : State) : (s.bumpFree).outL = s.outL := rfl
@[simp] theorem State.bumpFree_outR (s : State) : (s.bumpFree).outR = s.outR := rfl
@[simp] theorem State.bumpFree_link (s : State) : (s.bumpFree).link = s.link := rfl
@[simp] theorem State.bumpFree_responses (s : State) : (s.bumpFree).responses = s.responses := rfl
@[simp] theorem State.bumpFree_freeCtr (s : State) : (s.bumpFree).freeCtr = s.freeCtr + 1 := rfl

/-! ## setLink -/

@[simp] theorem State.setLink_params (s : State) (l : List Transaction) : (s.setLink l).params = s.params := rfl
@[simp] theorem State.setLink_estate (s : State) (l : List Transaction) : (s.setLink l).estate = s.estate := rfl
@[simp] theorem State.setLink_errCode (s : State) (l : List Transaction) : (s.setLink l).errCode = s.errCode := rfl
@[simp] theorem State.setLink_fs (s : State) (l : List Transaction) : (s.setLink l).fs = s.fs := rfl
@[simp] theorem State.setLink_recomputeCount (s : State) (l : List Transaction) : (s.setLink l).recomputeCount = s.recomputeCount := rfl
@[simp] theorem State.setLink_nC (s : State) (l : List Transaction) : (s.setLink l).nC = s.nC := rfl
@[simp] theorem State.setLink_nA (s : State) (l : List Transaction) : (s.setLink l).nA = s.nA := rfl
@[simp] theorem State.setLink_cacheT (s : State) (l : List Transaction) : (s.setLink l).cacheT = s.cacheT := rfl
@[simp] theorem State.setLink_cacheS (s : State) (l : List Transaction) : (s.setLink l).cacheS = s.cacheS := rfl
@[simp] theorem State.setLink_cacheM (s : State) (l : List Transaction) : (s.setLink l).cacheM = s.cacheM := rfl
@[simp] theorem State.setLink_decayMs (s : State) (l : List Transaction) : (s.setLink l).decayMs = s.decayMs := rfl
@[simp] theorem State.setLink_dryDb (s : State) (l : List Transaction) : (s.setLink l).dryDb = s.dryDb := rfl
@[simp] theorem State.setLink_wetDb (s : State) (l : List Transaction) : (s.setLink l).wetDb = s.wetDb := rfl
@[simp] theorem State.setLink_flags (s : State) (l : List Transaction) : (s.setLink l).flags = s.flags := rfl
@[simp] theorem State.setLink_mode (s : State) (l : List Transaction) : (s.setLink l).mode = s.mode := rfl
@[simp] theorem State.setLink_chL (s : State) (l : List Transaction) : (s.setLink l).chL = s.chL := rfl
@[simp] theorem State.setLink_chR (s : State) (l : List Transaction) : (s.setLink l).chR = s.chR := rfl
@[simp] theorem State.setLink_inL (s : State) (l : List Transaction) : (s.setLink l).inL = s.inL := rfl
@[simp] theorem State.setLink_inR (s : State) (l : List Transaction) : (s.setLink l).inR = s.inR := rfl
@[simp] theorem State.setLink_outL (s : State) (l : List Transaction) : (s.setLink l).outL = s.outL := rfl
@[simp] theorem State.setLink_outR (s : State) (l : List Transaction) : (s.setLink l).outR = s.outR := rfl
@[simp] theorem State.setLink_link (s : State) (l : List Transaction) : (s.setLink l).link = l := rfl
@[simp] theorem State.setLink_responses (s : State) (l : List Transaction) : (s.setLink l).responses = s.responses := rfl
@[simp] theorem State.setLink_freeCtr (s : State) (l : List Transaction) : (s.setLink l).freeCtr = s.freeCtr := rfl

/-! ## deliver -/

@[simp] theorem State.deliver_params (s : State) (t : Transaction) : (s.deliver t).params = s.params := rfl
@[simp] theorem State.deliver_estate (s : State) (t : Transaction) : (s.deliver t).estate = s.estate := rfl
@[simp] theorem State.deliver_errCode (s : State) (t : Transaction) : (s.deliver t).errCode = s.errCode := rfl
@[simp] theorem State.deliver_fs (s : State) (t : Transaction) : (s.deliver t).fs = s.fs := rfl
@[simp] theorem State.deliver_recomputeCount (s : State) (t : Transaction) : (s.deliver t).recomputeCount = s.recomputeCount := rfl
@[simp] theorem State.deliver_nC (s : State) (t : Transaction) : (s.deliver t).nC = s.nC := rfl
@[simp] theorem State.deliver_nA (s : State) (t : Transaction) : (s.deliver t).nA = s.nA := rfl
@[simp] theorem State.deliver_cacheT (s : State) (t : Transaction) : (s.deliver t).cacheT = s.cacheT := rfl
@[simp] theorem State.deliver_cacheS (s : State) (t : Transaction) : (s.deliver t).cacheS = s.cacheS := rfl
@[simp] theorem State.deliver_cacheM (s : State) (t : Transaction) : (s.deliver t).cacheM = s.cacheM := rfl
@[simp] theorem State.deliver_decayMs (s : State) (t : Transaction) : (s.deliver t).decayMs = s.decayMs := rfl
@[simp] theorem State.deliver_dryDb (s : State) (t : Transaction) : (s.deliver t).dryDb = s.dryDb := rfl
@[simp] theorem State.deliver_wetDb (s : State) (t : Transaction) : (s.deliver t).wetDb = s.wetDb := rfl
@[simp] theorem State.deliver_flags (s : State) (t : Transaction) : (s.deliver t).flags = s.flags := rfl
@[simp] theorem State.deliver_mode (s : State) (t : Transaction) : (s.deliver t).mode = s.mode := rfl
@[simp] theorem State.deliver_chL (s : State) (t : Transaction) : (s.deliver t).chL = s.chL := rfl
@[simp] theorem State.deliver_chR (s : State) (t : Transaction) : (s.deliver t).chR = s.chR := rfl
@[simp] theorem State.deliver_inL (s : State) (t : Transaction) : (s.deliver t).inL = s.inL := rfl
@[simp] theorem State.deliver_inR (s : State) (t : Transaction) : (s.deliver t).inR = s.inR := rfl
@[simp] theorem State.deliver_outL (s : State) (t : Transaction) : (s.deliver t).outL = s.outL := rfl
@[simp] theorem State.deliver_outR (s : State) (t : Transaction) : (s.deliver t).outR = s.outR := rfl
@[simp] theorem State.deliver_link (s : State) (t : Transaction) : (s.deliver t).link = t :: s.link := rfl
@[simp] theorem State.deliver_responses (s : State) (t : Transaction) : (s.deliver t).responses = s.responses := rfl
@[simp] theorem State.deliver_freeCtr (s : State) (t : Transaction) : (s.deliver t).freeCtr = s.freeCtr := rfl

/-! ## mapChans -/

@[simp] theorem State.mapChans_params (s : State) (f : Chan → Channel → Channel) : (s.mapChans f).params = s.params := rfl
@[simp] theorem State.mapChans_estate (s : State) (f : Chan → Channel → Channel) : (s.mapChans f).estate = s.estate := rfl
@[simp] theorem State.mapChans_errCode (s : State) (f : Chan → Channel → Channel) : (s.mapChans f).errCode = s.errCode := rfl
@[simp] theorem State.mapChans_fs (s : State) (f : Chan → Channel → Channel) : (s.mapChans f).fs = s.fs := rfl
@[simp] theorem State.mapChans_recomputeCount (s : State) (f : Chan → Channel → Channel) : (s.mapChans f).recomputeCount = s.recomputeCount := rfl
@[simp] theorem State.mapChans_nC (s : State) (f : Chan → Channel → Channel) : (s.mapChans f).nC = s.nC := rfl
@[simp] theorem State.mapChans_nA (s : State) (f : Chan → Channel → Channel) : (s.mapChans f).nA = s.nA := rfl
@[simp] theorem State.mapChans_cacheT (s : State) (f : Chan → Channel → Channel) : (s.mapChans f).cacheT = s.cacheT := rfl
@[simp] theorem State.mapChans_cacheS (s : State) (f : Chan → Channel → Channel) : (s.mapChans f).cacheS = s.cacheS := rfl
@[simp] theorem State.mapChans_cacheM (s : State) (f : Chan → Channel → Channel) : (s.mapChans f).cacheM = s.cacheM := rfl
@[simp] theorem State.mapChans_decayMs (s : State) (f : Chan → Channel → Channel) : (s.mapChans f).decayMs = s.decayMs := rfl
@[simp] theorem State.mapChans_dryDb (s : State) (f : Chan → Channel → Channel) : (s.mapChans f).dryDb = s.dryDb := rfl
@[simp] theorem State.mapChans_wetDb (s : State) (f : Chan → Channel → Channel) : (s.mapChans f).wetDb = s.wetDb := rfl
@[simp] theorem State.mapChans_flags (s : State) (f : Chan → Channel → Channel) : (s.mapChans f).flags = s.flags := rfl
@[simp] theorem State.mapChans_mode (s : State) (f : Chan → Channel → Channel) : (s.mapChans f).mode = s.mode := rfl
@[simp] theorem State.mapChans_chL (s : State) (f : Chan → Channel → Channel) : (s.mapChans f).chL = f .left s.chL := rfl
@[simp] theorem State.mapChans_chR (s : State) (f : Chan → Channel → Channel) : (s.mapChans f).chR = f .right s.chR := rfl
@[simp] theorem State.mapChans_inL (s : State) (f : Chan → Channel → Channel) : (s.mapChans f).inL = s.inL := rfl
@[simp] theorem State.mapChans_inR (s : State) (f : Chan → Channel → Channel) : (s.mapChans f).inR = s.inR := rfl
@[simp] theorem State.mapChans_outL (s : State) (f : Chan → Channel → Channel) : (s.mapChans f).outL = s.outL := rfl
@[simp] theorem State.mapChans_outR (s : State) (f : Chan → Channel → Channel) : (s.mapChans f).outR = s.outR := rfl
@[simp] theorem State.mapChans_link (s : State) (f : Chan → Channel → Channel) : (s.mapChans f).link = s.link := rfl
@[simp] theorem State.mapChans_responses (s : State) (f : Chan → Channel → Channel) : (s.mapChans f).responses = s.responses := rfl
@[simp] theorem State.mapChans_freeCtr (s : State) (f : Chan → Channel → Channel) : (s.mapChans f).freeCtr = s.freeCtr := rfl

/-! ## setChan -/

@[simp] theorem State.setChan_params (s : State) (ch : Chan) (c : Channel) : (s.setChan ch c).params = s.params := by cases ch <;> rfl
@[simp] theorem State.setChan_estate (s : State) (ch : Chan) (c : Channel) : (s.setChan ch c).estate = s.estate := by cases ch <;> rfl
@[simp] theorem State.setChan_errCode (s : State) (ch : Chan) (c : Channel) : (s.setChan ch c).errCode = s.errCode := by cases ch <;> rfl
@[simp] theorem State.setChan_fs (s : State) (ch : Chan) (c : Channel) : (s.setChan ch c).fs = s.fs := by cases ch <;> rfl
@[simp] theorem State.setChan_recomputeCount (s : State) (ch : Chan) (c : Channel) : (s.setChan ch c).recomputeCount = s.recomputeCount := by cases ch <;> rfl
@[simp] theorem State.setChan_nC (s : State) (ch : Chan) (c : Channel) : (s.setChan ch c).nC = s.nC := by cases ch <;> rfl
@[simp] theorem State.setChan_nA (s : State) (ch : Chan) (c : Channel) : (s.setChan ch c).nA = s.nA := by cases ch <;> rfl
@[simp] theorem State.setChan_cacheT (s : State) (ch : Chan) (c : Channel) : (s.setChan ch c).cacheT = s.cacheT := by cases ch <;> rfl
@[simp] theorem State.setChan_cacheS (s : State) (ch : Chan) (c : Channel) : (s.setChan ch c).cacheS = s.cacheS := by cases ch <;> rfl
@[simp] theorem State.setChan_cacheM (s : State) (ch : Chan) (c : Channel) : (s.setChan ch c).cacheM = s.cacheM := by cases ch <;> rfl
@[simp] theorem State.setChan_decayMs (s : State) (ch : Chan) (c : Channel) : (s.setChan ch c).decayMs = s.decayMs := by cases ch <;> rfl
@[simp] theorem State.setChan_dryDb (s : State) (ch : Chan) (c : Channel) : (s.setChan ch c).dryDb = s.dryDb := by cases ch <;> rfl
@[simp] theorem State.setChan_wetDb (s : State) (ch : Chan) (c : Channel) : (s.setChan ch c).wetDb = s.wetDb := by cases ch <;> rfl
@[simp] theorem State.setChan_flags (s : State) (ch : Chan) (c : Channel) : (s.setChan ch c).flags = s.flags := by cases ch <;> rfl
@[simp] theorem State.setChan_mode (s : State) (ch : Chan) (c : Channel) : (s.setChan ch c).mode = s.mode := by cases ch <;> rfl
@[simp] theorem State.setChan_inL (s : State) (ch : Chan) (c : Channel) : (s.setChan ch c).inL = s.inL := by cases ch <;> rfl
@[simp] theorem State.setChan_inR (s : State) (ch : Chan) (c : Channel) : (s.setChan ch c).inR = s.inR := by cases ch <;> rfl
@[simp] theorem State.setChan_outL (s : State) (ch : Chan) (c : Channel) : (s.setChan ch c).outL = s.outL := by cases ch <;> rfl
@[simp] theorem State.setChan_outR (s : State) (ch : Chan) (c : Channel) : (s.setChan ch c).outR = s.outR := by cases ch <;> rfl
@[simp] theorem State.setChan_link (s : State) (ch : Chan) (c : Channel) : (s.setChan ch c).link = s.link := by cases ch <;> rfl
@[simp] theorem State.setChan_responses (s : State) (ch : Chan) (c : Channel) : (s.setChan ch c).responses = s.responses := by cases ch <;> rfl
@[simp] theorem State.setChan_freeCtr (s : State) (ch : Chan) (c : Channel) : (s.setChan ch c).freeCtr = s.freeCtr := by cases ch <;> rfl

/-! ## setBank -/

@[simp] theorem State.setBank_params (s : State) (b : BankId) (cs : List Cell) : (s.setBank b cs).params = s.params := by cases b <;> rfl
@[simp] theorem State.setBank_estate (s : State) (b : BankId) (cs : List Cell) : (s.setBank b cs).estate = s.estate := by cases b <;> rfl
@[simp] theorem State.setBank_errCode (s : State) (b : BankId) (cs : List Cell) : (s.setBank b cs).errCode = s.errCode := by cases b <;> rfl
@[simp] theorem State.setBank_fs (s : State) (b : BankId) (cs : List Cell) : (s.setBank b cs).fs = s.fs := by cases b <;> rfl
@[simp] theorem State.setBank_recomputeCount (s : State) (b : BankId) (cs : List Cell) : (s.setBank b cs).recomputeCount = s.recomputeCount := by cases b <;> rfl
@[simp] theorem State.setBank_nC (s : State) (b : BankId) (cs : List Cell) : (s.setBank b cs).nC = s.nC := by cases b <;> rfl
@[simp] theorem State.setBank_nA (s : State) (b : BankId) (cs : List Cell) : (s.setBank b cs).nA = s.nA := by cases b <;> rfl
@[simp] theorem State.setBank_cacheT (s : State) (b : BankId) (cs : List Cell) : (s.setBank b cs).cacheT = s.cacheT := by cases b <;> rfl
@[simp] theorem State.setBank_cacheS (s : State) (b : BankId) (cs : List Cell) : (s.setBank b cs).cacheS = s.cacheS := by cases b <;> rfl
@[simp] theorem State.setBank_cacheM (s : State) (b : BankId) (cs : List Cell) : (s.setBank b cs).cacheM = s.cacheM := by cases b <;> rfl
@[simp] theorem State.setBank_decayMs (s : State) (b : BankId) (cs : List Cell) : (s.setBank b cs).decayMs = s.decayMs := by cases b <;> rfl
@[simp] theorem State.setBank_dryDb (s : State) (b : BankId) (cs : List Cell) : (s.setBank b cs).dryDb = s.dryDb := by cases b <;> rfl
@[simp] theorem State.setBank_wetDb (s : State) (b : BankId) (cs : List Cell) : (s.setBank b cs).wetDb = s.wetDb := by cases b <;> rfl
@[simp] theorem State.setBank_flags (s : State) (b : BankId) (cs : List Cell) : (s.setBank b cs).flags = s.flags := by cases b <;> rfl
@[simp] theorem State.setBank_mode (s : State) (b : BankId) (cs : List Cell) : (s.setBank b cs).mode = s.mode := by cases b <;> rfl
@[simp] theorem State.setBank_chL (s : State) (b : BankId) (cs : List Cell) : (s.setBank b cs).chL = s.chL := by cases b <;> rfl
@[simp] theorem State.setBank_chR (s : State) (b : BankId) (cs : List Cell) : (s.setBank b cs).chR = s.chR := by cases b <;> rfl
@[simp] theorem State.setBank_link (s : State) (b : BankId) (cs : List Cell) : (s.setBank b cs).link = s.link := by cases b <;> rfl
@[simp] theorem State.setBank_responses (s : State) (b : BankId) (cs : List Cell) : (s.setBank b cs).responses = s.responses := by cases b <;> rfl
@[simp] theorem State.setBank_freeCtr (s : State) (b : BankId) (cs : List Cell) : (s.setBank b cs).freeCtr = s.freeCtr := by cases b <;> rfl

/-! ## writeBank -/

@[simp] theorem State.writeBank_params (s : State) (b : BankId) (a : Nat) (w : Word) : (s.writeBank b a w).params = s.params := by cases b <;> rfl
@[simp] theorem State.writeBank_estate (s : State) (b : BankId) (a : Nat) (w : Word) : (s.writeBank b a w).estate = s.estate := by cases b <;> rfl
@[simp] theorem State.writeBank_errCode (s : State) (b : BankId) (a : Nat) (w : Word) : (s.writeBank b a w).errCode = s.errCode := by cases b <;> rfl
@[simp] theorem State.writeBank_fs (s : State) (b : BankId) (a : Nat) (w : Word) : (s.writeBank b a w).fs = s.fs := by cases b <;> rfl
@[simp] theorem State.writeBank_recomputeCount (s : State) (b : BankId) (a : Nat) (w : Word) : (s.writeBank b a w).recomputeCount = s.recomputeCount := by cases b <;> rfl
@[simp] theorem State.writeBank_nC (s : State) (b : BankId) (a : Nat) (w : Word) : (s.writeBank b a w).nC = s.nC := by cases b <;> rfl
@[simp] theorem State.writeBank_nA (s : State) (b : BankId) (a : Nat) (w : Word) : (s.writeBank b a w).nA = s.nA := by cases b <;> rfl
@[simp] theorem State.writeBank_cacheT (s : State) (b : BankId) (a : Nat) (w : Word) : (s.writeBank b a w).cacheT = s.cacheT := by cases b <;> rfl
@[simp] theorem State.writeBank_cacheS (s : State) (b : BankId) (a : Nat) (w : Word) : (s.writeBank b a w).cacheS = s.cacheS := by cases b <;> rfl
@[simp] theorem State.writeBank_cacheM (s : State) (b : BankId) (a : Nat) (w : Word) : (s.writeBank b a w).cacheM = s.cacheM := by cases b <;> rfl
@[simp] theorem State.writeBank_decayMs (s : State) (b : BankId) (a : Nat) (w : Word) : (s.writeBank b a w).decayMs = s.decayMs := by cases b <;> rfl
@[simp] theorem State.writeBank_dryDb (s : State) (b : BankId) (a : Nat) (w : Word) : (s.writeBank b a w).dryDb = s.dryDb := by cases b <;> rfl
@[simp] theorem State.writeBank_wetDb (s : State) (b : BankId) (a : Nat) (w : Word) : (s.writeBank b a w).wetDb = s.wetDb := by cases b <;> rfl
@[simp] theorem State.writeBank_flags (s : State) (b : BankId) (a : Nat) (w : Word) : (s.writeBank b a w).flags = s.flags := by cases b <;> rfl
@[simp] theorem State.writeBank_mode (s : State) (b : BankId) (a : Nat) (w : Word) : (s.writeBank b a w).mode = s.mode := by cases b <;> rfl
@[simp] theorem State.writeBank_chL (s : State) (b : BankId) (a : Nat) (w : Word) : (s.writeBank b a w).chL = s.chL := by cases b <;> rfl
@[simp] theorem State.writeBank_chR (s : State) (b : BankId) (a : Nat) (w : Word) : (s.writeBank b a w).chR = s.chR := by cases b <;> rfl
@[simp] theorem State.writeBank_link (s : State) (b : BankId) (a : Nat) (w : Word) : (s.writeBank b a w).link = s.link := by cases b <;> rfl
@[simp] theorem State.writeBank_responses (s : State) (b : BankId) (a : Nat) (w : Word) : (s.writeBank b a w).responses = s.responses := by cases b <;> rfl
@[simp] theorem State.writeBank_freeCtr (s : State) (b : BankId) (a : Nat) (w : Word) : (s.writeBank b a w).freeCtr = s.freeCtr := by cases b <;> rfl

/-! ## setRing -/

@[simp] theorem State.setRing_params (s : State) (ch : Chan) (k : RingSel) (i : Nat) (r : Ring) : (s.setRing ch k i r).params = s.params := by cases ch <;> rfl
@[simp] theorem State.setRing_estate (s : State) (ch : Chan) (k : RingSel) (i : Nat) (r : Ring) : (s.setRing ch k i r).estate = s.estate := by cases ch <;> rfl
@[simp] theorem State.setRing_errCode (s : State) (ch : Chan) (k : RingSel) (i : Nat) (r : Ring) : (s.setRing ch k i r).errCode = s.errCode := by cases ch <;> rfl
@[simp] theorem State.setRing_fs (s : State) (ch : Chan) (k : RingSel) (i : Nat) (r : Ring) : (s.setRing ch k i r).fs = s.fs := by cases ch <;> rfl
@[simp] theorem State.setRing_recomputeCount (s : State) (ch : Chan) (k : RingSel) (i : Nat) (r : Ring) : (s.setRing ch k i r).recomputeCount = s.recomputeCount := by cases ch <;> rfl
@[simp] theorem State.setRing_nC (s : State) (ch : Chan) (k : RingSel) (i : Nat) (r : Ring) : (s.setRing ch k i r).nC = s.nC := by cases ch <;> rfl
@[simp] theorem State.setRing_nA (s : State) (ch : Chan) (k : RingSel) (i : Nat) (r : Ring) : (s.setRing ch k i r).nA = s.nA := by cases ch <;> rfl
@[simp] theorem State.setRing_cacheT (s : State) (ch : Chan) (k : RingSel) (i : Nat) (r : Ring) : (s.setRing ch k i r).cacheT = s.cacheT := by cases ch <;> rfl
@[simp] theorem State.setRing_cacheS (s : State) (ch : Chan) (k : RingSel) (i : Nat) (r : Ring) : (s.setRing ch k i r).cacheS = s.cacheS := by cases ch <;> rfl
@[simp] theorem State.setRing_cacheM (s : State) (ch : Chan) (k : RingSel) (i : Nat) (r : Ring) : (s.setRing ch k i r).cacheM = s.cacheM := by cases ch <;> rfl
@[simp] theorem State.setRing_decayMs (s : State) (ch : Chan) (k : RingSel) (i : Nat) (r : Ring) : (s.setRing ch k i r).decayMs = s.decayMs := by cases ch <;> rfl
@[simp] theorem State.setRing_dryDb (s : State) (ch : Chan) (k : RingSel) (i : Nat) (r : Ring) : (s.setRing ch k i r).dryDb = s.dryDb := by cases ch <;> rfl
@[simp] theorem State.setRing_wetDb (s : State) (ch : Chan) (k : RingSel) (i : Nat) (r : Ring) : (s.setRing ch k i r).wetDb = s.wetDb := by cases ch <;> rfl
@[simp] theorem State.setRing_flags (s : State) (ch : Chan) (k : RingSel) (i : Nat) (r : Ring) : (s.setRing ch k i r).flags = s.flags := by cases ch <;> rfl
@[simp] theorem State.setRing_mode (s : State) (ch : Chan) (k : RingSel) (i : Nat) (r : Ring) : (s.setRing ch k i r).mode = s.mode := by cases ch <;> rfl
@[simp] theorem State.setRing_inL (s : State) (ch : Chan) (k : RingSel) (i : Nat) (r : Ring) : (s.setRing ch k i r).inL = s.inL := by cases ch <;> rfl
@[simp] theorem State.setRing_inR (s : State) (ch : Chan) (k : RingSel) (i : Nat) (r : Ring) : (s.setRing ch k i r).inR = s.inR := by cases ch <;> rfl
@[simp] theorem State.setRing_outL (s : State) (ch : Chan) (k : RingSel) (i : Nat) (r : Ring) : (s.setRing ch k i r).outL = s.outL := by cases ch <;> rfl
@[simp] theorem State.setRing_outR (s : State) (ch : Chan) (k : RingSel) (i : Nat) (r : Ring) : (s.setRing ch k i r).outR = s.outR := by cases ch <;> rfl
@[simp] theorem State.setRing_link (s : State) (ch : Chan) (k : RingSel) (i : Nat) (r : Ring) : (s.setRing ch k i r).link = s.link := by cases ch <;> rfl
@[simp] theorem State.setRing_responses (s : State) (ch : Chan) (k : RingSel) (i : Nat) (r : Ring) : (s.setRing ch k i r).responses = s.responses := by cases ch <;> rfl
@[simp] theorem State.setRing_freeCtr (s : State) (ch : Chan) (k : RingSel) (i : Nat) (r : Ring) : (s.setRing ch k i r).freeCtr = s.freeCtr := by cases ch <;> rfl

/-! ## setFilter -/

@[simp] theorem State.setFilter_params (s : State) (ch : Chan) (k : FilterSel) (i : Nat) (q : Biquad) : (s.setFilter ch k i q).params = s.params := by cases ch <;> rfl
@[simp] theorem State.setFilter_estate (s : State) (ch : Chan) (k : FilterSel) (i : Nat) (q : Biquad) : (s.setFilter ch k i q).estate = s.estate := by cases ch <;> rfl
@[simp] theorem State.setFilter_errCode (s : State) (ch : Chan) (k : FilterSel) (i : Nat) (q : Biquad) : (s.setFilter ch k i q).errCode = s.errCode := by cases ch <;> rfl
@[simp] theorem State.setFilter_fs (s : State) (ch : Chan) (k : FilterSel) (i : Nat) (q : Biquad) : (s.setFilter ch k i q).fs = s.fs := by cases ch <;> rfl
@[simp] theorem State.setFilter_recomputeCount (s : State) (ch : Chan) (k : FilterSel) (i : Nat) (q : Biquad) : (s.setFilter ch k i q).recomputeCount = s.recomputeCount := by cases ch <;> rfl
@[simp] theorem State.setFilter_nC (s : State) (ch : Chan) (k : FilterSel) (i : Nat) (q : Biquad) : (s.setFilter ch k i q).nC = s.nC := by cases ch <;> rfl
@[simp] theorem State.setFilter_nA (s : State) (ch : Chan) (k : FilterSel) (i : Nat) (q : Biquad) : (s.setFilter ch k i q).nA = s.nA := by cases ch <;> rfl
@[simp] theorem State.setFilter_cacheT (s : State) (ch : Chan) (k : FilterSel) (i : Nat) (q : Biquad) : (s.setFilter ch k i q).cacheT = s.cacheT := by cases ch <;> rfl
@[simp] theorem State.setFilter_cacheS (s : State) (ch : Chan) (k : FilterSel) (i : Nat) (q : Biquad) : (s.setFilter ch k i q).cacheS = s.cacheS := by cases ch <;> rfl
@[simp] theorem State.setFilter_cacheM (s : State) (ch : Chan) (k : FilterSel) (i : Nat) (q : Biquad) : (s.setFilter ch k i q).cacheM = s.cacheM := by cases ch <;> rfl
@[simp] theorem State.setFilter_decayMs (s : State) (ch : Chan) (k : FilterSel) (i : Nat) (q : Biquad) : (s.setFilter ch k i q).decayMs = s.decayMs := by cases ch <;> rfl
@[simp] theorem State.setFilter_dryDb (s : State) (ch : Chan) (k : FilterSel) (i : Nat) (q : Biquad) : (s.setFilter ch k i q).dryDb = s.dryDb := by cases ch <;> rfl
@[simp] theorem State.setFilter_wetDb (s : State) (ch : Chan) (k : FilterSel) (i : Nat) (q : Biquad) : (s.setFilter ch k i q).wetDb = s.wetDb := by cases ch <;> rfl
@[simp] theorem State.setFilter_flags (s : State) (ch : Chan) (k : FilterSel) (i : Nat) (q : Biquad) : (s.setFilter ch k i q).flags = s.flags := by cases ch <;> rfl
@[simp] theorem State.setFilter_mode (s : State) (ch : Chan) (k : FilterSel) (i : Nat) (q : Biquad) : (s.setFilter ch k i q).mode = s.mode := by cases ch <;> rfl
@[simp] theorem State.setFilter_inL (s : State) (ch : Chan) (k : FilterSel) (i : Nat) (q : Biquad) : (s.setFilter ch k i q).inL = s.inL := by cases ch <;> rfl
@[simp] theorem State.setFilter_inR (s : State) (ch : Chan) (k : FilterSel) (i : Nat) (q : Biquad) : (s.setFilter ch k i q).inR = s.inR := by cases ch <;> rfl
@[simp] theorem State.setFilter_outL (s : State) (ch : Chan) (k : FilterSel) (i : Nat) (q : Biquad) : (s.setFilter ch k i q).outL = s.outL := by cases ch <;> rfl
@[simp] theorem State.setFilter_outR (s : State) (ch : Chan) (k : FilterSel) (i : Nat) (q : Biquad) : (s.setFilter ch k i q).outR = s.outR := by cases ch <;> rfl
@[simp] theorem State.setFilter_link (s : State) (ch : Chan) (k : FilterSel) (i : Nat) (q : Biquad) : (s.setFilter ch k i q).link = s.link := by cases ch <;> rfl
@[simp] theorem State.setFilter_responses (s : State) (ch : Chan) (k : FilterSel) (i : Nat) (q : Biquad) : (s.setFilter ch k i q).responses = s.responses := by cases ch <;> rfl
@[simp] theorem State.setFilter_freeCtr (s : State) (ch : Chan) (k : FilterSel) (i : Nat) (q : Biquad) : (s.setFilter ch k i q).freeCtr = s.freeCtr := by cases ch <;> rfl

/-! ## setComb -/

@[simp] theorem State.setComb_params (s : State) (ch : Chan) (i : Nat) (c : Comb) : (s.setComb ch i c).params = s.params := by cases ch <;> rfl
@[simp] theorem State.setComb_estate (s : State) (ch : Chan) (i : Nat) (c : Comb) : (s.setComb ch i c).estate = s.estate := by cases ch <;> rfl
@[simp] theorem State.setComb_errCode (s : State) (ch : Chan) (i : Nat) (c : Comb) : (s.setComb ch i c).errCode = s.errCode := by cases ch <;> rfl
@[simp] theorem State.setComb_fs (s : State) (ch : Chan) (i : Nat) (c : Comb) : (s.setComb ch i c).fs = s.fs := by cases ch <;> rfl
@[simp] theorem State.setComb_recomputeCount (s : State) (ch : Chan) (i : Nat) (c : Comb) : (s.setComb ch i c).recomputeCount = s.recomputeCount := by cases ch <;> rfl
@[simp] theorem State.setComb_nC (s : State) (ch : Chan) (i : Nat) (c : Comb) : (s.setComb ch i c).nC = s.nC := by cases ch <;> rfl
@[simp] theorem State.setComb_nA (s : State) (ch : Chan) (i : Nat) (c : Comb) : (s.setComb ch i c).nA = s.nA := by cases ch <;> rfl
@[simp] theorem State.setComb_cacheT (s : State) (ch : Chan) (i : Nat) (c : Comb) : (s.setComb ch i c).cacheT = s.cacheT := by cases ch <;> rfl
@[simp] theorem State.setComb_cacheS (s : State) (ch : Chan) (i : Nat) (c : Comb) : (s.setComb ch i c).cacheS = s.cacheS := by cases ch <;> rfl
@[simp] theorem State.setComb_cacheM (s : State) (ch : Chan) (i : Nat) (c : Comb) : (s.setComb ch i c).cacheM = s.cacheM := by cases ch <;> rfl
@[simp] theorem State.setComb_decayMs (s : State) (ch : Chan) (i : Nat) (c : Comb) : (s.setComb ch i c).decayMs = s.decayMs := by cases ch <;> rfl
@[simp] theorem State.setComb_dryDb (s : State) (ch : Chan) (i : Nat) (c : Comb) : (s.setComb ch i c).dryDb = s.dryDb := by cases ch <;> rfl
@[simp] theorem State.setComb_wetDb (s : State) (ch : Chan) (i : Nat) (c : Comb) : (s.setComb ch i c).wetDb = s.wetDb := by cases ch <;> rfl
@[simp] theorem State.setComb_flags (s : State) (ch : Chan) (i : Nat) (c : Comb) : (s.setComb ch i c).flags = s.flags := by cases ch <;> rfl
@[simp] theorem State.setComb_mode (s : State) (ch : Chan) (i : Nat) (c : Comb) : (s.setComb ch i c).mode = s.mode := by cases ch <;> rfl
@[simp] theorem State.setComb_inL (s : State) (ch : Chan) (i : Nat) (c : Comb) : (s.setComb ch i c).inL = s.inL := by cases ch <;> rfl
@[simp] theorem State.setComb_inR (s : State) (ch : Chan) (i : Nat) (c : Comb) : (s.setComb ch i c).inR = s.inR := by cases ch <;> rfl
@[simp] theorem State.setComb_outL (s : State) (ch : Chan) (i : Nat) (c : Comb) : (s.setComb ch i c).outL = s.outL := by cases ch <;> rfl
@[simp] theorem State.setComb_outR (s : State) (ch : Chan) (i : Nat) (c : Comb) : (s.setComb ch i c).outR = s.outR := by cases ch <;> rfl
@[simp] theorem State.setComb_link (s : State) (ch : Chan) (i : Nat) (c : Comb) : (s.setComb ch i c).link = s.link := by cases ch <;> rfl
@[simp] theorem State.setComb_responses (s : State) (ch : Chan) (i : Nat) (c : Comb) : (s.setComb ch i c).responses = s.responses := by cases ch <;> rfl
@[simp] theorem State.setComb_freeCtr (s : State) (ch : Chan) (i : Nat) (c : Comb) : (s.setComb ch i c).freeCtr = s.freeCtr := by cases ch <;> rfl

/-! ## setAp -/

@[simp] theorem State.setAp_params (s : State) (ch : Chan) (j : Nat) (a : Allpass) : (s.setAp ch j a).params = s.params := by cases ch <;> rfl
@[simp] theorem State.setAp_estate (s : State) (ch : Chan) (j : Nat) (a : Allpass) : (s.setAp ch j a).estate = s.estate := by cases ch <;> rfl
@[simp] theorem State.setAp_errCode (s : State) (ch : Chan) (j : Nat) (a : Allpass) : (s.setAp ch j a).errCode = s.errCode := by cases ch <;> rfl
@[simp] theorem State.setAp_fs (s : State) (ch : Chan) (j : Nat) (a : Allpass) : (s.setAp ch j a).fs = s.fs := by cases ch <;> rfl
@[simp] theorem State.setAp_recomputeCount (s : State) (ch : Chan) (j : Nat) (a : Allpass) : (s.setAp ch j a).recomputeCount = s.recomputeCount := by cases ch <;> rfl
@[simp] theorem State.setAp_nC (s : State) (ch : Chan) (j : Nat) (a : Allpass) : (s.setAp ch j a).nC = s.nC := by cases ch <;> rfl
@[simp] theorem State.setAp_nA (s : State) (ch : Chan) (j : Nat) (a : Allpass) : (s.setAp ch j a).nA = s.nA := by cases ch <;> rfl
@[simp] theorem State.setAp_cacheT (s : State) (ch : Chan) (j : Nat) (a : Allpass) : (s.setAp ch j a).cacheT = s.cacheT := by cases ch <;> rfl
@[simp] theorem State.setAp_cacheS (s : State) (ch : Chan) (j : Nat) (a : Allpass) : (s.setAp ch j a).cacheS = s.cacheS := by cases ch <;> rfl
@[simp] theorem State.setAp_cacheM (s : State) (ch : Chan) (j : Nat) (a : Allpass) : (s.setAp ch j a).cacheM = s.cacheM := by cases ch <;> rfl
@[simp] theorem State.setAp_decayMs (s : State) (ch : Chan) (j : Nat) (a : Allpass) : (s.setAp ch j a).decayMs = s.decayMs := by cases ch <;> rfl
@[simp] theorem State.setAp_dryDb (s : State) (ch : Chan) (j : Nat) (a : Allpass) : (s.setAp ch j a).dryDb = s.dryDb := by cases ch <;> rfl
@[simp] theorem State.setAp_wetDb (s : State) (ch : Chan) (j : Nat) (a : Allpass) : (s.setAp ch j a).wetDb = s.wetDb := by cases ch <;> rfl
@[simp] theorem State.setAp_flags (s : State) (ch : Chan) (j : Nat) (a : Allpass) : (s.setAp ch j a).flags = s.flags := by cases ch <;> rfl
@[simp] theorem State.setAp_mode (s : State) (ch : Chan) (j : Nat) (a : Allpass) : (s.setAp ch j a).mode = s.mode := by cases ch <;> rfl
@[simp] theorem State.setAp_inL (s : State) (ch : Chan) (j : Nat) (a : Allpass) : (s.setAp ch j a).inL = s.inL := by cases ch <;> rfl
@[simp] theorem State.setAp_inR (s : State) (ch : Chan) (j : Nat) (a : Allpass) : (s.setAp ch j a).inR = s.inR := by cases ch <;> rfl
@[simp] theorem State.setAp_outL (s : State) (ch : Chan) (j : Nat) (a : Allpass) : (s.setAp ch j a).outL = s.outL := by cases ch <;> rfl
@[simp] theorem State.setAp_outR (s : State) (ch : Chan) (j : Nat) (a : Allpass) : (s.setAp ch j a).outR = s.outR := by cases ch <;> rfl
@[simp] theorem State.setAp_link (s : State) (ch : Chan) (j : Nat) (a : Allpass) : (s.setAp ch j a).link = s.link := by cases ch <;> rfl
@[simp] theorem State.setAp_responses (s : State) (ch : Chan) (j : Nat) (a : Allpass) : (s.setAp ch j a).responses = s.responses := by cases ch <;> rfl
@[simp] theorem State.setAp_freeCtr (s : State) (ch : Chan) (j : Nat) (a : Allpass) : (s.setAp ch j a).freeCtr = s.freeCtr := by cases ch <;> rfl

/-! ## reload -/

@[simp] theorem State.reload_params (s : State) (m : Nat) : (s.reload m).params = s.params := rfl
@[simp] theorem State.reload_estate (s : State) (m : Nat) : (s.reload m).estate = s.estate := rfl
@[simp] theorem State.reload_errCode (s : State) (m : Nat) : (s.reload m).errCode = s.errCode := rfl
@[simp] theorem State.reload_fs (s : State) (m : Nat) : (s.reload m).fs = s.fs := rfl
@[simp] theorem State.reload_recomputeCount (s : State) (m : Nat) : (s.reload m).recomputeCount = s.recomputeCount := rfl
@[simp] theorem State.reload_nC (s : State) (m : Nat) : (s.reload m).nC = s.params.nComb m := rfl
@[simp] theorem State.reload_nA (s : State) (m : Nat) : (s.reload m).nA = s.params.nAp m := rfl
@[simp] theorem State.reload_cacheT (s : State) (m : Nat) : (s.reload m).cacheT = s.cacheT := rfl
@[simp] theorem State.reload_cacheS (s : State) (m : Nat) : (s.reload m).cacheS = s.cacheS := rfl
@[simp] theorem State.reload_cacheM (s : State) (m : Nat) : (s.reload m).cacheM = s.cacheM := rfl
@[simp] theorem State.reload_decayMs (s : State) (m : Nat) : (s.reload m).decayMs = s.decayMs := rfl
@[simp] theorem State.reload_dryDb (s : State) (m : Nat) : (s.reload m).dryDb = s.dryDb := rfl
@[simp] theorem State.reload_wetDb (s : State) (m : Nat) : (s.reload m).wetDb = s.wetDb := rfl
@[simp] theorem State.reload_flags (s : State) (m : Nat) : (s.reload m).flags = s.flags := rfl
@[simp] theorem State.reload_mode (s : State) (m : Nat) : (s.reload m).mode = s.mode := rfl
@[simp] theorem State.reload_chL (s : State) (m : Nat) : (s.reload m).chL = s.chL.reload s.params s.fs.toNat m := rfl
@[simp] theorem State.reload_chR (s : State) (m : Nat) : (s.reload m).chR = s.chR.reload s.params s.fs.toNat m := rfl
@[simp] theorem State.reload_inL (s : State) (m : Nat) : (s.reload m).inL = s.inL := rfl
@[simp] theorem State.reload_inR (s : State) (m : Nat) : (s.reload m).inR = s.inR := rfl
@[simp] theorem State.reload_outL (s : State) (m : Nat) : (s.reload m).outL = s.outL := rfl
@[simp] theorem State.reload_outR (s : State) (m : Nat) : (s.reload m).outR = s.outR := rfl
@[simp] theorem State.reload_link (s : State) (m : Nat) : (s.reload m).link = s.link := rfl
@[simp] theorem State.reload_responses (s : State) (m : Nat) : (s.reload m).responses = s.responses := rfl
@[simp] theorem State.reload_freeCtr (s : State) (m : Nat) : (s.reload m).freeCtr = s.freeCtr := rfl

/-! ## recompute -/

@[simp] theorem State.recompute_params (s : State) (t : F32) (st : Bool) (m : Word) : (s.recompute t st m).params = s.params := rfl
@[simp] theorem State.recompute_estate (s : State) (t : F32) (st : Bool) (m : Word) : (s.recompute t st m).estate = s.estate := rfl
@[simp] theorem State.recompute_errCode (s : State) (t : F32) (st : Bool) (m : Word) : (s.recompute t st m).errCode = s.errCode := rfl
@[simp] theorem State.recompute_fs (s : State) (t : F32) (st : Bool) (m : Word) : (s.recompute t st m).fs = s.fs := rfl
@[simp] theorem State.recompute_recomputeCount (s : State) (t : F32) (st : Bool) (m : Word) : (s.recompute t st m).recomputeCount = s.recomputeCount + 1 := rfl
@[simp] theorem State.recompute_nC (s : State) (t : F32) (st : Bool) (m : Word) : (s.recompute t st m).nC = s.nC := rfl
@[simp] theorem State.recompute_nA (s : State) (t : F32) (st : Bool) (m : Word) : (s.recompute t st m).nA = s.nA := rfl
@[simp] theorem State.recompute_cacheT (s : State) (t : F32) (st : Bool) (m : Word) : (s.recompute t st m).cacheT = t := rfl
@[simp] theorem State.recompute_cacheS (s : State) (t : F32) (st : Bool) (m : Word) : (s.recompute t st m).cacheS = st := rfl
@[simp] theorem State.recompute_cacheM (s : State) (t : F32) (st : Bool) (m : Word) : (s.recompute t st m).cacheM = m := rfl
@[simp] theorem State.recompute_decayMs (s : State) (t : F32) (st : Bool) (m : Word) : (s.recompute t st m).decayMs = s.decayMs := rfl
@[simp] theorem State.recompute_dryDb (s : State) (t : F32) (st : Bool) (m : Word) : (s.recompute t st m).dryDb = s.dryDb := rfl
@[simp] theorem State.recompute_wetDb (s : State) (t : F32) (st : Bool) (m : Word) : (s.recompute t st m).wetDb = s.wetDb := rfl
@[simp] theorem State.recompute_flags (s : State) (t : F32) (st : Bool) (m : Word) : (s.recompute t st m).flags = s.flags := rfl
@[simp] theorem State.recompute_mode (s : State) (t : F32) (st : Bool) (m : Word) : (s.recompute t st m).mode = s.mode := rfl
@[simp] theorem State.recompute_chL (s : State) (t : F32) (st : Bool) (m : Word) : (s.recompute t st m).chL = s.chL.recompute s.params s.fs.toNat s.nC.toNat s.nA.toNat t st .left := rfl
@[simp] theorem State.recompute_chR (s : State) (t : F32) (st : Bool) (m : Word) : (s.recompute t st m).chR = s.chR.recompute s.params s.fs.toNat s.nC.toNat s.nA.toNat t st .right := rfl
@[simp] theorem State.recompute_inL (s : State) (t : F32) (st : Bool) (m : Word) : (s.recompute t st m).inL = s.inL := rfl
@[simp] theorem State.recompute_inR (s : State) (t : F32) (st : Bool) (m : Word) : (s.recompute t st m).inR = s.inR := rfl
@[simp] theorem State.recompute_outL (s : State) (t : F32) (st : Bool) (m : Word) : (s.recompute t st m).outL = s.outL := rfl
@[simp] theorem State.recompute_outR (s : State) (t : F32) (st : Bool) (m : Word) : (s.recompute t st m).outR = s.outR := rfl
@[simp] theorem State.recompute_link (s : State) (t : F32) (st : Bool) (m : Word) : (s.recompute t st m).link = s.link := rfl
@[simp] theorem State.recompute_responses (s : State) (t : F32) (st : Bool) (m : Word) : (s.recompute t st m).responses = s.responses := rfl
@[simp] theorem State.recompute_freeCtr (s : State) (t : F32) (st : Bool) (m : Word) : (s.recompute t st m).freeCtr = s.freeCtr := rfl

/-! ## Which channel, which bank -/

@[simp] theorem State.chan_left (s : State) : s.chan .left = s.chL := rfl
@[simp] theorem State.chan_right (s : State) : s.chan .right = s.chR := rfl
@[simp] theorem State.setChan_left (s : State) (c : Channel) : s.setChan .left c = { s with chL := c } := rfl
@[simp] theorem State.setChan_right (s : State) (c : Channel) : s.setChan .right c = { s with chR := c } := rfl

@[simp] theorem State.chan_respond (s : State) (d : List Word) (ch : Chan) : (s.respond d).chan ch = s.chan ch := by cases ch <;> rfl
@[simp] theorem State.chan_raise (s : State) (e : ErrorCode) (ch : Chan) : (s.raise e).chan ch = s.chan ch := by cases ch <;> rfl
@[simp] theorem State.chan_bumpFree (s : State) (ch : Chan) : s.bumpFree.chan ch = s.chan ch := by cases ch <;> rfl
@[simp] theorem State.chan_setLink (s : State) (l : List Transaction) (ch : Chan) : (s.setLink l).chan ch = s.chan ch := by cases ch <;> rfl
@[simp] theorem State.chan_mapChans (s : State) (f : Chan → Channel → Channel) (ch : Chan) : (s.mapChans f).chan ch = f ch (s.chan ch) := by cases ch <;> rfl
@[simp] theorem State.chan_writeBank (s : State) (b : BankId) (a : Nat) (w : Word) (ch : Chan) : (s.writeBank b a w).chan ch = s.chan ch := by cases ch <;> cases b <;> rfl

theorem State.chan_setChan (s : State) (ch ch' : Chan) (c : Channel) :
    (s.setChan ch c).chan ch' = if ch' = ch then c else s.chan ch' := by cases ch <;> cases ch' <;> rfl

@[simp] theorem State.bank_respond (s : State) (d : List Word) (b : BankId) : (s.respond d).bank b = s.bank b := by cases b <;> rfl
@[simp] theorem State.bank_raise (s : State) (e : ErrorCode) (b : BankId) : (s.raise e).bank b = s.bank b := by cases b <;> rfl
@[simp] theorem State.bank_bumpFree (s : State) (b : BankId) : s.bumpFree.bank b = s.bank b := by cases b <;> rfl
@[simp] theorem State.bank_setLink (s : State) (l : List Transaction) (b : BankId) : (s.setLink l).bank b = s.bank b := by cases b <;> rfl
@[simp] theorem State.bank_mapChans (s : State) (f : Chan → Channel → Channel) (b : BankId) : (s.mapChans f).bank b = s.bank b := by cases b <;> rfl
@[simp] theorem State.bank_setChan (s : State) (ch : Chan) (c : Channel) (b : BankId) : (s.setChan ch c).bank b = s.bank b := by cases b <;> cases ch <;> rfl

theorem State.bank_setBank (s : State) (b b' : BankId) (cs : List Cell) :
    (s.setBank b cs).bank b' = if b' = b then cs else s.bank b' := by cases b <;> cases b' <;> rfl

/-- Raising is failing with the code's value (60_exceptions.md R301). -/
theorem State.raise_eq (s : State) (e : ErrorCode) :
    s.raise e = { s with errCode := if s.errCode = 0 then e.value else s.errCode, responses := ⟨e.value.zeroExtend 32, []⟩ :: s.responses } := rfl

end Sys2Proof.Machine
end

