-- ==== Sys2Proof/Laws/Memory.lean ====
section
/-! SUPPORT. The laws of the word memories: a write is read back, it leaves every other word alone, and every operation keeps
the canonical form. -/

namespace Sys2Proof.Machine

/-! ## Lists of cells -/

theorem findCell_putCell (cs : List Cell) (a b : Nat) (w : Word) :
    findCell (putCell cs a w) b = if b = a then some w else findCell cs b := by
  induction cs with
  | nil => simp only [putCell, findCell]; grind
  | cons c cs ih => obtain ⟨x, v⟩ := c; simp only [putCell]; grind [findCell]

theorem findCell_dropCell (cs : List Cell) (a b : Nat) :
    findCell (dropCell cs a) b = if b = a then none else findCell cs b := by
  induction cs with
  | nil => simp [dropCell, findCell]
  | cons c cs ih => obtain ⟨x, v⟩ := c; simp only [dropCell]; grind [findCell]

theorem findCell_mem {cs : List Cell} {a : Nat} {w : Word} (h : findCell cs a = some w) : (a, w) ∈ cs := by
  induction cs with
  | nil => simp [findCell] at h
  | cons c cs ih =>
    obtain ⟨x, v⟩ := c
    simp only [findCell] at h
    split at h
    · subst_vars; simp_all
    · exact List.mem_cons_of_mem _ (ih h)

theorem mem_putCell {cs : List Cell} {a : Nat} {w : Word} {c : Cell} (h : c ∈ putCell cs a w) :
    c = (a, w) ∨ c ∈ cs := by
  induction cs with
  | nil => simpa [putCell] using h
  | cons d cs ih =>
    obtain ⟨x, v⟩ := d
    simp only [putCell] at h
    split at h
    · simpa using h
    · split at h
      · rcases List.mem_cons.1 h with h | h
        · exact .inl h
        · exact .inr (List.mem_cons_of_mem _ h)
      · rcases List.mem_cons.1 h with h | h
        · exact .inr (h ▸ List.mem_cons_self ..)
        · exact (ih h).imp id (List.mem_cons_of_mem _)

theorem mem_dropCell {cs : List Cell} {a : Nat} {c : Cell} (h : c ∈ dropCell cs a) : c ∈ cs ∧ c.1 ≠ a := by
  induction cs with
  | nil => simp [dropCell] at h
  | cons d cs ih =>
    obtain ⟨x, v⟩ := d
    simp only [dropCell] at h
    split at h
    · exact ⟨List.mem_cons_of_mem _ (ih h).1, (ih h).2⟩
    · rcases List.mem_cons.1 h with h | h
      · subst h; exact ⟨List.mem_cons_self .., ‹_›⟩
      · exact ⟨List.mem_cons_of_mem _ (ih h).1, (ih h).2⟩

theorem risingFrom_mono {lo lo' : Nat} {cs : List Cell} (h : lo' ≤ lo) (hr : risingFrom lo cs = true) :
    risingFrom lo' cs = true := by
  cases cs with
  | nil => rfl
  | cons c cs => simp only [risingFrom, Bool.and_eq_true, decide_eq_true_eq] at *; exact ⟨h.trans hr.1, hr.2⟩

theorem risingFrom_putCell {lo a : Nat} {cs : List Cell} (w : Word) (hlo : lo ≤ a) (hr : risingFrom lo cs = true) :
    risingFrom lo (putCell cs a w) = true := by
  induction cs generalizing lo with
  | nil => simp [putCell, risingFrom, hlo]
  | cons c cs ih =>
    obtain ⟨x, v⟩ := c
    simp only [risingFrom, Bool.and_eq_true, decide_eq_true_eq] at hr
    simp only [putCell]
    split
    · simp only [risingFrom, Bool.and_eq_true, decide_eq_true_eq]; exact ⟨hlo, by omega, hr.2⟩
    · split
      · subst_vars; simp only [risingFrom, Bool.and_eq_true, decide_eq_true_eq]; exact ⟨hlo, hr.2⟩
      · simp only [risingFrom, Bool.and_eq_true, decide_eq_true_eq]; exact ⟨hr.1, ih (by omega) hr.2⟩

theorem risingFrom_dropCell {lo : Nat} {cs : List Cell} (a : Nat) (hr : risingFrom lo cs = true) :
    risingFrom lo (dropCell cs a) = true := by
  induction cs generalizing lo with
  | nil => rfl
  | cons c cs ih =>
    obtain ⟨x, v⟩ := c
    simp only [risingFrom, Bool.and_eq_true, decide_eq_true_eq] at hr
    simp only [dropCell]
    split
    · exact risingFrom_mono (by omega) (ih hr.2)
    · simp only [risingFrom, Bool.and_eq_true, decide_eq_true_eq]; exact ⟨hr.1, ih hr.2⟩

theorem belowSize_putCell {size a : Nat} {cs : List Cell} (w : Word) (ha : a < size) (h : belowSize size cs = true) :
    belowSize size (putCell cs a w) = true := by
  simp only [belowSize, List.all_eq_true, decide_eq_true_eq] at *
  intro c hc
  rcases mem_putCell hc with rfl | hc
  · exact ha
  · exact h c hc

theorem belowSize_dropCell {size : Nat} {cs : List Cell} (a : Nat) (h : belowSize size cs = true) :
    belowSize size (dropCell cs a) = true := by
  simp only [belowSize, List.all_eq_true, decide_eq_true_eq] at *
  exact fun c hc => h c (mem_dropCell hc).1

/-! ## Sample banks -/

/-- What a bank write does to every word of every bank (20_memory.md R61, R62). -/
theorem State.readBank_writeBank (s : State) (b b' : BankId) (a a' : Nat) (w : Word) :
    (s.writeBank b a w).readBank b' a' = if b' = b ∧ a' = a then some w else s.readBank b' a' := by
  unfold State.readBank State.writeBank
  rw [State.bank_setBank]
  by_cases h : b' = b
  · subst h; simp [findCell_putCell]
  · simp [h]

@[simp] theorem State.readBank_respond (s : State) (d : List Word) (b : BankId) (a : Nat) :
    (s.respond d).readBank b a = s.readBank b a := by simp [State.readBank]
@[simp] theorem State.readBank_raise (s : State) (e : ErrorCode) (b : BankId) (a : Nat) :
    (s.raise e).readBank b a = s.readBank b a := by simp [State.readBank]
@[simp] theorem State.readBank_bumpFree (s : State) (b : BankId) (a : Nat) :
    s.bumpFree.readBank b a = s.readBank b a := by simp [State.readBank]
@[simp] theorem State.readBank_setLink (s : State) (l : List Transaction) (b : BankId) (a : Nat) :
    (s.setLink l).readBank b a = s.readBank b a := by simp [State.readBank]
@[simp] theorem State.readBank_setChan (s : State) (ch : Chan) (c : Channel) (b : BankId) (a : Nat) :
    (s.setChan ch c).readBank b a = s.readBank b a := by simp [State.readBank]
@[simp] theorem State.readBank_mapChans (s : State) (f : Chan → Channel → Channel) (b : BankId) (a : Nat) :
    (s.mapChans f).readBank b a = s.readBank b a := by simp [State.readBank]

/-- A bank write inside the bank keeps the canonical form. -/
theorem bankWf_putCell {p : Params} {cs : List Cell} {a : Nat} (w : Word) (ha : a < p.blockMax)
    (h : bankWf p cs = true) : bankWf p (putCell cs a w) = true := by
  simp only [bankWf, Bool.and_eq_true] at *
  exact ⟨risingFrom_putCell w (Nat.zero_le _) h.1, belowSize_putCell w ha h.2⟩

/-- After reset every bank is in canonical form. -/
theorem bankWf_reset (p : Params) (b : BankId) : bankWf p ((State.resetOf p).bank b) = true := by
  cases b <;> rfl

/-! ## Ring storage -/

/-- What a storage write does to every slot (20_memory.md R75). -/
theorem RingStore.read_write (m : RingStore) (a b : Nat) (w : Word) :
    (m.write a w).read b = if b = a then w else m.read b := by
  unfold RingStore.write RingStore.read
  by_cases h : w = m.fill.word a
  · simp only [if_pos h, findCell_dropCell]
    by_cases hb : b = a
    · subst hb; simp [h]
    · simp [hb]
  · simp only [if_neg h, findCell_putCell]
    by_cases hb : b = a
    · simp [hb]
    · simp [hb]

@[simp] theorem RingStore.read_cleared (a : Nat) : RingStore.cleared.read a = 0 := rfl

/-- A write inside the capacity keeps the canonical form. -/
theorem RingStore.wf_write {cap a : Nat} {m : RingStore} (w : Word) (ha : a < cap) (h : m.wf cap = true) :
    (m.write a w).wf cap = true := by
  simp only [RingStore.wf, Bool.and_eq_true, List.all_eq_true, decide_eq_true_eq] at *
  obtain ⟨⟨hr, hb⟩, hf⟩ := h
  unfold RingStore.write
  by_cases hw : w = m.fill.word a
  · simp only [if_pos hw]
    exact ⟨⟨risingFrom_dropCell a hr, belowSize_dropCell a hb⟩, fun c hc => hf c (mem_dropCell hc).1⟩
  · simp only [if_neg hw]
    refine ⟨⟨risingFrom_putCell w (Nat.zero_le _) hr, belowSize_putCell w ha hb⟩, fun c hc => ?_⟩
    rcases mem_putCell hc with rfl | hc
    · exact hw
    · exact hf c hc

theorem RingStore.wf_empty (cap : Nat) (f : Fill) : RingStore.wf cap ⟨[], f⟩ = true := rfl

theorem RingStore.wf_cleared (cap : Nat) : RingStore.cleared.wf cap = true := rfl

end Sys2Proof.Machine
end

