-- ==== Sys2Proof/Laws/Ring.lean ====
section
/-! SUPPORT. What each ring primitive can do (40_ring_buffer.md section 1), said once. -/

namespace Sys2Proof.Machine

/-- What the invariant of a ring says. -/
theorem Ring.wf_iff {cap : Nat} {r : Ring} :
    r.wf cap = true ↔ (1 ≤ r.len.toNat ∧ r.len.toNat ≤ cap) ∧ r.cursor.toNat < r.len.toNat ∧ r.stor.wf cap = true := by
  simp only [Ring.wf, Bool.and_eq_true, decide_eq_true_eq, and_assoc]

theorem Ring.push_fst_stor (r : Ring) (w : Word) : (r.push w).1.stor = r.stor.write r.cursor.toNat w := rfl

theorem Ring.push_fst_len (r : Ring) (w : Word) : (r.push w).1.len = r.len := rfl

theorem Ring.push_snd (r : Ring) (w : Word) : (r.push w).2 = r.stor.read r.cursor.toNat := rfl

theorem Ring.push_fst_cursor {r : Ring} (w : Word) (h : 1 ≤ r.len.toNat) :
    (r.push w).1.cursor.toNat = (r.cursor.toNat + 1) % r.len.toNat := by
  show (BitVec.ofNat 32 _).toNat = _
  rw [BitVec.toNat_ofNat]
  exact Nat.mod_eq_of_lt ((Nat.mod_lt _ h).trans r.len.isLt)

/-- A push of a ring of length at least 1 (40_ring_buffer.md R121). -/
theorem Ring.push_spec {r : Ring} (w : Word) (h : 1 ≤ r.len.toNat) : RingPushed r w (r.push w).1 (r.push w).2 where
  out := rfl
  stor a := RingStore.read_write r.stor _ a w
  cursor := Ring.push_fst_cursor w h
  len := rfl

theorem Ring.wf_push {cap : Nat} {r : Ring} (w : Word) (h : r.wf cap = true) : (r.push w).1.wf cap = true := by
  rw [Ring.wf_iff] at *
  obtain ⟨⟨h1, h2⟩, h3, h4⟩ := h
  exact ⟨⟨h1, h2⟩, by rw [Ring.push_fst_cursor w h1]; exact Nat.mod_lt _ h1, RingStore.wf_write w (by omega) h4⟩

/-- The slot `k` steps back is inside the ring (40_ring_buffer.md R122). -/
theorem Ring.slot_lt {r : Ring} (k : Word) (h : 1 ≤ r.len.toNat) : r.slot k < r.len.toNat := by
  have hp : (0 : Int) < r.len.toNat := by exact_mod_cast h
  have h1 := Int.emod_nonneg ((r.cursor.toNat : Int) - 1 - ((min k.toNat (r.len.toNat - 1) : Nat) : Int)) (ne_of_gt hp)
  have h2 := Int.emod_lt_of_pos ((r.cursor.toNat : Int) - 1 - ((min k.toNat (r.len.toNat - 1) : Nat) : Int)) hp
  show Int.toNat _ < _
  omega

theorem Ring.wf_writeBack {cap : Nat} {r : Ring} (k v : Word) (h : r.wf cap = true) : (r.writeBack k v).wf cap = true := by
  rw [Ring.wf_iff] at *
  obtain ⟨⟨h1, h2⟩, h3, h4⟩ := h
  exact ⟨⟨h1, h2⟩, h3, RingStore.wf_write v ((Ring.slot_lt k h1).trans_le h2) h4⟩

/-- Setting the length (40_ring_buffer.md R123). -/
theorem Ring.setLen_spec (r : Ring) (n : Word) : RingResized r n.toNat (r.setLen n) where
  stor _ := rfl
  len := rfl
  cursor := by
    show (if n ≤ r.cursor then (0 : Word) else r.cursor).toNat = _
    simp only [BitVec.le_def]
    split <;> rfl

theorem Ring.wf_setLen {cap : Nat} {r : Ring} {n : Word} (h1 : 1 ≤ n.toNat) (h2 : n.toNat ≤ cap)
    (h : r.stor.wf cap = true) : (r.setLen n).wf cap = true := by
  rw [Ring.wf_iff]
  refine ⟨⟨h1, h2⟩, ?_, h⟩
  rw [(Ring.setLen_spec r n).cursor, (Ring.setLen_spec r n).len]
  split <;> omega

/-- Clearing (40_ring_buffer.md R124). -/
theorem Ring.clear_read (r : Ring) (a : Nat) : r.clear.stor.read a = 0 := rfl

theorem Ring.wf_clear {cap : Nat} {r : Ring} (h1 : 1 ≤ r.len.toNat) (h2 : r.len.toNat ≤ cap) :
    r.clear.wf cap = true := by
  rw [Ring.wf_iff]
  exact ⟨⟨h1, h2⟩, h1, RingStore.wf_cleared cap⟩

/-- Right after a push, the word 0 steps back is the word pushed (40_ring_buffer.md R131). -/
theorem Ring.readBack_push {r : Ring} (w : Word) (h1 : 1 ≤ r.len.toNat) (h2 : r.cursor.toNat < r.len.toNat) :
    (r.push w).1.readBack 0 = w := by
  have hs : (r.push w).1.slot 0 = r.cursor.toNat := by
    show Int.toNat (((r.push w).1.cursor.toNat - 1 - ((min (0 : Word).toNat ((r.push w).1.len.toNat - 1) : Nat) : Int)) %
      ((r.push w).1.len.toNat : Int)) = _
    rw [Ring.push_fst_cursor w h1, Ring.push_fst_len]
    have h0 : ((0 : Word).toNat) = 0 := rfl
    rw [h0, Nat.zero_min]
    by_cases he : r.cursor.toNat + 1 = r.len.toNat
    · rw [he, Nat.mod_self]
      have : (((0 : Nat) : Int) - 1 - ((0 : Nat) : Int)) = ((r.len.toNat : Int) - 1) + (r.len.toNat : Int) * (-1) := by
        rw [mul_neg_one]; omega
      rw [this, Int.add_mul_emod_self_left, Int.emod_eq_of_lt (by omega) (by omega)]
      omega
    · rw [Nat.mod_eq_of_lt (by omega)]
      rw [Int.emod_eq_of_lt (by omega) (by omega)]
      omega
  show (r.stor.write r.cursor.toNat w).read ((r.push w).1.slot 0) = w
  rw [hs, RingStore.read_write, if_pos rfl]

end Sys2Proof.Machine
end

