-- ==== Sys2Proof/Laws/Instances.lean ====
section
/-! SUPPORT. What replacing one instance does to every other (30_encoding.md R94 to R97): each is read back, and nothing else
moves. -/

namespace Sys2Proof.Machine

theorem List.getD_set {α : Type} (l : List α) (i j : Nat) (x d : α) :
    (l.set i x).getD j d = if j = i ∧ i < l.length then x else l.getD j d := by
  simp only [List.getD_eq_getElem?_getD, List.getElem?_set]
  grind

theorem Channel.comb_setComb (c : Channel) (i j : Nat) (x : Comb) :
    (c.setComb i x).comb j = if j = i ∧ i < c.combs.length then x else c.comb j := List.getD_set ..

theorem Channel.ap_setAp (c : Channel) (i j : Nat) (x : Allpass) :
    (c.setAp i x).ap j = if j = i ∧ i < c.aps.length then x else c.ap j := List.getD_set ..

@[simp] theorem Channel.ap_setComb (c : Channel) (i j : Nat) (x : Comb) : (c.setComb i x).ap j = c.ap j := rfl
@[simp] theorem Channel.comb_setAp (c : Channel) (i j : Nat) (x : Allpass) : (c.setAp i x).comb j = c.comb j := rfl
@[simp] theorem Channel.lp_setComb (c : Channel) (i : Nat) (x : Comb) : (c.setComb i x).lp = c.lp := rfl
@[simp] theorem Channel.hp_setComb (c : Channel) (i : Nat) (x : Comb) : (c.setComb i x).hp = c.hp := rfl
@[simp] theorem Channel.lp_setAp (c : Channel) (i : Nat) (x : Allpass) : (c.setAp i x).lp = c.lp := rfl
@[simp] theorem Channel.hp_setAp (c : Channel) (i : Nat) (x : Allpass) : (c.setAp i x).hp = c.hp := rfl

/-- What the shape of a channel says (10_state.md R23). -/
theorem Channel.shaped_iff {p : Params} {c : Channel} :
    c.shaped p = true ↔ c.combs.length = p.maxCombs ∧ c.aps.length = p.maxAps := by
  simp [Channel.shaped]

theorem Channel.shaped_setComb {p : Params} {c : Channel} {i : Nat} {x : Comb} (h : c.shaped p = true) :
    (c.setComb i x).shaped p = true := by
  rw [Channel.shaped_iff] at *; simpa [Channel.setComb] using h

theorem Channel.shaped_setAp {p : Params} {c : Channel} {i : Nat} {x : Allpass} (h : c.shaped p = true) :
    (c.setAp i x).shaped p = true := by
  rw [Channel.shaped_iff] at *; simpa [Channel.setAp] using h

/-- A ring of a channel after one ring is replaced (30_encoding.md R95). -/
theorem Channel.ring_setRing {p : Params} {c : Channel} {k k' : RingSel} {i j : Nat} {r : Ring} (h : c.shaped p = true)
    (hi : p.hasRing k i = true) : (c.setRing k i r).ring k' j = if k' = k ∧ j = i then r else c.ring k' j := by
  rw [Channel.shaped_iff] at h
  cases k <;> cases k' <;> simp only [Params.hasRing, decide_eq_true_eq] at hi <;>
    simp only [Channel.ring, Channel.setRing, Channel.comb_setComb, Channel.ap_setAp, Channel.ap_setComb,
      Channel.comb_setAp] <;> grind

/-- A filter of a channel after one filter is replaced (30_encoding.md R96). -/
theorem Channel.filter_setFilter {p : Params} {c : Channel} {k k' : FilterSel} {i j : Nat} {q : Biquad}
    (h : c.shaped p = true) (hi : p.hasFilter k i = true) (hj : p.hasFilter k' j = true) :
    (c.setFilter k i q).filter k' j = if k' = k ∧ j = i then q else c.filter k' j := by
  rw [Channel.shaped_iff] at h
  cases k <;> cases k' <;> simp only [Params.hasFilter, decide_eq_true_eq] at hi hj <;>
    simp only [Channel.filter, Channel.setFilter, Channel.comb_setComb]
  · grind
  · simp [Channel.setComb]
  · split <;> simp [Channel.comb]
  · grind

/-- The registers of every comb are as they were after a ring is replaced. -/
theorem Channel.comb_setRing (c : Channel) (k : RingSel) (i j : Nat) (r : Ring) :
    (c.comb j).SameRegs ((c.setRing k i r).comb j) := by
  cases k
  · simp only [Channel.setRing, Channel.comb_setComb]; split
    · rename_i h; rw [h.1]; exact ⟨rfl, rfl, rfl, rfl, rfl⟩
    · exact ⟨rfl, rfl, rfl, rfl, rfl⟩
  · exact ⟨rfl, rfl, rfl, rfl, rfl⟩

/-- The registers of every allpass are as they were after a ring is replaced. -/
theorem Channel.ap_setRing (c : Channel) (k : RingSel) (i j : Nat) (r : Ring) :
    (c.ap j).SameRegs ((c.setRing k i r).ap j) := by
  cases k
  · exact ⟨rfl, rfl, rfl, rfl, rfl⟩
  · simp only [Channel.setRing, Channel.ap_setAp]; split
    · rename_i h; rw [h.1]; exact ⟨rfl, rfl, rfl, rfl, rfl⟩
    · exact ⟨rfl, rfl, rfl, rfl, rfl⟩

/-- The registers of every comb are as they were after a filter is replaced. -/
theorem Channel.comb_setFilter (c : Channel) (k : FilterSel) (i j : Nat) (q : Biquad) :
    (c.comb j).SameRegs ((c.setFilter k i q).comb j) := by
  cases k
  · simp only [Channel.setFilter, Channel.comb_setComb]; split
    · rename_i h; rw [h.1]; exact ⟨rfl, rfl, rfl, rfl, rfl⟩
    · exact ⟨rfl, rfl, rfl, rfl, rfl⟩
  · simp only [Channel.setFilter]; split <;> exact ⟨rfl, rfl, rfl, rfl, rfl⟩

theorem Channel.ap_setFilter (c : Channel) (k : FilterSel) (i j : Nat) (q : Biquad) :
    (c.setFilter k i q).ap j = c.ap j := by
  cases k <;> simp only [Channel.setFilter] <;> first | rfl | (split <;> rfl)

/-- No ring moves when a filter is replaced. -/
theorem Channel.ring_setFilter (c : Channel) (k : FilterSel) (k' : RingSel) (i j : Nat) (q : Biquad) :
    (c.setFilter k i q).ring k' j = c.ring k' j := by
  cases k'
  · cases k
    · simp only [Channel.setFilter, Channel.ring, Channel.comb_setComb]; split
      · rename_i h; rw [h.1]
      · rfl
    · simp only [Channel.setFilter, Channel.ring]; split <;> rfl
  · simp only [Channel.ring, Channel.ap_setFilter]

/-- No filter moves when a ring is replaced. -/
theorem Channel.filter_setRing (c : Channel) (k : RingSel) (k' : FilterSel) (i j : Nat) (r : Ring) :
    (c.setRing k i r).filter k' j = c.filter k' j := by
  cases k <;> cases k' <;> simp only [Channel.setRing, Channel.filter, Channel.comb_setComb]
  · split
    · rename_i h; rw [h.1]
    · rfl
  · rfl
  · rfl
  · rfl

/-! ## The same, of the whole state -/

theorem State.chan_setRing (s : State) (ch ch' : Chan) (k : RingSel) (i : Nat) (r : Ring) :
    (s.setRing ch k i r).chan ch' = if ch' = ch then (s.chan ch).setRing k i r else s.chan ch' := State.chan_setChan ..

theorem State.chan_setFilter (s : State) (ch ch' : Chan) (k : FilterSel) (i : Nat) (q : Biquad) :
    (s.setFilter ch k i q).chan ch' = if ch' = ch then (s.chan ch).setFilter k i q else s.chan ch' :=
  State.chan_setChan ..

theorem State.chan_setComb (s : State) (ch ch' : Chan) (i : Nat) (c : Comb) :
    (s.setComb ch i c).chan ch' = if ch' = ch then (s.chan ch).setComb i c else s.chan ch' := State.chan_setChan ..

theorem State.chan_setAp (s : State) (ch ch' : Chan) (j : Nat) (a : Allpass) :
    (s.setAp ch j a).chan ch' = if ch' = ch then (s.chan ch).setAp j a else s.chan ch' := State.chan_setChan ..

@[simp] theorem State.bank_setRing (s : State) (ch : Chan) (k : RingSel) (i : Nat) (r : Ring) (b : BankId) :
    (s.setRing ch k i r).bank b = s.bank b := State.bank_setChan ..
@[simp] theorem State.bank_setFilter (s : State) (ch : Chan) (k : FilterSel) (i : Nat) (q : Biquad) (b : BankId) :
    (s.setFilter ch k i q).bank b = s.bank b := State.bank_setChan ..
@[simp] theorem State.bank_setComb (s : State) (ch : Chan) (i : Nat) (c : Comb) (b : BankId) :
    (s.setComb ch i c).bank b = s.bank b := State.bank_setChan ..
@[simp] theorem State.bank_setAp (s : State) (ch : Chan) (j : Nat) (a : Allpass) (b : BankId) :
    (s.setAp ch j a).bank b = s.bank b := State.bank_setChan ..

/-- A state that differs only in one channel has the registers and the banks of the other. -/
theorem SameRegisters.setChan (s : State) (ch : Chan) (c : Channel) : SameRegisters s (s.setChan ch c) := by
  constructor <;> simp

theorem SameRegisters.respond (s : State) (d : List Word) : SameRegisters s (s.respond d) := by
  constructor <;> simp

theorem SameRegisters.bumpFree (s : State) : SameRegisters s s.bumpFree := by constructor <;> simp

theorem SameRegisters.trans {s t u : State} (h : SameRegisters s t) (g : SameRegisters t u) : SameRegisters s u := by
  constructor
  · exact g.params.trans h.params
  · exact g.estate.trans h.estate
  · exact g.errCode.trans h.errCode
  · exact g.fs.trans h.fs
  · exact g.recomputeCount.trans h.recomputeCount
  · exact g.nC.trans h.nC
  · exact g.nA.trans h.nA
  · exact g.cacheT.trans h.cacheT
  · exact g.cacheS.trans h.cacheS
  · exact g.cacheM.trans h.cacheM
  · exact g.decayMs.trans h.decayMs
  · exact g.dryDb.trans h.dryDb
  · exact g.wetDb.trans h.wetDb
  · exact g.flags.trans h.flags
  · exact g.mode.trans h.mode
  · exact g.link.trans h.link

end Sys2Proof.Machine
end

