-- ==== Sys2Proof/Laws/Commands.lean ====
section
/-! SUPPORT. The ways a command ends, said once: each shared check answers a failure with its code, or goes on. -/

namespace Sys2Proof.Machine

theorem failWith_eq (s : State) (e : ErrorCode) : failWith s e = .next (s.failed e.value) := rfl

theorem succeed_eq (s : State) (d : List Word) : succeed s d = .next (s.answered d) := rfl

theorem State.raise_eq_failed (s : State) (e : ErrorCode) : s.raise e = s.failed e.value := rfl

theorem State.respond_eq_answered (s : State) (d : List Word) : s.respond d = s.answered d := rfl

theorem ErrorCode.value_ne_zero (e : ErrorCode) : e.value ≠ 0 := by cases e <;> decide

theorem ErrorCode.value_le (e : ErrorCode) : e.value.toNat ≤ 0x0C := by cases e <;> decide

theorem ErrorCode.zeroExtend_ne_zero (e : ErrorCode) : e.value.zeroExtend 32 ≠ (0 : Word) := by cases e <;> decide

/-- The common checks of a unit command pass (60_exceptions.md R302). -/
theorem unitCommand_running {s : State} {ok : Bool} {body : Result} (h : s.estate = .running) (hok : ok = true) :
    unitCommand s ok body = body := by simp [unitCommand, h, hok]

theorem unitCommand_notRunning {s : State} {ok : Bool} {body : Result} (h : s.estate ≠ .running) :
    unitCommand s ok body = failWith s .badState := by simp [unitCommand, h]

theorem unitCommand_noInstance {s : State} {ok : Bool} {body : Result} (h : s.estate = .running) (hok : ok = false) :
    unitCommand s ok body = failWith s .indexRange := by simp [unitCommand, h, hok]

/-- All that a unit command can answer. -/
theorem unitCommand_cases (s : State) (ok : Bool) (body : Result) :
    (s.estate ≠ .running ∧ unitCommand s ok body = failWith s .badState) ∨
      (s.estate = .running ∧ ok = false ∧ unitCommand s ok body = failWith s .indexRange) ∨
      (s.estate = .running ∧ ok = true ∧ unitCommand s ok body = body) := by
  by_cases h : s.estate = .running
  · cases ok
    · exact .inr (.inl ⟨h, rfl, unitCommand_noInstance h rfl⟩)
    · exact .inr (.inr ⟨h, rfl, unitCommand_running h rfl⟩)
  · exact .inl ⟨h, unitCommand_notRunning h⟩

@[simp] theorem checked_none (s : State) (body : Result) : checked s none body = body := rfl

@[simp] theorem checked_some (s : State) (e : ErrorCode) (body : Result) : checked s (some e) body = failWith s e := rfl

@[simp] theorem firstError_nil : firstError [] = none := rfl

@[simp] theorem firstError_cons_none (cs : List (Option ErrorCode)) : firstError (none :: cs) = firstError cs := rfl

@[simp] theorem firstError_cons_some (e : ErrorCode) (cs : List (Option ErrorCode)) :
    firstError (some e :: cs) = some e := rfl

/-- No check fails exactly where each passes. -/
theorem firstError_eq_none {cs : List (Option ErrorCode)} : firstError cs = none ↔ ∀ c ∈ cs, c = none := by
  induction cs with
  | nil => simp
  | cons c cs ih => cases c <;> simp [ih]

/-- The first failing check of a list is the first of its failures. -/
theorem firstError_append {cs ds : List (Option ErrorCode)} (h : ∀ c ∈ cs, c = none) :
    firstError (cs ++ ds) = firstError ds := by
  induction cs with
  | nil => rfl
  | cons c cs ih =>
    rw [h c (List.mem_cons_self ..), List.cons_append, firstError_cons_none]
    exact ih fun d hd => h d (List.mem_cons_of_mem _ hd)

@[simp] theorem require_eq_none {ok : Bool} {e : ErrorCode} : require ok e = none ↔ ok = true := by
  cases ok <;> simp [require]

theorem require_true (e : ErrorCode) : require true e = none := rfl

theorem require_false (e : ErrorCode) : require false e = some e := rfl

theorem require_cases (ok : Bool) (e : ErrorCode) :
    (ok = true ∧ require ok e = none) ∨ (ok = false ∧ require ok e = some e) := by cases ok <;> simp [require]

/-- A MEM command past its checks (46_sample_memory.md R282). -/
theorem memCommand_bank {s : State} {space a : Nat} {sp : Space} {body : Space → Result}
    (h : Space.ofIdx space = some sp) : memCommand s space a body =
      if a < s.params.spaceSize sp then body sp else failWith s .indexRange := by simp [memCommand, h]

theorem memCommand_none {s : State} {space a : Nat} {body : Space → Result} (h : Space.ofIdx space = none) :
    memCommand s space a body = failWith s .indexRange := by simp [memCommand, h]

/-! ## A command that touches one instance -/

/-- A state in which one channel, the counter of free values and the responses were replaced. -/
theorem sameBanks_setChan (s : State) (ch : Chan) (c : Channel) (d : List Word) :
    SameBanks s ((s.setChan ch c).respond d) := by intro b a; simp

end Sys2Proof.Machine
end

