-- ==== Sys2Proof/Laws/Frames.lean ====
section
/-! SUPPORT. What the invariant gives at one instance, and the frame of each command that replaces one instance: what it
leaves alone, said once per kind of instance. -/

namespace Sys2Proof.Machine

/-! ## What the invariant says -/

/-- The parts of the invariant. -/
structure State.Parts (s : State) : Prop where
  wf : s.params.wf = true
  shapedL : s.chL.shaped s.params = true
  shapedR : s.chR.shaped s.params = true
  bankInL : bankWf s.params s.inL = true
  bankInR : bankWf s.params s.inR = true
  bankOutL : bankWf s.params s.outL = true
  bankOutR : bankWf s.params s.outR = true
  mode : s.mode.toNat < s.params.numModes
  cacheM : s.cacheM.toNat < s.params.numModes
  nC : s.nC.toNat ≤ s.params.maxCombs
  nA : s.nA.toNat ≤ s.params.maxAps
  errCode : s.errCode.toNat ≤ 0x0C
  responses : ∀ r ∈ s.responses, r.legal = true
  rest : (if s.estate = .uninit then s.released else s.configuredOk) = true

theorem State.inv_iff {s : State} : s.inv = true ↔ s.Parts := by
  simp only [State.inv, Bool.and_eq_true, decide_eq_true_eq, List.all_eq_true]
  constructor
  · rintro ⟨⟨⟨⟨⟨⟨⟨⟨⟨⟨⟨⟨⟨h1, h2⟩, h3⟩, h4⟩, h5⟩, h6⟩, h7⟩, h8⟩, h9⟩, h10⟩, h11⟩, h12⟩, h13⟩, h14⟩
    exact ⟨h1, h2, h3, h4, h5, h6, h7, h8, h9, h10, h11, h12, h13, h14⟩
  · rintro ⟨h1, h2, h3, h4, h5, h6, h7, h8, h9, h10, h11, h12, h13, h14⟩
    exact ⟨⟨⟨⟨⟨⟨⟨⟨⟨⟨⟨⟨⟨h1, h2⟩, h3⟩, h4⟩, h5⟩, h6⟩, h7⟩, h8⟩, h9⟩, h10⟩, h11⟩, h12⟩, h13⟩, h14⟩

/-- The parts of the invariant outside UNINIT. -/
structure State.ConfiguredParts (s : State) : Prop where
  fsPos : 1 ≤ s.fs.toNat
  fsMax : s.fs.toNat ≤ s.params.fsMax
  romCheck : s.params.romCheck s.fs.toNat = none
  nC : s.nC = s.params.nComb s.cacheM.toNat
  nA : s.nA = s.params.nAp s.cacheM.toNat
  cacheMin : F32.le s.params.decayMin s.cacheT = true
  cacheMax : F32.le s.cacheT s.params.decayMax = true
  rings : ∀ ch, (s.chan ch).ringsWf s.params = true
  lines : ∀ ch, (s.chan ch).linesUsable s.params s.nC.toNat s.nA.toNat = true

theorem State.configuredOk_iff {s : State} : s.configuredOk = true ↔ s.ConfiguredParts := by
  simp only [State.configuredOk, Bool.and_eq_true, decide_eq_true_eq]
  constructor
  · rintro ⟨⟨⟨⟨⟨⟨⟨⟨⟨⟨h1, h2⟩, h3⟩, h4⟩, h5⟩, h6⟩, h7⟩, h8⟩, h9⟩, h10⟩, h11⟩
    exact ⟨h1, h2, h3, h4, h5, h6, h7, fun ch => by cases ch <;> assumption, fun ch => by cases ch <;> assumption⟩
  · rintro ⟨h1, h2, h3, h4, h5, h6, h7, h8, h9⟩
    exact ⟨⟨⟨⟨⟨⟨⟨⟨⟨⟨h1, h2⟩, h3⟩, h4⟩, h5⟩, h6⟩, h7⟩, h8 .left⟩, h8 .right⟩, h9 .left⟩, h9 .right⟩

theorem State.Parts.shaped {s : State} (h : s.Parts) (ch : Chan) : (s.chan ch).shaped s.params = true := by
  cases ch
  · exact h.shapedL
  · exact h.shapedR

theorem State.Parts.configured {s : State} (h : s.Parts) (he : s.estate ≠ .uninit) : s.ConfiguredParts := by
  have := h.rest
  rw [if_neg he] at this
  exact State.configuredOk_iff.1 this

/-- A comb in range is an entry of the channel's list. -/
theorem Channel.comb_mem {p : Params} {c : Channel} {i : Nat} (h : c.shaped p = true) (hi : i < p.maxCombs) :
    c.comb i ∈ c.combs := by
  rw [Channel.shaped_iff] at h
  rw [Channel.comb, List.getD_eq_getElem _ _ (by omega)]
  exact List.getElem_mem _

/-- An allpass in range is an entry of the channel's list. -/
theorem Channel.ap_mem {p : Params} {c : Channel} {j : Nat} (h : c.shaped p = true) (hj : j < p.maxAps) :
    c.ap j ∈ c.aps := by
  rw [Channel.shaped_iff] at h
  rw [Channel.ap, List.getD_eq_getElem _ _ (by omega)]
  exact List.getElem_mem _

/-- Outside UNINIT every ring meets its invariant (10_state.md R27). -/
theorem State.Parts.ring_wf {s : State} (h : s.Parts) (he : s.estate ≠ .uninit) (ch : Chan) (sel : RingSel) (i : Nat)
    (hi : s.params.hasRing sel i = true) : (s.ring ch sel i).wf s.params.rbCap = true := by
  have hr := (h.configured he).rings ch
  simp only [Channel.ringsWf, Bool.and_eq_true, List.all_eq_true] at hr
  cases sel <;> simp only [Params.hasRing, decide_eq_true_eq] at hi
  · exact hr.1 _ (Channel.comb_mem (h.shaped ch) hi)
  · exact hr.2 _ (Channel.ap_mem (h.shaped ch) hi)

/-! ## Frames -/

@[simp] theorem State.answered_chan (s : State) (d : List Word) (ch : Chan) : (s.answered d).chan ch = s.chan ch := by
  cases ch <;> rfl

@[simp] theorem State.answered_readBank (s : State) (d : List Word) (b : BankId) (a : Nat) :
    (s.answered d).readBank b a = s.readBank b a := by cases b <;> rfl

theorem State.answered_responses (s : State) (d : List Word) : (s.answered d).responses = ⟨0, d⟩ :: s.responses := rfl

theorem SameRegisters.answered (s : State) (d : List Word) : SameRegisters s (s.answered d) := by constructor <;> rfl

/-- A state whose one channel was replaced keeps everything outside that channel, and inside it what the new channel
keeps. -/
theorem Untouched.of_setChan {s t : State} {ch : Chan} {c : Channel} {rings : Chan → RingSel → Nat → Prop}
    {filters : Chan → FilterSel → Nat → Prop} {combs aps : Chan → Nat → Prop}
    (hreg : SameRegisters s t) (hbank : SameBanks s t) (hch : ∀ ch', t.chan ch' = if ch' = ch then c else s.chan ch')
    (hr : ∀ k i, s.params.hasRing k i = true → ¬rings ch k i → c.ring k i = (s.chan ch).ring k i)
    (hf : ∀ k i, s.params.hasFilter k i = true → ¬filters ch k i → c.filter k i = (s.chan ch).filter k i)
    (hc : ∀ i, s.params.hasComb i = true → ¬combs ch i → ((s.chan ch).comb i).SameRegs (c.comb i))
    (ha : ∀ j, s.params.hasAp j = true → ¬aps ch j → ((s.chan ch).ap j).SameRegs (c.ap j)) :
    Untouched s t rings filters combs aps where
  registers := hreg
  banks := hbank
  rings ch' k i h h' := by
    simp only [State.ring, hch]
    split
    · subst_vars; exact hr k i h h'
    · rfl
  filters ch' k i h h' := by
    simp only [State.filter, hch]
    split
    · subst_vars; exact hf k i h h'
    · rfl
  combs ch' i h h' := by
    simp only [State.comb, hch]
    split
    · subst_vars; exact hc i h h'
    · exact ⟨rfl, rfl, rfl, rfl, rfl⟩
  aps ch' j h h' := by
    simp only [State.ap, hch]
    split
    · subst_vars; exact ha j h h'
    · exact ⟨rfl, rfl, rfl, rfl, rfl⟩

/-- The frame of a command that replaces one ring. -/
theorem Untouched.setRing {s : State} {ch : Chan} {k : RingSel} {i : Nat} (h : (s.chan ch).shaped s.params = true)
    (hi : s.params.hasRing k i = true) (r : Ring) (d : List Word) :
    Untouched s ((s.setRing ch k i r).answered d) (only ch k i) noneOf noLine noLine :=
  .of_setChan (ch := ch) (c := (s.chan ch).setRing k i r)
    ((SameRegisters.setChan s ch _).trans (.answered _ d)) (sameBanks_setChan s ch _ d)
    (fun ch' => by rw [State.answered_chan, State.chan_setRing])
    (fun k' i' _ hn => by
      rw [Channel.ring_setRing h hi, if_neg]
      exact fun e => hn ⟨rfl, e.1, e.2⟩)
    (fun _ _ _ _ => Channel.filter_setRing ..)
    (fun _ _ _ => Channel.comb_setRing ..)
    (fun _ _ _ => Channel.ap_setRing ..)

/-- The frame of a command that replaces one filter. -/
theorem Untouched.setFilter {s : State} {ch : Chan} {k : FilterSel} {i : Nat} (h : (s.chan ch).shaped s.params = true)
    (hi : s.params.hasFilter k i = true) (q : Biquad) (d : List Word) :
    Untouched s ((s.setFilter ch k i q).answered d) noneOf (only ch k i) noLine noLine :=
  .of_setChan (ch := ch) (c := (s.chan ch).setFilter k i q)
    ((SameRegisters.setChan s ch _).trans (.answered _ d)) (sameBanks_setChan s ch _ d)
    (fun ch' => by rw [State.answered_chan, State.chan_setFilter])
    (fun _ _ _ _ => Channel.ring_setFilter ..)
    (fun k' i' hi' hn => by
      rw [Channel.filter_setFilter h hi hi', if_neg]
      exact fun e => hn ⟨rfl, e.1, e.2⟩)
    (fun _ _ _ => Channel.comb_setFilter ..)
    (fun _ _ _ => by rw [Channel.ap_setFilter]; exact ⟨rfl, rfl, rfl, rfl, rfl⟩)

/-- A comb replaced by one with the same ring and filter, or with others: what stays. -/
theorem Channel.comb_frame (c : Channel) (i : Nat) (x : Comb) :
    (∀ k j, (k = .comb → j = i → x.ring = (c.comb i).ring) → (c.setComb i x).ring k j = c.ring k j) ∧
      (∀ k j, (k = .damp → j = i → x.damp = (c.comb i).damp) → (c.setComb i x).filter k j = c.filter k j) ∧
      (∀ j, j ≠ i → (c.setComb i x).comb j = c.comb j) ∧ ∀ j, (c.setComb i x).ap j = c.ap j := by
  refine ⟨fun k j hx => ?_, fun k j hx => ?_, fun j hj => ?_, fun j => rfl⟩
  · cases k
    · simp only [Channel.ring, Channel.comb_setComb]; grind
    · rfl
  · cases k
    · simp only [Channel.filter, Channel.comb_setComb]; grind
    · rfl
  · rw [Channel.comb_setComb, if_neg (fun e => hj e.1)]

/-- An allpass replaced: what stays. -/
theorem Channel.ap_frame (c : Channel) (i : Nat) (x : Allpass) :
    (∀ k j, (k = .allpass → j = i → x.ring = (c.ap i).ring) → (c.setAp i x).ring k j = c.ring k j) ∧
      (∀ k j, (c.setAp i x).filter k j = c.filter k j) ∧
      (∀ j, (c.setAp i x).comb j = c.comb j) ∧ ∀ j, j ≠ i → (c.setAp i x).ap j = c.ap j := by
  refine ⟨fun k j hx => ?_, fun k j => by cases k <;> rfl, fun j => rfl, fun j hj => ?_⟩
  · cases k
    · rfl
    · simp only [Channel.ring, Channel.ap_setAp]; grind
  · rw [Channel.ap_setAp, if_neg (fun e => hj e.1)]

/-- The frame of a command that replaces one comb. -/
theorem Untouched.setComb {s t : State} {ch : Chan} {i : Nat} (x : Comb)
    (hreg : SameRegisters s t) (hbank : SameBanks s t)
    (hch : ∀ ch', t.chan ch' = if ch' = ch then (s.chan ch).setComb i x else s.chan ch') :
    Untouched s t (only ch .comb i) (only ch .damp i) (onlyLine ch i) noLine :=
  .of_setChan (ch := ch) (c := (s.chan ch).setComb i x) hreg hbank hch
    (fun _ _ _ hn => ((s.chan ch).comb_frame i x).1 _ _ fun e e' => absurd ⟨rfl, e, e'⟩ hn)
    (fun _ _ _ hn => ((s.chan ch).comb_frame i x).2.1 _ _ fun e e' => absurd ⟨rfl, e, e'⟩ hn)
    (fun _ _ hn => by
      rw [((s.chan ch).comb_frame i x).2.2.1 _ fun e => hn ⟨rfl, e⟩]; exact ⟨rfl, rfl, rfl, rfl, rfl⟩)
    (fun _ _ _ => ⟨rfl, rfl, rfl, rfl, rfl⟩)

/-- The frame of a command that replaces one allpass. -/
theorem Untouched.setAp {s t : State} {ch : Chan} {i : Nat} (x : Allpass)
    (hreg : SameRegisters s t) (hbank : SameBanks s t)
    (hch : ∀ ch', t.chan ch' = if ch' = ch then (s.chan ch).setAp i x else s.chan ch') :
    Untouched s t (only ch .allpass i) noneOf noLine (onlyLine ch i) :=
  .of_setChan (ch := ch) (c := (s.chan ch).setAp i x) hreg hbank hch
    (fun _ _ _ hn => ((s.chan ch).ap_frame i x).1 _ _ fun e e' => absurd ⟨rfl, e, e'⟩ hn)
    (fun _ _ _ _ => ((s.chan ch).ap_frame i x).2.1 _ _)
    (fun _ _ _ => ⟨rfl, rfl, rfl, rfl, rfl⟩)
    (fun _ _ hn => by
      rw [((s.chan ch).ap_frame i x).2.2.2 _ fun e => hn ⟨rfl, e⟩]; exact ⟨rfl, rfl, rfl, rfl, rfl⟩)

/-! ## What is read back -/

theorem State.ring_setRing {s : State} {ch : Chan} {k : RingSel} {i : Nat} (h : (s.chan ch).shaped s.params = true)
    (hi : s.params.hasRing k i = true) (r : Ring) (d : List Word) :
    ((s.setRing ch k i r).answered d).ring ch k i = r := by
  rw [State.ring, State.answered_chan, State.chan_setRing, if_pos rfl, Channel.ring_setRing h hi]
  simp

theorem State.filter_setFilter {s : State} {ch : Chan} {k : FilterSel} {i : Nat} (h : (s.chan ch).shaped s.params = true)
    (hi : s.params.hasFilter k i = true) (q : Biquad) (d : List Word) :
    ((s.setFilter ch k i q).answered d).filter ch k i = q := by
  rw [State.filter, State.answered_chan, State.chan_setFilter, if_pos rfl, Channel.filter_setFilter h hi hi]
  simp

theorem State.comb_setComb {s : State} {ch : Chan} {i : Nat} (h : (s.chan ch).shaped s.params = true)
    (hi : s.params.hasComb i = true) (c : Comb) : (s.setComb ch i c).comb ch i = c := by
  rw [Params.hasComb, decide_eq_true_eq] at hi
  rw [Channel.shaped_iff] at h
  rw [State.comb, State.chan_setComb, if_pos rfl, Channel.comb_setComb, if_pos ⟨rfl, by omega⟩]

theorem State.ap_setAp {s : State} {ch : Chan} {i : Nat} (h : (s.chan ch).shaped s.params = true)
    (hi : s.params.hasAp i = true) (a : Allpass) : (s.setAp ch i a).ap ch i = a := by
  rw [Params.hasAp, decide_eq_true_eq] at hi
  rw [Channel.shaped_iff] at h
  rw [State.ap, State.chan_setAp, if_pos rfl, Channel.ap_setAp, if_pos ⟨rfl, by omega⟩]

end Sys2Proof.Machine
end

