-- ==== Sys2Proof/Laws/Steps.lean ====
section
/-! SUPPORT. One sample of each unit and of the engine (41_biquad.md R142, 42_comb.md R171, 43_allpass.md R191, 45_engine.md
R249, R253), said once: each function meets its relation of Safety.lean, and an induction principle over a block. -/

namespace Sys2Proof

/-- What FTZ gives is never subnormal (41_biquad.md R140). -/
theorem F32.ftz_not_subnormal (v : F32) : (F32.ftz v).isSubnormal = false := by
  unfold F32.ftz
  cases h : F32.isSubnormal v
  · simpa using h
  · rw [if_pos rfl]; decide

namespace Machine

/-- One step of the recursion (41_biquad.md R142). -/
theorem Biquad.process_spec (site : Site) (q : Biquad) (x : F32) :
    BiquadStep q x (q.process site x).1 (q.process site x).2 where
  out := ⟨_, _, _, _, _, _, _, _, _, rfl⟩
  x1 := rfl
  x2 := rfl
  y1 := rfl
  y2 := rfl
  coefs := ⟨rfl, rfl, rfl, rfl, rfl⟩

/-- A step keeps the output history flushed. -/
theorem Biquad.flushed_process (site : Site) {q : Biquad} (x : F32) (h : q.flushed = true) :
    (q.process site x).1.flushed = true := by
  simp only [Biquad.flushed, Bool.and_eq_true, Bool.not_eq_true'] at h ⊢
  exact ⟨F32.ftz_not_subnormal _, h.1⟩

theorem Biquad.flushed_resetHistory (q : Biquad) : q.resetHistory.flushed = true :=
  (by decide : (!F32.isSubnormal 0 && !F32.isSubnormal 0) = true)

theorem Biquad.flushed_store (q : Biquad) (d : Design) : (q.store d).flushed = q.flushed := rfl

theorem Biquad.flushed_load (q : Biquad) (b0 b1 b2 a1 a2 : F32) : (q.load b0 b1 b2 a1 a2).flushed = q.flushed := rfl

/-- One sample through a comb (42_comb.md R171). -/
theorem Comb.step_spec (p : Params) (site : Site) {c : Comb} (x : F32) (h : 1 ≤ c.ring.len.toNat) :
    CombStep p c x (c.step p site x).1 (c.step p site x).2 where
  step := ⟨_, _, _, _, Biquad.process_spec (2 :: site) c.damp _, Ring.push_spec _ h⟩
  last := rfl
  g := rfl
  pct := rfl
  bright := rfl
  base := rfl

theorem Comb.step_ring (p : Params) (site : Site) (c : Comb) (x : F32) :
    ∃ w, (c.step p site x).1.ring = (c.ring.push w).1 := ⟨_, rfl⟩

theorem Comb.step_damp (p : Params) (site : Site) (c : Comb) (x : F32) :
    ∃ t, (c.step p site x).1.damp = (c.damp.process (2 :: site) t).1 := ⟨_, rfl⟩

/-- One sample through an allpass (43_allpass.md R191). -/
theorem Allpass.step_spec (p : Params) (site : Site) {a : Allpass} (x : F32) (h : 1 ≤ a.ring.len.toNat) :
    AllpassStep p a x (a.step p site x).1 (a.step p site x).2 where
  step := ⟨_, _, _, _, Ring.push_spec _ h⟩
  last := rfl
  gin := rfl
  g := rfl
  pct := rfl
  base := rfl

theorem Allpass.step_ring (p : Params) (site : Site) (a : Allpass) (x : F32) :
    ∃ w, (a.step p site x).1.ring = (a.ring.push w).1 := ⟨_, rfl⟩

/-! ## Lists of lines -/

theorem length_mapFrom {α : Type} (f : Nat → α → α) (i : Nat) (xs : List α) : (mapFrom f i xs).length = xs.length := by
  induction xs generalizing i with
  | nil => rfl
  | cons x xs ih => simp [mapFrom, ih]

theorem getElem?_mapFrom {α : Type} (f : Nat → α → α) (i j : Nat) (xs : List α) :
    (mapFrom f i xs)[j]? = xs[j]?.map (f (i + j)) := by
  induction xs generalizing i j with
  | nil => rfl
  | cons x xs ih =>
    cases j with
    | zero => rfl
    | succ j => simp only [mapFrom, List.getElem?_cons_succ, ih]; rw [Nat.add_right_comm, Nat.add_assoc]

/-- An entry of a list of lines after each was replaced by a function of its index. -/
theorem getD_mapFrom {α : Type} (f : Nat → α → α) (xs : List α) (j : Nat) (d : α) (h : j < xs.length) :
    (mapFrom f 0 xs).getD j d = f j (xs.getD j d) := by
  simp only [List.getD_eq_getElem?_getD, getElem?_mapFrom, Nat.zero_add, List.getElem?_eq_getElem h, Option.map_some,
    Option.getD_some]

theorem getD_mapFrom_of_le {α : Type} (f : Nat → α → α) (xs : List α) (j : Nat) (d : α) (h : xs.length ≤ j) :
    (mapFrom f 0 xs).getD j d = d := by
  rw [List.getD_eq_default]
  rw [length_mapFrom]; exact h

theorem mem_mapFrom {α : Type} {f : Nat → α → α} {i : Nat} {xs : List α} {y : α} (h : y ∈ mapFrom f i xs) :
    ∃ (j : Nat) (hj : j < xs.length), y = f (i + j) xs[j] := by
  obtain ⟨j, hj, rfl⟩ := List.mem_iff_getElem.1 h
  rw [length_mapFrom] at hj
  refine ⟨j, hj, ?_⟩
  have := getElem?_mapFrom f i j xs
  rw [List.getElem?_eq_getElem (by rw [length_mapFrom]; exact hj), List.getElem?_eq_getElem hj] at this
  simpa using this

/-! ## The stages -/

theorem length_combStage (e : MixEnv) (site : Site) (x : F32) (i : Nat) (cs : List Comb) (acc : F32) :
    (combStage e site x i cs acc).1.length = cs.length := by
  induction cs generalizing i acc with
  | nil => rfl
  | cons c cs ih =>
    simp only [combStage]
    split
    · simp [ih]
    · rfl

/-- Each comb after the comb stage: an active one has run one step on `x`, an inactive one is as it was
(45_engine.md R253 to R255). -/
theorem getElem?_combStage (e : MixEnv) (site : Site) (x : F32) (i j : Nat) (cs : List Comb) (acc : F32) :
    (combStage e site x i cs acc).1[j]? =
      cs[j]?.map fun c => if i + j < e.nC then (c.step e.params (0 :: (i + j) :: site) x).1 else c := by
  induction cs generalizing i j acc with
  | nil => rfl
  | cons c cs ih =>
    simp only [combStage]
    split
    · cases j with
      | zero => simp [*]
      | succ j =>
        simp only [List.getElem?_cons_succ, ih]
        rw [show i + 1 + j = i + (j + 1) by omega]
    · have hn : ∀ j, ¬i + j < e.nC := by omega
      simp [hn]

theorem length_apStage (e : MixEnv) (site : Site) (j : Nat) (as : List Allpass) (acc : F32) :
    (apStage e site j as acc).1.length = as.length := by
  induction as generalizing j acc with
  | nil => rfl
  | cons a as ih =>
    simp only [apStage]
    split
    · simp [ih]
    · rfl

/-- Each allpass after the chain: it has run one step on some value, or it is as it was. -/
theorem mem_apStage {e : MixEnv} {site : Site} {j : Nat} {as : List Allpass} {acc : F32} {b : Allpass}
    (h : b ∈ (apStage e site j as acc).1) :
    ∃ a ∈ as, b = a ∨ ∃ s x, b = (a.step e.params s x).1 := by
  induction as generalizing j acc with
  | nil => simp [apStage] at h
  | cons a as ih =>
    simp only [apStage] at h
    split at h
    · rcases List.mem_cons.1 h with rfl | h
      · exact ⟨a, List.mem_cons_self .., .inr ⟨_, _, rfl⟩⟩
      · obtain ⟨a', ha', hb⟩ := ih h
        exact ⟨a', List.mem_cons_of_mem _ ha', hb⟩
    · exact ⟨b, h, .inl rfl⟩

/-- Each comb after the stage: it has run one step, or it is as it was. -/
theorem mem_combStage {e : MixEnv} {site : Site} {x : F32} {i : Nat} {cs : List Comb} {acc : F32} {b : Comb}
    (h : b ∈ (combStage e site x i cs acc).1) :
    ∃ c ∈ cs, b = c ∨ ∃ s, b = (c.step e.params s x).1 := by
  induction cs generalizing i acc with
  | nil => simp [combStage] at h
  | cons c cs ih =>
    simp only [combStage] at h
    split at h
    · rcases List.mem_cons.1 h with rfl | h
      · exact ⟨c, List.mem_cons_self .., .inr ⟨_, rfl⟩⟩
      · obtain ⟨c', hc', hb⟩ := ih h
        exact ⟨c', List.mem_cons_of_mem _ hc', hb⟩
    · exact ⟨b, h, .inl rfl⟩

/-! ## Blocks -/

/-- All that one sample can answer: the fault of the first unwritten input word, or a state in which both channels and one
word of each output bank were replaced (45_engine.md R249). -/
theorem processSample_cases (e : MixEnv) (k : Nat) (s : State) :
    (s.readBank .inL k = none ∧ processSample e k s = .error (.unwrittenSample .inL k)) ∨
      (∃ xl, s.readBank .inL k = some xl ∧ s.readBank .inR k = none ∧
        processSample e k s = .error (.unwrittenSample .inR k)) ∨
      ∃ xl xr, s.readBank .inL k = some xl ∧ s.readBank .inR k = some xr ∧
        processSample e k s =
          .ok ((({ s with
              chL := (sampleStep e [k, 0, e.ctr] s.chL (e.params.s2f xl)).1
              chR := (sampleStep e [k, 1, e.ctr] s.chR (e.params.s2f xr)).1 } : State).writeBank .outL k
            (e.params.f2s (sampleStep e [k, 0, e.ctr] s.chL (e.params.s2f xl)).2)).writeBank .outR k
            (e.params.f2s (sampleStep e [k, 1, e.ctr] s.chR (e.params.s2f xr)).2)) := by
  unfold processSample
  cases hl : s.readBank .inL k with
  | none => exact .inl ⟨rfl, rfl⟩
  | some xl =>
    cases hr : s.readBank .inR k with
    | none => exact .inr (.inl ⟨xl, rfl, rfl, rfl⟩)
    | some xr => exact .inr (.inr ⟨xl, xr, rfl, rfl, rfl⟩)

/-- What holds before a block and is kept by every sample of it holds after it. -/
theorem processFrom_induct {P : State → Prop} {e : MixEnv} {n k : Nat} {s t : State}
    (hstep : ∀ j u v, k ≤ j → j < k + n → P u → processSample e j u = .ok v → P v) (h : P s)
    (ht : processFrom e n k s = .ok t) : P t := by
  induction n generalizing k s with
  | zero => simp only [processFrom, Except.ok.injEq] at ht; exact ht ▸ h
  | succ n ih =>
    simp only [processFrom] at ht
    cases hs : processSample e k s with
    | error f => rw [hs] at ht; simp at ht
    | ok s' =>
      rw [hs] at ht
      exact ih (fun j u v h1 h2 => hstep j u v (by omega) (by omega)) (hstep k s s' (Nat.le_refl k) (by omega) h hs) ht

/-- A sample changes nothing but the two channels and the output banks. -/
theorem processSample_frame {e : MixEnv} {k : Nat} {s t : State} (h : processSample e k s = .ok t) :
    SameRegisters s t ∧ t.responses = s.responses ∧ t.freeCtr = s.freeCtr ∧ t.inL = s.inL ∧ t.inR = s.inR := by
  rcases processSample_cases e k s with ⟨_, h'⟩ | ⟨_, _, _, h'⟩ | ⟨xl, xr, _, _, h'⟩ <;> rw [h'] at h
  · simp at h
  · simp at h
  · obtain rfl := Except.ok.inj h
    exact ⟨by constructor <;> rfl, rfl, rfl, rfl, rfl⟩

/-- A block changes nothing but the two channels and the output banks. -/
theorem processFrom_frame {e : MixEnv} {n k : Nat} {s t : State} (h : processFrom e n k s = .ok t) :
    SameRegisters s t ∧ t.responses = s.responses ∧ t.freeCtr = s.freeCtr ∧ t.inL = s.inL ∧ t.inR = s.inR := by
  refine processFrom_induct (P := fun u => SameRegisters s u ∧ u.responses = s.responses ∧ u.freeCtr = s.freeCtr ∧
    u.inL = s.inL ∧ u.inR = s.inR) (fun j u v _ _ hu hv => ?_) ⟨by constructor <;> rfl, rfl, rfl, rfl, rfl⟩ h
  obtain ⟨h1, h2, h3, h4, h5⟩ := processSample_frame hv
  exact ⟨hu.1.trans h1, h2.trans hu.2.1, h3.trans hu.2.2.1, h4.trans hu.2.2.2.1, h5.trans hu.2.2.2.2⟩

/-- A block of written input words never faults. -/
theorem processFrom_ok {e : MixEnv} {n k : Nat} {s : State}
    (h : ∀ j, k ≤ j → j < k + n → s.readBank .inL j ≠ none ∧ s.readBank .inR j ≠ none) :
    ∃ t, processFrom e n k s = .ok t := by
  induction n generalizing k s with
  | zero => exact ⟨s, rfl⟩
  | succ n ih =>
    obtain ⟨hl, hr⟩ := h k (Nat.le_refl k) (by omega)
    rcases processSample_cases e k s with ⟨h1, _⟩ | ⟨_, _, h1, _⟩ | ⟨xl, xr, _, _, h1⟩
    · exact absurd h1 hl
    · exact absurd h1 hr
    · obtain ⟨_, _, _, f1, f2⟩ := processSample_frame h1
      simp only [processFrom, h1]
      refine ih fun j h2 h3 => ?_
      have := h j (by omega) (by omega)
      simpa only [State.readBank, State.bank, f1, f2] using this

/-! ## Change detection (45_engine.md R244) -/

/-- All that change detection can do. -/
theorem State.detect_cases (s : State) :
    (s.anyChanged = false ∧ s.detect = s) ∨
      (s.anyChanged = true ∧ s.modeChanged = false ∧ s.detect = s.recompute s.clampT s.stereoEn s.mode) ∨
      (s.anyChanged = true ∧ s.modeChanged = true ∧
        s.detect = (s.reload s.mode.toNat).recompute s.clampT s.stereoEn s.mode) := by
  unfold State.detect
  cases h : s.anyChanged
  · have hm : s.modeChanged = false := by
      simp only [State.anyChanged, Bool.or_eq_false_iff] at h
      exact h.1.1
    exact .inl ⟨rfl, by simp [hm]⟩
  · cases hm : s.modeChanged
    · exact .inr (.inl ⟨rfl, rfl, by simp⟩)
    · exact .inr (.inr ⟨rfl, rfl, by simp⟩)

end Machine

end Sys2Proof
end

