-- ==== Sys2Proof/Laws/Keeps.lean ====
section
/-! SUPPORT. What the shared operations do to the invariant of Safety.lean: one lemma for each way a channel or a state is
updated. -/

namespace Sys2Proof.Machine

/-- A channel the engine may run with `nC` active combs and `nA` active allpasses. -/
structure ChannelOk (p : Params) (nC nA : Nat) (c : Channel) : Prop where
  shaped : c.shaped p = true
  combR : ∀ x ∈ c.combs, x.ring.wf p.rbCap = true
  apR : ∀ x ∈ c.aps, x.ring.wf p.rbCap = true
  combU : ∀ i, i < nC → (c.comb i).usable p i = true
  apU : ∀ j, j < nA → (c.ap j).usable p j = true

/-- `ChannelOk` is what the invariant asks of a channel. -/
theorem channelOk_iff {p nC nA c} :
    ChannelOk p nC nA c ↔ c.shaped p = true ∧ c.ringsWf p = true ∧ c.linesUsable p nC nA = true := by
  simp only [Channel.ringsWf, Channel.linesUsable, Bool.and_eq_true, List.all_eq_true, List.mem_range]
  exact ⟨fun ⟨a,b,c,d,e⟩ => ⟨a,⟨b,c⟩,d,e⟩, fun ⟨a,⟨b,c⟩,d,e⟩ => ⟨a,b,c,d,e⟩⟩

/-- A response to a command that succeeds keeps the invariant. -/
theorem State.Parts.responded {s : State} (h : s.Parts) (d) : (s.answered d).Parts := by
  have hr := h.responses
  refine {h with responses := ?_, rest := ?_, shapedL := h.shapedL, shapedR := h.shapedR}
  · intro r hr'
    rcases List.mem_cons.1 hr' with rfl | h2
    · rfl
    · exact hr r h2
  · exact h.rest

/-- A reported error keeps the invariant (60_exceptions.md R300, R301). -/
theorem State.Parts.raised {s : State} (h : s.Parts) (e : ErrorCode) : (s.failed e.value).Parts := by
  have hr := h.responses
  refine {h with responses := ?_, rest := ?_, errCode := ?_}
  · show BitVec.toNat (if s.errCode = 0 then e.value else s.errCode) ≤ _
    split
    · exact e.value_le
    · exact h.errCode
  · intro r hr'
    rcases List.mem_cons.1 hr' with rfl | h2
    · cases e <;> decide
    · exact hr r h2
  · exact h.rest

/-- In RUNNING, replacing a channel by one the engine may run keeps the invariant. -/
theorem State.Parts.setChan {s : State} (h : s.Parts) (ch : Chan) (c : Channel) (he : s.estate = .running)
   (hc : ChannelOk s.params s.nC.toNat s.nA.toNat c) : (s.setChan ch c).Parts := by
  have hcp := h.configured (by rw [he]; decide)
  have := channelOk_iff.1 hc
  have hrest : (if (s.setChan ch c).estate = .uninit then (s.setChan ch c).released else
      (s.setChan ch c).configuredOk) = true := by
    rw [State.setChan_estate, he]
    apply State.configuredOk_iff.2
    constructor
    all_goals simp only [State.setChan_fs, State.setChan_params, State.setChan_nC, State.setChan_nA,
        State.setChan_cacheM, State.setChan_cacheT]
    · exact hcp.fsPos
    · exact hcp.fsMax
    · exact hcp.romCheck
    · exact hcp.nC
    · exact hcp.nA
    · exact hcp.cacheMin
    · exact hcp.cacheMax
    · intro ch'; rw [State.chan_setChan]; split
      · exact this.2.1
      · exact hcp.rings ch'
    · intro ch'; rw [State.chan_setChan]; split
      · exact this.2.2
      · exact hcp.lines ch'
  cases ch
  · exact {h with shapedL := this.1, rest := hrest}
  · exact {h with shapedR := this.1, rest := hrest}

/-- Drawing free values keeps the invariant. -/
theorem State.Parts.bumpFree {s : State} (h : s.Parts) : s.bumpFree.Parts := {h with }

/-- The channels of a running block. -/
theorem State.Parts.channelOk {s : State} (h : s.Parts) (he : s.estate = .running)
    (ch) : ChannelOk s.params s.nC.toNat s.nA.toNat (s.chan ch) :=
  have hcp := h.configured (by rw [he]; decide)
  channelOk_iff.2 ⟨h.shaped ch, hcp.rings ch, hcp.lines ch⟩

/-- One comb replaced. -/
theorem ChannelOk.setComb {p nC nA c i} {x : Comb} (h : ChannelOk p nC nA c) (hr : x.ring.wf p.rbCap = true)
  (hu : i < nC → x.usable p i = true) : ChannelOk p nC nA (c.setComb i x) where
  shaped := Channel.shaped_setComb h.shaped
  combR y hy := by
    rcases List.mem_or_eq_of_mem_set hy with h' | rfl
    · exact h.combR y h'
    · exact hr
  apR := h.apR
  combU j hj := by
    rw [Channel.comb_setComb]; split
    · rename_i h'; rw [h'.1]; rw [h'.1] at hj; exact hu hj
    · exact h.combU j hj
  apU := h.apU

/-- One allpass replaced. -/
theorem ChannelOk.setAp {p nC nA c i} {x : Allpass} (h : ChannelOk p nC nA c) (hr : x.ring.wf p.rbCap = true)
  (hu : i < nA → x.usable p i = true) : ChannelOk p nC nA (c.setAp i x) where
  shaped := Channel.shaped_setAp h.shaped
  apR y hy := by
    rcases List.mem_or_eq_of_mem_set hy with h' | rfl
    · exact h.apR y h'
    · exact hr
  combR := h.combR
  apU j hj := by
    rw [Channel.ap_setAp]; split
    · rename_i h'; rw [h'.1]; rw [h'.1] at hj; exact hu hj
    · exact h.apU j hj
  combU := h.combU

/-- One ring replaced. -/
theorem ChannelOk.setRing {p nC nA c k i} {r : Ring} (h : ChannelOk p nC nA c)
    (hr : r.wf p.rbCap = true) : ChannelOk p nC nA (c.setRing k i r) := by
  cases k
  · exact ChannelOk.setComb h hr (fun hi => h.combU i hi)
  · exact ChannelOk.setAp h hr (fun hi => h.apU i hi)

/-- One filter replaced. -/
theorem ChannelOk.setFilter {p nC nA c k i} {q : Biquad} (h : ChannelOk p nC nA c)
    (hi : p.hasFilter k i = true) : ChannelOk p nC nA (c.setFilter k i q) := by
  cases k
  · exact ChannelOk.setComb h (h.combR (c.comb i)
      (Channel.comb_mem h.shaped (by simpa [Params.hasFilter] using hi))) (fun hi => h.combU i hi)
  · simp only [Channel.setFilter]; split <;> exact ⟨h.shaped, h.combR, h.apR, h.combU, h.apU⟩

/-- A delay operand that passes its checks is a length every channel and stereo setting may scale (42_comb.md R172,
43_allpass.md R192). -/
theorem Params.lineCheck_of_delayCheck {p : Params} {d : Word} (h : p.delayCheck d = none)
    (i : Nat) : p.lineCheck d.toNat i = none ∧ 1 ≤ d.toNat ∧ d.toNat ≤ p.rbCap := by
  simp only [Params.delayCheck, firstError_eq_none, List.mem_cons, List.not_mem_nil, or_false, forall_eq_or_imp,
      forall_eq, require_eq_none, decide_eq_true_eq] at h
  obtain ⟨h1, h2, h3, h4⟩ := h
  have h1' : 1 ≤ d.toNat := by
    rcases Nat.eq_zero_or_pos d.toNat with h0 | h0
    · exact absurd (BitVec.eq_of_toNat_eq (by simpa using h0)) h1
    · exact h0
  refine ⟨?_, h1', h2⟩
  have : ∀ ch st, p.lenCheck (p.stereoLen d.toNat i ch st) = none := by
    intro ch st
    simp only [Params.lenCheck, firstError_eq_none, List.mem_cons, List.not_mem_nil, or_false, forall_eq_or_imp,
        forall_eq, require_eq_none, decide_eq_true_eq]
    unfold Params.stereoLen; split <;> omega
  simp only [Params.lineCheck, firstError_eq_none, List.mem_cons, List.not_mem_nil, or_false, forall_eq_or_imp,
      forall_eq]
  exact ⟨this _ _, this _ _, this _ _, this _ _⟩

/-- A checked line keeps its length in 1..RB_CAP on every channel (44_coefficients.md R220). -/
theorem Params.stereoLen_bounds {p : Params} {b i : Nat} (h : p.lineCheck b i = none)
    (ch st) : 1 ≤ p.stereoLen b i ch st ∧ p.stereoLen b i ch st ≤ p.rbCap := by
  simp only [Params.lineCheck, firstError_eq_none, List.mem_cons, List.not_mem_nil, or_false, forall_eq_or_imp,
      forall_eq] at h
  have : p.lenCheck (p.stereoLen b i ch st) = none := by cases ch <;> cases st <;> tauto
  simpa only [Params.lenCheck, firstError_eq_none, List.mem_cons, List.not_mem_nil, or_false, forall_eq_or_imp,
      forall_eq, require_eq_none, decide_eq_true_eq] using this

/-- A checked base is itself in 1..RB_CAP. -/
theorem Params.base_bounds {p : Params} {b i : Nat} (h : p.lineCheck b i = none) : 1 ≤ b ∧ b ≤ p.rbCap := by
  have := Params.stereoLen_bounds h .left false; simpa [Params.stereoLen] using this

/-- RB_CAP fits a word (00_scope.md R11). -/
theorem Params.rbCap_lt {p : Params} (h : p.wf = true) : p.rbCap < 2^32 := by
  simp only [Params.wf, Params.sizesOk, Bool.and_eq_true, decide_eq_true_eq] at h; omega

/-- The list entry is the comb of that index. -/
theorem Channel.getElem_combs {c : Channel} {j} (hj : j < c.combs.length) : c.combs[j] = c.comb j := by
  rw [Channel.comb, List.getD_eq_getElem _ _ hj]
/-- The list entry is the allpass of that index. -/
theorem Channel.getElem_aps {c : Channel} {j} (hj : j < c.aps.length) : c.aps[j] = c.ap j := by
  rw [Channel.ap, List.getD_eq_getElem _ _ hj]

/-- Recompute keeps a channel runnable (45_engine.md R243). -/
theorem ChannelOk.recompute {p : Params} {nC nA : Nat} {c : Channel} (hp : p.wf = true) (h : ChannelOk p nC nA c)
    (hC : nC ≤ p.maxCombs) (hA : nA ≤ p.maxAps) (fs t st ch) :
   ChannelOk p nC nA (c.recompute p fs nC nA t st ch) := by
  have hs := Channel.shaped_iff.1 h.shaped
  have hcap := Params.rbCap_lt hp
  refine ⟨?_, ?_, ?_, ?_, ?_⟩
  · rw [Channel.shaped_iff]; simp [Channel.recompute, length_mapFrom, hs]
  · intro x hx
    obtain ⟨j, hj, rfl⟩ := mem_mapFrom hx
    have hw := h.combR _ (List.getElem_mem hj)
    simp only [Nat.zero_add]; split
    · rename_i hjn
      have hu := h.combU j hjn
      rw [Channel.getElem_combs hj] at hw ⊢
      simp only [Comb.usable, Bool.and_eq_true, decide_eq_true_eq] at hu
      have hl := Params.stereoLen_bounds hu.1.1.1 ch st
      apply Ring.wf_setLen
      · simp only [BitVec.toNat_ofNat]; omega
      · simp only [BitVec.toNat_ofNat]; omega
      · exact (Ring.wf_iff.1 hw).2.2
    · exact hw
  · intro x hx
    obtain ⟨j, hj, rfl⟩ := mem_mapFrom hx
    have hw := h.apR _ (List.getElem_mem hj)
    simp only [Nat.zero_add]; split
    · rename_i hjn
      have hu := h.apU j hjn
      rw [Channel.getElem_aps hj] at hw ⊢
      simp only [Allpass.usable, Bool.and_eq_true, decide_eq_true_eq] at hu
      have hl := Params.stereoLen_bounds hu.1 ch st
      apply Ring.wf_setLen
      · simp only [BitVec.toNat_ofNat]; omega
      · simp only [BitVec.toNat_ofNat]; omega
      · exact (Ring.wf_iff.1 hw).2.2
    · exact hw
  · intro i hi
    have := getD_mapFrom (fun i x => if i < nC then Comb.recompute p fs t st ch i x else x) c.combs i Comb.absent
        (by omega)
    show Comb.usable p i (List.getD _ i Comb.absent) = true
    simp only [Channel.recompute]; rw [this, if_pos hi]; exact h.combU i hi
  · intro i hi
    have := getD_mapFrom
        (fun i x => if i < nA then Allpass.recompute p fs t st ch i x else x) c.aps i Allpass.absent (by omega)
    show Allpass.usable p i (List.getD _ i Allpass.absent) = true
    simp only [Channel.recompute]; rw [this, if_pos hi]; exact h.apU i hi

/-- What a valid mode promises a reload (20_memory.md R74). -/
structure ModeOk (p : Params) (fs m : Nat) : Prop where
  nC : (p.nComb m).toNat ≤ p.maxCombs
  nA : (p.nAp m).toNat ≤ p.maxAps
  comb : ∀ i, i < (p.nComb m).toNat → p.combCheck m i = none ∧ p.lineCheck (baseLen (p.combDelay m i) fs) i = none
  ap : ∀ j, j < (p.nAp m).toNat → p.apCheck m j = none ∧ p.lineCheck (baseLen (p.apDelay m j) fs) j = none

/-- A mode that passes its checks. -/
theorem modeOk_of_modeCheck {p : Params} {fs m : Nat} (h : p.modeCheck fs m = none) : ModeOk p fs m := by
  simp only [Params.modeCheck, firstError_eq_none, List.mem_cons, List.not_mem_nil, or_false, forall_eq_or_imp,
      forall_eq, List.mem_map, List.mem_range, forall_exists_index, and_imp, forall_apply_eq_imp_iff₂] at h
  obtain ⟨h1, h2, h3, h4, h5, -, -, -⟩ := h
  simp only [Params.countCheck, require_eq_none, Bool.and_eq_true, decide_eq_true_eq] at h1
  exact ⟨h1.1, h1.2, fun i hi => ⟨h2 i hi, h4 i hi⟩, fun j hj => ⟨h3 j hj, h5 j hj⟩⟩

/-- Every mode of a ROM that passes its checks. -/
theorem modeOk_of_romCheck {p : Params} {fs m : Nat} (h : p.romCheck fs = none)
    (hm : m < p.numModes) : ModeOk p fs m := by
  apply modeOk_of_modeCheck
  simp only [Params.romCheck, firstError_eq_none, List.mem_map, List.mem_range, forall_exists_index, and_imp,
      forall_apply_eq_imp_iff₂] at h
  exact h m hm

/-- A reload of a valid mode gives a runnable channel (45_engine.md R242). -/
theorem channelOk_reload {p : Params} {fs m : Nat} {c : Channel} (hp : p.wf = true) (hs : c.shaped p = true) 
   (hr1 : ∀ x ∈ c.combs, x.ring.wf p.rbCap = true) (hr2 : ∀ x ∈ c.aps,
       x.ring.wf p.rbCap = true) (hm : ModeOk p fs m) :
   ChannelOk p (p.nComb m).toNat (p.nAp m).toNat (c.reload p fs m) := by
  have hs := Channel.shaped_iff.1 hs
  have hcap := Params.rbCap_lt hp
  have := hm.nC
  have := hm.nA
  refine ⟨?_, ?_, ?_, ?_, ?_⟩
  · rw [Channel.shaped_iff]; simp [Channel.reload, length_mapFrom, hs]
  · intro x hx
    obtain ⟨j, hj, rfl⟩ := mem_mapFrom hx
    have hw := hr1 _ (List.getElem_mem hj)
    split <;> exact hw
  · intro x hx
    obtain ⟨j, hj, rfl⟩ := mem_mapFrom hx
    have hw := hr2 _ (List.getElem_mem hj)
    split <;> exact hw
  · intro i hi
    have := getD_mapFrom (fun i x => if i <
        (p.nComb m).toNat then Comb.reload p fs m i x else x) c.combs i Comb.absent (by omega)
    show Comb.usable p i (List.getD _ i Comb.absent) = true
    simp only [Channel.reload]; rw [this, if_pos hi]
    obtain ⟨h1, h2⟩ := hm.comb i hi
    simp only [Params.combCheck, require_eq_none, Bool.and_eq_true] at h1
    have hb := Params.base_bounds h2
    simp only [Comb.usable, Comb.reload, Bool.and_eq_true, decide_eq_true_eq, BitVec.toNat_ofNat]
    rw [Nat.mod_eq_of_lt (by omega)]
    tauto
  · intro i hi
    have := getD_mapFrom (fun i x => if i <
        (p.nAp m).toNat then Allpass.reload p fs m i x else x) c.aps i Allpass.absent (by omega)
    show Allpass.usable p i (List.getD _ i Allpass.absent) = true
    simp only [Channel.reload]; rw [this, if_pos hi]
    obtain ⟨h1, h2⟩ := hm.ap i hi
    simp only [Params.apCheck, require_eq_none, Bool.and_eq_true] at h1
    have hb := Params.base_bounds h2
    simp only [Allpass.usable, Allpass.reload, Bool.and_eq_true, decide_eq_true_eq, BitVec.toNat_ofNat]
    rw [Nat.mod_eq_of_lt (by omega)]
    tauto

/-- What CONFIG leaves before its reload (45_engine.md R246). -/
theorem Channel.configured_ok {p : Params} {c : Channel} (hp : p.wf = true) (hs : c.shaped p = true) (ctr ch) :
   (c.configured ctr ch).shaped p = true ∧ (∀ x ∈ (c.configured ctr ch).combs,
       x.ring.wf p.rbCap = true) ∧ (∀ x ∈ (c.configured ctr ch).aps, x.ring.wf p.rbCap = true) := by
  have hs := Channel.shaped_iff.1 hs
  have h1 : 1 ≤ p.rbCap := by simp only [Params.wf, Params.sizesOk, Bool.and_eq_true, decide_eq_true_eq] at hp; omega
  have hr : ∀ site, (Ring.configured site).wf p.rbCap = true := fun site => Ring.wf_iff.2
      ⟨⟨by simp [Ring.configured], by simpa [Ring.configured] using h1⟩, by simp [Ring.configured], rfl⟩
  refine ⟨?_, ?_, ?_⟩
  · rw [Channel.shaped_iff]; simp [Channel.configured, length_mapFrom, hs]
  · intro x hx
    obtain ⟨j, hj, rfl⟩ := mem_mapFrom hx
    exact hr _
  · intro x hx
    obtain ⟨j, hj, rfl⟩ := mem_mapFrom hx
    exact hr _

/-- ACTIVATE keeps a channel runnable (45_engine.md R248). -/
theorem ChannelOk.silence {p : Params} {nC nA : Nat} {c : Channel} (h : ChannelOk p nC nA c) :
    ChannelOk p nC nA c.silence := by
  have hs := Channel.shaped_iff.1 h.shaped
  refine ⟨?_, ?_, ?_, ?_, ?_⟩
  · rw [Channel.shaped_iff]; simp [Channel.silence, hs]
  · intro x hx
    obtain ⟨y, hy, rfl⟩ := List.mem_map.1 hx
    have := Ring.wf_iff.1 (h.combR y hy)
    exact Ring.wf_clear this.1.1 this.1.2
  · intro x hx
    obtain ⟨y, hy, rfl⟩ := List.mem_map.1 hx
    have := Ring.wf_iff.1 (h.apR y hy)
    exact Ring.wf_clear this.1.1 this.1.2
  · intro i hi
    have h2 := h.combU i hi
    simp only [Channel.comb, Channel.silence, List.getD_eq_getElem?_getD, List.getElem?_map] at h2 ⊢
    cases hh : c.combs[i]? <;> rw [hh] at h2
    · exact h2
    · exact h2
  · intro i hi
    have h2 := h.apU i hi
    simp only [Channel.ap, Channel.silence, List.getD_eq_getElem?_getD, List.getElem?_map] at h2 ⊢
    cases hh : c.aps[i]? <;> rw [hh] at h2
    · exact h2
    · exact h2

/-- The allpass chain runs each allpass or leaves it. -/
theorem getElem?_apStage (e : MixEnv) (site : Site) (i j : Nat) (cs : List Allpass) (acc : F32) :
    ∃ f : Allpass → Allpass, (∀ a, f a = a ∨ ∃ s x,
        f a = (a.step e.params s x).1) ∧ (apStage e site i cs acc).1[j]? = cs[j]?.map f := by
  induction cs generalizing i j acc with
  | nil => exact ⟨id, fun _ => .inl rfl, rfl⟩
  | cons a as ih =>
    simp only [apStage]
    split
    · cases j with
      | zero => exact ⟨fun a => (a.step e.params (i :: site) acc).1, fun a => .inr ⟨_, _, rfl⟩, rfl⟩
      | succ j => simp only [List.getElem?_cons_succ]; exact ih ..
    · exact ⟨id, fun _ => .inl rfl, by simp⟩

/-- The comb stage keeps a channel runnable. -/
theorem ChannelOk.runCombs {p : Params} {nC nA : Nat} {c : Channel} {e : MixEnv} (site x acc)
    (h : ChannelOk p nC nA c) :
   ChannelOk p nC nA { c with combs := (combStage e site x 0 c.combs acc).1 } := by
  have hs := Channel.shaped_iff.1 h.shaped
  refine ⟨?_, ?_, h.apR, ?_, h.apU⟩
  · rw [Channel.shaped_iff]; simp [length_combStage, hs]
  · intro y hy
    obtain ⟨c', hc', rfl | ⟨s, rfl⟩⟩ := mem_combStage hy
    · exact h.combR _ hc'
    · obtain ⟨w, hw⟩ := Comb.step_ring e.params s c' x
      rw [hw]; exact Ring.wf_push _ (h.combR _ hc')
  · intro i hi
    have h2 := h.combU i hi
    simp only [Channel.comb, List.getD_eq_getElem?_getD, getElem?_combStage] at h2 ⊢
    cases hh : c.combs[i]? <;> rw [hh] at h2
    · simpa [hh] using h2
    · simp only [Option.map_some, Option.getD_some] at h2 ⊢
      split <;> exact h2

/-- The allpass chain keeps a channel runnable. -/
theorem ChannelOk.runAps {p : Params} {nC nA : Nat} {c : Channel} {e : MixEnv} (site acc) (h : ChannelOk p nC nA c) :
   ChannelOk p nC nA { c with aps := (apStage e site 0 c.aps acc).1 } := by
  have hs := Channel.shaped_iff.1 h.shaped
  refine ⟨?_, h.combR, ?_, h.combU, ?_⟩
  · rw [Channel.shaped_iff]; simp [length_apStage, hs]
  · intro y hy
    obtain ⟨c', hc', rfl | ⟨s, x, rfl⟩⟩ := mem_apStage hy
    · exact h.apR _ hc'
    · obtain ⟨w, hw⟩ := Allpass.step_ring e.params s c' x
      rw [hw]; exact Ring.wf_push _ (h.apR _ hc')
  · intro i hi
    have h2 := h.apU i hi
    obtain ⟨f, hf, hff⟩ := getElem?_apStage e site 0 i c.aps acc
    simp only [Channel.ap, List.getD_eq_getElem?_getD, hff] at h2 ⊢
    cases hh : c.aps[i]? <;> rw [hh] at h2
    · simpa [hh] using h2
    · rename_i a
      simp only [Option.map_some, Option.getD_some] at h2 ⊢
      rcases hf a with h3 | ⟨s, x, h3⟩ <;> rw [h3] <;> exact h2

/-- A sample step keeps a channel runnable (45_engine.md R253). -/
theorem ChannelOk.runSample {p : Params} {nC nA : Nat} {c : Channel} {e : MixEnv} (site x) (h : ChannelOk p nC nA c) :
   ChannelOk p nC nA (sampleStep e site c x).1 := by
  unfold sampleStep
  simp only
  have h1 : ChannelOk p nC nA
      { c with combs := (if e.combsEn then combStage e (0 :: site) x 0 c.combs x else (c.combs, x)).1 } := by
    split
    · exact ChannelOk.runCombs _ _ _ h
    · exact h
  generalize (if e.combsEn then combStage e (0 :: site) x 0 c.combs x else (c.combs, x)) = q at h1
  have h2 : ChannelOk p nC nA
      { c with combs := q.1, aps := (if e.apsEn then apStage e (1 :: site) 0 c.aps q.2 else (c.aps, q.2)).1 } := by
    split
    · exact ChannelOk.runAps _ _ h1
    · exact h1
  generalize (if e.apsEn then apStage e (1 :: site) 0 c.aps q.2 else (c.aps, q.2)) = r at h2
  split
  · exact ⟨h2.shaped, h2.combR, h2.apR, h2.combU, h2.apU⟩
  · exact h2

/-- The invariant of a configured block, from its parts. -/
theorem State.parts_of_configured {s : State} (hwf : s.params.wf = true) (b1 : bankWf s.params s.inL = true)
    (b2 : bankWf s.params s.inR = true)
  (b3 : bankWf s.params s.outL = true) (b4 : bankWf s.params s.outR = true) (m1 : s.mode.toNat < s.params.numModes)
  (e1 : s.errCode.toNat ≤ 0x0C) (r1 : ∀ r ∈ s.responses, r.legal = true) (he : s.estate ≠ .uninit)
  (f1 : 1 ≤ s.fs.toNat) (f2 : s.fs.toNat ≤ s.params.fsMax) (f3 : s.params.romCheck s.fs.toNat = none)
  (hm : s.cacheM.toNat < s.params.numModes) (hC : s.nC = s.params.nComb s.cacheM.toNat)
      (hA : s.nA = s.params.nAp s.cacheM.toNat)
  (c1 : F32.le s.params.decayMin s.cacheT = true) (c2 : F32.le s.cacheT s.params.decayMax = true)
  (hl : ChannelOk s.params s.nC.toNat s.nA.toNat s.chL)
      (hr : ChannelOk s.params s.nC.toNat s.nA.toNat s.chR) : s.Parts := by
  have hl' := channelOk_iff.1 hl
  have hr' := channelOk_iff.1 hr
  have hmo := modeOk_of_romCheck f3 hm
  refine ⟨hwf, hl'.1, hr'.1, b1, b2, b3, b4, m1, hm, ?_, ?_, e1, r1, ?_⟩
  · rw [hC]; exact hmo.nC
  · rw [hA]; exact hmo.nA
  · rw [if_neg he]
    exact State.configuredOk_iff.2 ⟨f1, f2, f3, hC, hA, c1, c2, fun ch => by cases ch <;> tauto,
        fun ch => by cases ch <;> tauto⟩

/-- A word that compares is no NaN. -/
theorem f32_le_self {a b : F32} (h : F32.le a b = true) : F32.le a a = true ∧ F32.le b b = true := by
  simp only [F32.le, Bool.and_eq_true, Bool.not_eq_true', decide_eq_true_eq] at *; tauto

/-- A clamp stays within its bounds (10_state.md R44). -/
theorem f32_clamp_bounds {v lo hi : F32} (h : F32.le lo hi = true) :
    F32.le lo (F32.clamp v lo hi) = true ∧ F32.le (F32.clamp v lo hi) hi = true := by
  have := f32_le_self h
  unfold F32.clamp
  split
  · tauto
  · split
    · tauto
    · split
      · tauto
      · rename_i h1 h2 h3
        simp only [F32.le, Bool.and_eq_true, Bool.not_eq_true', decide_eq_true_eq] at *
        simp only [Bool.not_eq_true] at h1
        obtain ⟨⟨h4, h5⟩, h6⟩ := h
        have h2' : ¬ v.key ≤ lo.key := fun hh => h2 ⟨⟨h1, h4⟩, hh⟩
        have h3' : ¬ hi.key ≤ v.key := fun hh => h3 ⟨⟨h5, h1⟩, hh⟩
        exact ⟨⟨⟨h4, h1⟩, by omega⟩, ⟨h1, h5⟩, by omega⟩

/-- The clamped decay time stays within its bounds (10_state.md R44). -/
theorem State.clampT_bounds {s : State} (h : s.params.wf = true) :
    F32.le s.params.decayMin s.clampT = true ∧ F32.le s.clampT s.params.decayMax = true := by
  apply f32_clamp_bounds
  simp only [Params.wf, Params.realsOk, Bool.and_eq_true] at h; tauto

/-- Change detection keeps the invariant (45_engine.md R244). -/
theorem State.Parts.detected {s : State} (h : s.Parts)
    (he : s.estate = .running) : s.detect.Parts ∧ s.detect.estate = .running := by
  have hu : s.estate ≠ .uninit := by rw [he]; decide
  have hc := h.configured hu
  have ct := State.clampT_bounds h.wf
  rcases s.detect_cases with ⟨_, h1⟩ | ⟨_, hm, h1⟩ | ⟨_, _, h1⟩ <;> rw [h1]
  · exact ⟨h, he⟩
  · have hm' : s.mode = s.cacheM := by simpa [State.modeChanged] using hm
    refine ⟨State.parts_of_configured h.wf h.bankInL h.bankInR h.bankOutL h.bankOutR h.mode h.errCode
        h.responses hu hc.fsPos hc.fsMax hc.romCheck h.mode ?_ ?_ ct.1 ct.2 ?_ ?_, he⟩
    · simpa [hm'] using hc.nC
    · simpa [hm'] using hc.nA
    · exact ChannelOk.recompute h.wf (State.Parts.channelOk h he .left) h.nC h.nA ..
    · exact ChannelOk.recompute h.wf (State.Parts.channelOk h he .right) h.nC h.nA ..
  · have hmo := modeOk_of_romCheck hc.romCheck h.mode
    refine ⟨State.parts_of_configured h.wf h.bankInL h.bankInR h.bankOutL h.bankOutR h.mode h.errCode
        h.responses hu hc.fsPos hc.fsMax hc.romCheck h.mode rfl rfl ct.1 ct.2 ?_ ?_, he⟩
    · exact ChannelOk.recompute h.wf (channelOk_reload h.wf h.shapedL (State.Parts.channelOk h he .left).combR
        (State.Parts.channelOk h he .left).apR hmo) hmo.nC hmo.nA ..
    · exact ChannelOk.recompute h.wf (channelOk_reload h.wf h.shapedR (State.Parts.channelOk h he .right).combR
        (State.Parts.channelOk h he .right).apR hmo) hmo.nC hmo.nA ..

/-- One sample of a block keeps the invariant. -/
theorem State.Parts.runSample {e : MixEnv} {k : Nat} {s t : State} (h : s.Parts) (he : s.estate = .running)
    (hk : k < s.params.blockMax) (ht : processSample e k s = .ok t) : t.Parts ∧ t.estate = .running := by
  have hu : s.estate ≠ .uninit := by rw [he]; decide
  have hc := h.configured hu
  rcases processSample_cases e k s with ⟨_, h'⟩ | ⟨_, _, _, h'⟩ | ⟨xl, xr, _, _, h'⟩ <;> rw [h'] at ht
  · simp at ht
  · simp at ht
  · obtain rfl := Except.ok.inj ht
    refine ⟨State.parts_of_configured h.wf h.bankInL h.bankInR ?_ ?_ h.mode h.errCode
        h.responses hu hc.fsPos hc.fsMax hc.romCheck h.cacheM hc.nC hc.nA hc.cacheMin hc.cacheMax ?_ ?_, he⟩
    · exact bankWf_putCell _ hk h.bankOutL
    · exact bankWf_putCell _ hk h.bankOutR
    · exact ChannelOk.runSample _ _ (State.Parts.channelOk h he .left)
    · exact ChannelOk.runSample _ _ (State.Parts.channelOk h he .right)

/-- A block keeps the invariant (45_engine.md R249). -/
theorem State.Parts.runBlock {e : MixEnv} {n : Nat} {s t : State} (h : s.Parts) (he : s.estate = .running)
    (hn : n ≤ s.params.blockMax) (ht : processFrom e n 0 s = .ok t) : t.Parts ∧ t.estate = .running := by
  have := processFrom_induct (P := fun u => u.Parts ∧ u.estate = .running ∧ u.params = s.params) (e := e) (n := n)
      (k := 0) (s := s) (t := t) ?_ ⟨h, he, rfl⟩ ht
  · exact ⟨this.1, this.2.1⟩
  · intro j u v _ hj ⟨h1, h2, h3⟩ hv
    have := State.Parts.runSample h1 h2 (by rw [h3]; omega) hv
    exact ⟨this.1, this.2, (processSample_frame hv).1.params.trans h3⟩

end Sys2Proof.Machine
end

