-- ==== Sys2Proof/Laws/PerInstr.lean ====
section
/-! SUPPORT. What holds of every command as syntax, one lemma per constructor (LAWS.json). -/

namespace Sys2Proof

theorem Chan.toBit_lt (ch : Chan) : ch.toBit < 2 := by cases ch <;> decide

theorem RingSel.toBit_lt (sel : RingSel) : sel.toBit < 2 := by cases sel <;> decide

theorem FilterSel.toBit_lt (sel : FilterSel) : sel.toBit < 2 := by cases sel <;> decide

/-- The fields of a packed command word are the fields packed (30_encoding.md R91). -/
theorem fieldsOf_packFields {f : Fields} (h1 : f.unit < 16) (h2 : f.op < 16) (h3 : f.ch < 2) (h4 : f.sel < 2)
    (h5 : f.idx < 64) (h6 : f.imm < 65536) : fieldsOf (packFields f) = f := by
  obtain ⟨u, o, c, s, i, m⟩ := f
  simp only at h1 h2 h3 h4 h5 h6
  simp only [fieldsOf, packFields, bits, BitVec.toNat_ofNat, Fields.mk.injEq]
  refine ⟨?_, ?_, ?_, ?_, ?_, ?_⟩ <;> omega

/-- The row of a packed command word is the row its fields fit. -/
theorem rowOf_packFields {f : Fields} (h1 : f.unit < 16) (h2 : f.op < 16) (h3 : f.ch < 2) (h4 : f.sel < 2)
    (h5 : f.idx < 64) (h6 : f.imm < 65536) : rowOf (packFields f) = rows.find? fun r => r.fits f := by
  rw [rowOf, fieldsOf_packFields h1 h2 h3 h4 h5 h6]

theorem idxFits_iff {idx : Nat} : idxFits idx = true ↔ idx < 64 := by simp [idxFits]

theorem immFits_iff {imm : Nat} : immFits imm = true ↔ imm < 65536 := by simp [immFits]

namespace Laws.EncodesRow

/-- The command word of a well-formed command fits a row of the opcode map, and the command carries as many operand words as
that row requires (30_encoding.md R93). -/
def Statement (i : Instr) : Prop := i.wf = true → (rowOf (encode i).cmd).map Row.count = some (encode i).ops.length

/-- A command word packed from fields in range. -/
theorem ofFields {u o c s i m n : Nat} (hu : u < 16) (ho : o < 16) (hc : c < 2) (hs : s < 2) (hi : i < 64) (hm : m < 65536)
    (h : (rows.find? fun r => r.fits ⟨u, o, c, s, i, m⟩).map Row.count = some n) :
    (rowOf (packFields ⟨u, o, c, s, i, m⟩)).map Row.count = some n := by
  rw [rowOf_packFields hu ho hc hs hi hm, h]

theorem rbPush (ch : Chan) (sel : RingSel) (idx : Nat) (v : Word) : Statement (.rbPush ch sel idx v) := fun h =>
  ofFields (by decide) (by decide) ch.toBit_lt sel.toBit_lt (idxFits_iff.1 h) (by decide) rfl

theorem rbRead (ch : Chan) (sel : RingSel) (idx : Nat) (k : Word) : Statement (.rbRead ch sel idx k) := fun h =>
  ofFields (by decide) (by decide) ch.toBit_lt sel.toBit_lt (idxFits_iff.1 h) (by decide) rfl

theorem rbWrite (ch : Chan) (sel : RingSel) (idx : Nat) (k v : Word) : Statement (.rbWrite ch sel idx k v) := fun h =>
  ofFields (by decide) (by decide) ch.toBit_lt sel.toBit_lt (idxFits_iff.1 h) (by decide) rfl

theorem rbSetlen (ch : Chan) (sel : RingSel) (idx : Nat) (n : Word) : Statement (.rbSetlen ch sel idx n) := fun h =>
  ofFields (by decide) (by decide) ch.toBit_lt sel.toBit_lt (idxFits_iff.1 h) (by decide) rfl

theorem rbClear (ch : Chan) (sel : RingSel) (idx : Nat) : Statement (.rbClear ch sel idx) := fun h =>
  ofFields (by decide) (by decide) ch.toBit_lt sel.toBit_lt (idxFits_iff.1 h) (by decide) rfl

theorem rbStat (ch : Chan) (sel : RingSel) (idx : Nat) : Statement (.rbStat ch sel idx) := fun h =>
  ofFields (by decide) (by decide) ch.toBit_lt sel.toBit_lt (idxFits_iff.1 h) (by decide) rfl

theorem bqSetlp (ch : Chan) (sel : FilterSel) (idx : Nat) (c b r : Word) : Statement (.bqSetlp ch sel idx c b r) := fun h =>
  ofFields (by decide) (by decide) ch.toBit_lt sel.toBit_lt (idxFits_iff.1 h) (by decide) rfl

theorem bqSethp (ch : Chan) (sel : FilterSel) (idx : Nat) (c b r : Word) : Statement (.bqSethp ch sel idx c b r) := fun h =>
  ofFields (by decide) (by decide) ch.toBit_lt sel.toBit_lt (idxFits_iff.1 h) (by decide) rfl

theorem bqSetpk (ch : Chan) (sel : FilterSel) (idx : Nat) (c g b r : Word) : Statement (.bqSetpk ch sel idx c g b r) := fun h =>
  ofFields (by decide) (by decide) ch.toBit_lt sel.toBit_lt (idxFits_iff.1 h) (by decide) rfl

theorem bqReset (ch : Chan) (sel : FilterSel) (idx : Nat) : Statement (.bqReset ch sel idx) := fun h =>
  ofFields (by decide) (by decide) ch.toBit_lt sel.toBit_lt (idxFits_iff.1 h) (by decide) rfl

theorem bqProc (ch : Chan) (sel : FilterSel) (idx : Nat) (x : Word) : Statement (.bqProc ch sel idx x) := fun h =>
  ofFields (by decide) (by decide) ch.toBit_lt sel.toBit_lt (idxFits_iff.1 h) (by decide) rfl

theorem bqLdcoef (ch : Chan) (sel : FilterSel) (idx : Nat) (b0 b1 b2 a1 a2 : Word) : Statement (.bqLdcoef ch sel idx b0 b1 b2 a1 a2) := fun h =>
  ofFields (by decide) (by decide) ch.toBit_lt sel.toBit_lt (idxFits_iff.1 h) (by decide) rfl

theorem bqRdcoef (ch : Chan) (sel : FilterSel) (idx : Nat) : Statement (.bqRdcoef ch sel idx) := fun h =>
  ofFields (by decide) (by decide) ch.toBit_lt sel.toBit_lt (idxFits_iff.1 h) (by decide) rfl

theorem bqRdhist (ch : Chan) (sel : FilterSel) (idx : Nat) : Statement (.bqRdhist ch sel idx) := fun h =>
  ofFields (by decide) (by decide) ch.toBit_lt sel.toBit_lt (idxFits_iff.1 h) (by decide) rfl

theorem cfCfg (ch : Chan) (idx : Nat) (d p c b r : Word) : Statement (.cfCfg ch idx d p c b r) := fun h =>
  ofFields (by decide) (by decide) ch.toBit_lt (by decide) (idxFits_iff.1 h) (by decide) rfl

theorem cfSetg (ch : Chan) (idx : Nat) (g : Word) : Statement (.cfSetg ch idx g) := fun h =>
  ofFields (by decide) (by decide) ch.toBit_lt (by decide) (idxFits_iff.1 h) (by decide) rfl

theorem cfProc (ch : Chan) (idx : Nat) (x : Word) : Statement (.cfProc ch idx x) := fun h =>
  ofFields (by decide) (by decide) ch.toBit_lt (by decide) (idxFits_iff.1 h) (by decide) rfl

theorem cfRdstate (ch : Chan) (idx : Nat) : Statement (.cfRdstate ch idx) := fun h =>
  ofFields (by decide) (by decide) ch.toBit_lt (by decide) (idxFits_iff.1 h) (by decide) rfl

theorem apCfg (ch : Chan) (idx : Nat) (d p : Word) : Statement (.apCfg ch idx d p) := fun h =>
  ofFields (by decide) (by decide) ch.toBit_lt (by decide) (idxFits_iff.1 h) (by decide) rfl

theorem apSetg (ch : Chan) (idx : Nat) (gin g : Word) : Statement (.apSetg ch idx gin g) := fun h =>
  ofFields (by decide) (by decide) ch.toBit_lt (by decide) (idxFits_iff.1 h) (by decide) rfl

theorem apProc (ch : Chan) (idx : Nat) (x : Word) : Statement (.apProc ch idx x) := fun h =>
  ofFields (by decide) (by decide) ch.toBit_lt (by decide) (idxFits_iff.1 h) (by decide) rfl

theorem apRdstate (ch : Chan) (idx : Nat) : Statement (.apRdstate ch idx) := fun h =>
  ofFields (by decide) (by decide) ch.toBit_lt (by decide) (idxFits_iff.1 h) (by decide) rfl

theorem engConfig (r : Word) : Statement (.engConfig r) := fun _ =>
  ofFields (by decide) (by decide) (by decide) (by decide) (by decide) (by decide) rfl

theorem engActivate : Statement (.engActivate) := fun _ =>
  ofFields (by decide) (by decide) (by decide) (by decide) (by decide) (by decide) rfl

theorem engProcess (n : Nat) : Statement (.engProcess n) := fun h =>
  ofFields (by decide) (by decide) (by decide) (by decide) (by decide) (immFits_iff.1 h) rfl

theorem engCleanup : Statement (.engCleanup) := fun _ =>
  ofFields (by decide) (by decide) (by decide) (by decide) (by decide) (by decide) rfl

theorem engCsrr (a : Nat) : Statement (.engCsrr a) := fun h =>
  ofFields (by decide) (by decide) (by decide) (by decide) (by decide) (immFits_iff.1 h) rfl

theorem engCsrw (a : Nat) (v : Word) : Statement (.engCsrw a v) := fun h =>
  ofFields (by decide) (by decide) (by decide) (by decide) (by decide) (immFits_iff.1 h) rfl

theorem memRd (sp a : Nat) : Statement (.memRd sp a) := fun h =>
  ofFields (by decide) (by decide) (by decide) (by decide) (idxFits_iff.1 (Bool.and_eq_true_iff.1 h).1)
    (immFits_iff.1 (Bool.and_eq_true_iff.1 h).2) rfl

theorem memWr (sp a : Nat) (w : Word) : Statement (.memWr sp a w) := fun h =>
  ofFields (by decide) (by decide) (by decide) (by decide) (idxFits_iff.1 (Bool.and_eq_true_iff.1 h).1)
    (immFits_iff.1 (Bool.and_eq_true_iff.1 h).2) rfl

end Laws.EncodesRow

end Sys2Proof
end

