-- ==== Sys2Proof/Laws/RealParam.lean ====
section
/-! SUPPORT. What a real parameter is worth: its sign and the floors of its multiples. -/

namespace Sys2Proof.Machine

/-- A parameter passes the test for a positive real exactly where its value is one (00_scope.md R10). -/
theorem RealParam.isPos_iff {r : RealParam} (h : r.wf = true) : r.isPos = true ↔ 0 < r.toReal := by
  cases r with
  | exact q =>
    have hd : (0 : ℝ) < q.den := by exact_mod_cast of_decide_eq_true h
    simp only [RealParam.isPos, RealParam.toReal, Ratio.toReal, Bool.and_eq_true, decide_eq_true_eq]
    rw [div_pos_iff_of_pos_right hd, Int.cast_pos]
    exact and_iff_right (of_decide_eq_true h)
  | named negative n =>
    have hp := (Config.openReal n).pos
    cases negative <;> simp [RealParam.isPos, RealParam.toReal, hp, hp.le]

/-- `floorMul` is the floor over the reals (44_coefficients.md R220). -/
theorem RealParam.floorMul_eq {r : RealParam} (h : r.isPos = true) (b : Nat) :
    (r.floorMul b : ℤ) = ⌊(b : ℝ) * r.toReal⌋ := by
  cases r with
  | exact q =>
    simp only [RealParam.isPos, Bool.and_eq_true, decide_eq_true_eq] at h
    have h0 : 0 ≤ (b : ℤ) * q.num / (q.den : ℤ) := by
      have := h.2.le
      positivity
    have hf : ⌊(b : ℝ) * q.toReal⌋ = (b : ℤ) * q.num / (q.den : ℤ) := by
      rw [Ratio.toReal, ← mul_div_assoc]
      have := Int.floor_div_natCast (k := ℝ) (a := ((b : ℝ) * q.num)) q.den
      rw [this, show ((b : ℝ) * (q.num : ℝ)) = (((b : ℤ) * q.num : ℤ) : ℝ) by push_cast; rfl, Int.floor_intCast]
    rw [RealParam.floorMul, RealParam.toReal, hf, Int.toNat_of_nonneg h0]
  | named negative n =>
    cases negative
    · exact (Config.openReal n).floorMul_eq b
    · cases h

end Sys2Proof.Machine
end

