-- ==== Sys2Proof/Tests/Slice0.lean ====
section
/-! SUPPORT. Tests of the model and a witness for every statement that has hypotheses. Expected words come from
95_test_vectors.md and from the encoding tables of 30_encoding.md. -/

namespace Sys2Proof.Tests

open Sys2Proof.Machine

set_option Elab.async false

/-! ## Small states -/

/-- The state after a run of commands. -/
def runFrom (s : State) (is : List Instr) : State := (execAll is s).getD s

/-- State S1 of 95_test_vectors.md 0.3. -/
def running : State := runFrom State.reset [.engConfig 1000, .engActivate]

/-- A smaller record, with two modes that use combs and allpasses. -/
def smallParams : Params :=
  { paramsTC with
    maxCombs := 2
    maxAps := 2
    numModes := 2
    rbCap := 16
    fsMax := 4000
    blockMax := 2
    rom :=
      [1, 1, 0x42C80000, 0x43C80000, 0x40000000, 0x42960000, 0x3F000000, 0, 0, 0, 0x3F800000, 0x42480000, 0, 0] ++
        [2, 0, 0x42C80000, 0x43480000, 0x3F800000, 0x42960000, 0x3F000000, 0x40400000, 0x42480000, 0x3F000000, 0, 0, 0, 0] }

/-- The small block, running. -/
def small : State := runFrom (State.resetOf smallParams) [.engConfig 1000, .engActivate]

/-- The response of one command. -/
def answer (i : Instr) (s : State) : Option Response :=
  match exec i s with
  | .next t => t.responses.head?
  | _ => none

/-- The command answers a next state. -/
def completes (i : Instr) (s : State) : Bool :=
  match exec i s with
  | .next _ => true
  | _ => false

/-- The fault a command ends in. -/
def faultOf (i : Instr) (s : State) : Option Fault :=
  match exec i s with
  | .fault f => some f
  | _ => none

theorem exec_faultOf {i : Instr} {s : State} {f : Fault} (h : faultOf i s = some f) : exec i s = .fault f := by
  unfold faultOf at h
  cases he : exec i s with
  | next t => rw [he] at h; cases h
  | fault g => rw [he] at h; exact congrArg _ (Option.some.inj h)
  | refused r => rw [he] at h; cases h

theorem exec_runFrom {i : Instr} {s : State} (h : completes i s = true) : exec i s = .next (runFrom s [i]) := by
  unfold completes at h
  simp only [runFrom, execAll]
  cases he : exec i s with
  | next t => rfl
  | fault f => rw [he] at h; cases h
  | refused r => rw [he] at h; cases h

/-! ## Well-formedness (30_encoding.md R91) -/

/-- Every check of a command's fields refuses an ill-formed term. -/
theorem test_wellFormed_refuses :
    ([ .rbPush .left .comb 64 0, .rbRead .left .comb 64 0, .rbWrite .left .comb 64 0 0, .rbSetlen .left .comb 64 0,
      .rbClear .left .comb 64, .rbStat .left .comb 64, .bqSetlp .left .damp 64 0 0 0, .bqSethp .left .damp 64 0 0 0,
      .bqSetpk .left .damp 64 0 0 0 0, .bqReset .left .damp 64, .bqProc .left .damp 64 0,
      .bqLdcoef .left .damp 64 0 0 0 0 0, .bqRdcoef .left .damp 64, .bqRdhist .left .damp 64,
      .cfCfg .left 64 0 0 0 0 0, .cfSetg .left 64 0, .cfProc .left 64 0, .cfRdstate .left 64, .apCfg .left 64 0 0,
      .apSetg .left 64 0 0, .apProc .left 64 0, .apRdstate .left 64, .engProcess 65536, .engCsrr 65536,
      .engCsrw 65536 0, .memRd 64 0, .memRd 0 65536, .memWr 64 0 0, .memWr 0 65536 0 ] : List Instr).all (fun i => !i.wf) = true := by
  decide +kernel

/-- Every command passes with its fields at their largest values. -/
theorem test_wellFormed_boundary :
    ([ .rbPush .left .comb 63 0, .rbRead .left .comb 63 0, .rbWrite .left .comb 63 0 0, .rbSetlen .left .comb 63 0,
      .rbClear .left .comb 63, .rbStat .left .comb 63, .bqSetlp .left .damp 63 0 0 0, .bqSethp .left .damp 63 0 0 0,
      .bqSetpk .left .damp 63 0 0 0 0, .bqReset .left .damp 63, .bqProc .left .damp 63 0,
      .bqLdcoef .left .damp 63 0 0 0 0 0, .bqRdcoef .left .damp 63, .bqRdhist .left .damp 63,
      .cfCfg .left 63 0 0 0 0 0, .cfSetg .left 63 0, .cfProc .left 63 0, .cfRdstate .left 63, .apCfg .left 63 0 0,
      .apSetg .left 63 0 0, .apProc .left 63 0, .apRdstate .left 63, .engConfig 0, .engActivate, .engProcess 65535,
      .engCleanup, .engCsrr 65535, .engCsrw 65535 0, .memRd 63 65535, .memWr 63 65535 0 ] : List Instr).all Instr.wf = true := by
  decide +kernel

/-! ## Encoding (30_encoding.md R91 to R105) -/

/-- The rows are those of spec/opcode_table.json: mask, match and operand count. -/
theorem test_rows :
    rows.map (fun r => (r.mask, r.pattern, r.count)) =
      ([ (0xFF00FFFF, 0x10000000, 1), (0xFF00FFFF, 0x11000000, 1), (0xFF00FFFF, 0x12000000, 2),
      (0xFF00FFFF, 0x13000000, 1), (0xFF00FFFF, 0x14000000, 0), (0xFF00FFFF, 0x15000000, 0),
      (0xFF00FFFF, 0x20000000, 3), (0xFF00FFFF, 0x21000000, 3), (0xFF00FFFF, 0x22000000, 4),
      (0xFF00FFFF, 0x23000000, 0), (0xFF00FFFF, 0x24000000, 1), (0xFF00FFFF, 0x25000000, 5),
      (0xFF00FFFF, 0x26000000, 0), (0xFF00FFFF, 0x27000000, 0), (0xFF40FFFF, 0x30000000, 5),
      (0xFF40FFFF, 0x31000000, 1), (0xFF40FFFF, 0x32000000, 1), (0xFF40FFFF, 0x33000000, 0),
      (0xFF40FFFF, 0x40000000, 2), (0xFF40FFFF, 0x41000000, 2), (0xFF40FFFF, 0x42000000, 1),
      (0xFF40FFFF, 0x43000000, 0), (0xFFFFFFFF, 0x50000000, 1), (0xFFFFFFFF, 0x51000000, 0),
      (0xFFFF0000, 0x52000000, 0), (0xFFFFFFFF, 0x53000000, 0), (0xFFFF0000, 0x54000000, 0),
      (0xFFFF0000, 0x55000000, 1), (0xFFC00000, 0x60000000, 0), (0xFFC00000, 0x61000000, 1) ] : List (Word × Word × Nat)) := by
  decide +kernel

/-- Words of every command of the RB unit, written from the fields of R91 and the map of R93. -/
theorem test_decodeRb :
    decode ⟨0x10000000, [0x3F800001]⟩ = .ok (.rbPush .left .comb 0 0x3F800001) ∧
      decode ⟨0x11810000, [0x3F800002]⟩ = .ok (.rbRead .right .comb 1 0x3F800002) ∧
      decode ⟨0x12470000, [0x3F800003, 0x40800004]⟩ = .ok (.rbWrite .left .allpass 7 0x3F800003 0x40800004) ∧
      decode ⟨0x13C50000, [0x3F800004]⟩ = .ok (.rbSetlen .right .allpass 5 0x3F800004) ∧
      decode ⟨0x143F0000, []⟩ = .ok (.rbClear .left .comb 63) ∧
      decode ⟨0x15A10000, []⟩ = .ok (.rbStat .right .comb 33) := by
  decide +kernel

/-- Words of every command of the BQ unit, written from the fields of R91 and the map of R93. -/
theorem test_decodeBq :
    decode ⟨0x20400000, [0x3F800007, 0x40800008, 0x41800009]⟩ = .ok (.bqSetlp .left .bandpass 0 0x3F800007 0x40800008 0x41800009) ∧
      decode ⟨0x21C10000, [0x3F800008, 0x40800009, 0x4180000A]⟩ = .ok (.bqSethp .right .bandpass 1 0x3F800008 0x40800009 0x4180000A) ∧
      decode ⟨0x22070000, [0x3F800009, 0x4080000A, 0x4180000B, 0x4280000C]⟩ = .ok (.bqSetpk .left .damp 7 0x3F800009 0x4080000A 0x4180000B 0x4280000C) ∧
      decode ⟨0x23850000, []⟩ = .ok (.bqReset .right .damp 5) ∧
      decode ⟨0x247F0000, [0x3F80000B]⟩ = .ok (.bqProc .left .bandpass 63 0x3F80000B) ∧
      decode ⟨0x25E10000, [0x3F80000C, 0x4080000D, 0x4180000E, 0x4280000F, 0x43800010]⟩ = .ok (.bqLdcoef .right .bandpass 33 0x3F80000C 0x4080000D 0x4180000E 0x4280000F 0x43800010) ∧
      decode ⟨0x26000000, []⟩ = .ok (.bqRdcoef .left .damp 0) ∧
      decode ⟨0x27810000, []⟩ = .ok (.bqRdhist .right .damp 1) := by
  decide +kernel

/-- Words of every command of the CF unit, written from the fields of R91 and the map of R93. -/
theorem test_decodeCf :
    decode ⟨0x30070000, [0x3F80000F, 0x40800010, 0x41800011, 0x42800012, 0x43800013]⟩ = .ok (.cfCfg .left 7 0x3F80000F 0x40800010 0x41800011 0x42800012 0x43800013) ∧
      decode ⟨0x31850000, [0x3F800010]⟩ = .ok (.cfSetg .right 5 0x3F800010) ∧
      decode ⟨0x323F0000, [0x3F800011]⟩ = .ok (.cfProc .left 63 0x3F800011) ∧
      decode ⟨0x33A10000, []⟩ = .ok (.cfRdstate .right 33) := by
  decide +kernel

/-- Words of every command of the AP unit, written from the fields of R91 and the map of R93. -/
theorem test_decodeAp :
    decode ⟨0x40000000, [0x3F800013, 0x40800014]⟩ = .ok (.apCfg .left 0 0x3F800013 0x40800014) ∧
      decode ⟨0x41810000, [0x3F800014, 0x40800015]⟩ = .ok (.apSetg .right 1 0x3F800014 0x40800015) ∧
      decode ⟨0x42070000, [0x3F800015]⟩ = .ok (.apProc .left 7 0x3F800015) ∧
      decode ⟨0x43850000, []⟩ = .ok (.apRdstate .right 5) := by
  decide +kernel

/-- Words of every command of the ENG unit, written from the fields of R91 and the map of R93. -/
theorem test_decodeEng :
    decode ⟨0x50000000, [0x3F800017]⟩ = .ok (.engConfig 0x3F800017) ∧
      decode ⟨0x51000000, []⟩ = .ok (.engActivate) ∧
      decode ⟨0x52000024, []⟩ = .ok (.engProcess 36) ∧
      decode ⟨0x53000000, []⟩ = .ok (.engCleanup) ∧
      decode ⟨0x5400FFFF, []⟩ = .ok (.engCsrr 65535) ∧
      decode ⟨0x5500113A, [0x3F80001C]⟩ = .ok (.engCsrw 4410 0x3F80001C) := by
  decide +kernel

/-- Words of every command of the MEM unit, written from the fields of R91 and the map of R93. -/
theorem test_decodeMem :
    decode ⟨0x60030024, []⟩ = .ok (.memRd 3 36) ∧
      decode ⟨0x61040013, [0x3F80001E]⟩ = .ok (.memWr 4 19 0x3F80001E) := by
  decide +kernel

/-- The vectors X1, X2, X6 to X16 of 95_test_vectors.md 2.1. -/
theorem test_decode_refuses :
    ([⟨0x00000000, []⟩, ⟨0xFFFFFFFF, []⟩, ⟨0x10000001, [0]⟩, ⟨0x10000000, []⟩, ⟨0x10000000, [0, 0]⟩, ⟨0x16000000, []⟩,
      ⟨0x28000000, []⟩, ⟨0x32400000, [0]⟩, ⟨0x52800000, []⟩, ⟨0x50000001, [1000]⟩, ⟨0x60800000, []⟩, ⟨0x60400000, []⟩,
      ⟨0x70000000, []⟩] : List Transaction).all (fun t => (decode t).toOption.isNone) = true := by
  decide +kernel

/-- A row given as one number: the operand word counts on from bit 32. -/
theorem test_decodeTableWord :
    decodeTableWord 64 (0x50000000 + 1000 * 2 ^ 32) = some (.engConfig 1000) ∧
      decodeTableWord 32 0x12000000 = some (.rbWrite .left .comb 0 0 0) ∧ decodeTableWord 32 0x1F000000 = none := by
  decide +kernel

/-- The very next step runs the delivered word: reset and MEM.WR (95_test_vectors.md 2.10). -/
theorem test_withFetchWord :
    (match step (State.reset.withFetchWord 64 (0x61000005 + 0x3F800000 * 2 ^ 32)) with
      | .next t => t.readBank .inL 5
      | _ => none) = some 0x3F800000 := by
  decide +kernel

/-! ## One step of each unit (95_test_vectors.md section 2) -/

/-- X21, X22: the state is checked before the index (95_test_vectors.md 2.1). -/
theorem test_check_order :
    answer (.rbPush .left .comb 8 0) State.reset = some ⟨2, []⟩ ∧ answer (.rbPush .left .comb 8 0) running = some ⟨3, []⟩ ∧
      answer (.cfCfg .left 0 0 0x42960000 0x447A0000 0x3F800000 0) running = some ⟨6, []⟩ ∧
      answer (.bqSetlp .left .damp 0 0x46AC4400 0 0) running = some ⟨8, []⟩ := by
  decide +kernel

/-- RB4: a write at k = len - 1 replaces the word the next push returns (95_test_vectors.md 2.2). -/
theorem test_rb_write_then_push :
    answer (.rbPush .left .comb 0 0x40800000)
        (runFrom running
          [.rbSetlen .left .comb 0 3, .rbPush .left .comb 0 0x3F800000, .rbPush .left .comb 0 0x40000000,
            .rbPush .left .comb 0 0x40400000, .rbWrite .left .comb 0 2 0x40E00000]) =
      some ⟨0, [0x40E00000]⟩ := by
  decide +kernel

/-- RB2: a length below the cursor takes the cursor to 0, and a read clamps k (95_test_vectors.md 2.2). -/
theorem test_rb_shrink :
    let s := runFrom running
      [.rbSetlen .left .comb 0 3, .rbPush .left .comb 0 0x3F800000, .rbPush .left .comb 0 0x40000000,
        .rbSetlen .left .comb 0 2]
    answer (.rbStat .left .comb 0) s = some ⟨0, [2, 0]⟩ ∧
      answer (.rbRead .left .comb 0 0xFFFFFFFF) s = some ⟨0, [0x3F800000]⟩ := by
  decide +kernel

/-- RB7: the operand checks of RB.SETLEN (95_test_vectors.md 2.2). -/
theorem test_rb_setlen_checks :
    answer (.rbSetlen .left .comb 0 0) running = some ⟨6, []⟩ ∧ answer (.rbSetlen .left .comb 0 4097) running = some ⟨7, []⟩ ∧
      answer (.rbSetlen .left .comb 0 4096) running = some ⟨0, []⟩ := by
  decide +kernel

/-- BQ1: the third output of the DC example (95_test_vectors.md 2.3). -/
theorem test_bq_proc :
    answer (.bqProc .left .damp 0 0x3F800000)
        (runFrom running
          [.bqLdcoef .left .damp 0 0x3F000000 0x3E800000 0 0xBF000000 0, .bqProc .left .damp 0 0x3F800000,
            .bqProc .left .damp 0 0x3F800000]) =
      some ⟨0, [0x3FA00000]⟩ := by
  decide +kernel

/-- BQ2: the output is flushed, to +0.0 for either sign, and the input history is not (95_test_vectors.md 2.3). -/
theorem test_bq_flush :
    let s := runFrom running [.bqLdcoef .left .damp 0 0x3F000000 0 0 0 0]
    answer (.bqProc .left .damp 0 0x80800000) s = some ⟨0, [0]⟩ ∧
      answer (.bqRdhist .left .damp 0) (runFrom s [.bqProc .left .damp 0 0x80800000]) = some ⟨0, [0x80800000, 0, 0, 0]⟩ := by
  decide +kernel

/-- BQ3: the design domain at fs/2 and past FS_MAX (95_test_vectors.md 2.3). -/
theorem test_bq_domain :
    answer (.bqSetlp .left .damp 0 0x46AC4400 0x3F800000 44100) running = some ⟨0xA, []⟩ ∧
      answer (.bqSetlp .left .damp 0 0x447A0000 0x3F800000 192001) running = some ⟨8, []⟩ ∧
      answer (.bqSetpk .left .damp 0 0x462C4400 0x7F800000 0x3F800000 44100) running = some ⟨0xA, []⟩ := by
  decide +kernel

/-- An identity damping filter and a gain of 0.5 on comb 0 (95_test_vectors.md 2.4). -/
def echoing : State :=
  runFrom running [.bqLdcoef .left .damp 0 0x3F800000 0 0 0 0, .cfSetg .left 0 0x3F000000]

/-- CF1: the first echo (42_comb.md R174). -/
theorem test_cf_proc :
    answer (.cfProc .left 0 0) (runFrom echoing [.cfProc .left 0 0x3F800000, .cfProc .left 0 0]) =
      some ⟨0, [0x3F000000]⟩ := by
  decide +kernel

/-- CF4: a comb flushes the value it pushes (95_test_vectors.md 2.4). -/
theorem test_cf_flush :
    answer (.cfProc .left 0 0)
        (runFrom echoing [.cfSetg .left 0 0x1C800000, .rbSetlen .left .comb 0 1, .cfProc .left 0 0x1C800000]) =
      some ⟨0, [0]⟩ := by
  decide +kernel

/-- 43_allpass.md R194, R196: the first echo of an allpass of length 1 is (gin · g) · x, with no term of the input. -/
theorem test_ap_proc :
    let s := runFrom running [.apSetg .left 0 0x40000000 0x3F000000]
    answer (.apProc .left 0 0x3F800000) s = some ⟨0, [0]⟩ ∧
      answer (.apProc .left 0 0) (runFrom s [.apProc .left 0 0x3F800000]) = some ⟨0, [0x3F800000]⟩ := by
  decide +kernel

/-- R246, R22: CONFIG and then ACTIVATE move the engine; a rate of 0 is refused. -/
theorem test_eng_states :
    (runFrom State.reset [.engConfig 1000]).estate = .configured ∧ running.estate = .running ∧
      answer (.engConfig 0) State.reset = some ⟨8, []⟩ ∧ answer (.engProcess 17) running = some ⟨0xC, []⟩ ∧
      (runFrom running [.engCleanup]).estate = .uninit := by
  decide +kernel

/-- X20: STATUS holds the first error code and the state (95_test_vectors.md 2.1). -/
theorem test_csr_status :
    answer (.engCsrr 0) (runFrom running [.rbSetlen .left .comb 0 0, .rbSetlen .left .comb 0 4097]) = some ⟨0, [0x602]⟩ ∧
      answer (.engCsrw 0x14 1) running = some ⟨9, []⟩ ∧ answer (.engCsrw 0x15 0) running = some ⟨4, []⟩ := by
  decide +kernel

/-- The input words of one sample written in both banks. -/
def withInput (s : State) (k : Nat) (w : Word) : State := runFrom s [.memWr 0 k w, .memWr 1 k w]

/-- 1.2: with every stage off or the comb silent, output 0 of an impulse at 0 dB is 2.0, not 1.0. -/
theorem test_process_impulse :
    (runFrom (withInput echoing 0 0x3F800000) [.engProcess 1]).readBank .outL 0 = some 0x40000000 := by
  decide +kernel

/-- 46_sample_memory.md: a word reads back bit for bit; an unwritten word is the fault; the ROM is read-only. -/
theorem test_mem :
    answer (.memRd 3 0) (runFrom State.reset [.memWr 3 0 0xDEADBEEF]) = some ⟨0, [0xDEADBEEF]⟩ ∧
      answer (.memRd 4 5) State.reset = some ⟨0, [0x42960000]⟩ ∧ answer (.memWr 4 0 0) State.reset = some ⟨5, []⟩ ∧
      faultOf (.memRd 0 0) State.reset = some (.unwrittenSample .inL 0) := by
  decide +kernel

/-- FIXED sample words: -0.5 in Q15, saturation, and a NaN (10_state.md R25). -/
theorem test_fixed_samples :
    let p : Params := { paramsTC with numeric := .fixed 16 15 }
    p.s2f 0xFFFFC000 = 0xBF000000 ∧ p.f2s 0x3F800000 = 0x7FFF ∧ p.f2s 0xBF800000 = 0xFFFF8000 ∧ p.f2s 0x7FC00000 = 0 := by
  decide +kernel

/-- Lines of the assembler (30_encoding.md R106 to R108). -/
theorem test_assemble :
    paramsTC.assemble "mem.wr outr, 0, 0x3f800000".toList = some (.memWr 3 0 0x3F800000) ∧
      paramsTC.assemble "rb.push L, c0, 1.0 ; a comment".toList = some (.rbPush .left .comb 0 0x3F800000) ∧
      paramsTC.assemble "bq.proc R, hp, -0.5e0".toList = some (.bqProc .right .bandpass 1 0xBF000000) ∧
      paramsTC.assemble "eng.csrw DECAY_MS, 1500.0".toList = some (.engCsrw 0x10 0x44BB8000) ∧
      paramsTC.assemble "eng.status".toList = some (.engCsrr 0) ∧ paramsTC.assemble "rb.push L, c0".toList = none := by
  decide +kernel

/-! ## Witnesses: each statement's hypotheses are met, each clause at a boundary -/

theorem running_ok : running.inv = true ∧ running.estate = .running := by decide +kernel

theorem small_ok : small.inv = true ∧ small.estate = .running := by decide +kernel

theorem witness_DecodeEncodeRoundTrip :
    (Instr.rbPush .right .allpass 63 0xFFFFFFFF).wf = true ∧ (Instr.memWr 63 65535 0).wf = true := by
  decide +kernel

theorem witness_EncodeDecodeRoundTrip : decode ⟨0x10FF0000, [7]⟩ = .ok (.rbPush .right .allpass 63 7) := by decide +kernel

theorem witness_DecodeFollowsOpcodeTable :
    ∃ r ∈ rows, (0x52001234 : Word) &&& r.mask = r.pattern ∧ r.count = 0 := by
  decide +kernel

theorem witness_StepRunsDecoded :
    let i : Instr := .engProcess 65535
    i.wf = true ∧ (State.reset.deliver (encode i)).link = encode i :: [] := by
  decide +kernel

theorem witness_ReservedEncodingsAreIllegal :
    (∀ t ∈ ([⟨0x16000000, []⟩, ⟨0x14000001, []⟩, ⟨0x14000000, [0]⟩] : List Transaction),
        ∀ r ∈ rows, ¬(t.cmd &&& r.mask = r.pattern ∧ t.ops.length = r.count)) ∧
      bits 0x00000000 31 28 = 0 ∧ 7 ≤ bits 0x70000000 31 28 ∧ 7 ≤ bits 0xFFFFFFFF 31 28 := by
  decide +kernel

theorem witness_OneResponsePerTransaction :
    step State.reset = .next State.reset ∧
      step (State.reset.deliver ⟨0x51000000, []⟩) = .next (State.reset.failed 0x02) :=
  ⟨rfl, rfl⟩

theorem witness_FailingCommandChangesNothing :
    let s := State.reset.failed 0x01
    step (State.reset.deliver ⟨0, []⟩) = .next s ∧
      step (s.deliver ⟨0x55000001, [9]⟩) = .next (({ s with errCode := 0 } : State).answered []) :=
  ⟨rfl, rfl⟩

theorem witness_StateAndIndexGateCommands :
    acceptedIn .uninit .engActivate = false ∧ acceptedIn .configured .engActivate = true ∧
      acceptedIn .configured (.engProcess 0) = false ∧ completes .engActivate (runFrom State.reset [.engConfig 1000]) = true ∧
      running.estate = .running ∧ namesInstance running.params (.rbStat .left .comb 8) = false ∧
      namesInstance running.params (.bqRdhist .left .bandpass 2) = false := by
  decide +kernel

theorem witness_EngineStateMoves :
    completes (.engConfig 1000) State.reset = true ∧ completes (.engConfig 0) State.reset = true := by
  decide +kernel

theorem witness_RecomputeCountCounts :
    State.reset.inv = true ∧ completes (.engConfig 1000) State.reset = true ∧ Recomputes (.engConfig 1000) State.reset ∧
      running.inv = true ∧ completes (.engProcess 0) running = true ∧ ¬Recomputes (.engProcess 0) running := by
  refine ⟨by decide +kernel, by decide +kernel, .inl ⟨1000, rfl, by decide +kernel⟩, running_ok.1, by decide +kernel, ?_⟩
  rintro (⟨fs, h, -⟩ | ⟨n, -, -, -, h⟩)
  · cases h
  · revert h; unfold ChangePending; decide +kernel

theorem witness_OnlyUnwrittenSamplesFault :
    exec (.engProcess 1) running = .fault (.unwrittenSample .inL 0) ∧
      exec (.memRd 3 15) running = .fault (.unwrittenSample .outR 15) :=
  ⟨exec_faultOf (by decide +kernel), exec_faultOf (by decide +kernel)⟩

theorem witness_ElaborationMeetsInvariant :
    ({ paramsTC with rbCap := 0 } : Params).wf = false ∧ paramsTC.wf = true ∧
      ({ paramsTC with cBright := .named true 0, dampBw := .named false 1 } : Params).wf = true ∧
      ({ paramsTC with kAp := .named true 0 } : Params).wf = false := by
  decide +kernel

theorem witness_StepKeepsInvariant :
    running.inv = true ∧ step (running.deliver ⟨0, []⟩) = .next (running.failed 0x01) :=
  ⟨running_ok.1, rfl⟩

theorem witness_StepKeepsHistoriesFlushed :
    running.inv = true ∧ running.flushed = true ∧ step (running.deliver ⟨0, []⟩) = .next (running.failed 0x01) :=
  ⟨running_ok.1, by decide +kernel, rfl⟩

/-- The first and the last ring of each kind. -/
theorem witness_RingPush :
    running.inv = true ∧ running.estate = .running ∧ running.params.hasRing .comb 0 = true ∧
      running.params.hasRing .allpass 7 = true := by
  decide +kernel

theorem witness_RingWrite :
    running.inv = true ∧ running.estate = .running ∧ running.params.hasRing .comb 7 = true := by
  decide +kernel

/-- Each clause of RB.SETLEN, at its boundary. -/
theorem witness_RingSetLength :
    running.inv = true ∧ running.estate = .running ∧ running.params.hasRing .allpass 0 = true ∧
      running.params.rbCap < (4097 : Word).toNat ∧ (1 : Word) ≠ 0 ∧ (4096 : Word).toNat ≤ running.params.rbCap := by
  decide +kernel

theorem witness_RingClear :
    running.inv = true ∧ running.estate = .running ∧ running.params.hasRing .allpass 7 = true := by
  decide +kernel

/-- A ring of length 2, three words, and the largest k that RB.READ may name. -/
theorem witness_RingIsFifo :
    running.inv = true ∧ running.estate = .running ∧ running.params.hasRing .comb 0 = true ∧
      (1 : Word).toNat < (running.ring .left .comb 0).len.toNat ∧ (1 : Word).toNat < [5, 6, 7].length := by
  decide +kernel

theorem witness_UnitReadsAnswer :
    running.estate = .running ∧ running.params.hasRing .comb 7 = true ∧ running.params.hasFilter .bandpass 1 = true ∧
      running.params.hasComb 7 = true ∧ running.params.hasAp 7 = true := by
  decide +kernel

theorem witness_BiquadProc :
    running.inv = true ∧ running.estate = .running ∧ running.params.hasFilter .damp 7 = true := by
  decide +kernel

theorem witness_BiquadResetAndLoad :
    running.inv = true ∧ running.estate = .running ∧ running.params.hasFilter .bandpass 0 = true := by
  decide +kernel

theorem toReal_pos {w : F32} (h : 0 < w.unitsZ) : 0 < w.toReal := div_pos (by exact_mod_cast h) (by positivity)

theorem toReal_lt_half {w : F32} {n : Nat} (h : 2 * w.unitsZ < (n : Int) * 2 ^ 149) : w.toReal < (n : ℝ) / 2 := by
  have h' : 2 * (w.unitsZ : ℝ) < (n : ℝ) * 2 ^ 149 := by exact_mod_cast h
  unfold F32.toReal
  rw [div_lt_div_iff₀ (by positivity) (by norm_num)]
  linarith

/-- The smallest cutoff the domain takes, and the largest below fs/2 = 500. -/
theorem domain_boundary :
    DesignDomain running.params 0x00000001 0x3F800000 1000 ∧ DesignDomain running.params 0x43F9FFFF 0x00000001 1000 :=
  ⟨⟨by decide +kernel, by decide +kernel, by decide +kernel, by decide +kernel, toReal_pos (by decide +kernel),
      toReal_lt_half (by decide +kernel), toReal_pos (by decide +kernel)⟩,
    ⟨by decide +kernel, by decide +kernel, by decide +kernel, by decide +kernel, toReal_pos (by decide +kernel),
      toReal_lt_half (by decide +kernel), toReal_pos (by decide +kernel)⟩⟩

theorem witness_PassDesigns :
    running.inv = true ∧ running.estate = .running ∧ running.params.hasFilter .damp 0 = true ∧
      DesignDomain running.params 0x43F9FFFF 0x00000001 1000 :=
  ⟨running_ok.1, running_ok.2, by decide +kernel, domain_boundary.2⟩

theorem witness_PeakingDesign :
    running.inv = true ∧ running.estate = .running ∧ running.params.hasFilter .bandpass 1 = true ∧
      DesignDomain running.params 0x00000001 0x3F800000 1000 ∧ F32.isFinite 0x7F7FFFFF = true ∧
      F32.isFinite 0x7F800000 = false :=
  ⟨running_ok.1, running_ok.2, by decide +kernel, domain_boundary.1, by decide, by decide⟩

/-- A rate of 0, a rate above FS_MAX, and a cutoff of exactly fs/2. -/
theorem witness_DesignDomainChecked :
    running.estate = .running ∧ running.params.hasFilter .damp 7 = true ∧ (0 : Word).toNat < 1 ∧
      running.params.fsMax < (192001 : Word).toNat ∧ (192000 : Word).toNat ≤ running.params.fsMax ∧
      ¬DesignDomain running.params 0x43FA0000 0x3F800000 1000 := by
  refine ⟨running_ok.2, by decide +kernel, by decide, by decide +kernel, by decide +kernel, ?_⟩
  rintro ⟨-, -, -, -, -, h, -⟩
  have hu : F32.unitsZ 0x43FA0000 = 500 * 2 ^ 149 := by decide +kernel
  rw [F32.toReal, hu] at h
  rw [show (1000 : Word).toNat = 1000 from rfl] at h
  norm_num at h

theorem witness_CombProc :
    running.inv = true ∧ running.estate = .running ∧ running.params.hasComb 7 = true := by
  decide +kernel

theorem witness_AllpassProc :
    running.inv = true ∧ running.estate = .running ∧ running.params.hasAp 7 = true := by
  decide +kernel

theorem witness_GainLoads :
    running.inv = true ∧ running.estate = .running ∧ running.params.hasComb 0 = true ∧ running.params.hasAp 0 = true := by
  decide +kernel

theorem stereoRatio_real : running.params.stereoRatio.toReal = 5 / 4 := by
  have h : running.params.stereoRatio = .exact ⟨5, 4⟩ := by decide +kernel
  rw [h]
  norm_num [RealParam.toReal, Ratio.toReal]

/-- The smallest and the largest delay that passes: 1 and 3277, which stereo enhancement takes to 1 and 4096. -/
theorem witness_LineConfig :
    running.inv = true ∧ running.estate = .running ∧ running.params.hasComb 0 = true ∧ running.params.hasAp 7 = true ∧
      (∀ d : Word, d = 1 ∨ d = 3277 → 1 ≤ d.toNat ∧ d.toNat ≤ running.params.rbCap ∧
        1 ≤ ⌊(d.toNat : ℝ) * running.params.stereoRatio.toReal⌋ ∧
        ⌊(d.toNat : ℝ) * running.params.stereoRatio.toReal⌋ ≤ running.params.rbCap) ∧
      F32.isFinite 0x00000001 = true ∧ 0 < F32.toReal 0x00000001 ∧
      DesignDomain running.params 0x00000001 0x3F800000 1000 := by
  have hc : running.params.rbCap = 4096 := by decide +kernel
  refine ⟨running_ok.1, running_ok.2, by decide +kernel, by decide +kernel, ?_, by decide, toReal_pos (by decide +kernel),
    domain_boundary.1⟩
  have h1 : ⌊((1 : Word).toNat : ℝ) * (5 / 4)⌋ = 1 := by
    rw [show (1 : Word).toNat = 1 from rfl]; norm_num [Int.floor_eq_iff]
  have h2 : ⌊((3277 : Word).toNat : ℝ) * (5 / 4)⌋ = 4096 := by
    rw [show (3277 : Word).toNat = 3277 from rfl]; norm_num [Int.floor_eq_iff]
  rintro d (rfl | rfl) <;> rw [stereoRatio_real, hc]
  · rw [h1]; decide
  · rw [h2]; decide

/-- The TC block with a stereo ratio of 1/2. -/
def halving : State :=
  runFrom (State.resetOf { paramsTC with stereoRatio := .exact ⟨1, 2⟩ }) [.engConfig 1000, .engActivate]

/-- An index that a comb alone has, one that both units have (witness_LineConfig has the operands that pass every check of
the line), and a value for each branch: delays 0, 4097, 1 at a ratio of 1/2, 3278 at 5/4, a NaN percent, a rate of 0, a cutoff of 0. -/
theorem witness_LineConfigChecks :
    running.inv = true ∧ running.estate = .running ∧ running.params.hasComb 7 = true ∧ running.params.hasAp 7 = true ∧
      (State.resetOf { paramsTC with maxAps := 7 }).params.hasAp 7 = false ∧ running.params.rbCap < (4097 : Word).toNat ∧ running.params.rbCap < ⌊((3278 : Word).toNat : ℝ) * running.params.stereoRatio.toReal⌋ ∧
      halving.inv = true ∧ halving.estate = .running ∧ ⌊((1 : Word).toNat : ℝ) * halving.params.stereoRatio.toReal⌋ = 0 ∧
      F32.isFinite 0x7FC00000 = false ∧ ¬DesignDomain running.params 0 0x3F800000 1000 := by
  have hc : running.params.rbCap = 4096 := by decide +kernel
  have hr : halving.params.stereoRatio = .exact ⟨1, 2⟩ := by decide +kernel
  refine ⟨running_ok.1, running_ok.2, by decide +kernel, by decide +kernel, by decide +kernel, by decide +kernel, ?_,
    by decide +kernel, by decide +kernel, ?_, by decide, ?_⟩
  · have h : ⌊((3278 : Word).toNat : ℝ) * (5 / 4)⌋ = 4097 := by
      rw [show (3278 : Word).toNat = 3278 from rfl]; norm_num [Int.floor_eq_iff]
    rw [stereoRatio_real, hc, h]; decide
  · rw [hr, Int.floor_eq_iff, show (1 : Word).toNat = 1 from rfl]; norm_num [RealParam.toReal, Ratio.toReal]
  · rintro ⟨-, -, -, -, h, -⟩
    rw [F32.toReal, show F32.unitsZ 0 = 0 by decide +kernel] at h
    norm_num at h

theorem mul_site {site : Site} {a b : F32} (ha : a.isFinite = true) (hb : b.isFinite = true) :
    F32.mul site a b = F32.mul [] a b := by
  have nn : ∀ w : F32, w.isFinite = true → w.isNaN = false ∧ w.isInf = false := by
    intro w h
    simp only [F32.isFinite, F32.isNaN, F32.isInf, decide_eq_true_eq, decide_eq_false_iff_not] at h ⊢
    omega
  simp [F32.mul, (nn a ha).1, (nn a ha).2, (nn b hb).1, (nn b hb).2]

/-- A comb of length 2 with the identity damping filter and a gain of 0.5, on an input of 1.0. -/
theorem witness_CombFirstEcho :
    echoing.inv = true ∧ echoing.estate = .running ∧ echoing.params.hasComb 0 = true ∧
      (∀ a, (echoing.comb .left 0).ring.stor.read a = 0) ∧ (echoing.comb .left 0).last = 0 ∧
      (echoing.comb .left 0).damp.x1 = 0 ∧ (echoing.comb .left 0).damp.x2 = 0 ∧ (echoing.comb .left 0).damp.y1 = 0 ∧
      (echoing.comb .left 0).damp.y2 = 0 ∧ (echoing.comb .left 0).damp.finiteCoefs = true ∧
      (echoing.comb .left 0).g.isFinite = true ∧ [(0 : Word)].length + 1 = (echoing.comb .left 0).ring.len.toNat ∧
      ∀ site, (F32.mul site (echoing.comb .left 0).g (echoing.params.s2f 0x3F800000)).isNaN = false ∧
        (F32.mul site (echoing.comb .left 0).g (echoing.params.s2f 0x3F800000)).isZero = false := by
  have hs : (echoing.comb .left 0).ring.stor = RingStore.cleared := by decide +kernel
  refine ⟨by decide +kernel, by decide +kernel, by decide +kernel, fun a => by rw [hs]; rfl, by decide +kernel,
    by decide +kernel, by decide +kernel, by decide +kernel, by decide +kernel, by decide +kernel, by decide +kernel,
    by decide +kernel, fun site => ?_⟩
  rw [mul_site (by decide +kernel) (by decide +kernel)]
  decide +kernel

/-- At 1 Hz the one comb of the ROM has length 0. -/
theorem witness_ConfigReportsFirstFailure :
    State.reset.inv = true ∧ State.reset.params.fsMax < (192001 : Word).toNat ∧ (1 : Word) ≠ 0 ∧
      0 < State.reset.params.numModes ∧ State.reset.params.modeCheck 1 0 = some .invalidDelay ∧
      (State.resetOf smallParams).inv = true ∧ smallParams.modeCheck 600 0 = some .invalidDelay := by
  decide +kernel

/-- The record TC with another comb count, upper bandpass cutoff and percent in its ROM. -/
def withRom (nComb bpHigh pct : Word) : Params :=
  { paramsTC with rom := [nComb, 0, 0x42C80000, bpHigh, 0x40000000, pct] ++ paramsTC.rom.drop 6 }

/-- The codes of the five checks of ValidMode (20_memory.md R74). -/
theorem test_modeCheck_codes :
    (withRom 9 0x43C80000 0x42960000).modeCheck 1000 0 = some .presetInvalid ∧ (withRom 1 0x43C80000 0).modeCheck 1000 0 = some .presetInvalid ∧
      paramsTC.modeCheck 1 0 = some .invalidDelay ∧
      ({ paramsTC with rbCap := 4 } : Params).modeCheck 2000 0 = some .capacity ∧
      (withRom 1 0x43FA0000 0x42960000).modeCheck 1000 0 = some .badParam ∧ paramsTC.modeCheck 1000 0 = none := by
  decide +kernel

/-- The four lengths of the one comb of the record TC, whose delay is 2 ms and whose stereo ratio is 5/4. -/
theorem realLengths_TC {p : Params} (fs : Nat) {base scaled : ℤ} (hn : (p.nComb 0).toNat = 1) (ha : (p.nAp 0).toNat = 0)
    (hd : (p.combDelay 0 0).unitsZ = 2 * 2 ^ 149) (hr : p.stereoRatio = .exact ⟨5, 4⟩) (hb : ⌊(2 : ℝ) * fs / 1000⌋ = base)
    (h0 : 0 ≤ base) (hs : ⌊(base : ℝ) * (5 / 4)⌋ = scaled) : realLengths p fs 0 = [base, base, base, scaled] := by
  have h2 : (p.combDelay 0 0).toReal = 2 := by rw [F32.toReal, hd]; norm_num
  have hbn : ((base.toNat : ℕ) : ℝ) = (base : ℝ) := by exact_mod_cast Int.toNat_of_nonneg h0
  simp [realLengths, realLineLengths, realStereoLen, hn, ha, h2, hb, hr, RealParam.toReal, Ratio.toReal, hbn, hs, h0]

/-- Each clause at a boundary: nine combs where eight fit and a percent of 0; a length of 0 at 1 Hz; at 2000 Hz with a
capacity of 4, three lengths of 4 and then 5; a bandpass cutoff of exactly fs/2 at 1000 Hz; and a mode that is valid. -/
theorem witness_ValidModeMeaning :
    (withRom 9 0x43C80000 0x42960000).realsOk = true ∧ ¬CountsOk (withRom 9 0x43C80000 0x42960000) 0 ∧ CountsOk (withRom 1 0x43C80000 0) 0 ∧
      ¬DescriptorsOk (withRom 1 0x43C80000 0) 0 ∧ paramsTC.realsOk = true ∧ CountsOk paramsTC 0 ∧ DescriptorsOk paramsTC 0 ∧
      192000 ≤ paramsTC.fsMax ∧ realLengths paramsTC 1 0 = [] ++ 0 :: [0, 0, 0] ∧
      realLengths { paramsTC with rbCap := 4 } 2000 0 = [4, 4, 4] ++ 5 :: [] ∧
      realLengths (withRom 1 0x43FA0000 0x42960000) 1000 0 = [2, 2, 2, 2] ∧
      ¬CutoffsOk (withRom 1 0x43FA0000 0x42960000) 1000 0 ∧ paramsTC.modeCheck 1000 0 = none := by
  refine ⟨by decide +kernel, by unfold CountsOk; decide +kernel, by unfold CountsOk; decide +kernel, ?_, by decide +kernel,
    by unfold CountsOk; decide +kernel, ⟨?_, ?_⟩, by decide +kernel, ?_, ?_, ?_, ?_, by decide +kernel⟩
  · intro h
    have h0 := (h.1 0 (by decide +kernel)).2.2.2.2.1
    rw [show (withRom 1 0x43C80000 0).combPct 0 0 = 0 by decide +kernel, F32.toReal, show F32.unitsZ 0 = 0 by decide +kernel] at h0
    norm_num at h0
  · intro i hi
    obtain rfl : i = 0 := by
      rw [show (paramsTC.nComb 0).toNat = 1 by decide +kernel] at hi; omega
    have hb : F32.toReal (paramsTC.combBright 0 0) = 1 / 2 := by
      rw [F32.toReal, show (paramsTC.combBright 0 0).unitsZ = 2 ^ 148 by decide +kernel]; norm_num
    refine ⟨by decide +kernel, by decide +kernel, by decide +kernel, toReal_pos (by decide +kernel),
      toReal_pos (by decide +kernel), ?_, ?_⟩ <;> rw [hb] <;> norm_num
  · intro j hj
    rw [show (paramsTC.nAp 0).toNat = 0 by decide +kernel] at hj
    omega
  · exact realLengths_TC 1 (by decide +kernel) (by decide +kernel) (by decide +kernel) rfl
      (by norm_num [Int.floor_eq_iff]) le_rfl (by norm_num [Int.floor_eq_iff])
  · exact realLengths_TC 2000 (by decide +kernel) (by decide +kernel) (by decide +kernel) rfl
      (by norm_num [Int.floor_eq_iff]) (by norm_num) (by norm_num [Int.floor_eq_iff])
  · exact realLengths_TC 1000 (by decide +kernel) (by decide +kernel) (by decide +kernel) rfl
      (by norm_num [Int.floor_eq_iff]) (by norm_num) (by norm_num [Int.floor_eq_iff])
  · rintro ⟨-, h, -⟩
    have h0 := h.2.2
    rw [F32.toReal, show ((withRom 1 0x43FA0000 0x42960000).bpHighHz 0).unitsZ = 500 * 2 ^ 149 by decide +kernel] at h0
    norm_num at h0

theorem witness_ConfigSetsEngine : State.reset.inv = true ∧ State.reset.params.configCheck 192000 = none := by decide +kernel

theorem witness_ConfigSetsCombs :
    small.inv = true ∧ small.params.configCheck 1000 = none ∧ 1 < small.params.maxCombs ∧
      ¬1 < (small.params.romAt small.mode.toNat 0).toNat := by
  decide +kernel

theorem witness_ConfigSetsAllpasses :
    small.inv = true ∧ small.params.configCheck 1000 = none ∧ 0 < (small.params.romAt small.mode.toNat 1).toNat := by
  decide +kernel

theorem witness_ActivateSilences :
    (runFrom State.reset [.engConfig 1000]).inv = true ∧ (runFrom State.reset [.engConfig 1000]).estate ≠ .uninit ∧
      running.inv = true ∧ running.estate ≠ .uninit := by
  decide +kernel

theorem witness_CsrReads : State.reset.inv = true ∧ running.inv = true := by decide +kernel

/-- Each clause of ENG.CSRW that has a hypothesis, at its boundary. -/
theorem witness_CsrWrites :
    (0 : Word).toNat < State.reset.params.numModes ∧ State.reset.params.numModes ≤ (1 : Word).toNat ∧
      (∀ a ∈ [0x0002, 0x000A, 0x0020, 0x0024], 0x0002 ≤ a ∧ a ≤ 0x000A ∨ 0x0020 ≤ a ∧ a ≤ 0x0024) ∧
      ∀ a ∈ [0x000B, 0x000F, 0x0015, 0x001F, 0x0025, 0xFFFF],
        ¬(a ≤ 0x000A ∨ 0x0010 ≤ a ∧ a ≤ 0x0014 ∨ 0x0020 ≤ a ∧ a ≤ 0x0024) := by
  decide +kernel

/-- Both input banks of the small block written, and every gain and coefficient in use set. -/
def silent : State :=
  runFrom small
    ([Chan.left, Chan.right].flatMap (fun ch =>
        [.bqLdcoef ch .damp 0 0x3F800000 0 0 0 0, .bqLdcoef ch .bandpass 0 0x3F800000 0 0 0 0,
          .bqLdcoef ch .bandpass 1 0x3F800000 0 0 0 0, .cfSetg ch 0 0x3F000000, .apSetg ch 0 0x3F000000 0x3F000000]) ++
      [.memWr 0 0 0, .memWr 0 1 0, .memWr 1 0 0, .memWr 1 1 0])

theorem silent_ok : silent.inv = true ∧ silent.estate = .running := by decide +kernel

/-- A block of BLOCK_MAX words that are all written, and one more than BLOCK_MAX. -/
theorem witness_ProcessCompletes :
    silent.inv = true ∧ silent.estate = .running ∧ silent.params.blockMax < 3 ∧ 2 ≤ silent.params.blockMax ∧
      ∀ k, k < 2 → silent.readBank .inL k ≠ none ∧ silent.readBank .inR k ≠ none := by
  decide +kernel

/-- The small block with sample 0 written on both channels and sample 1 on the left alone. -/
def half : State := runFrom small [.memWr 0 0 7, .memWr 1 0 7, .memWr 0 1 7]

/-- IN_L unwritten at 0; IN_R alone unwritten at 1. -/
theorem witness_ProcessFaultsOnUnwritten :
    small.estate = .running ∧ 1 ≤ small.params.blockMax ∧ small.readBank .inL 0 = none ∧
      half.estate = .running ∧ 2 ≤ half.params.blockMax ∧
      (∀ j, j < 1 → half.readBank .inL j ≠ none ∧ half.readBank .inR j ≠ none) ∧
      half.readBank .inL 1 ≠ none ∧ half.readBank .inR 1 = none := by
  decide +kernel

theorem witness_ProcessRunsSampleSteps :
    silent.inv = true ∧ silent.estate = .running ∧ 2 ≤ silent.params.blockMax ∧
      ∀ k, k < 2 → silent.readBank .inL k = some ((fun _ => 0) k) ∧ silent.readBank .inR k = some ((fun _ => 0) k) := by
  decide +kernel

theorem witness_NoChangeNoRecompute : small.inv = true ∧ small.estate = .running ∧ ¬ChangePending small := by
  unfold ChangePending
  decide +kernel

/-- STEREO_EN set since the last recompute. -/
theorem witness_ChangeRecomputesLines :
    let s := runFrom small [.engCsrw 0x13 8]
    s.inv = true ∧ s.estate = .running ∧ s.mode = s.cacheM ∧ ChangePending s := by
  unfold ChangePending
  decide +kernel

/-- MODE written since the last reload. -/
theorem witness_ModeSwitchReloads :
    let s := runFrom small [.engCsrw 0x14 1]
    s.inv = true ∧ s.estate = .running ∧ s.mode ≠ s.cacheM := by
  decide +kernel

/-- Two states that differ in a gain of channel R, and two that differ in one of channel L. -/
theorem witness_ChannelsAreIndependent :
    let s := silent
    let r := runFrom silent [.cfSetg .right 0 0]
    let l := runFrom silent [.cfSetg .left 0 0]
    (∃ t, exec (.engProcess 2) s = .next t) ∧ (∃ t, exec (.engProcess 2) r = .next t) ∧
      (∃ t, exec (.engProcess 2) l = .next t) ∧ AgreeOnLeft s r ∧ AgreeOnRight s l := by
  refine ⟨⟨_, exec_runFrom (by decide +kernel)⟩, ⟨_, exec_runFrom (by decide +kernel)⟩,
    ⟨_, exec_runFrom (by decide +kernel)⟩, ⟨⟨?_, ?_, ?_, ?_, ?_, ?_, ?_, ?_, ?_, ?_, ?_, ?_, ?_, ?_, ?_, ?_⟩, ?_, ?_, ?_, ?_⟩,
    ⟨⟨?_, ?_, ?_, ?_, ?_, ?_, ?_, ?_, ?_, ?_, ?_, ?_, ?_, ?_, ?_, ?_⟩, ?_, ?_, ?_, ?_⟩⟩ <;> decide +kernel

theorem silent_gains : silent.chL.finiteGains ∧ silent.chR.finiteGains := by
  have hL : ∀ a ∈ silent.chL.aps, a.g.isFinite = true ∧ a.gin.isFinite = true ∧ (F32.mul [] a.gin a.g).isFinite = true := by
    decide +kernel
  have hR : ∀ a ∈ silent.chR.aps, a.g.isFinite = true ∧ a.gin.isFinite = true ∧ (F32.mul [] a.gin a.g).isFinite = true := by
    decide +kernel
  refine ⟨⟨by decide +kernel, fun a ha => ⟨(hL a ha).1, fun site => ?_⟩, by decide +kernel, by decide +kernel⟩,
    ⟨by decide +kernel, fun a ha => ⟨(hR a ha).1, fun site => ?_⟩, by decide +kernel, by decide +kernel⟩⟩
  · rw [mul_site (hL a ha).2.1 (hL a ha).1]; exact (hL a ha).2.2
  · rw [mul_site (hR a ha).2.1 (hR a ha).1]; exact (hR a ha).2.2

theorem witness_SilenceInSilenceOut :
    silent.inv = true ∧ silent.estate ≠ .uninit ∧ ¬ChangePending silent ∧ silent.chL.finiteGains ∧ silent.chR.finiteGains ∧
      silent.dryGain.isFinite = true ∧ silent.dryGain.sign = false ∧ silent.wetGain.isFinite = true ∧
      silent.wetGain.sign = false ∧ 2 ≤ silent.params.blockMax ∧
      ∀ k, k < 2 → silent.readBank .inL k = some 0 ∧ silent.readBank .inR k = some 0 :=
  ⟨silent_ok.1, by decide +kernel, by unfold ChangePending; decide +kernel, silent_gains.1, silent_gains.2,
    by decide +kernel, by decide +kernel, by decide +kernel, by decide +kernel, by decide +kernel, by decide +kernel⟩

/-- The last word of a bank, written and not; the first address past it; the last word of the ROM and the first past it. -/
theorem witness_MemReads :
    running.inv = true ∧ running.params.blockMax = 16 ∧ running.readBank .inL 15 = none ∧
      (runFrom running [.memWr 0 15 9]).inv = true ∧ (runFrom running [.memWr 0 15 9]).readBank .inL 15 = some 9 ∧
      43 < running.params.rom.length ∧ running.params.rom.length ≤ 44 := by
  decide +kernel

theorem witness_MemWrites :
    running.inv = true ∧ 15 < running.params.blockMax ∧ running.params.blockMax ≤ 16 ∧ 43 < running.params.rom.length ∧
      running.params.rom.length ≤ 44 := by
  decide +kernel

/-- 1.0 and 0.5: the sum, the difference and the product are not 0. -/
theorem witness_ArithmeticRoundsExactly :
    F32.isFinite 0x3F800000 = true ∧ F32.isFinite 0x3F000000 = true ∧
      F32.toReal 0x3F800000 + F32.toReal 0x3F000000 ≠ 0 ∧ F32.toReal 0x3F800000 - F32.toReal 0x3F000000 ≠ 0 ∧
      F32.toReal 0x3F800000 * F32.toReal 0x3F000000 ≠ 0 := by
  have h1 : F32.unitsZ 0x3F800000 = 2 ^ 149 := by decide +kernel
  have h2 : F32.unitsZ 0x3F000000 = 2 ^ 148 := by decide +kernel
  refine ⟨by decide, by decide, ?_, ?_, ?_⟩ <;> rw [F32.toReal, F32.toReal, h1, h2] <;> norm_num

theorem witness_NanIsContagious :
    F32.isNaN 0x7F800001 = true ∧ F32.isInf 0xFF800000 = true ∧ F32.sign 0xFF800000 = F32.sign 0xFF800000 ∧
      F32.isZero 0x80000000 = true ∧ F32.isInf 0x7F800000 = true := by
  decide

/-- The largest subnormal of each sign, and the smallest normal number. -/
theorem witness_FlushToZero :
    (∀ v : F32, v = 0x007FFFFF ∨ v = 0x807FFFFF → v.isFinite = true ∧ v.toReal ≠ 0 ∧ |v.toReal| < 1 / 2 ^ 126) ∧
      1 / 2 ^ 126 ≤ |F32.toReal 0x00800000| := by
  have h1 : F32.unitsZ 0x007FFFFF = 8388607 := by decide +kernel
  have h2 : F32.unitsZ 0x807FFFFF = -8388607 := by decide +kernel
  have h3 : F32.unitsZ 0x00800000 = 8388608 := by decide +kernel
  constructor
  · rintro v (rfl | rfl)
    · refine ⟨by decide, ?_, ?_⟩ <;> rw [F32.toReal, h1] <;> norm_num [abs_div]
    · refine ⟨by decide, ?_, ?_⟩ <;> rw [F32.toReal, h2] <;> norm_num [abs_div]
  · rw [F32.toReal, h3]; norm_num [abs_div]

/-- A FLOAT build, and FIXED builds at both ends of the format's range, on a NaN, an infinity and a finite value. -/
theorem witness_SampleConversions :
    (paramsTC.wf = true ∧ paramsTC.numeric = .float) ∧
      (∀ q ∈ [(2, 0), (2, 1), (32, 0), (32, 31)],
        ({ paramsTC with numeric := .fixed q.1 q.2 } : Params).wf = true) ∧
      F32.isNaN 0xFFC00000 = true ∧ F32.isInf 0xFF800000 = true ∧ F32.isFinite 0xFF7FFFFF = true := by
  decide +kernel

/-- The TC block right after reset with a word in DECAY_MS. -/
def withDecay (w : Word) : State := { State.reset with decayMs := w }

/-- DECAY_MS a NaN, just below DECAY_MIN, at it, inside, at DECAY_MAX and just above it; a level at each bound. -/
theorem witness_ControlsAreClamped :
    (∀ w : Word, (withDecay w).inv = true ∧ (withDecay w).decayMs = w ∧ (withDecay w).params = paramsTC) ∧
      F32.isNaN 0x7FC00000 = true ∧
      (F32.le 0x42C7FFFF paramsTC.decayMin = true ∧ F32.le 0x42C80000 paramsTC.decayMin = true) ∧
      (F32.le paramsTC.decayMax 0x461C4001 = true ∧ F32.le paramsTC.decayMax 0x461C4000 = true) ∧
      (F32.le paramsTC.decayMin 0x42C80000 = true ∧ F32.le 0x42C80000 paramsTC.decayMax = true) ∧
      (F32.le paramsTC.decayMin 0x461C3FFF = true ∧ F32.le 0x461C3FFF paramsTC.decayMax = true) ∧
      (F32.le paramsTC.decayMin 0x461C4000 = true ∧ F32.le 0x461C4000 paramsTC.decayMax = true) ∧
      F32.lt 0xFF800000 paramsTC.levelMin = true ∧ F32.lt paramsTC.levelMax 0x7F800000 = true ∧
      F32.lt paramsTC.levelMin 0x80000000 = true ∧ F32.lt 0x80000000 paramsTC.levelMax = true ∧
      F32.le paramsTC.levelMin paramsTC.levelMin = true ∧ F32.le paramsTC.levelMax 0x41200000 = true ∧
      F32.isZero 0x80000000 = true :=
  ⟨fun w => ⟨(by decide +kernel : State.reset.inv = true), rfl, rfl⟩, by decide +kernel⟩

theorem witness_DecimalLiteralsRound : (1 : Nat) ≠ 0 ∧ decimalToF32 true 5 (-1) = 0xBF000000 := by decide +kernel

/-- Lines as the spec writes them, printed (30_encoding.md R106, R108). -/
theorem test_lines :
    commandLine true (.memWr 3 0 0x3F800000) = "mem.wr outr, 0x0, 0x3f800000".toList ∧
      commandLine false (.memRd 0 5) = "mem.rd inl, 5".toList ∧
      commandLine false (.rbRead .left .allpass 12 3) = "rb.read L, a12, 3".toList ∧
      commandLine false (.bqReset .right .bandpass 1) = "bq.reset R, hp".toList ∧
      commandLine false (.cfRdstate .left 7) = "cf.rdstate L, 7".toList ∧
      commandLine true (.engProcess 16) = "eng.process 0x10".toList ∧
      commandLine false (.engCsrw 0x0014 1) = "eng.csrw MODE, 1".toList ∧
      pseudoLine false (.rbPeek .right .allpass 63) = "rb.peek R, a63".toList ∧
      pseudoLine false .engStatus = "eng.status".toList := by
  decide +kernel

/-- The last index, the last space and its last address, and a line with a comment. -/
theorem witness_AssemblerLines :
    (Instr.wf (.bqReset .left .bandpass 1) = true ∧ commandHasLine (.bqReset .left .bandpass 1) = true) ∧
      (Instr.wf (.memRd 4 65535) = true ∧ commandHasLine (.memRd 4 65535) = true) ∧ 63 < 64 ∧
      paramsTC.assemble "rb.peek R, a63 ; the newest word".toList = some (.rbRead .right .allpass 63 0) ∧
      paramsTC.assemble "eng.process 0x10".toList = some (.engProcess 16) := by
  decide +kernel

end Sys2Proof.Tests
end

section
/-! SUPPORT. The arithmetic of 00_scope.md R15 against the reals, its NaNs, and elaboration (00_scope.md R11): O15, O54, O55. -/

namespace Sys2Proof

/-! ## Fields of a word built by `neg` -/

/-- fsub negates its second operand, which flips the sign bit and nothing else (00_scope.md R15). -/
@[simp] theorem F32.mag_neg (w : F32) : w.neg.mag = w.mag := by
  rw [F32.mag, F32.neg, BitVec.toNat_xor, Nat.xor_mod_two_pow]
  exact Nat.xor_zero _

theorem F32.sign_eq_msb (w : F32) : w.sign = w.msb := (BitVec.msb_eq_decide w).symm

@[simp] theorem F32.sign_neg (w : F32) : w.neg.sign = !w.sign := by
  rw [F32.sign_eq_msb, F32.sign_eq_msb, F32.neg, BitVec.msb_xor]
  exact Bool.xor_true _

@[simp] theorem F32.isNaN_neg (w : F32) : w.neg.isNaN = w.isNaN := by simp [F32.isNaN]

@[simp] theorem F32.isInf_neg (w : F32) : w.neg.isInf = w.isInf := by simp [F32.isInf]

@[simp] theorem F32.isFinite_neg (w : F32) : w.neg.isFinite = w.isFinite := by simp [F32.isFinite]

@[simp] theorem F32.units_neg (w : F32) : w.neg.units = w.units := by
  simp [F32.units, F32.expField, F32.frac]

@[simp] theorem F32.unitsZ_neg (w : F32) : w.neg.unitsZ = -w.unitsZ := by
  cases h : w.sign <;> simp [F32.unitsZ, h]

@[simp] theorem F32.toReal_neg (w : F32) : w.neg.toReal = -w.toReal := by
  simp [F32.toReal, neg_div]

/-! ## NaNs -/

theorem F32.mag_or (v w : F32) : F32.mag (v ||| w) = v.mag ||| w.mag := by
  rw [F32.mag, BitVec.toNat_or, Nat.or_mod_two_pow]
  rfl

/-- Setting every exponent bit of a word whose fraction is not 0 gives a NaN. -/
theorem F32.isNaN_or_infinity {w : F32} (h : w.frac ≠ 0) : F32.isNaN (w ||| 0x7F800000) = true := by
  have hmag : F32.mag (w ||| 0x7F800000) = w.mag ||| F32.infMag := F32.mag_or w 0x7F800000
  have hle : F32.infMag ≤ w.mag ||| F32.infMag := Nat.right_le_or
  have hne : w.mag ||| F32.infMag ≠ F32.infMag := by
    intro heq
    have hfrac : (w.mag ||| F32.infMag) % 2 ^ 23 = w.frac := by
      rw [Nat.or_mod_two_pow]
      exact Nat.or_zero _
    rw [heq] at hfrac
    exact h hfrac.symm
  rw [F32.isNaN, hmag, decide_eq_true_eq]
  omega

/-- The free NaN is a NaN, whatever word is drawn (93_implementation_defined.md 1.9). -/
@[simp] theorem F32.isNaN_freeNaN (site : Site) : (F32.freeNaN site).isNaN = true := by
  rw [F32.freeNaN]
  by_cases h : F32.frac (Config.freeWord site) = 0
  · simp only [if_pos h, F32.isNaN, F32.mag_or, decide_eq_true_eq]
    exact Nat.lt_of_lt_of_le (by decide : F32.infMag < F32.mag 0x7F800001) Nat.right_le_or
  · simp only [if_neg h]
    exact F32.isNaN_or_infinity h

theorem F32.isNaN_eq_false_of_isInf {w : F32} (h : w.isInf = true) : w.isNaN = false := by
  simp only [F32.isInf, F32.isNaN, decide_eq_true_eq, decide_eq_false_iff_not] at *
  omega

theorem F32.add_of_isNaN (site : Site) {a b : F32} (h : a.isNaN = true ∨ b.isNaN = true) :
    F32.add site a b = F32.freeNaN site := by
  rw [F32.add, if_pos (by simpa using h)]

theorem F32.sub_of_isNaN (site : Site) {a b : F32} (h : a.isNaN = true ∨ b.isNaN = true) :
    F32.sub site a b = F32.freeNaN site :=
  F32.add_of_isNaN site (by simpa using h)

theorem F32.mul_of_isNaN (site : Site) {a b : F32} (h : a.isNaN = true ∨ b.isNaN = true) :
    F32.mul site a b = F32.freeNaN site := by
  rw [F32.mul, if_pos (by simpa using h)]

/-- `inf - inf` and its mirror: two infinities of opposite signs have no sum. -/
theorem F32.add_of_opposite_infinities (site : Site) {a b : F32} (ha : a.isInf = true) (hb : b.isInf = true)
    (hs : a.sign ≠ b.sign) : F32.add site a b = F32.freeNaN site := by
  simp [F32.add, F32.isNaN_eq_false_of_isInf ha, F32.isNaN_eq_false_of_isInf hb, ha, hb, hs]

theorem F32.mul_of_zero_infinity (site : Site) {a b : F32} (h : a.isInf = true ∨ b.isInf = true)
    (h0 : a.isZero = true ∨ b.isZero = true) : F32.mul site a b = F32.freeNaN site := by
  simp [F32.mul, h, h0]

/-- Settles O55: in each case the operation answers the free NaN. -/
theorem nanIsContagious : Obligations.NanIsContagious := by
  intro site a b
  refine ⟨fun h => ?_, fun ha hb hs => ?_, fun h0 hb => ?_⟩
  · simp only [F32.add_of_isNaN site h, F32.sub_of_isNaN site h, F32.mul_of_isNaN site h, F32.isNaN_freeNaN, and_self]
  · rw [F32.sub, F32.add_of_opposite_infinities site ha (by simpa using hb) (by simp [hs])]
    exact F32.isNaN_freeNaN site
  · rw [F32.mul_of_zero_infinity site (.inr hb) (.inl h0), F32.mul_of_zero_infinity site (.inl hb) (.inr h0)]
    exact ⟨F32.isNaN_freeNaN site, F32.isNaN_freeNaN site⟩

/-! ## Rounding: the integer arithmetic of `roundMag` is the rounding of the real it stands for -/

/-- The integer and the real rounding to nearest even agree on `m / 2^d` (00_scope.md R15). -/
theorem roundHalfEvenReal_div (m d : ℕ) : roundHalfEvenReal ((m : ℝ) / 2 ^ d) = roundHalfEven m d := by
  have hpow : (0 : ℝ) < 2 ^ d := by positivity
  have hfloor : ⌊(m : ℝ) / 2 ^ d⌋ = (m / 2 ^ d : ℕ) := by
    simpa using Int.floor_div_natCast (k := ℝ) (m : ℝ) (2 ^ d)
  have hfract : Int.fract ((m : ℝ) / 2 ^ d) = (m % 2 ^ d : ℕ) / 2 ^ d := by
    simpa using Int.fract_div_natCast_eq_div_natCast_mod (k := ℝ) (m := m) (n := 2 ^ d)
  have hbelow : Int.fract ((m : ℝ) / 2 ^ d) < 1 / 2 ↔ 2 * (m % 2 ^ d) < 2 ^ d := by
    rw [hfract, div_lt_div_iff₀ hpow two_pos, one_mul, mul_comm]
    exact_mod_cast Iff.rfl
  have habove : 1 / 2 < Int.fract ((m : ℝ) / 2 ^ d) ↔ 2 ^ d < 2 * (m % 2 ^ d) := by
    rw [hfract, div_lt_div_iff₀ two_pos hpow, one_mul, mul_comm]
    exact_mod_cast Iff.rfl
  simp only [roundHalfEvenReal, roundHalfEven, hbelow, habove, hfloor]
  split_ifs <;> push_cast <;> rfl

/-- The binary exponent of a real counted in units of `2^-k`. -/
theorem intLog_div {m : ℕ} (hm : m ≠ 0) (k : ℕ) : Int.log 2 ((m : ℝ) / 2 ^ k) = (Nat.log2 m : ℤ) - k := by
  have hpos : (0 : ℝ) < (m : ℝ) / 2 ^ k := by positivity
  have hscale : ∀ e : ℤ, (2 : ℝ) ^ (e - k) = 2 ^ e / 2 ^ k := fun e => by
    rw [zpow_sub₀ two_ne_zero, zpow_natCast]
  apply le_antisymm
  · have hlt : (m : ℝ) < 2 ^ (Nat.log2 m + 1) := by exact_mod_cast Nat.lt_log2_self
    have hexp : (Nat.log2 m : ℤ) - k + 1 = ((Nat.log2 m + 1 : ℕ) : ℤ) - k := by push_cast; ring
    rw [← Int.lt_add_one_iff, ← Int.lt_zpow_iff_log_lt one_lt_two hpos, hexp, Nat.cast_ofNat, hscale, zpow_natCast]
    gcongr
  · have hle : (2 : ℝ) ^ Nat.log2 m ≤ m := by exact_mod_cast Nat.log2_self_le hm
    rw [← Int.zpow_le_iff_le_log one_lt_two hpos, Nat.cast_ofNat, hscale, zpow_natCast]
    gcongr

/-- The last bit kept of `m · 2^-(149+sh)`: `roundMag` drops `d` bits and so keeps down to `2^(d-sh-149)`. -/
theorem lastPlace_of_abs {x : ℝ} {m sh : ℕ} (hm : m ≠ 0) (hx : |x| = (m : ℝ) / 2 ^ (149 + sh)) :
    lastPlace x = (max sh (Nat.log2 m - 23) : ℕ) - (sh : ℤ) - 149 := by
  rw [lastPlace, hx, intLog_div hm]
  omega

/-- What `roundMag` computes is the rounding of the real of magnitude `m · 2^-(149+sh)` (00_scope.md R15). -/
theorem roundReal_of_abs {x : ℝ} {m sh : ℕ} (hm : m ≠ 0) (hx : |x| = (m : ℝ) / 2 ^ (149 + sh)) :
    roundReal x = F32.ofMag (decide (x < 0)) (roundMag m sh) := by
  have hx0 : x ≠ 0 := abs_pos.1 (hx ▸ by positivity)
  rw [roundReal, if_neg hx0, roundMag, lastPlace_of_abs hm hx, hx]
  generalize hd : max sh (Nat.log2 m - 23) = d
  have hsh : sh ≤ d := hd ▸ le_max_left ..
  have hscaled : (m : ℝ) / 2 ^ (149 + sh) / (2 : ℝ) ^ ((d : ℤ) - sh - 149) = m / 2 ^ d := by
    rw [div_div, ← zpow_natCast, ← zpow_add₀ two_ne_zero, ← zpow_natCast]
    congr 2
    push_cast
    ring
  rw [hscaled, roundHalfEvenReal_div]
  congr 2
  zify [hsh]
  omega

/-! ## Sums and products of finite words -/

theorem F32.isNaN_eq_false_of_isFinite {w : F32} (h : w.isFinite = true) : w.isNaN = false := by
  simp only [F32.isFinite, F32.isNaN, decide_eq_true_eq, decide_eq_false_iff_not] at *
  omega

theorem F32.isInf_eq_false_of_isFinite {w : F32} (h : w.isFinite = true) : w.isInf = false := by
  simp only [F32.isFinite, F32.isInf, decide_eq_true_eq, decide_eq_false_iff_not] at *
  omega

/-- fadd of finite operands with an exact sum other than 0. -/
theorem F32.add_of_isFinite (site : Site) {a b : F32} (ha : a.isFinite = true) (hb : b.isFinite = true)
    (hz : a.unitsZ + b.unitsZ ≠ 0) :
    F32.add site a b =
      F32.ofMag (decide (a.unitsZ + b.unitsZ < 0)) (roundMag (a.unitsZ + b.unitsZ).natAbs 0) := by
  simp [F32.add, F32.isNaN_eq_false_of_isFinite, F32.isInf_eq_false_of_isFinite, ha, hb, hz]

theorem F32.mul_of_isFinite (site : Site) {a b : F32} (ha : a.isFinite = true) (hb : b.isFinite = true) :
    F32.mul site a b = F32.ofMag (a.sign != b.sign) (roundMag (a.units * b.units) 149) := by
  simp [F32.mul, F32.isNaN_eq_false_of_isFinite, F32.isInf_eq_false_of_isFinite, ha, hb]

theorem F32.toReal_add (a b : F32) : a.toReal + b.toReal = ((a.unitsZ + b.unitsZ : ℤ) : ℝ) / 2 ^ 149 := by
  rw [F32.toReal, F32.toReal, ← add_div, Int.cast_add]

/-- The exact product of two words in units of `2^-298`: the sign bits decide its sign. -/
theorem F32.toReal_mul (a b : F32) :
    a.toReal * b.toReal =
      if a.sign != b.sign then -(((a.units * b.units : ℕ) : ℝ) / 2 ^ (149 + 149))
      else ((a.units * b.units : ℕ) : ℝ) / 2 ^ (149 + 149) := by
  rw [F32.toReal, F32.toReal, div_mul_div_comm, ← pow_add]
  cases ha : a.sign <;> cases hb : b.sign <;> simp [F32.unitsZ, ha, hb, neg_div]

/-- fadd rounds the exact sum. -/
theorem F32.add_eq_roundReal (site : Site) {a b : F32} (ha : a.isFinite = true) (hb : b.isFinite = true)
    (h : a.toReal + b.toReal ≠ 0) : F32.add site a b = roundReal (a.toReal + b.toReal) := by
  rw [F32.toReal_add] at h ⊢
  have hz : a.unitsZ + b.unitsZ ≠ 0 := fun h0 => h (by simp [h0])
  rw [F32.add_of_isFinite site ha hb hz, roundReal_of_abs (Int.natAbs_ne_zero.2 hz) (sh := 0) (by simp [abs_div])]
  have hsign : ((a.unitsZ + b.unitsZ : ℤ) : ℝ) / 2 ^ 149 < 0 ↔ a.unitsZ + b.unitsZ < 0 := by
    rw [div_lt_iff₀ (by positivity), zero_mul, Int.cast_lt_zero]
  simp only [hsign]

/-- fmul rounds the exact product. -/
theorem F32.mul_eq_roundReal (site : Site) {a b : F32} (ha : a.isFinite = true) (hb : b.isFinite = true)
    (h : a.toReal * b.toReal ≠ 0) : F32.mul site a b = roundReal (a.toReal * b.toReal) := by
  have hm : a.units * b.units ≠ 0 := fun h0 => h (by simp [F32.toReal_mul, h0])
  have hpos : (0 : ℝ) < ((a.units * b.units : ℕ) : ℝ) / 2 ^ (149 + 149) := by positivity
  rw [F32.mul_of_isFinite site ha hb, F32.toReal_mul]
  cases hs : a.sign != b.sign
  case false =>
    rw [if_neg (by simp), roundReal_of_abs hm (abs_of_pos hpos), decide_eq_false hpos.not_gt]
  case true =>
    rw [if_pos rfl, roundReal_of_abs hm (by rw [abs_neg, abs_of_pos hpos]), decide_eq_true (neg_lt_zero.2 hpos)]

/-- Settles O54: fadd and fmul round the exact result, and fsub is fadd of the negated operand. -/
theorem arithmeticRoundsExactly : Obligations.ArithmeticRoundsExactly := by
  intro site a b ha hb
  refine ⟨F32.add_eq_roundReal site ha hb, fun h => ?_, F32.mul_eq_roundReal site ha hb⟩
  rw [sub_eq_add_neg, ← F32.toReal_neg] at h ⊢
  exact F32.add_eq_roundReal site ha (by simpa using hb) h

namespace Machine

/-! ## Elaboration -/

theorem Channel.shaped_afterReset (p : Params) (ch : Nat) : (Channel.afterReset p ch).shaped p = true := by
  simp [Channel.shaped_iff, Channel.afterReset]

theorem Params.numModes_pos {p : Params} (h : p.wf = true) : 0 < p.numModes := by
  simp only [Params.wf, Params.sizesOk, Bool.and_eq_true, decide_eq_true_eq] at h
  omega

/-- Reset gives the invariant to every well-formed record (00_scope.md R11, 10_state.md R48): the block is in UNINIT
with mode 0, which `numModes ≥ 1` allows. -/
theorem State.parts_resetOf {p : Params} (h : p.wf = true) : (State.resetOf p).Parts where
  wf := h
  shapedL := Channel.shaped_afterReset p 0
  shapedR := Channel.shaped_afterReset p 1
  bankInL := bankWf_reset p .inL
  bankInR := bankWf_reset p .inR
  bankOutL := bankWf_reset p .outL
  bankOutR := bankWf_reset p .outR
  mode := Params.numModes_pos h
  cacheM := Params.numModes_pos h
  nC := Nat.zero_le _
  nA := Nat.zero_le _
  errCode := Nat.zero_le _
  responses := by simp [State.resetOf]
  rest := rfl

/-- Settles O15: elaboration refuses exactly the ill-formed records, and reset of the others meets the invariant. -/
theorem elaborationMeetsInvariant : Obligations.ElaborationMeetsInvariant := fun p =>
  ⟨fun h => ⟨if_pos h, State.inv_iff.2 (State.parts_resetOf h)⟩, fun h => if_neg (by simp [h])⟩

end Machine

end Sys2Proof
end

section
/-! SUPPORT. What one command can do to the state (45_engine.md R240, R243; 60_exceptions.md R301), and what follows for
the invariant: O16. -/

namespace Sys2Proof.Machine

/-! ## The updates a command makes -/

/-- What a command other than ENG.CONFIG, ENG.ACTIVATE, ENG.PROCESS and ENG.CLEANUP may do to the state before it
answers: each update with what its checks promise of it. -/
inductive LocalUpdate (s : State) : State → Prop
  | none : LocalUpdate s s
  | ring {ch : Chan} {k : RingSel} {i : Nat} {r : Ring} (running : s.estate = .running)
      (inRange : s.params.hasRing k i = true)
      (wf : (s.ring ch k i).wf s.params.rbCap = true → r.wf s.params.rbCap = true) : LocalUpdate s (s.setRing ch k i r)
  | filter {ch : Chan} {k : FilterSel} {i : Nat} {q : Biquad} (running : s.estate = .running)
      (inRange : s.params.hasFilter k i = true) : LocalUpdate s (s.setFilter ch k i q)
  | comb {ch : Chan} {i : Nat} {x : Comb} (running : s.estate = .running) (inRange : s.params.hasComb i = true)
      (wf : (s.comb ch i).ring.wf s.params.rbCap = true → x.ring.wf s.params.rbCap = true)
      (usable : (s.comb ch i).usable s.params i = true → x.usable s.params i = true) : LocalUpdate s (s.setComb ch i x)
  | ap {ch : Chan} {j : Nat} {a : Allpass} (running : s.estate = .running) (inRange : s.params.hasAp j = true)
      (wf : (s.ap ch j).ring.wf s.params.rbCap = true → a.ring.wf s.params.rbCap = true)
      (usable : (s.ap ch j).usable s.params j = true → a.usable s.params j = true) : LocalUpdate s (s.setAp ch j a)
  | draw {u : State} (h : LocalUpdate s u) : LocalUpdate s u.bumpFree
  | bank {b : BankId} {a : Nat} {w : Word} (inRange : a < s.params.blockMax) : LocalUpdate s (s.writeBank b a w)
  | controls {errCode : BitVec 8} {decayMs dryDb wetDb mode : Word} {flags : BitVec 4}
      (cleared : errCode = s.errCode ∨ errCode = 0) (inRange : mode = s.mode ∨ mode.toNat < s.params.numModes) :
      LocalUpdate s
        { s with errCode := errCode, decayMs := decayMs, dryDb := dryDb, wetDb := wetDb, flags := flags, mode := mode }

/-- What a command that succeeds does to the state before it answers. -/
def Effect (s : State) : Instr → State → Prop
  | .engConfig fs => fun u => s.params.configCheck fs = none ∧ u = (s.configure fs).bumpFree
  | .engActivate => fun u =>
    s.estate ≠ .uninit ∧ u = { s.mapChans (fun _ c => c.silence) with estate := .running }
  | .engProcess n => fun u =>
    s.estate = .running ∧ n ≤ s.params.blockMax ∧
      ∃ v, processFrom s.detect.mixEnv n 0 s.detect = .ok v ∧ u = v.bumpFree
  | .engCleanup => fun u =>
    u = State.bumpFree
      { s.mapChans (Channel.unspecified s.freeCtr) with
        estate := .uninit, fs := 0, nC := 0, nA := 0, cacheT := 0, cacheS := false, cacheM := 0 }
  | _ => LocalUpdate s

/-- Where a command answers a next state, it failed with a code or made an update of `U` and answered data. -/
def EndsIn (s : State) (U : State → Prop) (r : Result) : Prop :=
  ∀ t, r = .next t → (∃ e : ErrorCode, t = s.failed e.value) ∨ ∃ u d, U u ∧ t = u.answered d

theorem endsIn_failWith {s : State} {U : State → Prop} (e : ErrorCode) : EndsIn s U (failWith s e) := by
  intro t ht
  rw [failWith_eq, Host.Outcome.next.injEq] at ht
  exact .inl ⟨e, ht.symm⟩

theorem endsIn_succeed {s u : State} {U : State → Prop} {d : List Word} (h : U u) : EndsIn s U (succeed u d) := by
  intro t ht
  rw [succeed_eq, Host.Outcome.next.injEq] at ht
  exact .inr ⟨u, d, h, ht.symm⟩

theorem endsIn_fault {s : State} {U : State → Prop} (f : Fault) : EndsIn s U (.fault f) := by
  intro t ht
  cases ht

theorem endsIn_unitCommand {s : State} {U : State → Prop} {ok : Bool} {body : Result}
    (h : s.estate = .running → ok = true → EndsIn s U body) : EndsIn s U (unitCommand s ok body) := by
  rcases unitCommand_cases s ok body with ⟨-, heq⟩ | ⟨-, -, heq⟩ | ⟨he, hok, heq⟩ <;> rw [heq]
  · exact endsIn_failWith _
  · exact endsIn_failWith _
  · exact h he hok

theorem endsIn_checked {s : State} {U : State → Prop} {check : Option ErrorCode} {body : Result}
    (h : check = none → EndsIn s U body) : EndsIn s U (checked s check body) := by
  cases check with
  | none => exact h rfl
  | some e => exact endsIn_failWith e

theorem endsIn_memCommand {s : State} {U : State → Prop} {space a : Nat} {body : Space → Result}
    (h : ∀ sp, a < s.params.spaceSize sp → EndsIn s U (body sp)) : EndsIn s U (memCommand s space a body) := by
  cases hsp : Space.ofIdx space with
  | none => rw [memCommand_none hsp]; exact endsIn_failWith _
  | some sp =>
    rw [memCommand_bank hsp]
    split
    · exact h sp ‹_›
    · exact endsIn_failWith _

/-! ## The commands -/

/-- Past its checks ENG.PROCESS is in RUNNING and its block fits (45_engine.md R249). -/
theorem processCheck_eq_none {s : State} {n : Nat} :
    firstError
        [require (decide (s.estate = .running)) .badState, require (decide (n ≤ s.params.blockMax)) .blockSize] = none ↔
      s.estate = .running ∧ n ≤ s.params.blockMax := by
  simp [firstError_eq_none]

/-- A length that passes RB.SETLEN's checks is in 1..RB_CAP (40_ring_buffer.md R128). -/
theorem ringLen_bounds {p : Params} {n : Word}
    (h : firstError [require (decide (n ≠ 0)) .invalidDelay, require (decide (n.toNat ≤ p.rbCap)) .capacity] = none) :
    1 ≤ n.toNat ∧ n.toNat ≤ p.rbCap := by
  simp only [firstError_eq_none, List.forall_mem_cons, require_eq_none, decide_eq_true_eq] at h
  obtain ⟨hne, hle, -⟩ := h
  exact ⟨Nat.one_le_iff_ne_zero.2 fun h0 => hne (BitVec.eq_of_toNat_eq h0), hle⟩

theorem Ring.wf_stor {cap : Nat} {r : Ring} (h : r.wf cap = true) : r.stor.wf cap = true :=
  (Ring.wf_iff.1 h).2.2

theorem Comb.usable_iff {p : Params} {i : Nat} {c : Comb} :
    c.usable p i = true ↔ p.lineCheck c.base.toNat i = none ∧ finitePos c.pct = true ∧ F32.le 0 c.bright = true ∧
      F32.le c.bright F32.one = true := by
  simp only [Comb.usable, Bool.and_eq_true, decide_eq_true_eq, and_assoc]

theorem Allpass.usable_iff {p : Params} {j : Nat} {a : Allpass} :
    a.usable p j = true ↔ p.lineCheck a.base.toNat j = none ∧ finitePos a.pct = true := by
  simp only [Allpass.usable, Bool.and_eq_true, decide_eq_true_eq]

/-- CF.CFG replaces a comb by one with a checked length and descriptor (42_comb.md R172). -/
theorem endsIn_cfCfg (s : State) (ch : Chan) (i : Nat) (delay : Word) (pct cutoffHz bwOct : F32) (fs : Word) :
    EndsIn s (LocalUpdate s) (execCfCfg ch i delay pct cutoffHz bwOct fs s) := by
  refine endsIn_unitCommand fun he hi => endsIn_checked fun hc => endsIn_succeed ?_
  simp only [firstError_eq_none, List.forall_mem_cons, require_eq_none] at hc
  obtain ⟨hdelay, hpct, -⟩ := hc
  obtain ⟨hline, hpos, hcap⟩ := Params.lineCheck_of_delayCheck hdelay i
  refine .comb he hi (fun hw => Ring.wf_setLen hpos hcap (Ring.wf_stor hw)) fun hu => ?_
  obtain ⟨-, -, hbright⟩ := Comb.usable_iff.1 hu
  exact Comb.usable_iff.2 ⟨hline, hpct, hbright⟩

/-- AP.CFG replaces an allpass by one with a checked length and descriptor (43_allpass.md R192). -/
theorem endsIn_apCfg (s : State) (ch : Chan) (j : Nat) (delay : Word) (pct : F32) :
    EndsIn s (LocalUpdate s) (execApCfg ch j delay pct s) := by
  refine endsIn_unitCommand fun he hi => endsIn_checked fun hc => endsIn_succeed ?_
  simp only [firstError_eq_none, List.forall_mem_cons, require_eq_none] at hc
  obtain ⟨hdelay, hpct, -⟩ := hc
  obtain ⟨hline, hpos, hcap⟩ := Params.lineCheck_of_delayCheck hdelay j
  exact .ap he hi (fun hw => Ring.wf_setLen hpos hcap (Ring.wf_stor hw)) fun _ => Allpass.usable_iff.2 ⟨hline, hpct⟩

/-- A CSR write is READ_ONLY, MODE_RANGE, or one stored control (45_engine.md R252). -/
theorem endsIn_csrWrite (s : State) (v : Word) (c : Csr) : EndsIn s (LocalUpdate s) (csrWrite s v c) := by
  cases c with
  | errclr => exact endsIn_succeed (.controls (.inr rfl) (.inl rfl))
  | decayMs | dryDb | wetDb | flags => exact endsIn_succeed (.controls (.inl rfl) (.inl rfl))
  | mode =>
    rw [csrWrite]
    split
    · exact endsIn_succeed (.controls (.inl rfl) (.inr ‹_›))
    · exact endsIn_failWith _
  | _ => exact endsIn_failWith _

theorem endsIn_engCsrr (s : State) (a : Nat) : EndsIn s (LocalUpdate s) (execEngCsrr a s) := by
  rw [execEngCsrr]
  split
  · exact endsIn_failWith _
  · exact endsIn_succeed .none

theorem endsIn_engCsrw (s : State) (a : Nat) (v : Word) : EndsIn s (LocalUpdate s) (execEngCsrw a v s) := by
  rw [execEngCsrw]
  split
  · exact endsIn_failWith _
  · exact endsIn_csrWrite s v _

theorem endsIn_readSpace (s : State) (a : Nat) (sp : Space) : EndsIn s (LocalUpdate s) (readSpace s a sp) := by
  cases sp with
  | rom => exact endsIn_succeed .none
  | bank b =>
    rw [readSpace]
    split
    · exact endsIn_succeed .none
    · exact endsIn_fault _

theorem endsIn_writeSpace (s : State) {a : Nat} (w : Word) {sp : Space} (h : a < s.params.spaceSize sp) :
    EndsIn s (LocalUpdate s) (writeSpace s a w sp) := by
  cases sp with
  | rom => exact endsIn_failWith _
  | bank b => exact endsIn_succeed (.bank h)

theorem endsIn_engProcess (s : State) (n : Nat) : EndsIn s (Effect s (.engProcess n)) (execEngProcess n s) := by
  refine endsIn_checked fun hc => ?_
  obtain ⟨he, hn⟩ := processCheck_eq_none.1 hc
  split
  · exact endsIn_fault _
  · exact endsIn_succeed ⟨he, hn, _, ‹_›, rfl⟩

/-- Every command fails with a code, faults, or has its effect and answers: what one command can do to the state, said once
(45_engine.md R240; 60_exceptions.md R301). -/
theorem exec_endsIn (i : Instr) (s : State) : EndsIn s (Effect s i) (exec i s) := by
  cases i with
  | rbPush => exact endsIn_unitCommand fun he hi => endsIn_succeed (.ring he hi (Ring.wf_push _))
  | rbRead | rbStat => exact endsIn_unitCommand fun _ _ => endsIn_succeed .none
  | rbWrite => exact endsIn_unitCommand fun he hi => endsIn_succeed (.ring he hi (Ring.wf_writeBack _ _))
  | rbSetlen =>
    exact endsIn_unitCommand fun he hi => endsIn_checked fun hc => endsIn_succeed
      (.ring he hi fun hw => Ring.wf_setLen (ringLen_bounds hc).1 (ringLen_bounds hc).2 (Ring.wf_stor hw))
  | rbClear =>
    refine endsIn_unitCommand fun he hi => endsIn_succeed (.ring he hi fun hw => ?_)
    obtain ⟨⟨hpos, hcap⟩, -⟩ := Ring.wf_iff.1 hw
    exact Ring.wf_clear hpos hcap
  | bqSetlp | bqSethp | bqSetpk =>
    exact endsIn_unitCommand fun he hi => endsIn_checked fun _ => endsIn_succeed (.filter he hi)
  | bqReset | bqLdcoef => exact endsIn_unitCommand fun he hi => endsIn_succeed (.filter he hi)
  | bqProc => exact endsIn_unitCommand fun he hi => endsIn_succeed (.draw (.filter he hi))
  | bqRdcoef | bqRdhist => exact endsIn_unitCommand fun _ _ => endsIn_succeed .none
  | cfCfg => exact endsIn_cfCfg s _ _ _ _ _ _ _
  | cfSetg => exact endsIn_unitCommand fun he hi => endsIn_succeed (.comb he hi id id)
  | cfProc => exact endsIn_unitCommand fun he hi => endsIn_succeed (.draw (.comb he hi (Ring.wf_push _) id))
  | cfRdstate => exact endsIn_unitCommand fun _ _ => endsIn_succeed .none
  | apCfg => exact endsIn_apCfg s _ _ _ _
  | apSetg => exact endsIn_unitCommand fun he hi => endsIn_succeed (.ap he hi id id)
  | apProc => exact endsIn_unitCommand fun he hi => endsIn_succeed (.draw (.ap he hi (Ring.wf_push _) id))
  | apRdstate => exact endsIn_unitCommand fun _ _ => endsIn_succeed .none
  | engConfig fs => exact endsIn_checked fun hc => endsIn_succeed ⟨hc, rfl⟩
  | engActivate => exact endsIn_checked fun hc => endsIn_succeed ⟨of_decide_eq_true (require_eq_none.1 hc), rfl⟩
  | engProcess n => exact endsIn_engProcess s n
  | engCleanup => exact endsIn_succeed rfl
  | engCsrr a => exact endsIn_engCsrr s a
  | engCsrw a v => exact endsIn_engCsrw s a v
  | memRd => exact endsIn_memCommand fun sp _ => endsIn_readSpace s _ sp
  | memWr => exact endsIn_memCommand fun _ h => endsIn_writeSpace s _ h

/-! ## The invariant -/

/-- A bank write inside the bank keeps the invariant. -/
theorem State.Parts.writeBank {s : State} (h : s.Parts) (b : BankId) {a : Nat} (w : Word) (ha : a < s.params.blockMax) :
    (s.writeBank b a w).Parts := by
  cases b with
  | inL => exact { h with bankInL := bankWf_putCell w ha h.bankInL }
  | inR => exact { h with bankInR := bankWf_putCell w ha h.bankInR }
  | outL => exact { h with bankOutL := bankWf_putCell w ha h.bankOutL }
  | outR => exact { h with bankOutR := bankWf_putCell w ha h.bankOutR }

theorem State.Parts.localUpdate {s u : State} (h : s.Parts) (hupdate : LocalUpdate s u) : u.Parts := by
  have hne (he : s.estate = .running) : s.estate ≠ .uninit := by simp [he]
  induction hupdate with
  | none => exact h
  | @ring ch k i _ he hi hw =>
    exact h.setChan ch _ he ((h.channelOk he ch).setRing (hw (h.ring_wf (hne he) ch k i hi)))
  | @filter ch _ _ _ he hi => exact h.setChan ch _ he ((h.channelOk he ch).setFilter hi)
  | @comb ch i _ he hi hw hu =>
    have hc := h.channelOk he ch
    exact h.setChan ch _ he (hc.setComb (hw (h.ring_wf (hne he) ch .comb i hi)) fun hlt => hu (hc.combU i hlt))
  | @ap ch j _ he hi hw hu =>
    have hc := h.channelOk he ch
    exact h.setChan ch _ he (hc.setAp (hw (h.ring_wf (hne he) ch .allpass j hi)) fun hlt => hu (hc.apU j hlt))
  | draw _ ih => exact ih.bumpFree
  | bank ha => exact h.writeBank _ _ ha
  | controls hcode hmode =>
    refine { h with mode := ?_, errCode := ?_ }
    · rcases hmode with rfl | hlt
      · exact h.mode
      · exact hlt
    · rcases hcode with rfl | rfl
      · exact h.errCode
      · exact Nat.zero_le _

/-- The channels of a configured block. -/
theorem State.Parts.channelOk_of_configured {s : State} (h : s.Parts) (he : s.estate ≠ .uninit) (ch : Chan) :
    ChannelOk s.params s.nC.toNat s.nA.toNat (s.chan ch) :=
  channelOk_iff.2 ⟨h.shaped ch, (h.configured he).rings ch, (h.configured he).lines ch⟩

/-- ENG.ACTIVATE keeps the invariant (45_engine.md R248). -/
theorem State.Parts.activate {s : State} (h : s.Parts) (he : s.estate ≠ .uninit) :
    State.Parts { s.mapChans (fun _ c => c.silence) with estate := .running } :=
  have hc := h.configured he
  State.parts_of_configured h.wf h.bankInL h.bankInR h.bankOutL h.bankOutR h.mode h.errCode h.responses nofun hc.fsPos
    hc.fsMax hc.romCheck h.cacheM hc.nC hc.nA hc.cacheMin hc.cacheMax (h.channelOk_of_configured he .left).silence
    (h.channelOk_of_configured he .right).silence

/-- A rate that passes ENG.CONFIG's checks is in range, and every mode is valid at it (45_engine.md R246, R247). -/
theorem Params.configCheck_eq_none {p : Params} {fs : Word} (h : p.configCheck fs = none) :
    1 ≤ fs.toNat ∧ fs.toNat ≤ p.fsMax ∧ p.romCheck fs.toNat = none := by
  simp only [Params.configCheck, firstError_eq_none, List.forall_mem_cons, require_eq_none, Bool.and_eq_true,
    decide_eq_true_eq] at h
  obtain ⟨⟨hne, hmax⟩, hrom, -⟩ := h
  exact ⟨Nat.one_le_iff_ne_zero.2 fun h0 => hne (BitVec.eq_of_toNat_eq h0), hmax, hrom⟩

/-- What ENG.CONFIG makes of a channel: its defaults, reloaded and recomputed for a valid mode (45_engine.md R246). -/
theorem channelOk_configure {p : Params} {fs m : Nat} {c : Channel} (hp : p.wf = true) (hs : c.shaped p = true)
    (hm : ModeOk p fs m) (ctr : Nat) (t : F32) (st : Bool) (ch : Chan) :
    ChannelOk p (p.nComb m).toNat (p.nAp m).toNat
      (((c.configured ctr ch).reload p fs m).recompute p fs (p.nComb m).toNat (p.nAp m).toNat t st ch) := by
  obtain ⟨hshape, hcombs, haps⟩ := Channel.configured_ok hp hs ctr ch
  exact (channelOk_reload hp hshape hcombs haps hm).recompute hp hm.nC hm.nA fs t st ch

/-- ENG.CONFIG keeps the invariant (45_engine.md R246). -/
theorem State.Parts.configure {s : State} {fs : Word} (h : s.Parts) (hc : s.params.configCheck fs = none) :
    (s.configure fs).Parts := by
  obtain ⟨hpos, hmax, hrom⟩ := Params.configCheck_eq_none hc
  obtain ⟨hmin, hmax'⟩ := State.clampT_bounds h.wf
  have hm := modeOk_of_romCheck hrom h.mode
  exact State.parts_of_configured h.wf h.bankInL h.bankInR h.bankOutL h.bankOutR h.mode h.errCode h.responses nofun hpos
    hmax hrom h.mode rfl rfl hmin hmax' (channelOk_configure h.wf h.shapedL hm ..)
    (channelOk_configure h.wf h.shapedR hm ..)

theorem Channel.shaped_unspecified {p : Params} {c : Channel} (h : c.shaped p = true) (ctr : Nat) (ch : Chan) :
    (c.unspecified ctr ch).shaped p = true := by
  simpa [Channel.shaped_iff, Channel.unspecified, length_mapFrom] using h

/-- ENG.CLEANUP keeps the invariant: the engine registers are released (45_engine.md R250). -/
theorem State.Parts.cleanup {s : State} (h : s.Parts) :
    State.Parts
      { s.mapChans (Channel.unspecified s.freeCtr) with
        estate := .uninit, fs := 0, nC := 0, nA := 0, cacheT := 0, cacheS := false, cacheM := 0 } :=
  { h with
    shapedL := Channel.shaped_unspecified h.shapedL ..
    shapedR := Channel.shaped_unspecified h.shapedR ..
    cacheM := Nat.zero_lt_of_lt h.mode
    nC := Nat.zero_le _
    nA := Nat.zero_le _
    rest := rfl }

@[simp] theorem State.detect_params (s : State) : s.detect.params = s.params := by
  rcases s.detect_cases with ⟨-, heq⟩ | ⟨-, -, heq⟩ | ⟨-, -, heq⟩ <;> simp [heq]

theorem State.Parts.effect {s u : State} {i : Instr} (h : s.Parts) (hu : Effect s i u) : u.Parts := by
  cases i with
  | engConfig fs =>
    obtain ⟨hc, rfl⟩ := hu
    exact (h.configure hc).bumpFree
  | engActivate =>
    obtain ⟨he, rfl⟩ := hu
    exact h.activate he
  | engProcess n =>
    obtain ⟨he, hn, v, hv, rfl⟩ := hu
    obtain ⟨hd, hde⟩ := h.detected he
    exact (hd.runBlock hde (by rwa [State.detect_params]) hv).1.bumpFree
  | engCleanup =>
    obtain rfl := hu
    exact h.cleanup.bumpFree
  | _ => exact h.localUpdate hu

/-- Every command keeps the invariant. -/
theorem State.Parts.exec {i : Instr} {s t : State} (h : s.Parts) (ht : exec i s = .next t) : t.Parts := by
  rcases exec_endsIn i s t ht with ⟨e, rfl⟩ | ⟨u, d, hu, rfl⟩
  · exact h.raised e
  · exact (h.effect hu).responded d

theorem State.Parts.setLink {s : State} (h : s.Parts) (l : List Transaction) : (s.setLink l).Parts := { h with }

/-- All that a step can do: wait, refuse a transaction that decodes to no command, or run a command
(30_encoding.md R103, 60_exceptions.md R316). -/
theorem step_cases (s : State) :
    (s.link = [] ∧ step s = .next s) ∨
      (∃ tr rest e, s.link = tr :: rest ∧ commandOf tr = .error e ∧ step s = failWith (s.setLink rest) e) ∨
      ∃ tr rest i, s.link = tr :: rest ∧ commandOf tr = .ok i ∧ step s = exec i (s.setLink rest) := by
  unfold step
  cases hl : s.link with
  | nil => exact .inl ⟨rfl, rfl⟩
  | cons tr rest =>
    cases hc : commandOf tr with
    | error e => exact .inr (.inl ⟨tr, rest, e, rfl, hc, by simp only [hc]⟩)
    | ok i => exact .inr (.inr ⟨tr, rest, i, rfl, hc, by simp only [hc]⟩)

/-- Settles O16: with no transaction nothing changes, one that does not decode is an error, and each command keeps the
invariant. -/
theorem stepKeepsInvariant : Obligations.StepKeepsInvariant := by
  intro s t hs ht
  rw [State.inv_iff] at hs ⊢
  rcases step_cases s with ⟨-, heq⟩ | ⟨tr, rest, e, -, -, heq⟩ | ⟨tr, rest, i, -, -, heq⟩ <;> rw [heq] at ht
  · cases ht
    exact hs
  · cases ht
    exact (hs.setLink rest).raised e
  · exact (hs.setLink rest).exec ht

end Sys2Proof.Machine
end

section
/-! SUPPORT. The order of the binary32 words against the order of their values (00_scope.md R13, 10_state.md R44). -/

namespace Sys2Proof

theorem F32.natAbs_key (w : F32) : w.key.natAbs = w.mag := by
  cases h : w.sign <;> simp [F32.key, h]

theorem F32.le_iff {a b : F32} : F32.le a b = true ↔ a.isNaN = false ∧ b.isNaN = false ∧ a.key ≤ b.key := by
  simp [F32.le, and_assoc]

theorem F32.lt_iff {a b : F32} : F32.lt a b = true ↔ a.isNaN = false ∧ b.isNaN = false ∧ a.key < b.key := by
  simp [F32.lt, and_assoc]

theorem F32.isPos_iff {w : F32} : w.isPos = true ↔ w.isNaN = false ∧ 0 < w.key :=
  F32.lt_iff.trans (and_iff_right rfl)

theorem F32.isFinite_iff_key {w : F32} : w.isFinite = true ↔ w.key.natAbs < F32.infMag := by
  rw [F32.natAbs_key, F32.isFinite, decide_eq_true_eq]

theorem F32.sign_of_key_pos {w : F32} (h : 0 < w.key) : w.sign = false := by
  cases hs : w.sign
  · rfl
  · rw [F32.key, hs, if_pos rfl] at h
    omega

theorem F32.key_eq_toNat {w : F32} (h : 0 < w.key) : w.key = w.toNat := by
  have hs := F32.sign_of_key_pos h
  rw [F32.key, hs, if_neg (by decide), F32.mag, Nat.mod_eq_of_lt]
  simpa [F32.sign] using hs

/-- The key names the word, but for the two zeros. -/
theorem F32.eq_of_key_eq {a b : F32} (hpos : 0 < a.key) (h : a.key = b.key) : a = b := by
  have ha := F32.key_eq_toNat hpos
  have hb := F32.key_eq_toNat (h ▸ hpos)
  exact BitVec.eq_of_toNat_eq (by omega)

/-- Within an exponent the units grow with the fraction, and each binade lies above the one before. -/
theorem F32.units_le_units {a b : F32} (h : a.mag ≤ b.mag) : a.units ≤ b.units := by
  have hfrac : a.frac < 2 ^ 23 := Nat.mod_lt _ (by decide)
  have hexp : a.expField ≤ b.expField := Nat.div_le_div_right h
  unfold F32.units
  rcases hexp.eq_or_lt with heq | hlt
  · have : a.frac ≤ b.frac := by
      simp only [F32.frac, F32.expField] at *
      omega
    rw [heq]
    split
    · exact this
    · gcongr
  · have hbelow : 2 ^ 23 ≤ (2 ^ 23 + b.frac) * 2 ^ (b.expField - 1) :=
      (Nat.le_add_right ..).trans (Nat.le_mul_of_pos_right _ (by positivity))
    rw [if_neg (by omega : b.expField ≠ 0)]
    split
    · omega
    · calc (2 ^ 23 + a.frac) * 2 ^ (a.expField - 1)
          ≤ (2 ^ 23 * 2) * 2 ^ (a.expField - 1) := by gcongr; omega
        _ = 2 ^ 23 * 2 ^ (a.expField - 1 + 1) := by ring
        _ ≤ (2 ^ 23 + b.frac) * 2 ^ (b.expField - 1) := by
          gcongr
          · omega
          · omega
          · omega

theorem F32.units_eq_zero_of_mag {w : F32} (h : w.mag = 0) : w.units = 0 := by
  simp [F32.units, F32.expField, F32.frac, h]

theorem F32.units_pos {w : F32} (h : 0 < w.mag) : 0 < w.units := by
  unfold F32.units
  split
  · simp only [F32.frac, F32.expField] at *
    omega
  · positivity

/-- The order of the keys is the order of the values. -/
theorem F32.toReal_le_toReal {a b : F32} (h : a.key ≤ b.key) : a.toReal ≤ b.toReal := by
  have hz : a.unitsZ ≤ b.unitsZ := by
    cases ha : a.sign <;> cases hb : b.sign <;> simp only [F32.key, F32.unitsZ, ha, hb] at h ⊢
    case false.false =>
      have := F32.units_le_units (a := a) (b := b) (by simpa using h)
      simpa using this
    case false.true =>
      rw [F32.units_eq_zero_of_mag (w := a) (by simp at h; omega),
        F32.units_eq_zero_of_mag (w := b) (by simp at h; omega)]
      simp
    case true.false =>
      simp
    case true.true =>
      have := F32.units_le_units (a := b) (b := a) (by simpa using h)
      simpa using this
  rw [F32.toReal, F32.toReal]
  gcongr

theorem F32.toReal_pos {w : F32} (h : 0 < w.key) : 0 < w.toReal := by
  have hu : 0 < w.units := F32.units_pos (by rw [← F32.natAbs_key]; omega)
  rw [F32.toReal, F32.unitsZ, F32.sign_of_key_pos h, if_neg (by decide)]
  positivity

end Sys2Proof
end

section
/-! SUPPORT. When the recompute sequence runs (10_state.md R33, 45_engine.md R243, R244): O11. -/

namespace Sys2Proof.Machine

/-! ## The decay time of a built block -/

theorem finitePos_iff {w : F32} : finitePos w = true ↔ w.isFinite = true ∧ 0 < w.key := by
  simp only [finitePos, Bool.and_eq_true, F32.isPos_iff]
  exact and_congr_right fun h => and_iff_right (F32.isNaN_eq_false_of_isFinite h)

/-- The bounds of the controls in a well-formed record (00_scope.md R10; log 12). -/
theorem Params.controlBounds {p : Params} (h : p.wf = true) :
    (p.decayMin.isFinite = true ∧ 0 < p.decayMin.key) ∧ p.decayMax.isFinite = true ∧
      F32.le p.decayMin p.decayMax = true ∧ F32.le p.levelMin p.levelMax = true := by
  rw [← finitePos_iff]
  simp only [Params.wf, Params.realsOk, Bool.and_eq_true] at h
  tauto

theorem Params.key_pos_of_decayMin_le {p : Params} {w : F32} (h : p.wf = true) (hw : F32.le p.decayMin w = true) :
    0 < w.key := by
  obtain ⟨⟨-, hpos⟩, -⟩ := Params.controlBounds h
  exact hpos.trans_le (F32.le_iff.1 hw).2.2

/-! ## Change detection -/

/-- Above zero the comparison of change detection is the comparison of the words (45_engine.md R244). -/
theorem valuesDiffer_iff {a b : F32} (ha : a.isNaN = false) (hb : b.isNaN = false) (hpos : 0 < a.key) :
    valuesDiffer a b = true ↔ a ≠ b := by
  simp only [valuesDiffer, ha, hb, Bool.false_or, decide_eq_true_eq]
  exact not_congr ⟨F32.eq_of_key_eq hpos, congrArg F32.key⟩

/-- Change detection finds exactly the changes of `ChangePending` (45_engine.md R244). -/
theorem State.Parts.anyChanged_iff {s : State} (h : s.Parts) (he : s.estate ≠ .uninit) :
    s.anyChanged = true ↔ ChangePending s := by
  have hmin := (State.clampT_bounds h.wf).1
  have hcache := (h.configured he).cacheMin
  have hT := valuesDiffer_iff (F32.le_iff.1 hmin).2.1 (F32.le_iff.1 hcache).2.1
    (Params.key_pos_of_decayMin_le h.wf hmin)
  simp only [State.anyChanged, State.modeChanged, Bool.or_eq_true, decide_eq_true_eq, hT, bne_iff_ne, ChangePending,
    or_assoc]

theorem State.detect_recomputeCount (s : State) :
    s.detect.recomputeCount = if s.anyChanged = true then s.recomputeCount + 1 else s.recomputeCount := by
  rcases s.detect_cases with ⟨hc, heq⟩ | ⟨hc, -, heq⟩ | ⟨hc, -, heq⟩ <;> simp [heq, hc]

/-! ## The counter -/

theorem LocalUpdate.recomputeCount_eq {s u : State} (h : LocalUpdate s u) : u.recomputeCount = s.recomputeCount := by
  induction h with
  | none | controls => rfl
  | draw _ ih => exact ih
  | ring | filter | comb | ap | bank => simp

theorem Effect.recomputeCount_eq {i : Instr} {s u : State} (hconfig : ∀ fs, i ≠ .engConfig fs)
    (hprocess : ∀ n, i ≠ .engProcess n) (h : Effect s i u) : u.recomputeCount = s.recomputeCount := by
  cases i with
  | engConfig fs => exact absurd rfl (hconfig fs)
  | engProcess n => exact absurd rfl (hprocess n)
  | engActivate =>
    obtain ⟨-, rfl⟩ := h
    rfl
  | engCleanup =>
    obtain rfl := h
    rfl
  | _ => exact LocalUpdate.recomputeCount_eq h

/-- A command other than ENG.CONFIG and ENG.PROCESS leaves the counter alone. -/
theorem recomputeCount_of_next {i : Instr} {s t : State} (ht : exec i s = .next t)
    (hconfig : ∀ fs, i ≠ .engConfig fs) (hprocess : ∀ n, i ≠ .engProcess n) : t.recomputeCount = s.recomputeCount := by
  rcases exec_endsIn i s t ht with ⟨e, rfl⟩ | ⟨u, d, hu, rfl⟩
  · rfl
  · exact Effect.recomputeCount_eq (u := u) hconfig hprocess hu

theorem recomputes_engConfig_iff {s : State} {fs : Word} :
    Recomputes (.engConfig fs) s ↔ s.params.configCheck fs = none := by
  simp [Recomputes]

theorem recomputes_engProcess_iff {s : State} {n : Nat} :
    Recomputes (.engProcess n) s ↔ (s.estate = .running ∧ n ≤ s.params.blockMax) ∧ ChangePending s := by
  simp [Recomputes, and_assoc]

theorem recomputeCount_engConfig {s t : State} {fs : Word} (ht : exec (.engConfig fs) s = .next t) :
    t.recomputeCount = if s.params.configCheck fs = none then s.recomputeCount + 1 else s.recomputeCount := by
  change checked s _ _ = _ at ht
  cases hc : s.params.configCheck fs with
  | none =>
    rw [hc, checked_none] at ht
    cases ht
    rfl
  | some e =>
    rw [hc, checked_some] at ht
    cases ht
    rfl

theorem recomputeCount_engProcess {s t : State} {n : Nat} (ht : exec (.engProcess n) s = .next t) :
    t.recomputeCount =
      if (s.estate = .running ∧ n ≤ s.params.blockMax) ∧ s.anyChanged = true then s.recomputeCount + 1
      else s.recomputeCount := by
  change checked s (firstError _) _ = _ at ht
  by_cases hc : s.estate = .running ∧ n ≤ s.params.blockMax
  · rw [processCheck_eq_none.2 hc, checked_none] at ht
    split at ht
    · cases ht
    · cases ht
      rw [State.respond_recomputeCount, State.bumpFree_recomputeCount, (processFrom_frame ‹_›).1.recomputeCount,
        State.detect_recomputeCount]
      simp only [hc, true_and, and_self]
  · obtain ⟨e, he⟩ := Option.ne_none_iff_exists'.1 (mt processCheck_eq_none.1 hc)
    rw [he, checked_some] at ht
    cases ht
    simp [hc]

/-- Whatever the command, the counter moves exactly where the recompute sequence runs (44_coefficients.md R210). -/
theorem State.Parts.recomputeCount_cases {i : Instr} {s t : State} (hs : s.Parts) (ht : Machine.exec i s = .next t) :
    (Recomputes i s ∧ t.recomputeCount = s.recomputeCount + 1) ∨
      (¬Recomputes i s ∧ t.recomputeCount = s.recomputeCount) := by
  cases i with
  | engConfig fs =>
    rw [recomputeCount_engConfig ht, recomputes_engConfig_iff]
    split <;> simp [*]
  | engProcess n =>
    have hiff : Recomputes (.engProcess n) s ↔
        (s.estate = .running ∧ n ≤ s.params.blockMax) ∧ s.anyChanged = true :=
      recomputes_engProcess_iff.trans (and_congr_right fun he => (hs.anyChanged_iff (by simp [he.1])).symm)
    rw [recomputeCount_engProcess ht, hiff]
    split <;> simp [*]
  | _ =>
    exact .inr ⟨by simp [Recomputes], recomputeCount_of_next ht (by simp) (by simp)⟩

/-- Settles O11: a 32-bit word counts modulo `2^32`. -/
theorem recomputeCountCounts : Obligations.RecomputeCountCounts := by
  intro i s t hs ht
  rcases (State.inv_iff.1 hs).recomputeCount_cases ht with ⟨hr, hcount⟩ | ⟨hr, hcount⟩
  · exact ⟨fun _ => by rw [hcount]; exact BitVec.toNat_add .., fun h => absurd hr h⟩
  · exact ⟨fun h => absurd h hr, fun _ => hcount⟩

end Sys2Proof.Machine
end

section
/-! SUPPORT. Reset and the control and status registers (10_state.md R36 to R43, R48; 45_engine.md R251, R252): O13,
O14, O42, O43. -/

namespace Sys2Proof.Machine

/-! ## The register map (10_state.md R36) -/

theorem Csr.ofAddr_addr (c : Csr) : Csr.ofAddr c.addr = some c := by cases c <;> rfl

theorem Csr.addr_of_ofAddr {a : Nat} {c : Csr} (h : Csr.ofAddr a = some c) : a = c.addr := by
  unfold Csr.ofAddr at h
  split at h <;> cases h <;> rfl

/-- The three blocks of addresses of the map. -/
theorem Csr.addr_mem_map (c : Csr) :
    c.addr ≤ 0x000A ∨ 0x0010 ≤ c.addr ∧ c.addr ≤ 0x0014 ∨ 0x0020 ≤ c.addr ∧ c.addr ≤ 0x0024 := by
  cases c <;> decide

theorem Csr.ofAddr_eq_none {a : Nat} (h : ¬(a ≤ 0x000A ∨ 0x0010 ≤ a ∧ a ≤ 0x0014 ∨ 0x0020 ≤ a ∧ a ≤ 0x0024)) :
    Csr.ofAddr a = none := by
  cases hc : Csr.ofAddr a with
  | none => rfl
  | some c => exact absurd (Csr.addr_of_ofAddr hc ▸ Csr.addr_mem_map c) h

theorem exec_engCsrr (s : State) (c : Csr) : exec (.engCsrr c.addr) s = .next (s.answered [s.csrRead c]) := by
  change execEngCsrr _ s = _
  rw [execEngCsrr, Csr.ofAddr_addr]
  rfl

theorem exec_engCsrr_of_none {s : State} {a : Nat} (h : Csr.ofAddr a = none) :
    exec (.engCsrr a) s = .next (s.failed 0x04) := by
  change execEngCsrr a s = _
  rw [execEngCsrr, h]
  rfl

theorem exec_engCsrw (s : State) (v : Word) (c : Csr) : exec (.engCsrw c.addr v) s = csrWrite s v c := by
  change execEngCsrw _ v s = _
  rw [execEngCsrw, Csr.ofAddr_addr]

theorem exec_engCsrw_of_none {s : State} {a : Nat} (v : Word) (h : Csr.ofAddr a = none) :
    exec (.engCsrw a v) s = .next (s.failed 0x04) := by
  change execEngCsrw a v s = _
  rw [execEngCsrw, h]
  rfl

/-! ## The contents of the registers (10_state.md R37 to R41) -/

/-- STATUS: the two fields do not overlap (10_state.md R37). -/
theorem State.toNat_statusWord (s : State) :
    s.statusWord.toNat = s.estate.code.toNat + 2 ^ 8 * s.errCode.toNat := by
  have hcode : s.estate.code.toNat < 2 ^ 8 := s.estate.code.isLt.trans (by decide)
  have herr := s.errCode.isLt
  have hword : s.statusWord.toNat = s.errCode.toNat <<< 8 ||| s.estate.code.toNat := by
    simp only [State.statusWord, BitVec.toNat_or, BitVec.toNat_shiftLeft, BitVec.truncate_eq_setWidth,
      BitVec.toNat_setWidth, Nat.shiftLeft_eq]
    congr 1 <;> omega
  rw [hword, ← Nat.shiftLeft_add_eq_or_of_lt hcode, Nat.shiftLeft_eq]
  omega

/-- NUMERIC in a FIXED build: the format's fields fit their bytes (10_state.md R39). -/
theorem NumericMode.toNat_word_fixed {w frac : Nat} (h : numericWf (.fixed w frac) = true) :
    (NumericMode.fixed w frac).word.toNat = 1 + 2 ^ 8 * w + 2 ^ 16 * frac := by
  simp only [numericWf, Bool.and_eq_true, decide_eq_true_eq] at h
  simp only [NumericMode.word, BitVec.toNat_ofNat]
  omega

theorem Params.numericWf_of_wf {p : Params} (h : p.wf = true) : numericWf p.numeric = true := by
  simp only [Params.wf, Params.sizesOk, Bool.and_eq_true] at h
  tauto

/-- Each size parameter fits the register that reports it (log 12). -/
theorem Params.sizes_lt {p : Params} (h : p.wf = true) :
    p.numModes < 2 ^ 32 ∧ p.maxCombs < 2 ^ 32 ∧ p.maxAps < 2 ^ 32 ∧ p.rbCap < 2 ^ 32 ∧ p.blockMax < 2 ^ 32 ∧
      p.fsMax < 2 ^ 32 := by
  simp only [Params.wf, Params.sizesOk, Bool.and_eq_true, decide_eq_true_eq] at h
  omega

theorem toNat_ofNat_of_lt {n : Nat} (h : n < 2 ^ 32) : (BitVec.ofNat 32 n).toNat = n := Nat.mod_eq_of_lt h

/-- Settles O42: one read for each register of the map, and no register elsewhere. -/
theorem csrReads : Obligations.CsrReads := by
  intro s hs
  have hwf := (State.inv_iff.1 hs).wf
  obtain ⟨hmodes, hcombs, haps, hcap, hblock, hfs⟩ := Params.sizes_lt hwf
  have hread := exec_engCsrr s
  refine ⟨⟨_, hread .status, s.toNat_statusWord⟩, hread .errclr, hread .sampleRate, hread .recomputeCount, ?sizes,
    ⟨_, hread .numeric, ?numeric⟩, hread .decayMs, hread .dryDb, hread .wetDb, ⟨_, hread .flags, ?flags⟩, hread .mode,
    hread .activeCombs, hread .activeAps, hread .cacheDecay, hread .cacheStereo, hread .cacheMode,
    fun a ha => exec_engCsrr_of_none (Csr.ofAddr_eq_none ha)⟩
  case sizes =>
    simp only [List.forall_mem_cons]
    exact ⟨⟨_, hread .numModes, toNat_ofNat_of_lt hmodes⟩, ⟨_, hread .maxCombs, toNat_ofNat_of_lt hcombs⟩,
      ⟨_, hread .maxAps, toNat_ofNat_of_lt haps⟩, ⟨_, hread .rbCap, toNat_ofNat_of_lt hcap⟩,
      ⟨_, hread .blockMax, toNat_ofNat_of_lt hblock⟩, ⟨_, hread .fsMax, toNat_ofNat_of_lt hfs⟩, nofun⟩
  case numeric =>
    have hnum := Params.numericWf_of_wf hwf
    rw [State.csrRead]
    cases hn : s.params.numeric with
    | float => rfl
    | fixed w frac => exact NumericMode.toNat_word_fixed (hn ▸ hnum)
  case flags => exact BitVec.toNat_setWidth_of_le (by decide)

/-- Settles O43: a write for each stored control, READ_ONLY for each other register, and no register elsewhere. -/
theorem csrWrites : Obligations.CsrWrites := by
  intro s v
  have hwrite := exec_engCsrw s v
  refine ⟨hwrite .errclr, hwrite .decayMs, hwrite .dryDb, hwrite .wetDb,
    ⟨v.truncate 4, BitVec.toNat_setWidth .., hwrite .flags⟩, fun hv => (hwrite .mode).trans (if_pos hv),
    fun hv => (hwrite .mode).trans (if_neg hv.not_gt), ?readOnly,
    fun a ha => exec_engCsrw_of_none v (Csr.ofAddr_eq_none ha)⟩
  rintro a (rfl | ⟨hlo, hhi⟩ | ⟨hlo, hhi⟩)
  · rfl
  · interval_cases a <;> rfl
  · interval_cases a <;> rfl

/-! ## Reset (10_state.md R48) -/

/-- After reset STATUS reads UNINIT and no error (10_state.md R37, R48). -/
theorem State.statusWord_resetOf (p : Params) : (State.resetOf p).statusWord = 0 :=
  BitVec.eq_of_toNat_eq (State.toNat_statusWord _)

/-- Settles O13: the reset state is written out, its banks list no cell, and both registers read what it holds. -/
theorem resetValues : Obligations.ResetValues := by
  intro p
  exact ⟨rfl, rfl, rfl, rfl, rfl, rfl, rfl, rfl, rfl, rfl, rfl, rfl, rfl, rfl, rfl, fun b _ => by cases b <;> rfl,
    (exec_engCsrr _ .status).trans (by rw [State.csrRead, State.statusWord_resetOf]),
    exec_engCsrr (State.resetOf p) .flags⟩

theorem paramsTC_wf : paramsTC.wf = true := by decide +kernel

/-- Settles O14: the record TC is well formed, and reset of a well-formed record meets the invariant. -/
theorem invariantAtReset : Obligations.InvariantAtReset := State.inv_iff.2 (State.parts_resetOf paramsTC_wf)

end Sys2Proof.Machine
end

section
/-! SUPPORT. The clamped controls (10_state.md R44): O58. -/

namespace Sys2Proof

/-! ## The clamp -/

theorem F32.clamp_of_isNaN {v : F32} (lo hi : F32) (h : v.isNaN = true) : F32.clamp v lo hi = lo := if_pos h

theorem F32.clamp_of_le {v lo : F32} (hi : F32) (h : F32.le v lo = true) : F32.clamp v lo hi = lo := by
  have hv : v.isNaN = false := (F32.le_iff.1 h).1
  simp [F32.clamp, hv, h]

theorem F32.le_eq_false_of_lt {a b : F32} (h : F32.lt a b = true) : F32.le b a = false := by
  obtain ⟨-, -, hlt⟩ := F32.lt_iff.1 h
  rw [Bool.eq_false_iff, Ne, F32.le_iff]
  omega

theorem F32.clamp_of_ge {v lo hi : F32} (hlo : F32.lt lo v = true) (hhi : F32.le hi v = true) :
    F32.clamp v lo hi = hi := by
  have hv : v.isNaN = false := (F32.le_iff.1 hhi).2.1
  simp [F32.clamp, hv, F32.le_eq_false_of_lt hlo, hhi]

theorem F32.clamp_of_between {v lo hi : F32} (hlo : F32.lt lo v = true) (hhi : F32.lt v hi = true) :
    F32.clamp v lo hi = v := by
  have hv : v.isNaN = false := (F32.lt_iff.1 hhi).1
  simp [F32.clamp, hv, F32.le_eq_false_of_lt hlo, F32.le_eq_false_of_lt hhi]

/-- In the order of the values the clamp is the usual one: a value equal to a bound only changes the sign of a zero. -/
theorem F32.key_clamp {v lo hi : F32} (hv : v.isNaN = false) (h : F32.le lo hi = true) :
    (F32.clamp v lo hi).key = max lo.key (min v.key hi.key) := by
  obtain ⟨hlo, hhi, hle⟩ := F32.le_iff.1 h
  rcases le_or_gt v.key lo.key with hvlo | hvlo
  · rw [F32.clamp_of_le hi (F32.le_iff.2 ⟨hv, hlo, hvlo⟩)]
    omega
  rcases le_or_gt hi.key v.key with hvhi | hvhi
  · rw [F32.clamp_of_ge (F32.lt_iff.2 ⟨hlo, hv, hvlo⟩) (F32.le_iff.2 ⟨hhi, hv, hvhi⟩)]
    omega
  · rw [F32.clamp_of_between (F32.lt_iff.2 ⟨hlo, hv, hvlo⟩) (F32.lt_iff.2 ⟨hv, hhi, hvhi⟩)]
    omega

/-- Between positive bounds every value equal to a bound is that bound. -/
theorem F32.clamp_of_pos_of_ge {v lo hi : F32} (hpos : 0 < lo.key) (h : F32.le lo hi = true)
    (hhi : F32.le hi v = true) : F32.clamp v lo hi = hi := by
  obtain ⟨-, hv, hle⟩ := F32.le_iff.1 hhi
  obtain ⟨-, -, hbounds⟩ := F32.le_iff.1 h
  have hkey := F32.key_clamp hv h
  exact F32.eq_of_key_eq (by omega) (by omega)

/-- A value from one positive bound to the other, the bounds included, is kept. -/
theorem F32.clamp_of_pos_of_mem {v lo hi : F32} (hpos : 0 < lo.key) (hlo : F32.le lo v = true)
    (hhi : F32.le v hi = true) : F32.clamp v lo hi = v := by
  obtain ⟨hloNaN, hv, hlov⟩ := F32.le_iff.1 hlo
  obtain ⟨-, hhiNaN, hvhi⟩ := F32.le_iff.1 hhi
  have hkey := F32.key_clamp hv (F32.le_iff.2 ⟨hloNaN, hhiNaN, hlov.trans hvhi⟩)
  exact F32.eq_of_key_eq (by omega) (by omega)

namespace Machine

/-! ## The decay time -/

/-- The clamped decay time is a positive finite value inside its bounds (10_state.md R44, 44_coefficients.md R211). -/
theorem State.clampT_range {s : State} (h : s.params.wf = true) :
    s.clampT.isFinite = true ∧ 0 < s.clampT.toReal ∧ s.params.decayMin.toReal ≤ s.clampT.toReal ∧
      s.clampT.toReal ≤ s.params.decayMax.toReal := by
  obtain ⟨hmin, hmax⟩ := State.clampT_bounds h
  have hpos := Params.key_pos_of_decayMin_le h hmin
  obtain ⟨-, hfin, -⟩ := Params.controlBounds h
  have hle := (F32.le_iff.1 hmax).2.2
  rw [F32.isFinite_iff_key] at hfin ⊢
  exact ⟨by omega, F32.toReal_pos hpos, F32.toReal_le_toReal (F32.le_iff.1 hmin).2.2, F32.toReal_le_toReal hle⟩

/-! ## The levels -/

theorem Params.key_clampLevel {p : Params} {v : F32} (h : p.wf = true) (hv : v.isNaN = false) :
    (p.clampLevel v).key = max p.levelMin.key (min v.key p.levelMax.key) :=
  F32.key_clamp hv (Params.controlBounds h).2.2.2

theorem Params.db2lin_of_isZero (p : Params) {v : F32} (h : v.isZero = true) : p.db2lin v = F32.one := if_pos h

/-- Settles O58: the positive bounds of the decay time make its clamp exact; a level may be a zero of either sign, so at
a bound only its value is fixed. -/
theorem controlsAreClamped : Obligations.ControlsAreClamped := by
  intro s hs
  have hwf := (State.inv_iff.1 hs).wf
  obtain ⟨⟨-, hpos⟩, -, hdecay, hlevel⟩ := Params.controlBounds hwf
  obtain ⟨-, -, hlevels⟩ := F32.le_iff.1 hlevel
  refine ⟨State.clampT_range hwf, F32.clamp_of_isNaN _ _, F32.clamp_of_le _, F32.clamp_of_pos_of_ge hpos hdecay,
    F32.clamp_of_pos_of_mem hpos, fun v => ?level, ⟨rfl, rfl⟩, fun v => s.params.db2lin_of_isZero⟩
  obtain ⟨hmin, hmax⟩ := f32_clamp_bounds (v := v) hlevel
  refine ⟨hmin, hmax, F32.clamp_of_isNaN _ _, fun h => F32.clamp_of_le _ ?_, fun h => F32.clamp_of_ge ?_ ?_,
    F32.clamp_of_between, fun h => ?_, fun h => ?_, fun hlo hhi => ?_⟩
  · rw [F32.lt_iff] at h
    exact F32.le_iff.2 ⟨h.1, h.2.1, h.2.2.le⟩
  · rw [F32.lt_iff] at h ⊢
    exact ⟨(F32.le_iff.1 hlevel).1, h.2.1, hlevels.trans_lt h.2.2⟩
  · rw [F32.lt_iff] at h
    exact F32.le_iff.2 ⟨h.1, h.2.1, h.2.2.le⟩
  · obtain ⟨hv, -, hle⟩ := F32.le_iff.1 h
    rw [Params.key_clampLevel hwf hv]
    omega
  · obtain ⟨-, hv, hle⟩ := F32.le_iff.1 h
    rw [Params.key_clampLevel hwf hv]
    omega
  · obtain ⟨-, hv, hlov⟩ := F32.le_iff.1 hlo
    obtain ⟨-, -, hvhi⟩ := F32.le_iff.1 hhi
    rw [Params.key_clampLevel hwf hv]
    omega

end Machine

end Sys2Proof
end

section
/-! SUPPORT. The sample-word conversions (10_state.md R25): O57. -/

namespace Sys2Proof

theorem roundHalfEvenReal_intCast (n : ℤ) : roundHalfEvenReal n = n := by simp [roundHalfEvenReal]

/-- Rounding to nearest even treats both signs alike. -/
theorem roundHalfEvenReal_neg (y : ℝ) : roundHalfEvenReal (-y) = -roundHalfEvenReal y := by
  by_cases h0 : Int.fract y = 0
  · obtain ⟨n, rfl⟩ := Int.fract_eq_zero_iff.1 h0
    rw [← Int.cast_neg, roundHalfEvenReal_intCast, roundHalfEvenReal_intCast]
  · have hfract : Int.fract (-y) = 1 - Int.fract y := Int.fract_neg h0
    have hfloor : ⌊-y⌋ = -⌊y⌋ - 1 := by
      have hcast : ((⌊-y⌋ : ℤ) : ℝ) = ((-⌊y⌋ - 1 : ℤ) : ℝ) := by
        rw [← Int.self_sub_fract, hfract]
        push_cast
        rw [← Int.self_sub_fract y]
        ring
      exact_mod_cast hcast
    simp only [roundHalfEvenReal, hfract, hfloor]
    rcases lt_trichotomy (Int.fract y) (1 / 2) with hlt | heq | hgt
    · rw [if_neg (by linarith), if_pos (by linarith), if_pos hlt]
      ring
    · rw [heq]
      norm_num
      omega
    · rw [if_pos (by linarith), if_neg (by linarith), if_pos hgt]
      ring

namespace Machine

/-! ## S2F -/

/-- S2F of a word other than 0 rounds the signed word over `2^frac` (10_state.md R25). -/
theorem fixedToF32_eq_roundReal {frac : Nat} {w : Word} (hfrac : frac ≤ 149) (hw : w ≠ 0) :
    fixedToF32 frac w = roundReal ((w.toInt : ℝ) / 2 ^ frac) := by
  have hint : w.toInt ≠ 0 := fun h => hw (BitVec.eq_of_toInt_eq h)
  have hm : w.toInt.natAbs * 2 ^ (149 - frac) ≠ 0 := by positivity
  have habs : |(w.toInt : ℝ) / 2 ^ frac| = ((w.toInt.natAbs * 2 ^ (149 - frac) : ℕ) : ℝ) / 2 ^ (149 + 0) := by
    rw [abs_div, abs_of_pos (by positivity : (0 : ℝ) < 2 ^ frac), div_eq_div_iff (by positivity) (by positivity)]
    push_cast
    rw [mul_assoc, ← pow_add, Nat.sub_add_cancel hfrac, Nat.cast_natAbs, Int.cast_abs]
  have hsign : (w.toInt : ℝ) / 2 ^ frac < 0 ↔ w.toInt < 0 := by
    rw [div_lt_iff₀ (by positivity), zero_mul, Int.cast_lt_zero]
  rw [roundReal_of_abs hm habs, fixedToF32]
  simp only [hsign]

theorem isZero_fixedToF32_zero (frac : Nat) : (fixedToF32 frac 0).isZero = true := by
  have hmag : (0 : Word).toInt.natAbs * 2 ^ (149 - frac) = 0 := Nat.zero_mul _
  rw [fixedToF32, hmag]
  decide

/-! ## F2S -/

/-- A signed range of at most 32 bits is kept by the word. -/
theorem toInt_ofInt_of_range {width : Nat} {x : Int} (hw : width ≤ 32) (hlo : -2 ^ (width - 1) ≤ x)
    (hhi : x ≤ 2 ^ (width - 1) - 1) : (BitVec.ofInt 32 x).toInt = x := by
  have hpow : (2 : ℤ) ^ (width - 1) ≤ 2 ^ 31 := pow_le_pow_right₀ (by decide) (by omega)
  rw [BitVec.toInt_ofInt]
  exact Int.bmod_eq_of_le (by omega) (by omega)

theorem toInt_f32ToFixed_of_isInf {width : Nat} (frac : Nat) {v : F32} (hw : width ≤ 32) (hv : v.isInf = true) :
    (f32ToFixed width frac v).toInt = if v.sign = true then -2 ^ (width - 1) else 2 ^ (width - 1) - 1 := by
  have hpos : (0 : ℤ) < 2 ^ (width - 1) := by positivity
  rw [f32ToFixed, if_neg (by simp [F32.isNaN_eq_false_of_isInf hv]), if_pos hv]
  exact toInt_ofInt_of_range hw (by split <;> omega) (by split <;> omega)

/-- The signed count of `2^-frac` in a finite value, rounded: the integer arithmetic of F2S over the reals. -/
theorem roundHalfEvenReal_toReal_mul (v : F32) (frac : Nat) :
    roundHalfEvenReal (v.toReal * 2 ^ frac) =
      if v.sign = true then -(roundHalfEven (v.units * 2 ^ frac) 149 : ℤ)
      else roundHalfEven (v.units * 2 ^ frac) 149 := by
  have hscaled : v.toReal * 2 ^ frac =
      (if v.sign = true then -1 else 1) * (((v.units * 2 ^ frac : ℕ) : ℝ) / 2 ^ 149) := by
    rw [F32.toReal, F32.unitsZ]
    split <;> push_cast <;> ring
  rw [hscaled, ← roundHalfEvenReal_div]
  split
  · rw [neg_one_mul, roundHalfEvenReal_neg]
  · rw [one_mul]

theorem toInt_f32ToFixed_of_isFinite {width : Nat} (frac : Nat) {v : F32} (hw : width ≤ 32) (hv : v.isFinite = true) :
    (f32ToFixed width frac v).toInt =
      min (max (roundHalfEvenReal (v.toReal * 2 ^ frac)) (-2 ^ (width - 1))) (2 ^ (width - 1) - 1) := by
  have hpos : (0 : ℤ) < 2 ^ (width - 1) := by positivity
  rw [f32ToFixed, if_neg (by simp [F32.isNaN_eq_false_of_isFinite hv]),
    if_neg (by simp [F32.isInf_eq_false_of_isFinite hv]), roundHalfEvenReal_toReal_mul]
  exact toInt_ofInt_of_range hw (by omega) (by omega)

/-- Settles O57: each build converts by its own two functions. -/
theorem sampleConversions : Obligations.SampleConversions := by
  intro p v w hp
  have hnum := Params.numericWf_of_wf hp
  refine ⟨fun h => by simp [Params.s2f, Params.f2s, h], fun fxW fxFrac h => ?_⟩
  rw [h] at hnum
  simp only [numericWf, Bool.and_eq_true, decide_eq_true_eq] at hnum
  obtain ⟨⟨-, hwidth⟩, hfrac⟩ := hnum
  have hs2f : p.s2f w = fixedToF32 fxFrac w := by rw [Params.s2f, h]
  have hf2s : p.f2s v = f32ToFixed fxW fxFrac v := by rw [Params.f2s, h]
  rw [hs2f, hf2s]
  exact ⟨fixedToF32_eq_roundReal (by omega), fun hz => hz ▸ isZero_fixedToF32_zero fxFrac, fun hn => if_pos hn,
    toInt_f32ToFixed_of_isInf fxFrac hwidth, toInt_f32ToFixed_of_isFinite fxFrac hwidth⟩

end Machine

end Sys2Proof
end

section
/-! SUPPORT. Running what the link delivers (30_encoding.md R91, R93, R103): O5. -/

namespace Sys2Proof

/-- A transaction decodes to what the row that fits its fields builds (30_encoding.md R103). -/
theorem decode_of_fields {t : Transaction} {f : Fields} {r : Row} {i : Instr} (hf : fieldsOf t.cmd = f)
    (hrow : (rows.find? fun r => r.fits f) = some r) (hbuild : buildInstr r.name f t.ops = some i) :
    decode t = .ok i := by
  rw [← hf] at hrow hbuild
  have hrow : rowOf t.cmd = some r := hrow
  simp only [decode, hrow, hbuild]

/-- The same, of a command word packed from fields in range (30_encoding.md R91). -/
theorem decode_packFields {u o c s i m : Nat} {r : Row} {ops : List Word} {instr : Instr} (hu : u < 16) (ho : o < 16)
    (hc : c < 2) (hs : s < 2) (hi : i < 64) (hm : m < 65536)
    (hrow : (rows.find? fun r => r.fits ⟨u, o, c, s, i, m⟩) = some r)
    (hbuild : buildInstr r.name ⟨u, o, c, s, i, m⟩ ops = some instr) :
    decode ⟨packFields ⟨u, o, c, s, i, m⟩, ops⟩ = .ok instr :=
  decode_of_fields (fieldsOf_packFields hu ho hc hs hi hm) hrow hbuild

/-- Decoding takes back encoding: CH and SEL are single bits, the wf check bounds IDX and IMM16, and the row's fields and
count are those of the command (30_encoding.md R91, R93). -/
theorem decode_encode {i : Instr} (h : i.wf = true) : decode (encode i) = .ok i := by
  cases i with
  | rbPush ch sel | rbRead ch sel | rbWrite ch sel | rbSetlen ch sel | rbClear ch sel | rbStat ch sel
  | bqSetlp ch sel | bqSethp ch sel | bqSetpk ch sel | bqReset ch sel | bqProc ch sel | bqLdcoef ch sel
  | bqRdcoef ch sel | bqRdhist ch sel =>
    exact decode_packFields (by decide) (by decide) ch.toBit_lt sel.toBit_lt (idxFits_iff.1 h) (by decide) rfl
      (by cases ch <;> cases sel <;> rfl)
  | cfCfg ch | cfSetg ch | cfProc ch | cfRdstate ch | apCfg ch | apSetg ch | apProc ch | apRdstate ch =>
    exact decode_packFields (by decide) (by decide) ch.toBit_lt (by decide) (idxFits_iff.1 h) (by decide) rfl
      (by cases ch <;> rfl)
  | engConfig | engActivate | engCleanup =>
    exact decode_packFields (by decide) (by decide) (by decide) (by decide) (by decide) (by decide) rfl rfl
  | engProcess | engCsrr | engCsrw =>
    exact decode_packFields (by decide) (by decide) (by decide) (by decide) (by decide) (immFits_iff.1 h) rfl rfl
  | memRd | memWr =>
    obtain ⟨hspace, haddr⟩ := Bool.and_eq_true_iff.1 h
    exact decode_packFields (by decide) (by decide) (by decide) (by decide) (idxFits_iff.1 hspace) (immFits_iff.1 haddr)
      rfl rfl

namespace Machine

theorem commandOf_encode {i : Instr} (h : i.wf = true) : commandOf (encode i) = .ok i := by
  rw [commandOf, decode_encode h]

/-- Settles O5: a step decodes the head of the link, which is the command encoded. -/
theorem stepRunsDecoded : Obligations.StepRunsDecoded := by
  intro s i rest hwf hlink
  change step s = exec i (s.setLink rest)
  rw [step, hlink]
  simp only [commandOf_encode hwf]

end Machine

end Sys2Proof
end

section
/-! SUPPORT. The commands that only read (40_ring_buffer.md R126, R130; 41_biquad.md R156, R157; 42_comb.md R175; 43_allpass.md
R195): O23. -/

namespace Sys2Proof.Machine

/-- A unit command that only answers, past its checks (60_exceptions.md R302). -/
theorem unitCommand_succeed {s : State} {ok : Bool} (d : List Word) (h : s.estate = .running) (hok : ok = true) :
    unitCommand s ok (succeed s d) = .next (s.answered d) :=
  (unitCommand_running h hok).trans (succeed_eq s d)

/-- Settles O23: in RUNNING each read command that passes its index check only answers. -/
theorem unitReadsAnswer : Obligations.UnitReadsAnswer := by
  intro ch idx s hs
  exact ⟨fun sel k hi => ⟨unitCommand_succeed _ hs hi, unitCommand_succeed _ hs hi⟩,
    fun sel hi => ⟨unitCommand_succeed _ hs hi, unitCommand_succeed _ hs hi⟩,
    fun hi => unitCommand_succeed _ hs hi, fun hi => unitCommand_succeed _ hs hi⟩

end Sys2Proof.Machine
end

section
/-! SUPPORT. The one model fault: the read of a bank word that nothing has written (20_memory.md R67; 60_exceptions.md R310):
O12, O45. -/

namespace Sys2Proof.Machine

/-! ## The fault of a sample -/

/-- The fault of sample `k` of a block: its IN_L word is read before its IN_R word (20_memory.md R67; log 9). -/
def State.inputFault (s : State) (k : Nat) : Option Fault :=
  if s.readBank .inL k = none then some (.unwrittenSample .inL k)
  else if s.readBank .inR k = none then some (.unwrittenSample .inR k)
  else none

theorem State.inputFault_left {s : State} {k : Nat} (h : s.readBank .inL k = none) :
    s.inputFault k = some (.unwrittenSample .inL k) := if_pos h

theorem State.inputFault_right {s : State} {k : Nat} (hl : s.readBank .inL k ≠ none) (hr : s.readBank .inR k = none) :
    s.inputFault k = some (.unwrittenSample .inR k) := (if_neg hl).trans (if_pos hr)

theorem State.inputFault_eq_none {s : State} {k : Nat} :
    s.inputFault k = none ↔ s.readBank .inL k ≠ none ∧ s.readBank .inR k ≠ none := by
  rw [State.inputFault]
  split_ifs <;> simp [*]

/-- The fault of a sample names a word of its own that holds no value. -/
theorem State.inputFault_eq_some {s : State} {k : Nat} {f : Fault} (h : s.inputFault k = some f) :
    ∃ b, f = .unwrittenSample b k ∧ s.readBank b k = none ∧ (b = .inL ∨ b = .inR) := by
  by_cases hl : s.readBank .inL k = none
  · rw [State.inputFault_left hl] at h
    exact ⟨.inL, (Option.some.inj h).symm, hl, .inl rfl⟩
  by_cases hr : s.readBank .inR k = none
  · rw [State.inputFault_right hl hr] at h
    exact ⟨.inR, (Option.some.inj h).symm, hr, .inr rfl⟩
  · rw [State.inputFault_eq_none.2 ⟨hl, hr⟩] at h
    cases h

/-- The fault of a sample is a matter of the input banks alone. -/
theorem State.inputFault_congr {s t : State} (hl : t.inL = s.inL) (hr : t.inR = s.inR) : t.inputFault = s.inputFault := by
  funext k
  have hreadL : t.readBank .inL k = s.readBank .inL k := congrArg (findCell · k) hl
  have hreadR : t.readBank .inR k = s.readBank .inR k := congrArg (findCell · k) hr
  rw [State.inputFault, State.inputFault, hreadL, hreadR]

/-- A sample faults with the fault of its input words, or leaves the input banks as they were (45_engine.md R249). -/
theorem processSample_input (e : MixEnv) (k : Nat) (s : State) :
    (∃ f, s.inputFault k = some f ∧ processSample e k s = .error f) ∨
      ∃ t, s.inputFault k = none ∧ processSample e k s = .ok t ∧ t.inputFault = s.inputFault := by
  rcases processSample_cases e k s with ⟨hl, heq⟩ | ⟨xl, hl, hr, heq⟩ | ⟨xl, xr, hl, hr, heq⟩
  · exact .inl ⟨_, State.inputFault_left hl, heq⟩
  · exact .inl ⟨_, State.inputFault_right (by simp [hl]) hr, heq⟩
  · obtain ⟨-, -, -, hinL, hinR⟩ := processSample_frame heq
    exact .inr ⟨_, State.inputFault_eq_none.2 (by simp [hl, hr]), heq, State.inputFault_congr hinL hinR⟩

/-- A block faults exactly with the first fault of its samples (45_engine.md R249). -/
theorem processFrom_error_iff {e : MixEnv} {n k : Nat} {s : State} {f : Fault} :
    processFrom e n k s = .error f ↔
      ∃ j, k ≤ j ∧ j < k + n ∧ s.inputFault j = some f ∧ ∀ i, k ≤ i → i < j → s.inputFault i = none := by
  induction n generalizing k s with
  | zero =>
    simp only [processFrom, reduceCtorEq, false_iff]
    rintro ⟨j, hlo, hhi, -⟩
    omega
  | succ n ih =>
    rcases processSample_input e k s with ⟨g, hfault, heq⟩ | ⟨t, hfault, heq, hsame⟩
    · simp only [processFrom, heq, Except.error.injEq]
      constructor
      · rintro rfl
        exact ⟨k, le_rfl, by omega, hfault, fun i hlo hhi => by omega⟩
      · rintro ⟨j, hlo, -, hj, hbefore⟩
        obtain rfl : k = j := by
          by_contra hne
          simp [hbefore k le_rfl (by omega)] at hfault
        exact Option.some.inj (hfault.symm.trans hj)
    · simp only [processFrom, heq, ih, hsame]
      constructor
      · rintro ⟨j, hlo, hhi, hj, hbefore⟩
        refine ⟨j, by omega, by omega, hj, fun i hik hij => ?_⟩
        rcases hik.eq_or_lt with rfl | hlt
        · exact hfault
        · exact hbefore i hlt hij
      · rintro ⟨j, hlo, hhi, hj, hbefore⟩
        have hne : k ≠ j := by
          rintro rfl
          simp [hfault] at hj
        exact ⟨j, by omega, by omega, hj, fun i hik hij => hbefore i (by omega) hij⟩

/-- Change detection leaves the banks alone (45_engine.md R244). -/
@[simp] theorem State.inputFault_detect (s : State) : s.detect.inputFault = s.inputFault := by
  rcases s.detect_cases with ⟨-, heq⟩ | ⟨-, -, heq⟩ | ⟨-, -, heq⟩ <;> rw [heq] <;> exact State.inputFault_congr rfl rfl

/-- An accepted block answers the fault of its samples. -/
theorem exec_engProcess_fault {n : Nat} {s : State} {f : Fault} (he : s.estate = .running) (hn : n ≤ s.params.blockMax)
    (h : processFrom s.detect.mixEnv n 0 s.detect = .error f) : exec (.engProcess n) s = .fault f := by
  change checked s (firstError _) _ = _
  rw [processCheck_eq_none.2 ⟨he, hn⟩, checked_none, h]

/-- Settles O45: the first sample with a fault is the one whose input words are the first unwritten ones. -/
theorem processFaultsOnUnwritten : Obligations.ProcessFaultsOnUnwritten := by
  intro n k s he hn hk hwritten
  have hfault : ∀ f, s.inputFault k = some f → exec (.engProcess n) s = .fault f := by
    intro f hf
    refine exec_engProcess_fault he hn (processFrom_error_iff.2 ⟨k, Nat.zero_le k, by omega, ?_, fun j _ hj => ?_⟩)
    · rwa [State.inputFault_detect]
    · rw [State.inputFault_detect]
      exact State.inputFault_eq_none.2 (hwritten j hj)
  exact ⟨fun hl => hfault _ (State.inputFault_left hl), fun hl hr => hfault _ (State.inputFault_right hl hr)⟩

/-! ## No other fault, and no refusal -/

/-- A result that is no refusal, and a fault only where `F` allows it. -/
def FaultsOnly (F : Fault → Prop) (r : Result) : Prop := (∀ f, r = .fault f → F f) ∧ ∀ q, r ≠ .refused q

theorem faultsOnly_next {F : Fault → Prop} (t : State) : FaultsOnly F (.next t) := ⟨nofun, nofun⟩

theorem faultsOnly_fault {F : Fault → Prop} {f : Fault} (h : F f) : FaultsOnly F (.fault f) :=
  ⟨fun _ hg => Host.Outcome.fault.inj hg ▸ h, nofun⟩

theorem faultsOnly_unitCommand {F : Fault → Prop} {s : State} {ok : Bool} {body : Result} (h : FaultsOnly F body) :
    FaultsOnly F (unitCommand s ok body) := by
  rcases unitCommand_cases s ok body with ⟨-, heq⟩ | ⟨-, -, heq⟩ | ⟨-, -, heq⟩ <;> rw [heq]
  · exact faultsOnly_next _
  · exact faultsOnly_next _
  · exact h

theorem faultsOnly_checked {F : Fault → Prop} {s : State} {check : Option ErrorCode} {body : Result}
    (h : FaultsOnly F body) : FaultsOnly F (checked s check body) := by
  cases check with
  | none => exact h
  | some e => exact faultsOnly_next _

theorem faultsOnly_memCommand {F : Fault → Prop} {s : State} {space a : Nat} {body : Space → Result}
    (h : ∀ sp, FaultsOnly F (body sp)) : FaultsOnly F (memCommand s space a body) := by
  cases hsp : Space.ofIdx space with
  | none => rw [memCommand_none hsp]; exact faultsOnly_next _
  | some sp =>
    rw [memCommand_bank hsp]
    split
    · exact h sp
    · exact faultsOnly_next _

/-- The fault a command may raise: at a bank word that holds no value, which the command reads (20_memory.md R67). -/
def UnwrittenRead (i : Instr) (s : State) (f : Fault) : Prop :=
  ∃ b a, f = .unwrittenSample b a ∧ s.readBank b a = none ∧
    ((∃ space, i = .memRd space a) ∨ ∃ n, i = .engProcess n ∧ a < n ∧ (b = .inL ∨ b = .inR))

/-- MEM.RD faults at the address it names (46_sample_memory.md R280). -/
theorem faultsOnly_readSpace (s : State) (space a : Nat) (sp : Space) :
    FaultsOnly (UnwrittenRead (.memRd space a) s) (readSpace s a sp) := by
  cases sp with
  | rom => exact faultsOnly_next _
  | bank b =>
    rw [readSpace]
    split
    · exact faultsOnly_next _
    · exact faultsOnly_fault ⟨b, a, rfl, ‹_›, .inl ⟨space, rfl⟩⟩

theorem faultsOnly_writeSpace {F : Fault → Prop} (s : State) (a : Nat) (w : Word) (sp : Space) :
    FaultsOnly F (writeSpace s a w sp) := by
  cases sp <;> exact faultsOnly_next _

/-- ENG.PROCESS faults at an input word of its block (45_engine.md R249). -/
theorem faultsOnly_engProcess (s : State) (n : Nat) : FaultsOnly (UnwrittenRead (.engProcess n) s) (execEngProcess n s) := by
  refine faultsOnly_checked ?_
  split
  · obtain ⟨j, -, hj, hfault, -⟩ := processFrom_error_iff.1 ‹_›
    rw [State.inputFault_detect] at hfault
    obtain ⟨b, rfl, hread, hb⟩ := State.inputFault_eq_some hfault
    exact faultsOnly_fault ⟨b, j, rfl, hread, .inr ⟨n, rfl, by omega, hb⟩⟩
  · exact faultsOnly_next _

theorem faultsOnly_csrWrite {F : Fault → Prop} (s : State) (v : Word) (c : Csr) : FaultsOnly F (csrWrite s v c) := by
  cases c with
  | mode => rw [csrWrite]; split <;> exact faultsOnly_next _
  | _ => exact faultsOnly_next _

theorem faultsOnly_engCsrr {F : Fault → Prop} (s : State) (a : Nat) : FaultsOnly F (execEngCsrr a s) := by
  rw [execEngCsrr]
  split <;> exact faultsOnly_next _

theorem faultsOnly_engCsrw {F : Fault → Prop} (s : State) (a : Nat) (v : Word) : FaultsOnly F (execEngCsrw a v s) := by
  rw [execEngCsrw]
  split
  · exact faultsOnly_next _
  · exact faultsOnly_csrWrite s v _

/-- No command but MEM.RD and ENG.PROCESS faults, and none is refused (60_exceptions.md R310). -/
theorem exec_faultsOnly (i : Instr) (s : State) : FaultsOnly (UnwrittenRead i s) (exec i s) := by
  cases i with
  | rbPush | rbRead | rbWrite | rbClear | rbStat | bqReset | bqProc | bqLdcoef | bqRdcoef | bqRdhist | cfSetg | cfProc
  | cfRdstate | apSetg | apProc | apRdstate => exact faultsOnly_unitCommand (faultsOnly_next _)
  | rbSetlen | bqSetlp | bqSethp | bqSetpk | cfCfg | apCfg =>
    exact faultsOnly_unitCommand (faultsOnly_checked (faultsOnly_next _))
  | engConfig | engActivate => exact faultsOnly_checked (faultsOnly_next _)
  | engProcess n => exact faultsOnly_engProcess s n
  | engCleanup => exact faultsOnly_next _
  | engCsrr a => exact faultsOnly_engCsrr s a
  | engCsrw a v => exact faultsOnly_engCsrw s a v
  | memRd space a => exact faultsOnly_memCommand (faultsOnly_readSpace s space a)
  | memWr => exact faultsOnly_memCommand (faultsOnly_writeSpace s _ _)

/-- Settles O12: by what each command can answer. -/
theorem onlyUnwrittenSamplesFault : Obligations.OnlyUnwrittenSamplesFault :=
  ⟨fun i s => (exec_faultsOnly i s).1, fun i s => (exec_faultsOnly i s).2⟩

end Sys2Proof.Machine
end

section
/-! SUPPORT. The binary32 comparisons are those of the values, in both directions (00_scope.md R13, 10_state.md R44). -/

namespace Sys2Proof

/-- The magnitude field orders the magnitudes strictly: a larger fraction, or a binade above. -/
theorem F32.units_lt_units {a b : F32} (h : a.mag < b.mag) : a.units < b.units := by
  have hfrac : a.frac < 2 ^ 23 := Nat.mod_lt _ (by decide)
  have hexp : a.expField ≤ b.expField := Nat.div_le_div_right h.le
  unfold F32.units
  rcases hexp.eq_or_lt with heq | hlt
  · have : a.frac < b.frac := by
      simp only [F32.frac, F32.expField] at *
      omega
    rw [heq]
    split
    · exact this
    · gcongr
  · have hbinade : 2 ^ 23 * 2 ^ (b.expField - 1) ≤ (2 ^ 23 + b.frac) * 2 ^ (b.expField - 1) := by
      gcongr
      omega
    rw [if_neg (by omega : b.expField ≠ 0)]
    split
    · exact (hfrac.trans_le (Nat.le_mul_of_pos_right _ (by positivity))).trans_le hbinade
    · calc (2 ^ 23 + a.frac) * 2 ^ (a.expField - 1)
          < (2 ^ 23 * 2) * 2 ^ (a.expField - 1) := by gcongr; omega
        _ = 2 ^ 23 * 2 ^ (a.expField - 1 + 1) := by ring
        _ ≤ 2 ^ 23 * 2 ^ (b.expField - 1) := by
          gcongr
          · omega
          · omega
        _ ≤ (2 ^ 23 + b.frac) * 2 ^ (b.expField - 1) := hbinade

theorem F32.toReal_of_nonneg {w : F32} (h : 0 ≤ w.key) : w.toReal = (w.units : ℝ) / 2 ^ 149 := by
  cases hs : w.sign with
  | false => simp [F32.toReal, F32.unitsZ, hs]
  | true =>
    have hmag : w.mag = 0 := by
      rw [F32.key, hs, if_pos rfl] at h
      omega
    simp [F32.toReal, F32.unitsZ, hs, F32.units_eq_zero_of_mag hmag]

theorem F32.key_neg (w : F32) : w.neg.key = -w.key := by
  cases h : w.sign <;> simp [F32.key, h]

/-- The order of the values is the order of the keys, strictly: above zero by the magnitudes, below zero by negation, and
across zero by the signs. -/
theorem F32.toReal_lt_toReal {a b : F32} (h : a.key < b.key) : a.toReal < b.toReal := by
  have habove : ∀ {v w : F32}, 0 ≤ v.key → v.key < w.key → v.toReal < w.toReal := by
    intro v w hv hvw
    rw [F32.toReal_of_nonneg hv, F32.toReal_of_nonneg (hv.trans hvw.le)]
    have := F32.units_lt_units (a := v) (b := w) (by rw [← F32.natAbs_key, ← F32.natAbs_key]; omega)
    gcongr
  rcases le_or_gt 0 a.key with ha | ha
  · exact habove ha h
  rcases le_or_gt b.key 0 with hb | hb
  · have := habove (v := b.neg) (w := a.neg) (by rw [F32.key_neg]; omega) (by rw [F32.key_neg, F32.key_neg]; omega)
    rwa [F32.toReal_neg, F32.toReal_neg, neg_lt_neg_iff] at this
  · have hneg := F32.toReal_pos (w := a.neg) (by rw [F32.key_neg]; omega)
    rw [F32.toReal_neg] at hneg
    linarith [F32.toReal_pos hb]

theorem F32.toReal_le_iff {a b : F32} : a.toReal ≤ b.toReal ↔ a.key ≤ b.key :=
  ⟨fun h => not_lt.1 fun hlt => (F32.toReal_lt_toReal hlt).not_ge h, F32.toReal_le_toReal⟩

theorem F32.toReal_zero : F32.toReal 0 = 0 := by
  rw [F32.toReal, show F32.unitsZ 0 = 0 by decide, Int.cast_zero, zero_div]

theorem F32.toReal_one : F32.toReal F32.one = 1 := by
  rw [F32.toReal, show F32.one.unitsZ = 2 ^ 149 by decide]
  norm_num

theorem F32.toReal_pos_iff {w : F32} : 0 < w.toReal ↔ 0 < w.key := by
  rw [← not_le, ← not_le, ← F32.toReal_zero, F32.toReal_le_iff]
  rfl

/-- On finite words `≤` compares the values (10_state.md R44). -/
theorem F32.le_iff_toReal {a b : F32} (ha : a.isFinite = true) (hb : b.isFinite = true) :
    F32.le a b = true ↔ a.toReal ≤ b.toReal := by
  rw [F32.le_iff, F32.toReal_le_iff]
  simp only [F32.isNaN_eq_false_of_isFinite, ha, hb, true_and]

end Sys2Proof
end

section
/-! SUPPORT. The validity of a mode, over the reals (20_memory.md R74): O36. -/

namespace Sys2Proof.Machine

/-! ## The first failing check -/

theorem firstError_cons (c : Option ErrorCode) (cs : List (Option ErrorCode)) :
    firstError (c :: cs) = c.or (firstError cs) := by
  cases c <;> rfl

/-- Checks made one list after another. -/
theorem firstError_append_or (cs ds : List (Option ErrorCode)) :
    firstError (cs ++ ds) = (firstError cs).or (firstError ds) := by
  induction cs with
  | nil => rfl
  | cons c cs ih => rw [List.cons_append, firstError_cons, firstError_cons, ih, Option.or_assoc]

theorem firstError_flatMap {α : Type} (f : α → List (Option ErrorCode)) (xs : List α) :
    firstError (xs.flatMap f) = firstError (xs.map fun x => firstError (f x)) := by
  induction xs with
  | nil => rfl
  | cons x xs ih => rw [List.flatMap_cons, firstError_append_or, List.map_cons, firstError_cons, ih]

/-- Checks that all report one code fail with it. -/
theorem firstError_eq_some {e : ErrorCode} {cs : List (Option ErrorCode)} (h : ∀ c ∈ cs, c = none ∨ c = some e)
    (hne : firstError cs ≠ none) : firstError cs = some e := by
  induction cs with
  | nil => exact absurd rfl hne
  | cons c cs ih =>
    obtain ⟨hc, hcs⟩ := List.forall_mem_cons.1 h
    rcases hc with rfl | rfl
    · exact ih hcs hne
    · rfl

theorem require_eq_none_or (ok : Bool) (e : ErrorCode) : require ok e = none ∨ require ok e = some e := by
  cases ok
  · exact .inr rfl
  · exact .inl rfl

/-! ## Checks 1 to 3: the counts and the descriptors -/

theorem finitePos_iff_toReal {w : F32} : finitePos w = true ↔ w.isFinite = true ∧ 0 < w.toReal := by
  rw [finitePos_iff, F32.toReal_pos_iff]

theorem Params.countCheck_eq_none {p : Params} {m : Nat} : p.countCheck m = none ↔ CountsOk p m := by
  simp [Params.countCheck, CountsOk]

theorem Params.combCheck_eq_none {p : Params} {m i : Nat} : p.combCheck m i = none ↔ CombOk p m i := by
  simp only [Params.combCheck, CombOk, require_eq_none, Bool.and_eq_true, finitePos_iff_toReal]
  have hbright (h : (p.combBright m i).isFinite = true) :
      (F32.le 0 (p.combBright m i) = true ↔ 0 ≤ (p.combBright m i).toReal) ∧
        (F32.le (p.combBright m i) F32.one = true ↔ (p.combBright m i).toReal ≤ 1) := by
    rw [F32.le_iff_toReal rfl h, F32.le_iff_toReal h rfl, F32.toReal_zero, F32.toReal_one]
    exact ⟨Iff.rfl, Iff.rfl⟩
  tauto

theorem Params.apCheck_eq_none {p : Params} {m j : Nat} : p.apCheck m j = none ↔ ApOk p m j := by
  simp only [Params.apCheck, ApOk, require_eq_none, Bool.and_eq_true, finitePos_iff_toReal]
  tauto

/-- Checks 1 to 3 of a mode, in order. -/
def Params.descriptorChecks (p : Params) (m : Nat) : List (Option ErrorCode) :=
  p.countCheck m :: ((List.range (p.nComb m).toNat).map (p.combCheck m) ++ (List.range (p.nAp m).toNat).map (p.apCheck m))

theorem Params.descriptorChecks_eq_none {p : Params} {m : Nat} :
    firstError (p.descriptorChecks m) = none ↔ CountsOk p m ∧ DescriptorsOk p m := by
  simp only [firstError_eq_none, Params.descriptorChecks, List.forall_mem_cons, List.forall_mem_append,
    List.forall_mem_map, List.mem_range, Params.countCheck_eq_none, Params.combCheck_eq_none, Params.apCheck_eq_none,
    DescriptorsOk]

theorem Params.descriptorChecks_eq_some {p : Params} {m : Nat} (h : ¬CountsOk p m ∨ ¬DescriptorsOk p m) :
    firstError (p.descriptorChecks m) = some .presetInvalid := by
  refine firstError_eq_some ?_ (by rw [ne_eq, Params.descriptorChecks_eq_none]; tauto)
  simp only [Params.descriptorChecks, List.forall_mem_cons, List.forall_mem_append, List.forall_mem_map]
  exact ⟨require_eq_none_or .., fun _ _ => require_eq_none_or .., fun _ _ => require_eq_none_or ..⟩

/-! ## Check 4: the lengths -/

/-- The lengths check 4 looks at for one line, in its order. -/
def Params.lineLengths (p : Params) (base i : Nat) : List Nat :=
  [p.stereoLen base i .left false, p.stereoLen base i .left true, p.stereoLen base i .right false,
    p.stereoLen base i .right true]

/-- The lengths check 4 looks at, in its order: combs before allpasses in ascending index. -/
def Params.modeLengths (p : Params) (fs m : Nat) : List Nat :=
  ((List.range (p.nComb m).toNat).flatMap fun i => p.lineLengths (baseLen (p.combDelay m i) fs) i) ++
    (List.range (p.nAp m).toNat).flatMap fun j => p.lineLengths (baseLen (p.apDelay m j) fs) j

theorem Params.lineCheck_eq (p : Params) (base i : Nat) :
    p.lineCheck base i = firstError ((p.lineLengths base i).map p.lenCheck) := rfl

theorem Params.lenCheck_eq_none {p : Params} {len : Nat} : p.lenCheck len = none ↔ LengthOk p len := by
  simp [Params.lenCheck, firstError_eq_none, LengthOk]

theorem Params.lenCheck_of_lt {p : Params} {len : Nat} (h : len < 1) : p.lenCheck len = some .invalidDelay := by
  rw [Params.lenCheck, decide_eq_false h.not_ge]
  rfl

theorem Params.lenCheck_of_gt {p : Params} {len : Nat} (hpos : 1 ≤ len) (h : p.rbCap < len) :
    p.lenCheck len = some .capacity := by
  rw [Params.lenCheck, decide_eq_true hpos, decide_eq_false h.not_ge]
  rfl

/-- `base_len` is the floor over the reals (44_coefficients.md R219). -/
theorem baseLen_eq_floor {d : F32} (hfin : d.isFinite = true) (hpos : 0 < d.toReal) (fs : Nat) :
    baseLen d fs = ⌊d.toReal * fs / 1000⌋.toNat := by
  have hkey := F32.toReal_pos_iff.1 hpos
  have hfloor : ⌊d.toReal * fs / 1000⌋ = (d.units * fs / (1000 * 2 ^ 149) : ℕ) := by
    have hquot : d.toReal * fs / 1000 = ((d.units * fs : ℕ) : ℝ) / ((1000 * 2 ^ 149 : ℕ) : ℝ) := by
      rw [F32.toReal_of_nonneg hkey.le]
      push_cast
      ring
    rw [hquot, Int.floor_div_natCast, Int.floor_natCast]
    rfl
  have hcond : (d.isFinite && d.isPos) = true := finitePos_iff.2 ⟨hfin, hkey⟩
  rw [baseLen, if_pos hcond, hfloor, Int.toNat_natCast]

/-- `stereo_len` is the length over the reals (44_coefficients.md R220). -/
theorem Params.cast_stereoLen {p : Params} (h : p.stereoRatio.isPos = true) (base i : Nat) (ch : Chan) (s : Bool) :
    (p.stereoLen base i ch s : ℤ) = realStereoLen p base i ch s := by
  have hiff : (s && ((decide (i % 2 = 0) && decide (ch = .right)) || (decide (i % 2 = 1) && decide (ch = .left)))) = true ↔
      s = true ∧ (i % 2 = 0 ∧ ch = .right ∨ i % 2 = 1 ∧ ch = .left) := by simp
  simp only [Params.stereoLen, realStereoLen, hiff, Params.scaleLen]
  split
  · exact RealParam.floorMul_eq h base
  · rfl

theorem realLineLengths_eq {p : Params} (h : p.stereoRatio.isPos = true) {d : F32} (hfin : d.isFinite = true)
    (hpos : 0 < d.toReal) (fs i : Nat) :
    realLineLengths p fs i d = (p.lineLengths (baseLen d fs) i).map Nat.cast := by
  simp only [realLineLengths, Params.lineLengths, List.map_cons, List.map_nil, Params.cast_stereoLen h,
    baseLen_eq_floor hfin hpos]

/-- Where the descriptors pass, the lengths over the reals are those that check 4 looks at. -/
theorem realLengths_eq {p : Params} {m : Nat} (h : p.stereoRatio.isPos = true) (hd : DescriptorsOk p m) (fs : Nat) :
    realLengths p fs m = (p.modeLengths fs m).map Nat.cast := by
  obtain ⟨hcombs, haps⟩ := hd
  rw [realLengths, Params.modeLengths, List.map_append, List.map_flatMap, List.map_flatMap]
  congr 1
  · refine List.flatMap_congr fun i hi => ?_
    obtain ⟨hfin, -, -, hpos, -⟩ := hcombs i (List.mem_range.1 hi)
    exact realLineLengths_eq h hfin hpos fs i
  · refine List.flatMap_congr fun j hj => ?_
    obtain ⟨hfin, -, hpos, -⟩ := haps j (List.mem_range.1 hj)
    exact realLineLengths_eq h hfin hpos fs j

theorem Params.lengthChecks_eq_none {p : Params} {fs m : Nat} (h : p.stereoRatio.isPos = true)
    (hd : DescriptorsOk p m) :
    firstError ((p.modeLengths fs m).map p.lenCheck) = none ↔ ∀ len ∈ realLengths p fs m, LengthOk p len := by
  simp only [firstError_eq_none, realLengths_eq h hd, List.forall_mem_map, Params.lenCheck_eq_none]

/-- The first length that does not fit decides the code of check 4. -/
theorem Params.lengthChecks_of_first {p : Params} {fs m : Nat} (h : p.stereoRatio.isPos = true)
    (hd : DescriptorsOk p m) {earlier later : List ℤ} {len : ℤ} (hsplit : realLengths p fs m = earlier ++ len :: later)
    (hearlier : ∀ e ∈ earlier, LengthOk p e) :
    ∃ n : Nat, len = n ∧
      ∀ e, p.lenCheck n = some e → firstError ((p.modeLengths fs m).map p.lenCheck) = some e := by
  rw [realLengths_eq h hd, List.map_eq_append_iff] at hsplit
  obtain ⟨before, rest, hmode, rfl, hrest⟩ := hsplit
  obtain ⟨n, after, rfl, rfl, rfl⟩ := List.map_eq_cons_iff.1 hrest
  refine ⟨n, rfl, fun e he => ?_⟩
  have hbefore : ∀ c ∈ before.map p.lenCheck, c = none := by
    simpa only [List.forall_mem_map, Params.lenCheck_eq_none] using hearlier
  rw [hmode, List.map_append, List.map_cons, firstError_append hbefore, he, firstError_cons_some]

/-! ## Check 5: the cutoffs -/

theorem belowNyquist_iff {f0 : F32} {fs : Nat} : belowNyquist f0 fs = true ↔ f0.toReal < (fs : ℝ) / 2 := by
  rw [belowNyquist, decide_eq_true_eq, F32.toReal, div_lt_div_iff₀ (by positivity) two_pos, mul_comm]
  exact_mod_cast Iff.rfl

theorem asBadParam_eq_none {c : Option ErrorCode} : asBadParam c = none ↔ c = none := Option.map_eq_none_iff

theorem asBadParam_eq_none_or (c : Option ErrorCode) : asBadParam c = none ∨ asBadParam c = some .badParam := by
  cases c
  · exact .inl rfl
  · exact .inr rfl

/-- At a rate in range a design with a bandwidth of the configuration depends on the cutoff alone (41_biquad.md R144). -/
theorem Params.designCheck_param_eq_none {p : Params} {f0 : F32} {bw : RealParam} {fs : Nat} (hlo : 1 ≤ fs)
    (hhi : fs ≤ p.fsMax) (hbw : bw.isPos = true) : p.designCheck f0 (.param bw) fs = none ↔ CutoffOk fs f0 := by
  have hpos : f0.isFinite = true → (f0.isPos = true ↔ 0 < f0.toReal) := fun hf => by
    rw [F32.isPos_iff, F32.toReal_pos_iff, F32.isNaN_eq_false_of_isFinite hf]
    exact and_iff_right rfl
  simp only [Params.designCheck, firstError_eq_none, List.forall_mem_cons, require_eq_none, Bool.and_eq_true,
    decide_eq_true_eq, hlo, hhi, Bandwidth.isFinite, Bandwidth.isPos, hbw, belowNyquist_iff, CutoffOk, List.not_mem_nil]
  tauto

/-- Check 5 of a mode, in order. -/
def Params.cutoffChecks (p : Params) (fs m : Nat) : List (Option ErrorCode) :=
  (List.range (p.nComb m).toNat).map (p.dampCheck m fs) ++ [p.bandCheck (p.bpHighHz m) fs, p.bandCheck (p.bpLowHz m) fs]

theorem Params.cutoffChecks_eq_none {p : Params} {fs m : Nat} (hlo : 1 ≤ fs) (hhi : fs ≤ p.fsMax)
    (hdamp : p.dampBw.isPos = true) (hbp : p.bpBw.isPos = true) :
    firstError (p.cutoffChecks fs m) = none ↔ CutoffsOk p fs m := by
  simp only [firstError_eq_none, Params.cutoffChecks, List.forall_mem_append, List.forall_mem_cons, List.forall_mem_map,
    List.mem_range, Params.dampCheck, Params.bandCheck, asBadParam_eq_none, Params.designCheck_param_eq_none hlo hhi hdamp,
    Params.designCheck_param_eq_none hlo hhi hbp, CutoffsOk, List.not_mem_nil, false_implies, implies_true, and_true]

theorem Params.cutoffChecks_eq_some {p : Params} {fs m : Nat} (h : firstError (p.cutoffChecks fs m) ≠ none) :
    firstError (p.cutoffChecks fs m) = some .badParam := by
  refine firstError_eq_some ?_ h
  simp only [Params.cutoffChecks, List.forall_mem_append, List.forall_mem_cons, List.forall_mem_map]
  exact ⟨fun _ _ => asBadParam_eq_none_or _, asBadParam_eq_none_or _, asBadParam_eq_none_or _, nofun⟩

/-! ## The mode -/

/-- ValidMode is its three groups of checks, one after another (20_memory.md R74). -/
theorem Params.modeCheck_eq (p : Params) (fs m : Nat) :
    p.modeCheck fs m =
      (firstError (p.descriptorChecks m)).or
        ((firstError ((p.modeLengths fs m).map p.lenCheck)).or (firstError (p.cutoffChecks fs m))) := by
  simp only [Params.modeCheck, Params.descriptorChecks, Params.modeLengths, Params.cutoffChecks, firstError_cons,
    firstError_append_or, firstError_nil, Option.or_none, Option.or_assoc, List.map_append, List.map_flatMap,
    firstError_flatMap, ← Params.lineCheck_eq]

/-- Settles O36: the mode fails with the code of its first group that fails, and each group is its meaning over the reals. -/
theorem validModeMeaning : Obligations.ValidModeMeaning := by
  intro p fs m hreals hlo hhi
  simp only [Params.realsOk, Bool.and_eq_true] at hreals
  have hratio : p.stereoRatio.isPos = true := by tauto
  have hdamp : p.dampBw.isPos = true := by tauto
  have hbp : p.bpBw.isPos = true := by tauto
  have hpassed (hc : CountsOk p m) (hd : DescriptorsOk p m) :
      p.modeCheck fs m =
        (firstError ((p.modeLengths fs m).map p.lenCheck)).or (firstError (p.cutoffChecks fs m)) := by
    rw [Params.modeCheck_eq, Params.descriptorChecks_eq_none.2 ⟨hc, hd⟩, Option.none_or]
  refine ⟨fun hbad => ?descriptors, fun hc hd earlier later len hsplit hearlier => ?lengths,
    fun hc hd hlen hcut => ?cutoffs, ?valid⟩
  case descriptors =>
    rw [Params.modeCheck_eq, Params.descriptorChecks_eq_some hbad]
    rfl
  case lengths =>
    obtain ⟨n, rfl, hfirst⟩ := Params.lengthChecks_of_first hratio hd hsplit hearlier
    rw [hpassed hc hd]
    refine ⟨fun h => ?_, fun h => ?_⟩
    · rw [hfirst _ (Params.lenCheck_of_lt (by omega))]
      rfl
    · rw [hfirst _ (Params.lenCheck_of_gt (by omega) (by omega))]
      rfl
  case cutoffs =>
    rw [hpassed hc hd, (Params.lengthChecks_eq_none hratio hd).2 hlen, Option.none_or,
      Params.cutoffChecks_eq_some (mt (Params.cutoffChecks_eq_none hlo hhi hdamp hbp).1 hcut)]
    rfl
  case valid =>
    rw [Params.modeCheck_eq, Option.or_eq_none_iff, Option.or_eq_none_iff, Params.descriptorChecks_eq_none, and_assoc,
      Params.cutoffChecks_eq_none hlo hhi hdamp hbp]
    exact and_congr_right fun _ => and_congr_right fun hd =>
      and_congr_left fun _ => Params.lengthChecks_eq_none hratio hd

end Sys2Proof.Machine
end

section
/-! SUPPORT. Encoding and decoding (30_encoding.md R91 to R105): the fields of a word, the rows of the opcode map as masks
and as fields, and what a row builds: O1, O2, O3, O4, O6. -/

namespace Sys2Proof

/-! ## The fields of a command word (30_encoding.md R91) -/

/-- The fields tile the word: packing them again gives it back. -/
theorem packFields_fieldsOf (w : Word) : packFields (fieldsOf w) = w := by
  apply BitVec.eq_of_toNat_eq
  have hlt : w.toNat < 2 ^ 32 := w.isLt
  simp only [packFields, fieldsOf, bits, BitVec.toNat_ofNat]
  omega

theorem fieldsOf_injective {v w : Word} (h : fieldsOf v = fieldsOf w) : v = w := by
  rw [← packFields_fieldsOf v, h, packFields_fieldsOf]

theorem bits_lt (w : Word) (hi lo : Nat) : bits w hi lo < 2 ^ (hi - lo + 1) := Nat.mod_lt _ (by positivity)

theorem bits_and (v w : Word) (hi lo : Nat) : bits (v &&& w) hi lo = bits v hi lo &&& bits w hi lo := by
  simp only [bits, BitVec.toNat_and, Nat.and_div_two_pow, Nat.and_mod_two_pow]

/-- A mask with every bit of a field set keeps the field. -/
theorem bits_and_ones {v m : Word} {hi lo : Nat} (h : bits m hi lo = 2 ^ (hi - lo + 1) - 1) :
    bits (v &&& m) hi lo = bits v hi lo := by
  rw [bits_and, h, Nat.and_two_pow_sub_one_eq_mod, Nat.mod_eq_of_lt (bits_lt v hi lo)]

theorem bits_and_zero {v m : Word} {hi lo : Nat} (h : bits m hi lo = 0) : bits (v &&& m) hi lo = 0 := by
  rw [bits_and, h, Nat.and_zero]

/-- A mask that sets every bit of a field or none keeps the field or clears it. -/
theorem bits_and_field {v m : Word} {hi lo : Nat} {used : Bool}
    (h : bits m hi lo = if used = true then 0 else 2 ^ (hi - lo + 1) - 1) :
    bits (v &&& m) hi lo = if used = true then 0 else bits v hi lo := by
  cases used
  · exact bits_and_ones h
  · exact bits_and_zero h

/-! ## Rows as masks and as fields (30_encoding.md R93, R103) -/

theorem unusedZero_iff {used : Bool} {v : Nat} : unusedZero used v = true ↔ (if used = true then 0 else v) = 0 := by
  cases used <;> simp [unusedZero]

/-- A row's mask sets UNIT, OP and every field that the row does not use. -/
theorem fieldsOf_mask (r : Row) :
    fieldsOf r.mask =
      { unit := 15, op := 15, ch := if r.usesCh = true then 0 else 1, sel := if r.usesSel = true then 0 else 1,
        idx := if r.usesIdx = true then 0 else 63, imm := if r.usesImm = true then 0 else 65535 } := by
  simp only [Row.mask]
  generalize r.usesCh = ch, r.usesSel = sel, r.usesIdx = idx, r.usesImm = imm
  decide +revert

/-- A word under a row's mask: UNIT, OP and the fields that must be zero. -/
theorem fieldsOf_and_mask (w : Word) (r : Row) :
    fieldsOf (w &&& r.mask) =
      { fieldsOf w with
        ch := if r.usesCh = true then 0 else (fieldsOf w).ch, sel := if r.usesSel = true then 0 else (fieldsOf w).sel,
        idx := if r.usesIdx = true then 0 else (fieldsOf w).idx,
        imm := if r.usesImm = true then 0 else (fieldsOf w).imm } := by
  have hmask := fieldsOf_mask r
  simp only [fieldsOf, Fields.mk.injEq] at hmask ⊢
  obtain ⟨hunit, hop, hch, hsel, hidx, himm⟩ := hmask
  exact ⟨bits_and_ones hunit, bits_and_ones hop, bits_and_field hch, bits_and_field hsel, bits_and_field hidx,
    bits_and_field himm⟩

theorem fieldsOf_pattern {r : Row} (hunit : r.unit < 16) (hop : r.op < 16) :
    fieldsOf r.pattern = ⟨r.unit, r.op, 0, 0, 0, 0⟩ := by
  have hpack : r.pattern = packFields ⟨r.unit, r.op, 0, 0, 0, 0⟩ := by simp [Row.pattern, packFields]
  rw [hpack, fieldsOf_packFields hunit hop Nat.two_pos Nat.two_pos (Nat.succ_pos 63) (Nat.succ_pos 65535)]

/-- What it is for fields to fit a row. -/
theorem Row.fits_iff {r : Row} {f : Fields} :
    r.fits f = true ↔
      r.unit = f.unit ∧ r.op = f.op ∧ (if r.usesCh = true then 0 else f.ch) = 0 ∧
        (if r.usesSel = true then 0 else f.sel) = 0 ∧ (if r.usesIdx = true then 0 else f.idx) = 0 ∧
        (if r.usesImm = true then 0 else f.imm) = 0 := by
  simp only [Row.fits, Bool.and_eq_true, decide_eq_true_eq, unusedZero_iff, and_assoc]

/-- The rows of the opcode map use the six units 1 to 6, and OP is four bits wide (30_encoding.md R92). -/
theorem rows_unit_op : ∀ r ∈ rows, (1 ≤ r.unit ∧ r.unit ≤ 6) ∧ r.op < 16 := by decide

/-- The decoder's test of a row is the table's: the word under the mask is the match (30_encoding.md R103). -/
theorem fits_iff_mask {r : Row} (hr : r ∈ rows) {w : Word} :
    r.fits (fieldsOf w) = true ↔ w &&& r.mask = r.pattern := by
  obtain ⟨⟨-, hunit⟩, hop⟩ := rows_unit_op r hr
  have hfields : w &&& r.mask = r.pattern ↔ fieldsOf (w &&& r.mask) = fieldsOf r.pattern :=
    ⟨congrArg fieldsOf, fieldsOf_injective⟩
  rw [hfields, fieldsOf_and_mask, fieldsOf_pattern (by omega) hop, Row.fits_iff, Fields.mk.injEq, eq_comm (a := r.unit),
    eq_comm (a := r.op)]

/-- UNIT and OP name a row. -/
theorem rows_eq_of_unit_op : ∀ r ∈ rows, ∀ r' ∈ rows, r.unit = r'.unit → r.op = r'.op → r = r' := by decide

theorem rows_eq_of_fits {r r' : Row} (hr : r ∈ rows) (hr' : r' ∈ rows) {f : Fields} (h : r.fits f = true)
    (h' : r'.fits f = true) : r = r' := by
  obtain ⟨hunit, hop, -⟩ := Row.fits_iff.1 h
  obtain ⟨hunit', hop', -⟩ := Row.fits_iff.1 h'
  exact rows_eq_of_unit_op r hr r' hr' (hunit.trans hunit'.symm) (hop.trans hop'.symm)

/-- The row of a word is the row of the map that its fields fit. -/
theorem rowOf_eq_some_iff {w : Word} {r : Row} : rowOf w = some r ↔ r ∈ rows ∧ r.fits (fieldsOf w) = true := by
  refine ⟨fun h => ⟨List.mem_of_find?_eq_some h, by simpa using List.find?_some h⟩, fun ⟨hr, hfits⟩ => ?_⟩
  cases hrow : rowOf w with
  | none => exact absurd hfits (by simpa using List.find?_eq_none.1 hrow r hr)
  | some r' =>
    rw [rows_eq_of_fits (List.mem_of_find?_eq_some hrow) hr (by simpa using List.find?_some hrow) hfits]

/-! ## What a row builds -/

theorem Chan.toBit_ofBit {b : Nat} (h : b < 2) : (Chan.ofBit b).toBit = b := by
  interval_cases b <;> rfl

theorem RingSel.toBit_ofBit {b : Nat} (h : b < 2) : (RingSel.ofBit b).toBit = b := by
  interval_cases b <;> rfl

theorem FilterSel.toBit_ofBit {b : Nat} (h : b < 2) : (FilterSel.ofBit b).toBit = b := by
  interval_cases b <;> rfl

/-- The row of a command, by name (30_encoding.md R93). -/
def Instr.op : Instr → Op
  | .rbPush _ _ _ _ => .rbPush
  | .rbRead _ _ _ _ => .rbRead
  | .rbWrite _ _ _ _ _ => .rbWrite
  | .rbSetlen _ _ _ _ => .rbSetlen
  | .rbClear _ _ _ => .rbClear
  | .rbStat _ _ _ => .rbStat
  | .bqSetlp _ _ _ _ _ _ => .bqSetlp
  | .bqSethp _ _ _ _ _ _ => .bqSethp
  | .bqSetpk _ _ _ _ _ _ _ => .bqSetpk
  | .bqReset _ _ _ => .bqReset
  | .bqProc _ _ _ _ => .bqProc
  | .bqLdcoef _ _ _ _ _ _ _ _ => .bqLdcoef
  | .bqRdcoef _ _ _ => .bqRdcoef
  | .bqRdhist _ _ _ => .bqRdhist
  | .cfCfg _ _ _ _ _ _ _ => .cfCfg
  | .cfSetg _ _ _ => .cfSetg
  | .cfProc _ _ _ => .cfProc
  | .cfRdstate _ _ => .cfRdstate
  | .apCfg _ _ _ _ => .apCfg
  | .apSetg _ _ _ _ => .apSetg
  | .apProc _ _ _ => .apProc
  | .apRdstate _ _ => .apRdstate
  | .engConfig _ => .engConfig
  | .engActivate => .engActivate
  | .engProcess _ => .engProcess
  | .engCleanup => .engCleanup
  | .engCsrr _ => .engCsrr
  | .engCsrw _ _ => .engCsrw
  | .memRd _ _ => .memRd
  | .memWr _ _ _ => .memWr

/-- A row is found by its name. -/
theorem rows_find_name : ∀ r ∈ rows, rows.find? (fun r' => r'.name = r.name) = some r := by decide

/-- A built command is one of the row it was built for, and it carries the operand words it was built from. The split is
that of `buildInstr`: the name, and up to five operand words. -/
theorem op_and_ops_of_buildInstr {name : Op} {f : Fields} {ops : List Word} {i : Instr}
    (h : buildInstr name f ops = some i) : name = i.op ∧ ops = (encode i).ops := by
  rcases ops with _ | ⟨a, _ | ⟨b, _ | ⟨c, _ | ⟨d, _ | ⟨e, _ | _⟩⟩⟩⟩⟩
  all_goals cases name <;> cases h
  all_goals exact ⟨rfl, rfl⟩

/-- A row builds a command from as many operand words as its count (30_encoding.md R93). -/
theorem exists_buildInstr {r : Row} (hr : r ∈ rows) (f : Fields) {ops : List Word} (hcount : ops.length = r.count) :
    ∃ i, buildInstr r.name f ops = some i := by
  have hfind := rows_find_name r hr
  generalize r.name = name at hfind
  rcases ops with _ | ⟨a, _ | ⟨b, _ | ⟨c, _ | ⟨d, _ | ⟨e, _ | _⟩⟩⟩⟩⟩
  all_goals cases name <;> cases hfind <;> cases hcount
  all_goals exact ⟨_, rfl⟩

/-- A built command fits the encoding where the fields do (30_encoding.md R91). -/
theorem wf_of_buildInstr {name : Op} {f : Fields} {ops : List Word} {i : Instr} (hidx : f.idx < 64) (himm : f.imm < 65536)
    (h : buildInstr name f ops = some i) : i.wf = true := by
  rw [← idxFits_iff] at hidx
  rw [← immFits_iff] at himm
  obtain ⟨rfl, rfl⟩ := op_and_ops_of_buildInstr h
  cases i with
  | engConfig | engActivate | engCleanup => rfl
  | engProcess | engCsrr | engCsrw =>
    cases h
    exact himm
  | memRd | memWr =>
    cases h
    exact Bool.and_eq_true_iff.2 ⟨hidx, himm⟩
  | _ =>
    cases h
    exact hidx

/-- A command built from fields that fit its row is encoded as those fields (30_encoding.md R91, R93). -/
theorem encode_of_buildInstr {r : Row} (hr : r ∈ rows) {f : Fields} (hfits : r.fits f = true) (hch : f.ch < 2)
    (hsel : f.sel < 2) {ops : List Word} {i : Instr} (h : buildInstr r.name f ops = some i) :
    encode i = ⟨packFields f, ops⟩ ∧ ops.length = r.count := by
  have hfind := rows_find_name r hr
  obtain ⟨hname, rfl⟩ := op_and_ops_of_buildInstr h
  rw [hname] at hfind h
  obtain ⟨unit, op, ch, sel, idx, imm⟩ := f
  rw [Row.fits_iff] at hfits
  obtain ⟨hunit, hop, hfields⟩ := hfits
  dsimp only at hch hsel hunit hop hfields
  cases i with
  | rbPush | rbRead | rbWrite | rbSetlen | rbClear | rbStat =>
    cases hfind; cases h; cases hunit; cases hop
    obtain ⟨-, -, -, himm⟩ := hfields; cases himm
    rw [encode, packChSelIdx, Chan.toBit_ofBit hch, RingSel.toBit_ofBit hsel]
    exact ⟨rfl, rfl⟩
  | bqSetlp | bqSethp | bqSetpk | bqReset | bqProc | bqLdcoef | bqRdcoef | bqRdhist =>
    cases hfind; cases h; cases hunit; cases hop
    obtain ⟨-, -, -, himm⟩ := hfields; cases himm
    rw [encode, packChSelIdx, Chan.toBit_ofBit hch, FilterSel.toBit_ofBit hsel]
    exact ⟨rfl, rfl⟩
  | cfCfg | cfSetg | cfProc | cfRdstate | apCfg | apSetg | apProc | apRdstate =>
    cases hfind; cases h; cases hunit; cases hop
    obtain ⟨-, hsel, -, himm⟩ := hfields; cases hsel; cases himm
    rw [encode, packChSelIdx, Chan.toBit_ofBit hch]
    exact ⟨rfl, rfl⟩
  | _ =>
    cases hfind; cases h; cases hunit; cases hop
    obtain ⟨hch, hsel, hidx, himm⟩ := hfields; cases hch; cases hsel; cases hidx; cases himm
    exact ⟨rfl, rfl⟩

/-! ## The decoder (30_encoding.md R103) -/

/-- All that the decoder answers a command to: a word that fits a row, with operand words that the row builds from. -/
theorem decode_eq_ok_iff {t : Transaction} {i : Instr} :
    decode t = .ok i ↔
      ∃ r ∈ rows, r.fits (fieldsOf t.cmd) = true ∧ buildInstr r.name (fieldsOf t.cmd) t.ops = some i := by
  simp only [← and_assoc, ← rowOf_eq_some_iff]
  unfold decode
  cases rowOf t.cmd with
  | none => simp
  | some r => cases hbuild : buildInstr r.name (fieldsOf t.cmd) t.ops <;> simp [hbuild]

/-- A transaction that decodes is the encoding of a well-formed command. -/
theorem encode_of_decode {t : Transaction} {i : Instr} (h : decode t = .ok i) : i.wf = true ∧ encode i = t := by
  obtain ⟨r, hr, hfits, hbuild⟩ := decode_eq_ok_iff.1 h
  obtain ⟨hencode, -⟩ := encode_of_buildInstr hr hfits (bits_lt ..) (bits_lt ..) hbuild
  exact ⟨wf_of_buildInstr (bits_lt ..) (bits_lt ..) hbuild, by rw [hencode, packFields_fieldsOf]⟩

/-- A transaction decodes exactly where its word fits a row and it carries that row's count of operand words. -/
theorem exists_decode_iff {t : Transaction} :
    (∃ i, decode t = .ok i) ↔ ∃ r ∈ rows, t.cmd &&& r.mask = r.pattern ∧ t.ops.length = r.count := by
  simp only [decode_eq_ok_iff]
  constructor
  · rintro ⟨i, r, hr, hfits, hbuild⟩
    exact ⟨r, hr, (fits_iff_mask hr).1 hfits, (encode_of_buildInstr hr hfits (bits_lt ..) (bits_lt ..) hbuild).2⟩
  · rintro ⟨r, hr, hmask, hcount⟩
    obtain ⟨i, hbuild⟩ := exists_buildInstr hr (fieldsOf t.cmd) hcount
    exact ⟨i, r, hr, (fits_iff_mask hr).2 hmask, hbuild⟩

/-- Settles O1: decoding the encoding goes back to the command, constructor by constructor (`decode_encode`). -/
theorem decodeEncodeRoundTrip : Obligations.DecodeEncodeRoundTrip := fun _ => decode_encode

/-- Settles O2: the fields of a word tile it, and the row leaves none of them out. -/
theorem encodeDecodeRoundTrip : Obligations.EncodeDecodeRoundTrip := fun _ _ => encode_of_decode

/-- Settles O3: a mask fits where the decoder's row does, and UNIT and OP name the row. -/
theorem decodeFollowsOpcodeTable : Obligations.DecodeFollowsOpcodeTable :=
  ⟨fun _ => exists_decode_iff, fun _ _ hr _ hr' h h' =>
    rows_eq_of_fits hr hr' ((fits_iff_mask hr).2 h) ((fits_iff_mask hr').2 h')⟩

/-- Settles O4: each word is the one that the encoder gives its command. -/
theorem wordsOfEachUnitDecode : Obligations.WordsOfEachUnitDecode :=
  ⟨decode_encode (i := .rbPush .left .allpass 7 0x3F800000) rfl,
    decode_encode (i := .bqSetlp .right .bandpass 1 0x447A0000 0x3F800000 0xAC44) rfl,
    decode_encode (i := .cfProc .right 5 0x7FC00001) rfl,
    decode_encode (i := .apSetg .left 0 0x3F800000 0x3F000000) rfl,
    decode_encode (i := .engProcess 4410) rfl,
    decode_encode (i := .memWr 3 16 0xDEADBEEF) rfl⟩

namespace Machine

/-! ## Reserved encodings (30_encoding.md R92, R104) -/

theorem commandOf_eq_error {t : Transaction} (h : ¬∃ i, decode t = .ok i) : commandOf t = .error .illegalCmd := by
  unfold commandOf
  cases hd : decode t with
  | ok i => exact absurd ⟨i, hd⟩ h
  | error e => rfl

/-- A step on a transaction that no row fits fails with ILLEGAL_CMD. -/
theorem step_of_no_row {s : State} {t : Transaction} {rest : List Transaction} (hlink : s.link = t :: rest)
    (h : ¬∃ r ∈ rows, t.cmd &&& r.mask = r.pattern ∧ t.ops.length = r.count) :
    step s = .next ((s.setLink rest).failed 0x01) := by
  rw [step, hlink]
  simp only [commandOf_eq_error (mt exists_decode_iff.1 h)]
  rfl

/-- A word of a reserved unit is under the mask of no row. -/
theorem no_row_of_reserved_unit {w : Word} (h : bits w 31 28 = 0 ∨ 7 ≤ bits w 31 28) {r : Row} (hr : r ∈ rows) :
    w &&& r.mask ≠ r.pattern := by
  intro hmask
  obtain ⟨⟨hlo, hhi⟩, -⟩ := rows_unit_op r hr
  have hunit : r.unit = bits w 31 28 := (Row.fits_iff.1 ((fits_iff_mask hr).2 hmask)).1
  omega

/-- Settles O6: no row fits a reserved encoding, and the six units of the rows are not the reserved ones. -/
theorem reservedEncodingsAreIllegal : Obligations.ReservedEncodingsAreIllegal :=
  ⟨fun _ _ _ hlink h => step_of_no_row hlink fun ⟨r, hr, hfits⟩ => h r hr hfits,
    fun _ _ _ hlink h => step_of_no_row hlink fun ⟨_, hr, hfits, _⟩ => no_row_of_reserved_unit h hr hfits⟩

end Machine

end Sys2Proof
end

section
/-! SUPPORT. One response for each transaction (30_encoding.md R102): what every effect leaves alone, and how many data words
each command answers: O7. -/

namespace Sys2Proof.Machine

/-! ## What no effect changes -/

/-- The parameters, the link and the responses so far, which no command changes before it answers. -/
structure SameHostView (s u : State) : Prop where
  params : u.params = s.params
  link : u.link = s.link
  responses : u.responses = s.responses

theorem LocalUpdate.sameHostView {s u : State} (h : LocalUpdate s u) : SameHostView s u := by
  induction h with
  | none | controls => exact ⟨rfl, rfl, rfl⟩
  | draw _ ih => exact ⟨ih.params, ih.link, ih.responses⟩
  | ring | filter | comb | ap | bank => constructor <;> simp

theorem State.sameHostView_detect (s : State) : SameHostView s s.detect := by
  rcases s.detect_cases with ⟨-, heq⟩ | ⟨-, -, heq⟩ | ⟨-, -, heq⟩ <;> rw [heq] <;> constructor <;> simp

theorem Effect.sameHostView {i : Instr} {s u : State} (h : Effect s i u) : SameHostView s u := by
  cases i with
  | engConfig fs =>
    obtain ⟨-, rfl⟩ := h
    exact ⟨rfl, rfl, rfl⟩
  | engActivate =>
    obtain ⟨-, rfl⟩ := h
    exact ⟨rfl, rfl, rfl⟩
  | engProcess n =>
    obtain ⟨-, -, v, hv, rfl⟩ := h
    obtain ⟨hregs, hresp, -⟩ := processFrom_frame hv
    have hdetect := s.sameHostView_detect
    exact ⟨hregs.params.trans hdetect.params, hregs.link.trans hdetect.link, hresp.trans hdetect.responses⟩
  | engCleanup =>
    obtain rfl := h
    exact ⟨rfl, rfl, rfl⟩
  | _ => exact LocalUpdate.sameHostView h

/-! ## The data words of each command (30_encoding.md R93) -/

/-- Where a command answers a next state with OK, it answers `n` data words. -/
def DataCount (n : Nat) (r : Result) : Prop :=
  ∀ t a rest, r = .next t → t.responses = a :: rest → a.word = 0 → a.data.length = n

theorem dataCount_failWith {n : Nat} (s : State) (e : ErrorCode) : DataCount n (failWith s e) := by
  rintro t a rest ⟨⟩ hresp hword
  obtain ⟨rfl, -⟩ := List.cons.inj hresp
  exact absurd hword e.zeroExtend_ne_zero

theorem dataCount_succeed {n : Nat} {s : State} {d : List Word} (h : d.length = n) : DataCount n (succeed s d) := by
  rintro t a rest ⟨⟩ hresp -
  obtain ⟨rfl, -⟩ := List.cons.inj hresp
  exact h

theorem dataCount_fault {n : Nat} (f : Fault) : DataCount n (.fault f) := by
  intro t a rest h
  cases h

theorem dataCount_unitCommand {n : Nat} {s : State} {ok : Bool} {body : Result} (h : DataCount n body) :
    DataCount n (unitCommand s ok body) := by
  rcases unitCommand_cases s ok body with ⟨-, heq⟩ | ⟨-, -, heq⟩ | ⟨-, -, heq⟩ <;> rw [heq]
  · exact dataCount_failWith s _
  · exact dataCount_failWith s _
  · exact h

theorem dataCount_checked {n : Nat} {s : State} {check : Option ErrorCode} {body : Result} (h : DataCount n body) :
    DataCount n (checked s check body) := by
  cases check with
  | none => exact h
  | some e => exact dataCount_failWith s e

theorem dataCount_memCommand {n : Nat} {s : State} {space a : Nat} {body : Space → Result}
    (h : ∀ sp, DataCount n (body sp)) : DataCount n (memCommand s space a body) := by
  cases hsp : Space.ofIdx space with
  | none =>
    rw [memCommand_none hsp]
    exact dataCount_failWith s _
  | some sp =>
    rw [memCommand_bank hsp]
    split
    · exact h sp
    · exact dataCount_failWith s _

theorem dataCount_readSpace (s : State) (a : Nat) (sp : Space) : DataCount 1 (readSpace s a sp) := by
  cases sp with
  | rom => exact dataCount_succeed rfl
  | bank b =>
    rw [readSpace]
    split
    · exact dataCount_succeed rfl
    · exact dataCount_fault _

theorem dataCount_writeSpace (s : State) (a : Nat) (w : Word) (sp : Space) : DataCount 0 (writeSpace s a w sp) := by
  cases sp with
  | rom => exact dataCount_failWith s _
  | bank b => exact dataCount_succeed rfl

theorem dataCount_csrWrite (s : State) (v : Word) (c : Csr) : DataCount 0 (csrWrite s v c) := by
  cases c with
  | errclr | decayMs | dryDb | wetDb | flags => exact dataCount_succeed rfl
  | mode =>
    rw [csrWrite]
    split
    · exact dataCount_succeed rfl
    · exact dataCount_failWith s _
  | _ => exact dataCount_failWith s _

theorem dataCount_engCsrr (s : State) (a : Nat) : DataCount 1 (execEngCsrr a s) := by
  rw [execEngCsrr]
  split
  · exact dataCount_failWith s _
  · exact dataCount_succeed rfl

theorem dataCount_engCsrw (s : State) (a : Nat) (v : Word) : DataCount 0 (execEngCsrw a v s) := by
  rw [execEngCsrw]
  split
  · exact dataCount_failWith s _
  · exact dataCount_csrWrite s v _

theorem dataCount_engProcess (s : State) (n : Nat) : DataCount 0 (execEngProcess n s) := by
  refine dataCount_checked ?_
  split
  · exact dataCount_fault _
  · exact dataCount_succeed rfl

/-- A command that succeeds answers the data words of its row of the opcode map. -/
theorem exec_dataCount (i : Instr) (s : State) : DataCount (responseCount i) (exec i s) := by
  cases i with
  | rbPush | rbRead | rbWrite | rbClear | rbStat | bqReset | bqProc | bqLdcoef | bqRdcoef | bqRdhist | cfSetg | cfProc
  | cfRdstate | apSetg | apProc | apRdstate => exact dataCount_unitCommand (dataCount_succeed rfl)
  | rbSetlen | bqSetlp | bqSethp | bqSetpk | cfCfg | apCfg =>
    exact dataCount_unitCommand (dataCount_checked (dataCount_succeed rfl))
  | engConfig | engActivate => exact dataCount_checked (dataCount_succeed rfl)
  | engProcess n => exact dataCount_engProcess s n
  | engCleanup => exact dataCount_succeed rfl
  | engCsrr a => exact dataCount_engCsrr s a
  | engCsrw a v => exact dataCount_engCsrw s a v
  | memRd space a => exact dataCount_memCommand (dataCount_readSpace s a)
  | memWr space a w => exact dataCount_memCommand (dataCount_writeSpace s a w)

/-! ## One response -/

/-- The response word is a code of R300, and only OK is followed by data words (30_encoding.md R102). -/
def Response.Formed (r : Response) : Prop := r.word.toNat ≤ 0x0C ∧ (r.word ≠ 0 → r.data = [])

theorem ErrorCode.response_formed (e : ErrorCode) : e.response.Formed := ⟨by cases e <;> decide, fun _ => rfl⟩

theorem okResponse_formed (d : List Word) : (okResponse d).Formed := ⟨Nat.zero_le _, fun h => absurd rfl h⟩

/-- A command answers one response and takes nothing from the link. -/
theorem exec_response {i : Instr} {s t : State} (h : exec i s = .next t) :
    t.params = s.params ∧ t.link = s.link ∧
      ∃ r, t.responses = r :: s.responses ∧ r.Formed ∧ (r.word = 0 → r.data.length = responseCount i) := by
  have hcount := exec_dataCount i s t
  rcases exec_endsIn i s t h with ⟨e, rfl⟩ | ⟨u, d, hu, rfl⟩
  · exact ⟨rfl, rfl, e.response, rfl, e.response_formed, hcount _ _ h rfl⟩
  · have hview := Effect.sameHostView hu
    have hresp : (u.answered d).responses = okResponse d :: s.responses := congrArg _ hview.responses
    exact ⟨hview.params, hview.link, okResponse d, hresp, okResponse_formed d, hcount _ _ h hresp⟩

theorem decode_of_commandOf {tr : Transaction} {i : Instr} (h : commandOf tr = .ok i) : decode tr = .ok i := by
  unfold commandOf at h
  split at h <;> cases h
  assumption

/-- Settles O7: a step waits, answers ILLEGAL_CMD, or answers what its command answers. -/
theorem oneResponsePerTransaction : Obligations.OneResponsePerTransaction := by
  intro s t ht
  rcases step_cases s with ⟨hlink, heq⟩ | ⟨tr, rest, e, hlink, -, heq⟩ | ⟨tr, rest, i, hlink, hcmd, heq⟩ <;>
    rw [heq] at ht
  · cases ht
    exact ⟨rfl, .inl ⟨hlink, rfl⟩⟩
  · cases ht
    obtain ⟨hcode, hdata⟩ := e.response_formed
    exact ⟨rfl, .inr ⟨tr, e.response, hlink, rfl, hcode, hdata, fun h => absurd h e.zeroExtend_ne_zero⟩⟩
  · obtain ⟨hparams, hrest, r, hresp, ⟨hcode, hdata⟩, hcount⟩ := exec_response ht
    rw [State.setLink_link] at hrest
    exact ⟨hparams, .inr ⟨tr, r, hrest ▸ hlink, hresp, hcode, hdata, fun h =>
      ⟨i, decode_of_commandOf hcmd, hcount h⟩⟩⟩

end Sys2Proof.Machine
end

section
/-! SUPPORT. Decimal literals (30_encoding.md R107): a quotient with a bit for what was cut off rounds as the exact quotient
does: O59. -/

namespace Sys2Proof

/-! ## Reals between the same two neighbours -/

/-- Inside a half unit, rounding to nearest does not depend on the place. -/
theorem roundHalfEvenReal_of_half {y : ℝ} {j : ℤ} (hlo : (j : ℝ) < 2 * y) (hhi : 2 * y < j + 1) :
    roundHalfEvenReal y = (j + 1) / 2 := by
  rcases Int.even_or_odd' j with ⟨k, rfl | rfl⟩ <;> push_cast at hlo hhi
  · have hfloor : ⌊y⌋ = k := Int.floor_eq_iff.2 ⟨by linarith, by linarith⟩
    have hfract : Int.fract y < 1 / 2 := by rw [Int.fract, hfloor]; linarith
    rw [roundHalfEvenReal, if_pos hfract, hfloor]
    omega
  · have hfloor : ⌊y⌋ = k := Int.floor_eq_iff.2 ⟨by linarith, by linarith⟩
    have hfract : 1 / 2 < Int.fract y := by rw [Int.fract, hfloor]; linarith
    rw [roundHalfEvenReal, if_neg hfract.not_gt, if_pos hfract, hfloor]
    omega

/-- `a` lies strictly between the even neighbours `2q` and `2q + 2`, counted in units of `2^-k`. -/
def BetweenEven (k q : ℕ) (a : ℝ) : Prop := 2 * (q : ℝ) < a * 2 ^ k ∧ a * 2 ^ k < 2 * (q : ℝ) + 2

theorem BetweenEven.pos {k q : ℕ} {a : ℝ} (h : BetweenEven k q a) : 0 < a := by
  have hq : (0 : ℝ) ≤ 2 * q := by positivity
  exact pos_of_mul_pos_left (hq.trans_lt h.1) (by positivity)

/-- A power of two from `2^(1-k)` on is an even number of units, so `q` alone says whether it is below. -/
theorem BetweenEven.zpow_le_iff {k q e : ℕ} {a : ℝ} (h : BetweenEven k q a) :
    (2 : ℝ) ^ ((e : ℤ) + 1 - k) ≤ a ↔ 2 ^ e ≤ q := by
  obtain ⟨hlo, hhi⟩ := h
  have hunits : (2 : ℝ) ^ ((e : ℤ) + 1 - k) ≤ a ↔ 2 * (2 : ℝ) ^ e ≤ a * 2 ^ k := by
    rw [zpow_sub₀ two_ne_zero, zpow_natCast, zpow_add_one₀ two_ne_zero, zpow_natCast, div_le_iff₀ (by positivity),
      mul_comm (2 : ℝ)]
  rw [hunits]
  constructor <;> intro h
  · have hlt : (2 : ℝ) ^ e < q + 1 := by linarith
    exact Nat.lt_succ_iff.1 (by exact_mod_cast hlt)
  · have hle : (2 : ℝ) ^ e ≤ q := by exact_mod_cast h
    linarith

theorem le_lastPlace_iff {x : ℝ} (hx : 0 < |x|) {c : ℤ} (hc : -149 < c) :
    c ≤ lastPlace x ↔ (2 : ℝ) ^ (c + 23) ≤ |x| := by
  rw [lastPlace, le_max_iff, or_iff_left (by omega), le_sub_iff_add_le]
  exact_mod_cast (Int.zpow_le_iff_le_log one_lt_two hx).symm

/-- Two reals between the same neighbours, no further apart than the last bit kept, have the same last place. -/
theorem lastPlace_congr {k q : ℕ} {x x' : ℝ} (hk : 127 ≤ k) (h : BetweenEven k q |x|) (h' : BetweenEven k q |x'|) :
    lastPlace x = lastPlace x' := by
  refine eq_of_forall_le_iff fun c => ?_
  rcases le_or_gt c (-149) with hc | hc
  · exact iff_of_true (hc.trans (le_max_right ..)) (hc.trans (le_max_right ..))
  · obtain ⟨e, he⟩ := Int.eq_ofNat_of_zero_le (by omega : 0 ≤ c + 23 + k - 1)
    have hexp : c + 23 = (e : ℤ) + 1 - k := by omega
    rw [le_lastPlace_iff h.pos hc, le_lastPlace_iff h'.pos hc, hexp, h.zpow_le_iff, h'.zpow_le_iff]

/-- What is kept of a real between two even neighbours, where at least two bits are dropped, depends on the neighbours
alone. -/
theorem BetweenEven.roundHalfEvenReal_eq {k q d : ℕ} {a : ℝ} (h : BetweenEven k q a) {l : ℤ}
    (hl : l + k = (d : ℤ) + 2) :
    roundHalfEvenReal (a / (2 : ℝ) ^ l) = ((q / 2 ^ d : ℕ) + 1) / 2 := by
  obtain ⟨hlo, hhi⟩ := h
  have hpow : (0 : ℝ) < 2 ^ d := by positivity
  have hdrop : 2 * (a / (2 : ℝ) ^ l) = a * 2 ^ k / (2 * 2 ^ d) := by
    have hsplit : (2 : ℝ) ^ l * 2 ^ k = 2 ^ d * 4 := by
      rw [← zpow_natCast, ← zpow_add₀ two_ne_zero, hl, zpow_add₀ two_ne_zero, zpow_natCast]
      norm_num
    have hne : (2 : ℝ) ^ l ≠ 0 := by positivity
    rw [mul_div_assoc', div_eq_div_iff hne (by positivity)]
    linear_combination -a * hsplit
  have hbelow : ((q / 2 ^ d : ℕ) : ℝ) * 2 ^ d ≤ q := by exact_mod_cast Nat.div_mul_le_self q (2 ^ d)
  have habove : (q : ℝ) + 1 ≤ ((q / 2 ^ d : ℕ) + 1) * 2 ^ d := by
    exact_mod_cast Nat.succ_le_of_lt (Nat.lt_mul_of_div_lt (Nat.lt_succ_self (q / 2 ^ d)) (by positivity))
  refine roundHalfEvenReal_of_half (j := (q / 2 ^ d : ℕ)) ?_ ?_ <;> rw [hdrop, Int.cast_natCast]
  · rw [lt_div_iff₀ (by positivity)]
    linarith
  · rw [div_lt_iff₀ (by positivity)]
    linarith

/-- Two reals of one sign between the same neighbours, two bits or more below 2^-149, round to the same word. -/
theorem roundReal_congr {k q : ℕ} {x x' : ℝ} (hk : 151 ≤ k) (hsign : x < 0 ↔ x' < 0) (h : BetweenEven k q |x|)
    (h' : BetweenEven k q |x'|) : roundReal x = roundReal x' := by
  have hplace : lastPlace x = lastPlace x' := lastPlace_congr (by omega) h h'
  have hmin : -149 ≤ lastPlace x' := le_max_right ..
  obtain ⟨d, hd⟩ := Int.eq_ofNat_of_zero_le (by omega : 0 ≤ lastPlace x' + k - 2)
  have hdrop : lastPlace x' + k = (d : ℤ) + 2 := by omega
  rw [roundReal, roundReal, if_neg (abs_pos.1 h.pos), if_neg (abs_pos.1 h'.pos), hplace, h.roundHalfEvenReal_eq hdrop,
    h'.roundHalfEvenReal_eq hdrop]
  simp only [hsign]

/-! ## The quotient of a literal -/

namespace Machine

/-- Twice the quotient, made odd where something was cut off: `decimalToF32` rounds this in place of the exact quotient. -/
def stickyQuotient (n d : ℕ) : ℕ := n / d * 2 + if n % d = 0 then 0 else 1

theorem stickyQuotient_of_dvd {n d : ℕ} (h : n % d = 0) : (stickyQuotient n d : ℝ) = 2 * ((n : ℝ) / d) := by
  rw [stickyQuotient, if_pos h, Nat.add_zero, Nat.cast_mul, Nat.cast_div_charZero (Nat.dvd_of_mod_eq_zero h), mul_comm]
  rfl

/-- Where something was cut off, the exact quotient and the odd one lie between the same even neighbours. -/
theorem quotient_between {n d : ℕ} (hd : 0 < d) (h : n % d ≠ 0) :
    (2 * ((n / d : ℕ) : ℝ) < 2 * ((n : ℝ) / d) ∧ 2 * ((n : ℝ) / d) < 2 * ((n / d : ℕ) : ℝ) + 2) ∧
      stickyQuotient n d = 2 * (n / d) + 1 := by
  have hdiv : d * (n / d) + n % d = n := Nat.div_add_mod n d
  have hmod : n % d < d := Nat.mod_lt n hd
  have hd' : (0 : ℝ) < d := by exact_mod_cast hd
  have hlo : ((n / d : ℕ) : ℝ) * d < n := by
    exact_mod_cast (by rw [mul_comm]; omega : n / d * d < n)
  have hhi : (n : ℝ) < (((n / d : ℕ) : ℝ) + 1) * d := by
    exact_mod_cast (by rw [Nat.add_mul, mul_comm (n / d)]; omega : n < (n / d + 1) * d)
  rw [← lt_div_iff₀ hd'] at hlo
  rw [← div_lt_iff₀ hd'] at hhi
  refine ⟨⟨by linarith, by linarith⟩, ?_⟩
  rw [stickyQuotient, if_neg h, mul_comm]

/-- The quotient with its sticky bit rounds as the exact quotient: three bits below 2^-149 suffice (30_encoding.md R107). -/
theorem roundReal_quotient {x : ℝ} {n d : ℕ} (hn : n ≠ 0) (hd : 0 < d)
    (hx : |x| = 2 * ((n : ℝ) / d) / 2 ^ (149 + 3)) :
    roundReal x = F32.ofMag (decide (x < 0)) (roundMag (stickyQuotient n d) 3) := by
  by_cases hmod : n % d = 0
  · rw [← stickyQuotient_of_dvd hmod] at hx
    have hm : stickyQuotient n d ≠ 0 := by
      have := Nat.div_pos (Nat.le_of_dvd (Nat.pos_of_ne_zero hn) (Nat.dvd_of_mod_eq_zero hmod)) hd
      rw [stickyQuotient]
      omega
    exact roundReal_of_abs hm hx
  · obtain ⟨hbetween, hsticky⟩ := quotient_between hd hmod
    have hpos : (0 : ℝ) < (stickyQuotient n d : ℝ) / 2 ^ (149 + 3) := by
      rw [hsticky]
      positivity
    obtain ⟨x', hx', hsign⟩ : ∃ x' : ℝ, |x'| = (stickyQuotient n d : ℝ) / 2 ^ (149 + 3) ∧ (x < 0 ↔ x' < 0) := by
      rcases lt_or_ge x 0 with hneg | hnonneg
      · exact ⟨-_, (abs_neg _).trans (abs_of_pos hpos), iff_of_true hneg (neg_lt_zero.2 hpos)⟩
      · exact ⟨_, abs_of_pos hpos, iff_of_false hnonneg.not_gt hpos.not_gt⟩
    have hcancel (a : ℝ) : a / 2 ^ (149 + 3) * 2 ^ (149 + 3) = a := div_mul_cancel₀ a (by positivity)
    have hx_between : BetweenEven (149 + 3) (n / d) |x| := by
      rwa [BetweenEven, hx, hcancel]
    have hx'_between : BetweenEven (149 + 3) (n / d) |x'| := by
      rw [BetweenEven, hx', hcancel, hsticky]
      push_cast
      exact ⟨by linarith, by linarith⟩
    rw [roundReal_congr (by decide) hsign hx_between hx'_between,
      roundReal_of_abs (by rw [hsticky]; exact Nat.succ_ne_zero _) hx']
    simp only [hsign]

theorem abs_signed (negative : Bool) {a : ℝ} (h : 0 < a) : |(if negative = true then -1 else 1) * a| = a := by
  cases negative <;> simp [abs_of_pos h]

theorem signed_lt_zero (negative : Bool) {a : ℝ} (h : 0 < a) :
    decide ((if negative = true then -1 else 1) * a < 0) = negative := by
  cases negative <;> simp [h, h.le]

/-- Settles O59: a literal with an exponent from 0 on is an integer of units of 2^-149, and any other is a quotient. -/
theorem decimalLiteralsRound : Obligations.DecimalLiteralsRound := by
  intro negative num exp hnum
  have hpos : (0 : ℝ) < num * (10 : ℝ) ^ exp := by positivity
  rw [mul_assoc]
  cases exp with
  | ofNat e =>
    have habs := abs_signed negative hpos
    have hunits : (num : ℝ) * (10 : ℝ) ^ (Int.ofNat e) = ((num * 10 ^ e * 2 ^ 149 : ℕ) : ℝ) / 2 ^ (149 + 0) := by
      rw [Int.ofNat_eq_natCast, zpow_natCast, eq_div_iff (by positivity)]
      norm_num
    rw [roundReal_of_abs (by positivity) (habs.trans hunits), signed_lt_zero negative hpos]
    rfl
  | negSucc e =>
    have habs := abs_signed negative hpos
    have hquot : (num : ℝ) * (10 : ℝ) ^ (Int.negSucc e) =
        2 * (((num * 2 ^ 151 : ℕ) : ℝ) / (10 ^ (e + 1) : ℕ)) / 2 ^ (149 + 3) := by
      rw [zpow_negSucc]
      push_cast
      field_simp
      norm_num
    rw [roundReal_quotient (by positivity) (by positivity) (habs.trans hquot), signed_lt_zero negative hpos]
    rfl

end Machine

end Sys2Proof
end

section
/-! SUPPORT. The assembler (30_encoding.md R106 to R108): each part of a printed line is read back, and a line that is read
names a command that has a line: O60. -/

namespace Sys2Proof.Machine

/-! ## Names (30_encoding.md R106) -/

/-- `Plain` as a test that runs. -/
def plainText (t : List Char) : Bool := !t.isEmpty && t.all fun c => !isBlank c && c != ',' && c != ';'

theorem plainText_iff {t : List Char} : plainText t = true ↔ Plain t := by
  simp [plainText, Plain, and_assoc]

/-- A name with a value stands in the table. -/
theorem exists_mem_of_lookName {α : Type} {table : List (String × α)} {t : List Char} {a : α}
    (h : lookName table t = some a) : ∃ r ∈ table, r.2 = a := by
  rw [lookName, Option.map_eq_some_iff] at h
  obtain ⟨r, hfind, ha⟩ := h
  exact ⟨r, List.mem_of_find?_eq_some hfind, ha⟩

/-- Each mnemonic is a plain text, and names its own row. -/
theorem mnemonics_read :
    ∀ m ∈ mnemonics, plainText m.1.toList = true ∧ lookName mnemonics m.1.toList = some m.2 := by decide +kernel

/-- Each register name is a plain text that starts with no digit, and names its own register. -/
theorem csrNames_read :
    ∀ r ∈ csrNames, plainText r.1.toList = true ∧ lookName csrNames r.1.toList = some r.2 ∧
      ∀ d < 10, r.1.toList.head? ≠ some (digitChar d) := by decide +kernel

/-- Each space name is a plain text, and names its own space, one of five. -/
theorem spaceNames_read :
    ∀ r ∈ spaceNames, plainText r.1.toList = true ∧ lookName spaceNames r.1.toList = some r.2 ∧ r.2 < 5 := by
  decide +kernel

theorem plain_cons {c : Char} {t : List Char} (hc : isBlank c = false ∧ c ≠ ',' ∧ c ≠ ';') (ht : Plain t) :
    Plain (c :: t) :=
  ⟨List.cons_ne_nil c t, List.forall_mem_cons.2 ⟨hc, ht.2⟩⟩

theorem plain_chanText (ch : Chan) : Plain (chanText ch) := by cases ch <;> exact plainText_iff.1 rfl

theorem channelOf_chanText (ch : Chan) : channelOf (chanText ch) = some ch.toBit := by cases ch <;> rfl

/-- An index is printed in decimal and read in decimal. -/
theorem digits_integerText {n : Nat} (h : n < 2 ^ 32) : digits 10 (integerText false n) = some n :=
  digits_numeral (base := 10) (width := 9) (by decide) (by decide) (by omega)

theorem plain_ringText (sel : RingSel) (idx : Nat) : Plain (ringText sel idx) := by
  cases sel <;> exact plain_cons (by decide) (plain_integerText false idx)

theorem instanceOf_ringText (sel : RingSel) {idx : Nat} (h : idx < 64) :
    instanceOf 1 (ringText sel idx) = some (sel.toBit, idx) := by
  cases sel <;> exact congrArg (Option.map _) (digits_integerText (by omega))

theorem plain_filterText (sel : FilterSel) (idx : Nat) : Plain (filterText sel idx) := by
  cases sel with
  | damp => exact plain_cons (by decide) (plain_integerText false idx)
  | bandpass =>
    rw [filterText, if_neg nofun]
    split <;> exact plainText_iff.1 rfl

/-- Each damping filter has a name, and so have the two filters of the bandpass pair. -/
theorem instanceOf_filterText (sel : FilterSel) {idx : Nat} (h : idx < 64)
    (hname : (decide (sel = .damp) || decide (idx < 2)) = true) :
    instanceOf 2 (filterText sel idx) = some (sel.toBit, idx) := by
  cases sel with
  | damp => exact congrArg (Option.map _) (digits_integerText (by omega))
  | bandpass =>
    have hidx : idx < 2 := by simpa using hname
    interval_cases idx <;> rfl

theorem instanceOf_integerText {unit idx : Nat} (hunit : unit = 3 ∨ unit = 4) (h : idx < 64) :
    instanceOf unit (integerText false idx) = some (0, idx) := by
  rcases hunit with rfl | rfl <;> exact congrArg (Option.map _) (digits_integerText (by omega))

/-- The space of a number below 5 is printed by its name. -/
theorem exists_spaceText {space : Nat} (h : space < 5) :
    ∃ name, (name, space) ∈ spaceNames ∧ spaceText space = name.toList := by
  interval_cases space <;> exact ⟨_, by repeat' constructor, rfl⟩

theorem plain_spaceText {space : Nat} (h : space < 5) : Plain (spaceText space) := by
  obtain ⟨name, hmem, htext⟩ := exists_spaceText h
  exact htext ▸ plainText_iff.1 (spaceNames_read _ hmem).1

theorem lookName_spaceText {space : Nat} (h : space < 5) : lookName spaceNames (spaceText space) = some space := by
  obtain ⟨name, hmem, htext⟩ := exists_spaceText h
  exact htext ▸ (spaceNames_read _ hmem).2.1

/-- An integer is printed with a digit first. -/
theorem head_integerText (hex : Bool) (n : Nat) : ∃ d < 10, (integerText hex n).head? = some (digitChar d) := by
  cases hex with
  | true => exact ⟨0, by decide, rfl⟩
  | false =>
    obtain ⟨c, t, ht⟩ := List.exists_cons_of_ne_nil (numeral_ne_nil 10 9 n)
    obtain ⟨d, hd, rfl⟩ := mem_numeral (by decide) (ht ▸ List.mem_cons_self : c ∈ numeral 10 10 n)
    exact ⟨d, hd, congrArg List.head? ht⟩

/-- No register has a number for its name. -/
theorem lookName_csrNames_integerText (hex : Bool) (n : Nat) : lookName csrNames (integerText hex n) = none := by
  obtain ⟨d, hd, hhead⟩ := head_integerText hex n
  rw [lookName, Option.map_eq_none_iff, List.find?_eq_none]
  intro r hr htext
  exact (csrNames_read r hr).2.2 d hd (of_decide_eq_true htext ▸ hhead)

/-- A register is printed by its name, and any other address by its number. -/
theorem csrText_cases (hex : Bool) (addr : Nat) :
    (∃ name c, (name, c) ∈ csrNames ∧ csrText hex addr = name.toList ∧ c.addr = addr) ∨
      csrText hex addr = integerText hex addr := by
  unfold csrText
  split
  case h_22 => exact .inr rfl
  all_goals exact .inl ⟨_, _, by repeat' constructor, rfl, rfl⟩

theorem plain_csrText (hex : Bool) (addr : Nat) : Plain (csrText hex addr) := by
  rcases csrText_cases hex addr with ⟨name, c, hmem, htext, -⟩ | htext <;> rw [htext]
  · exact plainText_iff.1 (csrNames_read _ hmem).1
  · exact plain_integerText hex addr

theorem csrAddrOf_csrText (hex : Bool) {addr : Nat} (h : addr < 2 ^ 32) : csrAddrOf (csrText hex addr) = some addr := by
  rcases csrText_cases hex addr with ⟨name, c, hmem, htext, rfl⟩ | htext <;> rw [htext, csrAddrOf]
  · rw [(csrNames_read _ hmem).2.1]
  · rw [lookName_csrNames_integerText]
    exact integerOf_integerText h

/-! ## Operands (30_encoding.md R107) -/

/-- Texts of operand words: each a word printed as an integer literal, which any position reads as the word. -/
inductive OperandTexts : List Slot → List (List Char) → List Word → Prop
  | nil : OperandTexts [] [] []
  | cons {slots : List Slot} {texts : List (List Char)} {ws : List Word} (slot : Slot) (hex : Bool) (w : Word)
      (rest : OperandTexts slots texts ws) : OperandTexts (slot :: slots) (integerText hex w.toNat :: texts) (w :: ws)

theorem OperandTexts.plain {slots : List Slot} {texts : List (List Char)} {ws : List Word}
    (h : OperandTexts slots texts ws) : ∀ a ∈ texts, Plain a := by
  induction h with
  | nil => simp
  | cons _ hex w _ ih => exact List.forall_mem_cons.2 ⟨plain_integerText hex w.toNat, ih⟩

theorem OperandTexts.read (p : Params) {slots : List Slot} {texts : List (List Char)} {ws : List Word}
    (h : OperandTexts slots texts ws) : p.operandTexts slots texts = some ws := by
  induction h with
  | nil => rfl
  | cons slot hex w _ ih =>
    have hlit := literalOf_integerText (hex := hex) w.isLt
    have hword := literalWord_integerText (hex := hex) p slot w
    rw [hlit, Option.bind_some] at hword
    simp only [Params.operandTexts, hlit, ih, hword, Option.map_some]

/-! ## Fields -/

theorem lineFields_channel {r : Row} (huses : r.usesCh = true) (ch : Chan) {t : List Char} {sel idx : Nat}
    (hinst : instanceOf r.unit t = some (sel, idx)) (hidx : idx < 64) (rest : List (List Char)) :
    lineFields r (chanText ch :: t :: rest) = some (⟨r.unit, r.op, ch.toBit, sel, idx, 0⟩, opSlots r.name, rest) := by
  simp only [lineFields, huses, if_true, channelOf_chanText, hinst, idxFits_iff.2 hidx]

theorem lineFields_space {r : Row} (hch : r.usesCh = false) (huses : r.usesIdx = true) (hex : Bool) {space addr : Nat}
    (hspace : space < 5) (haddr : addr < 65536) (rest : List (List Char)) :
    lineFields r (spaceText space :: integerText hex addr :: rest) =
      some (⟨r.unit, r.op, 0, 0, space, addr⟩, opSlots r.name, rest) := by
  simp only [lineFields, hch, huses, if_true, lookName_spaceText hspace,
    integerOf_integerText (by omega : addr < 2 ^ 32), immFits_iff.2 haddr, Bool.false_eq_true, if_false]

theorem lineFields_immediate {r : Row} (hch : r.usesCh = false) (hidx : r.usesIdx = false) (huses : r.usesImm = true)
    {a : List Char} {imm : Nat} (hread : (if r.name = .engProcess then integerOf a else csrAddrOf a) = some imm)
    (himm : imm < 65536) (rest : List (List Char)) :
    lineFields r (a :: rest) =
      some (⟨r.unit, r.op, 0, 0, 0, imm⟩, if r.name = .engCsrw then [csrSlot imm] else [], rest) := by
  simp only [lineFields, hch, hidx, huses, if_true, hread, immFits_iff.2 himm, Bool.false_eq_true, if_false]

theorem lineFields_none {r : Row} (hch : r.usesCh = false) (hidx : r.usesIdx = false) (huses : r.usesImm = false)
    (args : List (List Char)) : lineFields r args = some (⟨r.unit, r.op, 0, 0, 0, 0⟩, opSlots r.name, args) := by
  simp only [lineFields, hch, hidx, huses, Bool.false_eq_true, if_false]

/-! ## Lines -/

/-- A line of texts that name the fields and the operand words of a command assembles to the command. -/
theorem assemble_of_parts {p : Params} {i : Instr} {name : String} {args : List (List Char)} {r : Row} {f : Fields}
    {slots : List Slot} {texts : List (List Char)} {ws : List Word} (hname : (name, i.op) ∈ mnemonics)
    (hrow : (rows.find? fun r => r.name = i.op) = some r) (hplain : ∀ a ∈ args, Plain a)
    (hfields : lineFields r args = some (f, slots, texts)) (hops : OperandTexts slots texts ws)
    (hbuild : buildInstr i.op f ws = some i) : p.assemble (lineOf name args) = some i := by
  obtain ⟨hplainName, hlook⟩ := mnemonics_read _ hname
  rw [assemble_lineOf p (plainText_iff.1 hplainName) hplain, hlook]
  simp only [Params.assembleCommand, hrow, hfields, hops.read p, Option.bind_some, hbuild]

/-- A line whose fields are a channel and a ring, a filter, a comb or an allpass of it. -/
theorem assemble_channel {p : Params} {i : Instr} {name : String} {ch : Chan} {t : List Char} {sel idx : Nat} {r : Row}
    {texts : List (List Char)} {ws : List Word} (hname : (name, i.op) ∈ mnemonics)
    (hrow : (rows.find? fun r => r.name = i.op) = some r) (huses : r.usesCh = true) (ht : Plain t)
    (hinst : instanceOf r.unit t = some (sel, idx)) (hidx : idx < 64) (hops : OperandTexts (opSlots r.name) texts ws)
    (hbuild : buildInstr i.op ⟨r.unit, r.op, ch.toBit, sel, idx, 0⟩ ws = some i) :
    p.assemble (lineOf name (chanText ch :: t :: texts)) = some i :=
  assemble_of_parts hname hrow
    (List.forall_mem_cons.2 ⟨plain_chanText ch, List.forall_mem_cons.2 ⟨ht, hops.plain⟩⟩)
    (lineFields_channel huses ch hinst hidx texts) hops hbuild

/-- A line whose fields are a space and an address. -/
theorem assemble_space {p : Params} {i : Instr} {name : String} {hex : Bool} {space addr : Nat} {r : Row}
    {texts : List (List Char)} {ws : List Word} (hname : (name, i.op) ∈ mnemonics)
    (hrow : (rows.find? fun r => r.name = i.op) = some r) (hch : r.usesCh = false) (huses : r.usesIdx = true)
    (hspace : space < 5) (haddr : addr < 65536) (hops : OperandTexts (opSlots r.name) texts ws)
    (hbuild : buildInstr i.op ⟨r.unit, r.op, 0, 0, space, addr⟩ ws = some i) :
    p.assemble (lineOf name (spaceText space :: integerText hex addr :: texts)) = some i :=
  assemble_of_parts hname hrow
    (List.forall_mem_cons.2 ⟨plain_spaceText hspace, List.forall_mem_cons.2 ⟨plain_integerText hex addr, hops.plain⟩⟩)
    (lineFields_space hch huses hex hspace haddr texts) hops hbuild

/-- A line whose field is a number or a register. -/
theorem assemble_immediate {p : Params} {i : Instr} {name : String} {a : List Char} {imm : Nat} {r : Row}
    {texts : List (List Char)} {ws : List Word} (hname : (name, i.op) ∈ mnemonics)
    (hrow : (rows.find? fun r => r.name = i.op) = some r) (hch : r.usesCh = false) (hidx : r.usesIdx = false)
    (huses : r.usesImm = true) (ha : Plain a)
    (hread : (if r.name = .engProcess then integerOf a else csrAddrOf a) = some imm) (himm : imm < 65536)
    (hops : OperandTexts (if r.name = .engCsrw then [csrSlot imm] else []) texts ws)
    (hbuild : buildInstr i.op ⟨r.unit, r.op, 0, 0, 0, imm⟩ ws = some i) :
    p.assemble (lineOf name (a :: texts)) = some i :=
  assemble_of_parts hname hrow (List.forall_mem_cons.2 ⟨ha, hops.plain⟩)
    (lineFields_immediate hch hidx huses hread himm texts) hops hbuild

/-- A line of operand words alone. -/
theorem assemble_operands {p : Params} {i : Instr} {name : String} {r : Row} {texts : List (List Char)} {ws : List Word}
    (hname : (name, i.op) ∈ mnemonics) (hrow : (rows.find? fun r => r.name = i.op) = some r) (hch : r.usesCh = false)
    (hidx : r.usesIdx = false) (huses : r.usesImm = false) (hops : OperandTexts (opSlots r.name) texts ws)
    (hbuild : buildInstr i.op ⟨r.unit, r.op, 0, 0, 0, 0⟩ ws = some i) : p.assemble (lineOf name texts) = some i :=
  assemble_of_parts hname hrow hops.plain (lineFields_none hch hidx huses texts) hops hbuild

/-- A register is written as a word in a binary32 position and as an integer in any other (30_encoding.md R107). -/
theorem operandTexts_csr (hex : Bool) (addr : Nat) (v : Word) :
    OperandTexts [csrSlot addr] [if csrSlot addr = .f32 then wordText v else integerText hex v.toNat] [v] := by
  split
  · exact .cons _ true v .nil
  · exact .cons _ hex v .nil

/-- The line of a command assembles to the command (30_encoding.md R106). -/
theorem assemble_commandLine (p : Params) (hex : Bool) {i : Instr} (hwf : i.wf = true) (hline : commandHasLine i = true) :
    p.assemble (commandLine hex i) = some i := by
  cases i with
  | rbPush ch sel | rbRead ch sel | rbWrite ch sel | rbSetlen ch sel | rbClear ch sel | rbStat ch sel =>
    rw [Instr.wf, idxFits_iff] at hwf
    exact assemble_channel (by repeat' constructor) rfl rfl (plain_ringText ..) (instanceOf_ringText sel hwf) hwf
      (by repeat' constructor) (by cases ch <;> cases sel <;> rfl)
  | bqSetlp ch sel | bqSethp ch sel | bqSetpk ch sel | bqReset ch sel | bqProc ch sel | bqLdcoef ch sel
  | bqRdcoef ch sel | bqRdhist ch sel =>
    rw [Instr.wf, idxFits_iff] at hwf
    exact assemble_channel (by repeat' constructor) rfl rfl (plain_filterText ..) (instanceOf_filterText sel hwf hline)
      hwf (by repeat' constructor) (by cases ch <;> cases sel <;> rfl)
  | cfCfg ch | cfSetg ch | cfProc ch | cfRdstate ch | apCfg ch | apSetg ch | apProc ch | apRdstate ch =>
    rw [Instr.wf, idxFits_iff] at hwf
    exact assemble_channel (by repeat' constructor) rfl rfl (plain_integerText ..)
      (instanceOf_integerText (by decide) hwf) hwf (by repeat' constructor) (by cases ch <;> rfl)
  | engConfig | engActivate | engCleanup =>
    rw [commandLine]
    exact assemble_operands (by repeat' constructor) rfl rfl rfl rfl (by repeat' constructor) rfl
  | engProcess n =>
    rw [Instr.wf, immFits_iff] at hwf
    exact assemble_immediate (by repeat' constructor) rfl rfl rfl rfl (plain_integerText ..)
      (integerOf_integerText (by omega)) hwf .nil rfl
  | engCsrr addr =>
    rw [Instr.wf, immFits_iff] at hwf
    exact assemble_immediate (by repeat' constructor) rfl rfl rfl rfl (plain_csrText ..) (csrAddrOf_csrText hex (by omega))
      hwf .nil rfl
  | engCsrw addr v =>
    rw [Instr.wf, immFits_iff] at hwf
    exact assemble_immediate (by repeat' constructor) rfl rfl rfl rfl (plain_csrText ..) (csrAddrOf_csrText hex (by omega))
      hwf (operandTexts_csr hex addr v) rfl
  | memRd | memWr =>
    obtain ⟨-, haddr⟩ := Bool.and_eq_true_iff.1 hwf
    exact assemble_space (by repeat' constructor) rfl rfl rfl (of_decide_eq_true hline) (immFits_iff.1 haddr)
      (by repeat' constructor) rfl

/-! ## Pseudo-instructions (30_encoding.md R108) -/

/-- The names that `pseudoOf` reads. -/
def pseudoNames : List String := ["rb.peek", "eng.setmode", "eng.setflags", "eng.setdecay", "eng.clrerr", "eng.status"]

/-- The names of the pseudo-instructions are plain texts and no mnemonics. -/
theorem pseudoNames_read :
    ∀ name ∈ pseudoNames, plainText name.toList = true ∧ lookName mnemonics name.toList = none := by decide +kernel

/-- A line of a pseudo-instruction's name and operands assembles to its expansion. -/
theorem assemble_of_pseudo {p : Params} {q : Pseudo} {name : String} {args : List (List Char)}
    (hname : name ∈ pseudoNames) (hplain : ∀ a ∈ args, Plain a) (hpseudo : p.pseudoOf name.toList args = some q) :
    p.assemble (lineOf name args) = some q.expand := by
  obtain ⟨hplainName, hlook⟩ := pseudoNames_read name hname
  rw [assemble_lineOf p (plainText_iff.1 hplainName) hplain, hlook]
  simp only [hpseudo, Option.map_some]

theorem pseudoOf_rbPeek (p : Params) (ch : Chan) (sel : RingSel) {idx : Nat} (h : idx < 64) :
    p.pseudoOf "rb.peek".toList [chanText ch, ringText sel idx] = some (.rbPeek ch sel idx) := by
  simp only [Params.pseudoOf, if_true, channelOf_chanText, instanceOf_ringText sel h, idxFits_iff.2 h]
  cases ch <;> cases sel <;> rfl

theorem pseudoOf_engSetmode (p : Params) (args : List (List Char)) :
    p.pseudoOf "eng.setmode".toList args = (p.oneOperand .u32 args).map .engSetmode := by
  unfold Params.pseudoOf
  rw [if_neg (by decide), if_pos rfl]

theorem pseudoOf_engSetflags (p : Params) (args : List (List Char)) :
    p.pseudoOf "eng.setflags".toList args = (p.oneOperand .u32 args).map .engSetflags := by
  unfold Params.pseudoOf
  rw [if_neg (by decide), if_neg (by decide), if_pos rfl]

theorem pseudoOf_engSetdecay (p : Params) (args : List (List Char)) :
    p.pseudoOf "eng.setdecay".toList args = (p.oneOperand .f32 args).map .engSetdecay := by
  unfold Params.pseudoOf
  rw [if_neg (by decide), if_neg (by decide), if_neg (by decide), if_pos rfl]

theorem oneOperand_integerText (p : Params) (slot : Slot) (hex : Bool) (w : Word) :
    p.oneOperand slot [integerText hex w.toNat] = some w := literalWord_integerText p slot w

/-- The line of a pseudo-instruction assembles to its expansion. -/
theorem assemble_pseudoLine (p : Params) (hex : Bool) {q : Pseudo} (h : q.expand.wf = true) :
    p.assemble (pseudoLine hex q) = some q.expand := by
  have hint (hex : Bool) (n : Nat) : ∀ a ∈ [integerText hex n], Plain a := by simpa using plain_integerText hex n
  rw [pseudoLine.eq_def]
  cases q with
  | rbPeek ch sel idx =>
    have hplain : ∀ a ∈ [chanText ch, ringText sel idx], Plain a := by simp [plain_chanText, plain_ringText]
    exact assemble_of_pseudo (by decide) hplain (pseudoOf_rbPeek p ch sel (idxFits_iff.1 h))
  | engSetmode m =>
    exact assemble_of_pseudo (by decide) (hint hex _) (by rw [pseudoOf_engSetmode, oneOperand_integerText, Option.map_some])
  | engSetflags v =>
    exact assemble_of_pseudo (by decide) (hint hex _) (by rw [pseudoOf_engSetflags, oneOperand_integerText, Option.map_some])
  | engSetdecay t =>
    exact assemble_of_pseudo (by decide) (hint true _)
      (by rw [wordText, pseudoOf_engSetdecay, oneOperand_integerText, Option.map_some])
  | engClrerr | engStatus => exact assemble_of_pseudo (by decide) (List.forall_mem_nil _) rfl

/-- A comment at the end of a line changes nothing. -/
theorem assemble_append_comment (p : Params) (line comment : List Char) :
    p.assemble (line ++ ';' :: comment) = p.assemble line := by
  rw [Params.assemble, withoutComment_append, Params.assemble]

/-! ## What is assembled -/

/-- The fields of a line: they fit their bits, a filter is a damping filter, `lp` or `hp`, and a space is one of five. -/
structure FieldsNamed (r : Row) (f : Fields) : Prop where
  idx : f.idx < 64
  imm : f.imm < 65536
  filter : r.unit = 2 → f.sel = 0 ∨ f.idx < 2
  space : r.usesCh = false → f.idx < 5

theorem instanceOf_filter {t : List Char} {sel idx : Nat} (h : instanceOf 2 t = some (sel, idx)) : sel = 0 ∨ idx < 2 := by
  unfold instanceOf at h
  split at h
  case h_3 =>
    obtain ⟨n, -, hn⟩ := Option.map_eq_some_iff.1 h
    cases hn
    exact .inl rfl
  case h_4 | h_5 =>
    cases h
    exact .inr (by decide)
  all_goals simp at *

theorem lt_of_lookName_spaceNames {t : List Char} {space : Nat} (h : lookName spaceNames t = some space) : space < 5 := by
  obtain ⟨r, hr, rfl⟩ := exists_mem_of_lookName h
  exact (spaceNames_read r hr).2.2

theorem fieldsNamed_of_lineFields {r : Row} {args : List (List Char)} {f : Fields} {slots : List Slot}
    {texts : List (List Char)} (h : lineFields r args = some (f, slots, texts)) : FieldsNamed r f := by
  revert h
  fun_cases lineFields r args with
  | case1 args huses c i rest _ ch sel idx hinst _ hidx =>
    rintro ⟨⟩
    exact ⟨idxFits_iff.1 hidx, Nat.succ_pos _, fun hunit => instanceOf_filter (hunit ▸ hinst),
      fun hch => absurd huses (by simp [hch])⟩
  | case5 args _ _ sp a rest _ space addr _ hspace himm =>
    rintro ⟨⟩
    have hlt := lt_of_lookName_spaceNames hspace
    exact ⟨hlt.trans (by decide), immFits_iff.1 himm, fun _ => .inl rfl, fun _ => hlt⟩
  | case9 args _ _ _ a rest _ imm _ himm =>
    rintro ⟨⟩
    exact ⟨Nat.succ_pos _, immFits_iff.1 himm, fun _ => .inl rfl, fun _ => Nat.succ_pos _⟩
  | case13 =>
    rw [Option.some.injEq, Prod.mk.injEq]
    rintro ⟨rfl, -⟩
    exact ⟨Nat.succ_pos _, Nat.succ_pos _, fun _ => .inl rfl, fun _ => Nat.succ_pos _⟩
  | _ => nofun

/-- A command built from named fields has a line. -/
theorem commandHasLine_of_buildInstr {r : Row} {f : Fields} (hf : FieldsNamed r f) {ws : List Word} {i : Instr}
    (hrow : (rows.find? fun r => r.name = i.op) = some r) (h : buildInstr i.op f ws = some i) : commandHasLine i = true := by
  obtain ⟨-, hws⟩ := op_and_ops_of_buildInstr h
  subst hws
  cases i with
  | bqSetlp | bqSethp | bqSetpk | bqReset | bqProc | bqLdcoef | bqRdcoef | bqRdhist =>
    cases hrow
    cases h
    rcases hf.filter rfl with hsel | hidx
    · simp [commandHasLine, hsel, FilterSel.ofBit]
    · simp [commandHasLine, hidx]
  | memRd | memWr =>
    cases hrow
    cases h
    exact decide_eq_true (hf.space rfl)
  | _ => rfl

theorem assembleCommand_named {p : Params} {name : Op} {args : List (List Char)} {i : Instr}
    (h : p.assembleCommand name args = some i) : i.wf = true ∧ commandHasLine i = true := by
  unfold Params.assembleCommand at h
  split at h
  · cases h
  next r hrow =>
    split at h
    · cases h
    next f slots texts hfields =>
      obtain ⟨ws, -, hbuild⟩ := Option.bind_eq_some_iff.1 h
      have hf := fieldsNamed_of_lineFields hfields
      obtain ⟨rfl, -⟩ := op_and_ops_of_buildInstr hbuild
      exact ⟨wf_of_buildInstr hf.idx hf.imm hbuild, commandHasLine_of_buildInstr hf hrow hbuild⟩

theorem pseudoOf_named {p : Params} {name : List Char} {args : List (List Char)} {q : Pseudo}
    (h : p.pseudoOf name args = some q) : q.expand.wf = true ∧ commandHasLine q.expand = true := by
  cases q with
  | rbPeek ch sel idx =>
    revert h
    fun_cases Params.pseudoOf p name args with
    | case1 _ c i ch sel idx _ _ hidx =>
      rintro ⟨⟩
      exact ⟨hidx, rfl⟩
    | case2 | case3 | case4 => nofun
    | _ => simp
  | _ => exact ⟨rfl, rfl⟩

/-- Whatever a line assembles to fits the encoding and has a line. -/
theorem assemble_named {p : Params} {line : List Char} {i : Instr} (h : p.assemble line = some i) :
    i.wf = true ∧ commandHasLine i = true := by
  unfold Params.assemble at h
  dsimp only at h
  split at h
  · exact assembleCommand_named h
  · obtain ⟨q, hq, rfl⟩ := Option.map_eq_some_iff.1 h
    exact pseudoOf_named hq

/-- Settles O60: each part of a printed line is read back, and fields that are
read are fields that can be printed. -/
theorem assemblerLines : Obligations.AssemblerLines := by
  intro p hex
  refine ⟨fun i => assemble_commandLine p hex, ⟨fun ch sel idx h => ?_, fun m => ?_, fun v => ?_, fun t => ?_, ?_, ?_⟩,
    assemble_append_comment p, fun line i h => ?_⟩
  · exact assemble_pseudoLine p hex (q := .rbPeek ch sel idx) (idxFits_iff.2 h)
  · exact assemble_pseudoLine p hex (q := .engSetmode m) rfl
  · exact assemble_pseudoLine p hex (q := .engSetflags v) rfl
  · exact assemble_pseudoLine p hex (q := .engSetdecay t) rfl
  · exact assemble_pseudoLine p hex (q := .engClrerr) rfl
  · exact assemble_pseudoLine p hex (q := .engStatus) rfl
  · obtain ⟨hwf, hline⟩ := assemble_named h
    exact ⟨hwf, hline, decode_encode hwf⟩

end Sys2Proof.Machine
end

section
/-! SUPPORT. The ring unit (40_ring_buffer.md sections 1 and 2): what each RB command leaves, O18, O19, O20, O21, and the
word that each push and each read finds since the last clear, O22. -/

namespace Sys2Proof.Machine

/-! ## A ring that commands may use -/

/-- A running block that meets the invariant, and a ring that it has. -/
structure RingReady (s : State) (ch : Chan) (sel : RingSel) (idx : Nat) : Prop where
  parts : s.Parts
  running : s.estate = .running
  inRange : s.params.hasRing sel idx = true

/-- What a command leaves that replaced one ring by `r` and answered `d`. -/
structure RingReplaced (s : State) (ch : Chan) (sel : RingSel) (idx : Nat) (r : Ring) (d : List Word)
    (t : State) : Prop where
  responses : t.responses = ⟨0, d⟩ :: s.responses
  ring : t.ring ch sel idx = r
  untouched : Untouched s t (only ch sel idx) noneOf noLine noLine

section
variable {s t : State} {ch : Chan} {sel : RingSel} {idx : Nat}

theorem RingReady.of_inv (hinv : s.inv = true) (hrun : s.estate = .running) (hin : s.params.hasRing sel idx = true) :
    RingReady s ch sel idx :=
  ⟨State.inv_iff.1 hinv, hrun, hin⟩

theorem RingReady.ring_wf (h : RingReady s ch sel idx) : (s.ring ch sel idx).wf s.params.rbCap = true :=
  h.parts.ring_wf (by simp [h.running]) ch sel idx h.inRange

theorem RingReady.len_pos (h : RingReady s ch sel idx) : 1 ≤ (s.ring ch sel idx).len.toNat :=
  (Ring.wf_iff.1 h.ring_wf).1.1

theorem RingReady.cursor_lt (h : RingReady s ch sel idx) :
    (s.ring ch sel idx).cursor.toNat < (s.ring ch sel idx).len.toNat :=
  (Ring.wf_iff.1 h.ring_wf).2.1

/-- A ring command that passes its checks (40_ring_buffer.md R120). -/
theorem RingReady.unitCommand_eq (h : RingReady s ch sel idx) (body : Result) :
    unitCommand s (s.params.hasRing sel idx) body = body :=
  unitCommand_running h.running h.inRange

theorem RingReady.succeed_setRing (h : RingReady s ch sel idx) (r : Ring) (d : List Word) :
    ∃ t, succeed (s.setRing ch sel idx r) d = .next t ∧ RingReplaced s ch sel idx r d t :=
  ⟨_, succeed_eq _ d,
    { responses := by rw [State.answered_responses, State.setRing_responses]
      ring := State.ring_setRing (h.parts.shaped ch) h.inRange r d
      untouched := .setRing (h.parts.shaped ch) h.inRange r d }⟩

/-- A ring command that replaces its ring completes. -/
theorem RingReady.unitCommand_setRing (h : RingReady s ch sel idx) (r : Ring) (d : List Word) :
    ∃ t, unitCommand s (s.params.hasRing sel idx) (succeed (s.setRing ch sel idx r) d) = .next t ∧
      RingReplaced s ch sel idx r d t := by
  rw [h.unitCommand_eq]
  exact h.succeed_setRing r d

/-- The next command may use the ring too. -/
theorem RingReplaced.ready {i : Instr} {r : Ring} {d : List Word} (h : RingReplaced s ch sel idx r d t)
    (hs : RingReady s ch sel idx) (ht : exec i s = .next t) : RingReady t ch sel idx where
  parts := hs.parts.exec ht
  running := h.untouched.registers.estate.trans hs.running
  inRange := by rw [h.untouched.registers.params, hs.inRange]

/-! ## What each RB command leaves -/

/-- RB.PUSH (40_ring_buffer.md R125). -/
theorem RingReady.exec_rbPush (h : RingReady s ch sel idx) (v : Word) :
    ∃ t, exec (.rbPush ch sel idx v) s = .next t ∧
      RingReplaced s ch sel idx ((s.ring ch sel idx).push v).1 [((s.ring ch sel idx).push v).2] t :=
  h.unitCommand_setRing _ _

/-- RB.READ (40_ring_buffer.md R126). -/
theorem RingReady.exec_rbRead (h : RingReady s ch sel idx) (k : Word) :
    exec (.rbRead ch sel idx k) s = .next (s.answered [(s.ring ch sel idx).readBack k]) :=
  unitCommand_succeed _ h.running h.inRange

/-- RB.WRITE (40_ring_buffer.md R127). -/
theorem RingReady.exec_rbWrite (h : RingReady s ch sel idx) (k v : Word) :
    ∃ t, exec (.rbWrite ch sel idx k v) s = .next t ∧
      RingReplaced s ch sel idx ((s.ring ch sel idx).writeBack k v) [] t :=
  h.unitCommand_setRing _ _

/-- The length checks, in their order (40_ring_buffer.md R128). -/
theorem setlenCheck_eq (p : Params) (n : Word) :
    firstError [require (decide (n ≠ 0)) .invalidDelay, require (decide (n.toNat ≤ p.rbCap)) .capacity] =
      if n = 0 then some .invalidDelay else if p.rbCap < n.toNat then some .capacity else none := by
  by_cases h0 : n = 0
  · rw [if_pos h0, decide_eq_false (not_not_intro h0)]
    rfl
  rw [if_neg h0, decide_eq_true h0]
  by_cases hcap : p.rbCap < n.toNat
  · rw [if_pos hcap, decide_eq_false (not_le_of_gt hcap)]
    rfl
  · rw [if_neg hcap, decide_eq_true (not_lt.1 hcap)]
    rfl

/-- RB.SETLEN past the common checks (40_ring_buffer.md R128). -/
theorem RingReady.exec_rbSetlen (h : RingReady s ch sel idx) (n : Word) :
    exec (.rbSetlen ch sel idx n) s =
      if n = 0 then .next (s.failed 0x06)
      else if s.params.rbCap < n.toNat then .next (s.failed 0x07)
      else succeed (s.setRing ch sel idx ((s.ring ch sel idx).setLen n)) [] := by
  refine (h.unitCommand_eq _).trans ?_
  rw [setlenCheck_eq]
  split_ifs <;> rfl

/-- RB.CLEAR (40_ring_buffer.md R129). -/
theorem RingReady.exec_rbClear (h : RingReady s ch sel idx) :
    ∃ t, exec (.rbClear ch sel idx) s = .next t ∧ RingReplaced s ch sel idx (s.ring ch sel idx).clear [] t :=
  h.unitCommand_setRing _ _

end

/-! ## The slot of a word -/

/-- The slot `k` steps back, over the integers (40_ring_buffer.md R122). -/
theorem Ring.cast_slot {r : Ring} (k : Word) (h : 1 ≤ r.len.toNat) :
    (r.slot k : Int) = ((r.cursor.toNat : Int) - 1 - min (k.toNat : Int) (r.len.toNat - 1)) % r.len.toNat := by
  rw [Ring.slot, Int.toNat_of_nonneg (Int.emod_nonneg _ (by omega)), Nat.cast_min, Nat.cast_sub h, Nat.cast_one]

/-- The slot of a step back that needs no clamp: below the cursor, or wrapped once. -/
theorem Ring.slot_eq {r : Ring} {k : Word} (hcur : r.cursor.toNat < r.len.toNat) (hk : k.toNat < r.len.toNat) :
    r.slot k =
      if k.toNat < r.cursor.toNat then r.cursor.toNat - 1 - k.toNat else r.cursor.toNat + r.len.toNat - 1 - k.toNat := by
  have hslot := Ring.cast_slot k (by omega : 1 ≤ r.len.toNat)
  rw [min_eq_left (by omega)] at hslot
  split
  · rw [Int.emod_eq_of_lt (by omega) (by omega)] at hslot
    omega
  · rw [← Int.add_emod_right, Int.emod_eq_of_lt (by omega) (by omega)] at hslot
    omega

/-- A push moves every word one step further back (40_ring_buffer.md R121, R122). -/
theorem Ring.slot_push {r : Ring} {k k' : Word} (w : Word) (hcur : r.cursor.toNat < r.len.toNat)
    (hk : k.toNat < r.len.toNat) (hk' : k.toNat = k'.toNat + 1) : (r.push w).1.slot k = r.slot k' := by
  have hcursor := Ring.push_fst_cursor w (by omega : 1 ≤ r.len.toNat)
  have hlt : (r.push w).1.cursor.toNat < (r.push w).1.len.toNat := by
    rw [hcursor]
    exact Nat.mod_lt _ (by omega)
  rw [Ring.slot_eq hlt hk, Ring.slot_eq hcur (by omega), hcursor, Ring.push_fst_len]
  by_cases hwrap : r.cursor.toNat + 1 = r.len.toNat
  · rw [hwrap, Nat.mod_self]
    grind
  · rw [Nat.mod_eq_of_lt (by omega)]
    grind

/-- The slot of the oldest word is the cursor's: the next push overwrites it. -/
theorem Ring.slot_oldest {r : Ring} {k : Word} (hcur : r.cursor.toNat < r.len.toNat)
    (hk : k.toNat + 1 = r.len.toNat) : r.slot k = r.cursor.toNat := by
  rw [Ring.slot_eq hcur (by omega)]
  grind

/-! ## A ring as a queue -/

/-- The words of a ring, `k` steps back, are those of `hist`, the most recent first, and 0x00000000 past its end
(40_ring_buffer.md R131). -/
def Ring.Recalls (r : Ring) (hist : List Word) : Prop :=
  ∀ k : Word, k.toNat < r.len.toNat → r.readBack k = hist.getD k.toNat 0

theorem Ring.recalls_clear (r : Ring) : r.clear.Recalls [] := fun k _ => Ring.clear_read r (r.clear.slot k)

/-- A push is the new most recent word. -/
theorem Ring.Recalls.push {r : Ring} {hist : List Word} (h : r.Recalls hist) (w : Word)
    (hcur : r.cursor.toNat < r.len.toNat) : (r.push w).1.Recalls (w :: hist) := by
  intro k hk
  rw [Ring.push_fst_len] at hk
  cases hn : k.toNat with
  | zero =>
    obtain rfl : k = 0 := BitVec.eq_of_toNat_eq hn
    exact Ring.readBack_push w (by omega) hcur
  | succ n =>
    have hk' : (BitVec.ofNat 32 n).toNat = n := by
      rw [BitVec.toNat_ofNat, Nat.mod_eq_of_lt (by omega)]
    have hslot := Ring.slot_push w hcur hk (by omega : k.toNat = (BitVec.ofNat 32 n).toNat + 1)
    have hne : r.slot (BitVec.ofNat 32 n) ≠ r.cursor.toNat := by
      rw [Ring.slot_eq hcur (by omega)]
      grind
    calc (r.push w).1.readBack k
        = r.readBack (BitVec.ofNat 32 n) := by
          rw [Ring.readBack, Ring.push_fst_stor, hslot, RingStore.read_write, if_neg hne, Ring.readBack]
      _ = hist.getD n 0 := by rw [h _ (by omega), hk']

/-- A push returns the word pushed exactly len pushes earlier (40_ring_buffer.md R131). -/
theorem Ring.Recalls.push_out {r : Ring} {hist : List Word} (h : r.Recalls hist) (w : Word)
    (hcur : r.cursor.toNat < r.len.toNat) : (r.push w).2 = hist.getD (r.len.toNat - 1) 0 := by
  have hlast : (BitVec.ofNat 32 (r.len.toNat - 1)).toNat = r.len.toNat - 1 := by
    rw [BitVec.toNat_ofNat, Nat.mod_eq_of_lt (by omega)]
  rw [Ring.push_snd, ← Ring.slot_oldest (k := BitVec.ofNat 32 (r.len.toNat - 1)) hcur (by omega), ← Ring.readBack,
    h _ (by omega), hlast]

/-! ## A run of pushes -/

theorem execAll_append_singleton {is : List Instr} {i : Instr} {s t u : State} (h : execAll is s = some t)
    (hi : exec i t = .next u) : execAll (is ++ [i]) s = some u := by
  induction is generalizing s with
  | nil =>
    cases h
    simp only [List.nil_append, execAll, hi]
  | cons j js ih =>
    cases hj : exec j s with
    | next v =>
      simp only [execAll, hj] at h
      simp only [List.cons_append, execAll, hj]
      exact ih h
    | fault => simp [execAll, hj] at h
    | refused => simp [execAll, hj] at h

/-- The responses of the pushes of `ws` into a cleared ring, the latest first (40_ring_buffer.md R131). -/
def pushResponses (len : Nat) (ws : List Word) : List Response :=
  ((List.range ws.length).map fun j => (⟨0, [if j < len then 0 else ws.getD (j - len) 0]⟩ : Response)).reverse

theorem pushResponses_append_singleton {len : Nat} (ws : List Word) (w : Word) (hlen : 1 ≤ len) :
    pushResponses len (ws ++ [w]) = ⟨0, [ws.reverse.getD (len - 1) 0]⟩ :: pushResponses len ws := by
  have hword : ∀ j ≤ ws.length, (if j < len then 0 else (ws ++ [w]).getD (j - len) 0) =
      if j < len then 0 else ws.getD (j - len) 0 := by
    intro j hj
    split
    · rfl
    · rw [List.getD_append _ _ _ _ (by omega)]
  have hout : (if ws.length < len then 0 else ws.getD (ws.length - len) 0) = ws.reverse.getD (len - 1) 0 := by
    split
    · rw [List.getD_eq_default _ _ (by rw [List.length_reverse]; omega)]
    · rw [List.getD_reverse _ (by omega)]
      congr 1
      omega
  rw [pushResponses, List.length_append, List.length_singleton, List.range_succ, List.map_append, List.reverse_append,
    List.map_singleton, List.reverse_singleton, List.singleton_append, hword _ le_rfl, hout, pushResponses]
  congr 2
  refine List.map_congr_left fun j hj => ?_
  rw [hword j (List.mem_range.1 hj).le]

/-- What a clear and the pushes of `ws` leave. -/
structure QueueRun (s : State) (ch : Chan) (sel : RingSel) (idx : Nat) (ws : List Word) (t : State) : Prop where
  ran : execAll (.rbClear ch sel idx :: ws.map (.rbPush ch sel idx)) s = some t
  ready : RingReady t ch sel idx
  len : (t.ring ch sel idx).len = (s.ring ch sel idx).len
  recalls : (t.ring ch sel idx).Recalls ws.reverse
  responses : t.responses = pushResponses (s.ring ch sel idx).len.toNat ws ++ ⟨0, []⟩ :: s.responses

section
variable {s t : State} {ch : Chan} {sel : RingSel} {idx : Nat}

theorem RingReady.queueRun_nil (h : RingReady s ch sel idx) : ∃ t, QueueRun s ch sel idx [] t := by
  obtain ⟨t, ht, hrep⟩ := h.exec_rbClear
  exact ⟨t,
    { ran := by simp only [List.map_nil, execAll, ht]
      ready := hrep.ready h ht
      len := by rw [hrep.ring]; rfl
      recalls := by rw [hrep.ring]; exact Ring.recalls_clear _
      responses := hrep.responses }⟩

theorem QueueRun.push {ws : List Word} (h : QueueRun s ch sel idx ws t) (w : Word) :
    ∃ u, QueueRun s ch sel idx (ws ++ [w]) u := by
  obtain ⟨u, hu, hrep⟩ := h.ready.exec_rbPush w
  have hcur := h.ready.cursor_lt
  exact ⟨u,
    { ran := by
        rw [List.map_append, ← List.cons_append]
        exact execAll_append_singleton h.ran hu
      ready := hrep.ready h.ready hu
      len := by rw [hrep.ring, Ring.push_fst_len, h.len]
      recalls := by
        rw [hrep.ring, List.reverse_append]
        exact h.recalls.push w hcur
      responses := by
        rw [hrep.responses, h.responses, h.recalls.push_out w hcur, h.len,
          pushResponses_append_singleton ws w (h.len ▸ h.ready.len_pos), List.cons_append] }⟩

theorem RingReady.exists_queueRun (h : RingReady s ch sel idx) (ws : List Word) : ∃ t, QueueRun s ch sel idx ws t := by
  induction ws using List.reverseRecOn with
  | nil => exact h.queueRun_nil
  | append_singleton ws w ih =>
    obtain ⟨t, ht⟩ := ih
    exact ht.push w

end

/-! ## The obligations -/

/-- Settles O18: the ring that RB.PUSH leaves is the ring pushed. -/
theorem ringPush : Obligations.RingPush := by
  intro ch sel idx v s hinv hrun hin
  have h : RingReady s ch sel idx := .of_inv hinv hrun hin
  obtain ⟨t, ht, hrep⟩ := h.exec_rbPush v
  refine ⟨t, _, ht, hrep.responses, ?_, hrep.untouched⟩
  rw [hrep.ring]
  exact Ring.push_spec v h.len_pos

/-- Settles O19: the one slot written is the slot of R122. -/
theorem ringWrite : Obligations.RingWrite := by
  intro ch sel idx k v s hinv hrun hin r slot
  have h : RingReady s ch sel idx := .of_inv hinv hrun hin
  obtain ⟨t, ht, hrep⟩ := h.exec_rbWrite k v
  have hslot : (r.slot k : Int) = slot := Ring.cast_slot k h.len_pos
  refine ⟨t, ht, hrep.responses, fun a => ?_, by rw [hrep.ring]; rfl, by rw [hrep.ring]; rfl, hrep.untouched⟩
  rw [hrep.ring, ← hslot]
  simp only [Nat.cast_inj]
  exact RingStore.read_write r.stor (r.slot k) a v

/-- Settles O20: one case for each check of RB.SETLEN. -/
theorem ringSetLength : Obligations.RingSetLength := by
  intro ch sel idx n s hinv hrun hin
  have h : RingReady s ch sel idx := .of_inv hinv hrun hin
  rw [h.exec_rbSetlen n]
  refine ⟨fun h0 => if_pos h0, fun hcap => ?_, fun h0 hcap => ?_⟩
  · have h0 : n ≠ 0 := by
      rintro rfl
      exact Nat.not_lt_zero _ hcap
    rw [if_neg h0, if_pos hcap]
  · rw [if_neg h0, if_neg (not_lt.2 hcap)]
    obtain ⟨t, ht, hrep⟩ := h.succeed_setRing ((s.ring ch sel idx).setLen n) []
    exact ⟨t, ht, hrep.responses, by rw [hrep.ring]; exact Ring.setLen_spec _ n, hrep.untouched⟩

/-- Settles O21: the ring that RB.CLEAR leaves is the ring cleared. -/
theorem ringClear : Obligations.RingClear := by
  intro ch sel idx s hinv hrun hin
  obtain ⟨t, ht, hrep⟩ := (RingReady.of_inv hinv hrun hin : RingReady s ch sel idx).exec_rbClear
  refine ⟨t, ht, hrep.responses, ?_, ?_, ?_, hrep.untouched⟩ <;> rw [hrep.ring]
  · exact Ring.clear_read _
  · rfl
  · rfl

/-- Settles O22, by induction on the pushes: the ring recalls the words pushed since it was cleared. -/
theorem ringIsFifo : Obligations.RingIsFifo := by
  intro ch sel idx ws s hinv hrun hin len
  obtain ⟨t, ht⟩ := (RingReady.of_inv hinv hrun hin : RingReady s ch sel idx).exists_queueRun ws
  refine ⟨t, ht.ran, ht.responses, fun k hlen hpushed => ?_⟩
  rw [ht.ready.exec_rbRead k, ht.recalls k (by rwa [ht.len]), List.getD_reverse _ hpushed]

end Sys2Proof.Machine
end

section
/-! SUPPORT. FTZ and the output histories (41_biquad.md R140, R142; 45_engine.md R248): O56, and the invariant of O17. -/

namespace Sys2Proof

/-! ## Subnormals as values -/

theorem F32.abs_toReal (w : F32) : |w.toReal| = (w.units : ℝ) / 2 ^ 149 := by
  cases hs : w.sign <;> simp [F32.toReal, F32.unitsZ, hs, abs_div]

/-- The words with exponent field 0 are those of magnitude below 2^-126. -/
theorem F32.units_lt_iff {w : F32} : w.units < 2 ^ 23 ↔ w.expField = 0 := by
  have hfrac : w.frac < 2 ^ 23 := Nat.mod_lt _ (by decide)
  rw [F32.units]
  split
  case isTrue h => exact iff_of_true hfrac h
  case isFalse h =>
    refine iff_of_false (not_lt.2 ?_) h
    exact (Nat.le_add_right ..).trans (Nat.le_mul_of_pos_right _ (by positivity))

/-- The subnormals are the values other than 0 below 2^-126 in magnitude (41_biquad.md R140). -/
theorem F32.isSubnormal_iff_units {w : F32} : w.isSubnormal = true ↔ 0 < w.units ∧ w.units < 2 ^ 23 := by
  rw [F32.units_lt_iff, F32.isSubnormal, Bool.and_eq_true, decide_eq_true_eq, decide_eq_true_eq, and_comm]
  refine and_congr_left fun h => ?_
  rw [F32.units, if_pos h, Nat.pos_iff_ne_zero]

theorem F32.isSubnormal_iff_toReal {w : F32} :
    w.isSubnormal = true ↔ w.toReal ≠ 0 ∧ |w.toReal| < 1 / 2 ^ 126 := by
  have hsmall : (w.units : ℝ) / 2 ^ 149 < 1 / 2 ^ 126 ↔ w.units < 2 ^ 23 := by
    rw [div_lt_iff₀ (by positivity), show (1 / 2 ^ 126 : ℝ) * 2 ^ 149 = ((2 ^ 23 : ℕ) : ℝ) by norm_num, Nat.cast_lt]
  have hzero : w.toReal ≠ 0 ↔ 0 < w.units := by
    rw [← abs_pos, F32.abs_toReal, div_pos_iff_of_pos_right (by positivity), Nat.cast_pos]
  rw [F32.isSubnormal_iff_units, hzero, F32.abs_toReal, hsmall]

/-- The exponent field of an infinity and of a NaN is not 0. -/
theorem F32.isFinite_of_isSubnormal {w : F32} (h : w.isSubnormal = true) : w.isFinite = true := by
  have hexp : w.expField = 0 := F32.units_lt_iff.1 (F32.isSubnormal_iff_units.1 h).2
  rw [F32.isFinite, decide_eq_true_eq, F32.infMag]
  rw [F32.expField] at hexp
  omega

theorem F32.ftz_of_isSubnormal {w : F32} (h : w.isSubnormal = true) : w.ftz = 0 := if_pos h

theorem F32.ftz_of_not_isSubnormal {w : F32} (h : ¬w.isSubnormal = true) : w.ftz = w := if_neg h

/-- Settles O56: the subnormals are read off the value, and no large word, zero, infinity or NaN is one. -/
theorem flushToZero : Obligations.FlushToZero := by
  intro v
  refine ⟨F32.ftz_not_subnormal v, fun _ hne hlt => ?_, fun h => F32.ftz_of_not_isSubnormal fun hsub => ?_⟩
  · exact F32.ftz_of_isSubnormal (F32.isSubnormal_iff_toReal.2 ⟨hne, hlt⟩)
  · obtain ⟨-, hlt⟩ := F32.isSubnormal_iff_toReal.1 hsub
    rcases h with hlarge | hzero | hinf
    · exact hlarge.not_gt hlt
    · have hunits := F32.units_eq_zero_of_mag (of_decide_eq_true hzero)
      exact (F32.isSubnormal_iff_units.1 hsub).1.ne' hunits
    · exact absurd (F32.isFinite_of_isSubnormal hsub) (by simp [hinf])

namespace Machine

/-! ## Flushed channels -/

theorem Channel.flushed_iff {c : Channel} :
    c.flushed = true ↔ (∀ x ∈ c.combs, x.damp.flushed = true) ∧ c.lp.flushed = true ∧ c.hp.flushed = true := by
  simp only [Channel.flushed, Bool.and_eq_true, List.all_eq_true, and_assoc]

/-- Every comb, also one past the end of the list (log 18). -/
theorem Channel.flushed_comb {c : Channel} (h : c.flushed = true) (i : Nat) : (c.comb i).damp.flushed = true := by
  rw [Channel.comb, List.getD_eq_getElem?_getD]
  cases hget : c.combs[i]? with
  | none => rfl
  | some x => exact (Channel.flushed_iff.1 h).1 x (List.mem_of_getElem? hget)

theorem Channel.flushed_filter {c : Channel} (h : c.flushed = true) (k : FilterSel) (i : Nat) :
    (c.filter k i).flushed = true := by
  obtain ⟨-, hlp, hhp⟩ := Channel.flushed_iff.1 h
  cases k with
  | damp => exact Channel.flushed_comb h i
  | bandpass =>
    rw [Channel.filter]
    split
    · exact hlp
    · exact hhp

theorem Channel.flushed_setComb {c : Channel} (h : c.flushed = true) (i : Nat) {x : Comb}
    (hx : x.damp.flushed = true) : (c.setComb i x).flushed = true := by
  obtain ⟨hcombs, hpair⟩ := Channel.flushed_iff.1 h
  refine Channel.flushed_iff.2 ⟨fun y hy => ?_, hpair⟩
  rcases List.mem_or_eq_of_mem_set hy with hmem | rfl
  · exact hcombs y hmem
  · exact hx

theorem Channel.flushed_setRing {c : Channel} (h : c.flushed = true) (k : RingSel) (i : Nat) (r : Ring) :
    (c.setRing k i r).flushed = true := by
  cases k with
  | comb => exact Channel.flushed_setComb h i (Channel.flushed_comb h i)
  | allpass => exact h

theorem Channel.flushed_setFilter {c : Channel} (h : c.flushed = true) (k : FilterSel) (i : Nat) {q : Biquad}
    (hq : q.flushed = true) : (c.setFilter k i q).flushed = true := by
  obtain ⟨hcombs, hlp, hhp⟩ := Channel.flushed_iff.1 h
  cases k with
  | damp => exact Channel.flushed_setComb h i hq
  | bandpass =>
    rw [Channel.setFilter]
    split
    · exact Channel.flushed_iff.2 ⟨hcombs, hq, hhp⟩
    · exact Channel.flushed_iff.2 ⟨hcombs, hlp, hq⟩

/-- ENG.ACTIVATE zeroes every history (45_engine.md R248). -/
theorem Channel.flushed_silence (c : Channel) : c.silence.flushed = true := by
  refine Channel.flushed_iff.2 ⟨fun x hx => ?_, Biquad.flushed_resetHistory _, Biquad.flushed_resetHistory _⟩
  obtain ⟨y, -, rfl⟩ := List.mem_map.1 hx
  exact Biquad.flushed_resetHistory _

/-- A reload writes coefficients, not histories (45_engine.md R242). -/
theorem Channel.flushed_reload {c : Channel} (h : c.flushed = true) (p : Params) (fs m : Nat) :
    (c.reload p fs m).flushed = true := by
  obtain ⟨hcombs, hpair⟩ := Channel.flushed_iff.1 h
  refine Channel.flushed_iff.2 ⟨fun x hx => ?_, hpair⟩
  obtain ⟨i, hi, rfl⟩ := mem_mapFrom hx
  have hold := hcombs _ (List.getElem_mem hi)
  split <;> exact hold

/-- A recompute leaves the filters alone (45_engine.md R243). -/
theorem Channel.flushed_recompute {c : Channel} (h : c.flushed = true) (p : Params) (fs nC nA : Nat) (t : F32)
    (st : Bool) (ch : Chan) : (c.recompute p fs nC nA t st ch).flushed = true := by
  obtain ⟨hcombs, hpair⟩ := Channel.flushed_iff.1 h
  refine Channel.flushed_iff.2 ⟨fun x hx => ?_, hpair⟩
  obtain ⟨i, hi, rfl⟩ := mem_mapFrom hx
  have hold := hcombs _ (List.getElem_mem hi)
  split <;> exact hold

/-! ## The stages of a sample (45_engine.md R253) -/

theorem Comb.flushed_step {c : Comb} (h : c.damp.flushed = true) (p : Params) (site : Site) (x : F32) :
    (c.step p site x).1.damp.flushed = true := by
  obtain ⟨t, ht⟩ := Comb.step_damp p site c x
  rw [ht]
  exact Biquad.flushed_process _ t h

theorem flushed_combStage {cs : List Comb} (h : ∀ x ∈ cs, x.damp.flushed = true) (e : MixEnv) (site : Site) (x : F32)
    (i : Nat) (acc : F32) : ∀ y ∈ (combStage e site x i cs acc).1, y.damp.flushed = true := by
  intro y hy
  obtain ⟨c, hc, rfl | ⟨site', rfl⟩⟩ := mem_combStage hy
  · exact h _ hc
  · exact Comb.flushed_step (h c hc) ..

theorem Channel.flushed_bandStage {c : Channel} (h : c.flushed = true) (site : Site) (x : F32) :
    (bandStage site c x).1.flushed = true := by
  obtain ⟨hcombs, hlp, hhp⟩ := Channel.flushed_iff.1 h
  exact Channel.flushed_iff.2 ⟨hcombs, Biquad.flushed_process _ _ hlp, Biquad.flushed_process _ _ hhp⟩

/-- The combs and the bandpass pair each stay flushed, whatever the stages that are on. -/
theorem Channel.flushed_sampleStep {c : Channel} (h : c.flushed = true) (e : MixEnv) (site : Site) (x : F32) :
    (sampleStep e site c x).1.flushed = true := by
  obtain ⟨hcombs, hpair⟩ := Channel.flushed_iff.1 h
  have hstage : ∀ y ∈ (if e.combsEn then combStage e (0 :: site) x 0 c.combs x else (c.combs, x)).1,
      y.damp.flushed = true := by
    split
    · exact flushed_combStage hcombs e _ x 0 x
    · exact hcombs
  rw [sampleStep]
  generalize (if e.combsEn then combStage e (0 :: site) x 0 c.combs x else (c.combs, x)) = combs at hstage
  have hafter (as : List Allpass) : Channel.flushed { c with combs := combs.1, aps := as } = true :=
    Channel.flushed_iff.2 ⟨hstage, hpair⟩
  dsimp only
  split
  · exact Channel.flushed_bandStage (hafter _) ..
  · exact hafter _

/-! ## Flushed states -/

theorem State.flushed_iff {s : State} :
    s.flushed = true ↔ (s.estate = .running → ∀ ch, (s.chan ch).flushed = true) := by
  rw [State.flushed]
  split
  case isTrue he =>
    rw [Bool.and_eq_true]
    exact ⟨fun h _ ch => by cases ch; exacts [h.1, h.2], fun h => ⟨h he .left, h he .right⟩⟩
  case isFalse he => exact iff_of_true rfl fun h => absurd h he

/-- A state in the same engine state whose channels are as flushed. -/
theorem State.flushed_of_chan {s t : State} (h : s.flushed = true) (he : t.estate = s.estate)
    (hch : ∀ ch, (s.chan ch).flushed = true → (t.chan ch).flushed = true) : t.flushed = true :=
  State.flushed_iff.2 fun ht ch => hch ch (State.flushed_iff.1 h (he ▸ ht) ch)

theorem State.flushed_setChan {s : State} (h : s.flushed = true) {ch : Chan} {c : Channel}
    (hc : (s.chan ch).flushed = true → c.flushed = true) : (s.setChan ch c).flushed = true := by
  refine State.flushed_of_chan h (State.setChan_estate ..) fun ch' hold => ?_
  rw [State.chan_setChan]
  split
  · subst_vars
    exact hc hold
  · exact hold

theorem State.flushed_setRing {s : State} (h : s.flushed = true) (ch : Chan) (k : RingSel) (i : Nat) (r : Ring) :
    (s.setRing ch k i r).flushed = true :=
  State.flushed_setChan h fun hc => Channel.flushed_setRing hc k i r

theorem State.flushed_setFilter {s : State} (h : s.flushed = true) {ch : Chan} {k : FilterSel} {i : Nat} {q : Biquad}
    (hq : (s.filter ch k i).flushed = true → q.flushed = true) : (s.setFilter ch k i q).flushed = true :=
  State.flushed_setChan h fun hc => Channel.flushed_setFilter hc k i (hq (Channel.flushed_filter hc k i))

theorem State.flushed_setComb {s : State} (h : s.flushed = true) {ch : Chan} {i : Nat} {x : Comb}
    (hx : (s.comb ch i).damp.flushed = true → x.damp.flushed = true) : (s.setComb ch i x).flushed = true :=
  State.flushed_setChan h fun hc => Channel.flushed_setComb hc i (hx (Channel.flushed_comb hc i))

theorem State.flushed_setAp {s : State} (h : s.flushed = true) (ch : Chan) (j : Nat) (a : Allpass) :
    (s.setAp ch j a).flushed = true :=
  State.flushed_setChan h id

theorem State.flushed_writeBank {s : State} (h : s.flushed = true) (b : BankId) (a : Nat) (w : Word) :
    (s.writeBank b a w).flushed = true :=
  State.flushed_of_chan h (State.writeBank_estate ..) fun ch hc => by rwa [State.chan_writeBank]

theorem State.flushed_reload {s : State} (h : s.flushed = true) (m : Nat) : (s.reload m).flushed = true :=
  State.flushed_of_chan h rfl fun ch hc => by cases ch <;> exact Channel.flushed_reload hc ..

theorem State.flushed_recompute {s : State} (h : s.flushed = true) (t : F32) (st : Bool) (m : Word) :
    (s.recompute t st m).flushed = true :=
  State.flushed_of_chan h rfl fun ch hc => by cases ch <;> exact Channel.flushed_recompute hc ..

theorem State.flushed_detect {s : State} (h : s.flushed = true) : s.detect.flushed = true := by
  rcases s.detect_cases with ⟨-, heq⟩ | ⟨-, -, heq⟩ | ⟨-, -, heq⟩ <;> rw [heq]
  · exact h
  · exact State.flushed_recompute h ..
  · exact State.flushed_recompute (State.flushed_reload h _) ..

theorem State.flushed_processSample {e : MixEnv} {k : Nat} {s t : State} (h : s.flushed = true)
    (ht : processSample e k s = .ok t) : t.flushed = true := by
  rcases processSample_cases e k s with ⟨-, heq⟩ | ⟨-, -, -, heq⟩ | ⟨xl, xr, -, -, heq⟩ <;> rw [heq] at ht <;> cases ht
  refine State.flushed_writeBank (State.flushed_writeBank ?_ ..) ..
  exact State.flushed_of_chan h rfl fun ch hc => by cases ch <;> exact Channel.flushed_sampleStep hc ..

/-! ## The commands -/

theorem flushed_csrWrite {s : State} (h : s.flushed = true) (v : Word) (c : Csr) :
    EndsIn s (fun u => u.flushed = true) (csrWrite s v c) := by
  cases c with
  | errclr | decayMs | dryDb | wetDb | flags => exact endsIn_succeed h
  | mode =>
    rw [csrWrite]
    split
    · exact endsIn_succeed h
    · exact endsIn_failWith _
  | _ => exact endsIn_failWith _

theorem flushed_engCsrr {s : State} (h : s.flushed = true) (a : Nat) :
    EndsIn s (fun u => u.flushed = true) (execEngCsrr a s) := by
  rw [execEngCsrr]
  split
  · exact endsIn_failWith _
  · exact endsIn_succeed h

theorem flushed_engCsrw {s : State} (h : s.flushed = true) (a : Nat) (v : Word) :
    EndsIn s (fun u => u.flushed = true) (execEngCsrw a v s) := by
  rw [execEngCsrw]
  split
  · exact endsIn_failWith _
  · exact flushed_csrWrite h v _

theorem flushed_readSpace {s : State} (h : s.flushed = true) (a : Nat) (sp : Space) :
    EndsIn s (fun u => u.flushed = true) (readSpace s a sp) := by
  cases sp with
  | rom => exact endsIn_succeed h
  | bank b =>
    rw [readSpace]
    split
    · exact endsIn_succeed h
    · exact endsIn_fault _

theorem flushed_writeSpace {s : State} (h : s.flushed = true) (a : Nat) (w : Word) (sp : Space) :
    EndsIn s (fun u => u.flushed = true) (writeSpace s a w sp) := by
  cases sp with
  | rom => exact endsIn_failWith _
  | bank b => exact endsIn_succeed (State.flushed_writeBank h b a w)

theorem flushed_engProcess {s : State} (h : s.flushed = true) (n : Nat) :
    EndsIn s (fun u => u.flushed = true) (execEngProcess n s) := by
  refine endsIn_checked fun _ => ?_
  split
  · exact endsIn_fault _
  · rename_i t ht
    have hblock : t.flushed = true :=
      processFrom_induct (fun _ _ _ _ _ hu hv => State.flushed_processSample hu hv) (State.flushed_detect h) ht
    exact endsIn_succeed hblock

/-- Every command leaves the histories of a running block flushed: a filter is only stepped, reset or given coefficients,
ENG.ACTIVATE zeroes all, and ENG.CONFIG and ENG.CLEANUP leave RUNNING. -/
theorem flushed_exec {s : State} (h : s.flushed = true) (i : Instr) :
    EndsIn s (fun u => u.flushed = true) (exec i s) := by
  cases i with
  | rbPush | rbWrite | rbClear => exact endsIn_unitCommand fun _ _ => endsIn_succeed (State.flushed_setRing h ..)
  | rbSetlen =>
    exact endsIn_unitCommand fun _ _ => endsIn_checked fun _ => endsIn_succeed (State.flushed_setRing h ..)
  | rbRead | rbStat | bqRdcoef | bqRdhist | cfRdstate | apRdstate =>
    exact endsIn_unitCommand fun _ _ => endsIn_succeed h
  | bqSetlp | bqSethp | bqSetpk =>
    exact endsIn_unitCommand fun _ _ => endsIn_checked fun _ => endsIn_succeed (State.flushed_setFilter h id)
  | bqReset =>
    exact endsIn_unitCommand fun _ _ =>
      endsIn_succeed (State.flushed_setFilter h fun _ => Biquad.flushed_resetHistory _)
  | bqProc =>
    refine endsIn_unitCommand fun _ _ => endsIn_succeed ?_
    exact State.flushed_setFilter h fun hq => Biquad.flushed_process _ _ hq
  | bqLdcoef => exact endsIn_unitCommand fun _ _ => endsIn_succeed (State.flushed_setFilter h id)
  | cfCfg =>
    exact endsIn_unitCommand fun _ _ => endsIn_checked fun _ => endsIn_succeed (State.flushed_setComb h id)
  | cfSetg => exact endsIn_unitCommand fun _ _ => endsIn_succeed (State.flushed_setComb h id)
  | cfProc =>
    refine endsIn_unitCommand fun _ _ => endsIn_succeed ?_
    exact State.flushed_setComb h fun hc => Comb.flushed_step hc ..
  | apCfg => exact endsIn_unitCommand fun _ _ => endsIn_checked fun _ => endsIn_succeed (State.flushed_setAp h ..)
  | apSetg => exact endsIn_unitCommand fun _ _ => endsIn_succeed (State.flushed_setAp h ..)
  | apProc =>
    refine endsIn_unitCommand fun _ _ => endsIn_succeed ?_
    exact State.flushed_setAp h ..
  | engConfig => exact endsIn_checked fun _ => endsIn_succeed rfl
  | engActivate =>
    refine endsIn_checked fun _ => endsIn_succeed (State.flushed_iff.2 fun _ ch => ?_)
    cases ch <;> exact Channel.flushed_silence _
  | engProcess n => exact flushed_engProcess h n
  | engCleanup => exact endsIn_succeed rfl
  | engCsrr a => exact flushed_engCsrr h a
  | engCsrw a v => exact flushed_engCsrw h a v
  | memRd => exact endsIn_memCommand fun sp _ => flushed_readSpace h _ sp
  | memWr => exact endsIn_memCommand fun sp _ => flushed_writeSpace h _ _ sp

/-- Settles O17: only a command moves a history, and each command leaves it flushed. -/
theorem stepKeepsHistoriesFlushed : Obligations.StepKeepsHistoriesFlushed := by
  intro s t _ hs ht
  rcases step_cases s with ⟨-, heq⟩ | ⟨tr, rest, e, -, -, heq⟩ | ⟨tr, rest, i, -, -, heq⟩ <;> rw [heq] at ht
  · cases ht
    exact hs
  · cases ht
    exact hs
  · have hlink : (s.setLink rest).flushed = true := hs
    rcases flushed_exec hlink i t ht with ⟨e, rfl⟩ | ⟨u, d, hu, rfl⟩
    · exact hlink
    · exact hu

end Machine

end Sys2Proof
end

section
/-! SUPPORT. The biquad unit (41_biquad.md sections 1 and 2): what each BQ command leaves of its filter, O24 to O27, and the
design domain, O28. -/

namespace Sys2Proof

theorem F32.isPos_iff_toReal {w : F32} (h : w.isFinite = true) : w.isPos = true ↔ 0 < w.toReal := by
  rw [F32.isPos_iff, F32.toReal_pos_iff]
  exact and_iff_right (F32.isNaN_eq_false_of_isFinite h)

namespace Machine

/-! ## A filter that commands may use -/

/-- A running block that meets the invariant, and a filter that it has. -/
structure FilterReady (s : State) (ch : Chan) (sel : FilterSel) (idx : Nat) : Prop where
  parts : s.Parts
  running : s.estate = .running
  inRange : s.params.hasFilter sel idx = true

/-- What a command leaves that replaced one filter by `q` and answered `d`. -/
structure FilterReplaced (s : State) (ch : Chan) (sel : FilterSel) (idx : Nat) (q : Biquad) (d : List Word)
    (t : State) : Prop where
  responses : t.responses = ⟨0, d⟩ :: s.responses
  filter : t.filter ch sel idx = q
  untouched : Untouched s t noneOf (only ch sel idx) noLine noLine

/-- No claim of what a command leaves alone names the counter of free values (log 5). -/
theorem Untouched.bumpFree {s t : State} {rings : Chan → RingSel → Nat → Prop} {filters : Chan → FilterSel → Nat → Prop}
    {combs aps : Chan → Nat → Prop} (h : Untouched s t rings filters combs aps) :
    Untouched s t.bumpFree rings filters combs aps where
  registers := h.registers.trans (.bumpFree t)
  banks b a := by rw [← h.banks b a, State.readBank, State.bank_bumpFree, State.readBank]
  rings ch k i := by simpa only [State.ring, State.chan_bumpFree] using h.rings ch k i
  filters ch k i := by simpa only [State.filter, State.chan_bumpFree] using h.filters ch k i
  combs ch i := by simpa only [State.comb, State.chan_bumpFree] using h.combs ch i
  aps ch j := by simpa only [State.ap, State.chan_bumpFree] using h.aps ch j

section
variable {s t : State} {ch : Chan} {sel : FilterSel} {idx : Nat} {q : Biquad} {d : List Word}

theorem FilterReplaced.bumpFree (h : FilterReplaced s ch sel idx q d t) :
    FilterReplaced s ch sel idx q d t.bumpFree where
  responses := h.responses
  filter := by rw [State.filter, State.chan_bumpFree, ← State.filter, h.filter]
  untouched := h.untouched.bumpFree

theorem FilterReady.of_inv (hinv : s.inv = true) (hrun : s.estate = .running)
    (hin : s.params.hasFilter sel idx = true) : FilterReady s ch sel idx :=
  ⟨State.inv_iff.1 hinv, hrun, hin⟩

/-- A filter command that passes its checks (41_biquad.md R141). -/
theorem FilterReady.unitCommand_eq (h : FilterReady s ch sel idx) (body : Result) :
    unitCommand s (s.params.hasFilter sel idx) body = body :=
  unitCommand_running h.running h.inRange

theorem FilterReady.setFilter_replaced (h : FilterReady s ch sel idx) (q : Biquad) (d : List Word) :
    FilterReplaced s ch sel idx q d ((s.setFilter ch sel idx q).answered d) where
  responses := by rw [State.answered_responses, State.setFilter_responses]
  filter := State.filter_setFilter (h.parts.shaped ch) h.inRange q d
  untouched := .setFilter (h.parts.shaped ch) h.inRange q d

/-- A filter command that replaces its filter completes. -/
theorem FilterReady.unitCommand_setFilter (h : FilterReady s ch sel idx) (q : Biquad) (d : List Word) :
    ∃ t, unitCommand s (s.params.hasFilter sel idx) (succeed (s.setFilter ch sel idx q) d) = .next t ∧
      FilterReplaced s ch sel idx q d t :=
  ⟨_, h.unitCommand_eq _, h.setFilter_replaced q d⟩

/-! ## What the BQ commands without a design leave -/

/-- BQ.PROC (41_biquad.md R154). -/
theorem FilterReady.exec_bqProc (h : FilterReady s ch sel idx) (x : F32) :
    ∃ t, exec (.bqProc ch sel idx x) s = .next t ∧
      FilterReplaced s ch sel idx ((s.filter ch sel idx).process [s.freeCtr] x).1
        [((s.filter ch sel idx).process [s.freeCtr] x).2] t :=
  ⟨_, h.unitCommand_eq _, (h.setFilter_replaced _ _).bumpFree⟩

/-- BQ.RESET (41_biquad.md R153). -/
theorem FilterReady.exec_bqReset (h : FilterReady s ch sel idx) :
    ∃ t, exec (.bqReset ch sel idx) s = .next t ∧
      FilterReplaced s ch sel idx (s.filter ch sel idx).resetHistory [] t :=
  h.unitCommand_setFilter _ _

/-- BQ.LDCOEF (41_biquad.md R155). -/
theorem FilterReady.exec_bqLdcoef (h : FilterReady s ch sel idx) (b0 b1 b2 a1 a2 : F32) :
    ∃ t, exec (.bqLdcoef ch sel idx b0 b1 b2 a1 a2) s = .next t ∧
      FilterReplaced s ch sel idx ((s.filter ch sel idx).load b0 b1 b2 a1 a2) [] t :=
  h.unitCommand_setFilter _ _

end

/-- Settles O24: the filter that BQ.PROC leaves, and its answer, are those of one step of the recursion. -/
theorem biquadProc : Obligations.BiquadProc := by
  intro ch sel idx x s hinv hrun hin
  obtain ⟨t, ht, hrep⟩ := (FilterReady.of_inv hinv hrun hin : FilterReady s ch sel idx).exec_bqProc x
  refine ⟨t, _, ht, hrep.responses, F32.ftz_not_subnormal _, ?_, hrep.untouched⟩
  rw [hrep.filter]
  exact Biquad.process_spec ..

/-- Settles O25: each of the two commands writes the half of the filter that the other keeps. -/
theorem biquadResetAndLoad : Obligations.BiquadResetAndLoad := by
  intro ch sel idx b0 b1 b2 a1 a2 s hinv hrun hin
  have h : FilterReady s ch sel idx := .of_inv hinv hrun hin
  constructor
  · obtain ⟨t, ht, hrep⟩ := h.exec_bqReset
    refine ⟨t, ht, hrep.responses, ?_, ?_, hrep.untouched⟩ <;> rw [hrep.filter]
    · exact ⟨rfl, rfl, rfl, rfl⟩
    · exact ⟨rfl, rfl, rfl, rfl, rfl⟩
  · obtain ⟨t, ht, hrep⟩ := h.exec_bqLdcoef b0 b1 b2 a1 a2
    refine ⟨t, ht, hrep.responses, ?_, ?_, hrep.untouched⟩ <;> rw [hrep.filter]
    · exact ⟨rfl, rfl, rfl, rfl, rfl⟩
    · exact ⟨rfl, rfl, rfl, rfl⟩

/-! ## The design domain (41_biquad.md R144) -/

theorem Params.designCheck_eq_none {p : Params} {f0 bw : F32} {fs : Word} :
    p.designCheck f0 (.operand bw) fs.toNat = none ↔ DesignDomain p f0 bw fs := by
  simp only [Params.designCheck, firstError_eq_none, List.forall_mem_cons, List.not_mem_nil, false_implies,
    implies_true, and_true, require_eq_none, Bool.and_eq_true, decide_eq_true_eq, Bandwidth.isFinite, Bandwidth.isPos,
    belowNyquist_iff, DesignDomain]
  constructor
  · rintro ⟨⟨hlo, hhi⟩, ⟨hf0, hbw⟩, ⟨hpos, hnyquist⟩, hbwPos⟩
    exact ⟨hlo, hhi, hf0, hbw, (F32.isPos_iff_toReal hf0).1 hpos, hnyquist, (F32.isPos_iff_toReal hbw).1 hbwPos⟩
  · rintro ⟨hlo, hhi, hf0, hbw, hpos, hnyquist, hbwPos⟩
    exact ⟨⟨hlo, hhi⟩, ⟨hf0, hbw⟩, ⟨(F32.isPos_iff_toReal hf0).2 hpos, hnyquist⟩, (F32.isPos_iff_toReal hbw).2 hbwPos⟩

/-- The rate is checked before the other operands. -/
theorem Params.designCheck_of_rate {p : Params} {fs : Nat} (h : fs < 1 ∨ p.fsMax < fs) (f0 : F32) (bw : Bandwidth) :
    p.designCheck f0 bw fs = some .sampleRate := by
  have hrate : (decide (1 ≤ fs) && decide (fs ≤ p.fsMax)) = false := by
    rw [Bool.and_eq_false_iff, decide_eq_false_iff_not, decide_eq_false_iff_not, not_le, not_le]
    exact h
  rw [Params.designCheck, hrate, require_false, firstError_cons_some]

/-- At a rate in range every other check reports BAD_PARAM. -/
theorem Params.designCheck_of_not_domain {p : Params} {f0 bw : F32} {fs : Word} (hlo : 1 ≤ fs.toNat)
    (hhi : fs.toNat ≤ p.fsMax) (h : ¬DesignDomain p f0 bw fs) :
    p.designCheck f0 (.operand bw) fs.toNat = some .badParam := by
  refine firstError_eq_some ?_ (mt Params.designCheck_eq_none.1 h)
  have hrate : (decide (1 ≤ fs.toNat) && decide (fs.toNat ≤ p.fsMax)) = true := by simp [hlo, hhi]
  rw [hrate, require_true]
  simp only [List.forall_mem_cons]
  exact ⟨.inl trivial, require_eq_none_or .., require_eq_none_or .., require_eq_none_or .., nofun⟩

/-- BQ.SETPK makes the check of its gain after those of the design (41_biquad.md R152). -/
def Params.peakingCheck (p : Params) (f0 gainDb bw : F32) (fs : Nat) : Option ErrorCode :=
  firstError [p.designCheck f0 (.operand bw) fs, require gainDb.isFinite .badParam]

theorem Params.peakingCheck_of_some {p : Params} {f0 bw : F32} {fs : Nat} {e : ErrorCode}
    (h : p.designCheck f0 (.operand bw) fs = some e) (gainDb : F32) : p.peakingCheck f0 gainDb bw fs = some e := by
  rw [Params.peakingCheck, h, firstError_cons_some]

theorem Params.peakingCheck_of_none {p : Params} {f0 bw : F32} {fs : Nat}
    (h : p.designCheck f0 (.operand bw) fs = none) (gainDb : F32) :
    p.peakingCheck f0 gainDb bw fs = require gainDb.isFinite .badParam := by
  rw [Params.peakingCheck, h, firstError_cons_none]
  cases gainDb.isFinite <;> rfl

section
variable {s : State} {ch : Chan} {sel : FilterSel} {idx : Nat} {f0 gainDb bw : F32} {fs : Word} {e : ErrorCode}

/-- A filter command whose own check fails. -/
theorem unitCommand_checked_some {check : Option ErrorCode} (hrun : s.estate = .running)
    (hin : s.params.hasFilter sel idx = true) (hc : check = some e) (body : Result) :
    unitCommand s (s.params.hasFilter sel idx) (checked s check body) = .next (s.failed e.value) := by
  rw [unitCommand_running hrun hin, hc, checked_some, failWith_eq]

/-- The three design commands report what DesignOK reports (41_biquad.md R150 to R152). -/
theorem exec_design_failed (hrun : s.estate = .running) (hin : s.params.hasFilter sel idx = true)
    (hc : s.params.designCheck f0 (.operand bw) fs.toNat = some e) :
    exec (.bqSetlp ch sel idx f0 bw fs) s = .next (s.failed e.value) ∧
      exec (.bqSethp ch sel idx f0 bw fs) s = .next (s.failed e.value) ∧
      exec (.bqSetpk ch sel idx f0 gainDb bw fs) s = .next (s.failed e.value) :=
  ⟨unitCommand_checked_some hrun hin hc _, unitCommand_checked_some hrun hin hc _,
    unitCommand_checked_some hrun hin (Params.peakingCheck_of_some hc gainDb) _⟩

end

/-- Settles O28: a rate out of range fails the first check of DesignOK, and the checks after it all report BAD_PARAM. -/
theorem designDomainChecked : Obligations.DesignDomainChecked := by
  intro ch sel idx f0 gainDb bw fs s hrun hin
  exact ⟨fun h => exec_design_failed hrun hin (Params.designCheck_of_rate h ..),
    fun hlo hhi h => exec_design_failed hrun hin (Params.designCheck_of_not_domain hlo hhi h)⟩

/-! ## The designs (41_biquad.md R145 to R149) -/

/-- The law of COEF_EVAL for a formula of known value (00_scope.md R17). -/
theorem coefOf_coefEval {e : RealFormula} {x : ℝ} (h : e.eval Config.apInGain = x) : CoefOf x (coefEval e) :=
  h ▸ Config.coefEval.law e

theorem eval_designW0 (ap : ℝ → ℝ) (f0 : F32) (fs : Nat) : (designW0 f0 fs).eval ap = realW0 f0.toReal fs := by
  simp only [designW0, RealFormula.eval, realW0, Nat.cast_ofNat]

theorem eval_designAlpha (ap : ℝ → ℝ) (f0 bw : F32) (fs : Nat) :
    (designAlpha f0 (.operand bw) fs).eval ap = realAlpha f0.toReal bw.toReal fs := by
  simp only [designAlpha, RealFormula.eval, Bandwidth.formula, eval_designW0, realAlpha, Nat.cast_ofNat]

/-- A design command whose check passes completes: it stores the design and keeps the history (41_biquad.md R149). -/
theorem FilterReady.checked_store {s : State} {ch : Chan} {sel : FilterSel} {idx : Nat} (h : FilterReady s ch sel idx)
    {check : Option ErrorCode} (hc : check = none) (design : Design) :
    ∃ t, unitCommand s (s.params.hasFilter sel idx)
          (checked s check (succeed (s.setFilter ch sel idx ((s.filter ch sel idx).store design)) [])) = .next t ∧
      FilterReplaced s ch sel idx ((s.filter ch sel idx).store design) [] t ∧
      (s.filter ch sel idx).SameHistory (t.filter ch sel idx) := by
  rw [hc, checked_none]
  obtain ⟨t, ht, hrep⟩ := h.unitCommand_setFilter ((s.filter ch sel idx).store design) []
  exact ⟨t, ht, hrep, by rw [hrep.filter]; exact ⟨rfl, rfl, rfl, rfl⟩⟩

theorem Biquad.isLowPass_store (q : Biquad) (f0 bw : F32) (fs : Nat) :
    IsLowPass (q.store (lowPass f0 (.operand bw) fs)) f0.toReal bw.toReal fs := by
  refine ⟨coefOf_coefEval ?_, coefOf_coefEval ?_, coefOf_coefEval ?_, coefOf_coefEval ?_, coefOf_coefEval ?_⟩ <;>
    simp only [lowPass, RealFormula.eval, eval_designW0, eval_designAlpha, Nat.cast_ofNat, Nat.cast_one]

theorem Biquad.isHighPass_store (q : Biquad) (f0 bw : F32) (fs : Nat) :
    IsHighPass (q.store (highPass f0 (.operand bw) fs)) f0.toReal bw.toReal fs := by
  refine ⟨coefOf_coefEval ?_, coefOf_coefEval ?_, coefOf_coefEval ?_, coefOf_coefEval ?_, coefOf_coefEval ?_⟩ <;>
    simp only [highPass, RealFormula.eval, eval_designW0, eval_designAlpha, Nat.cast_ofNat, Nat.cast_one]

theorem Biquad.isPeaking_store (q : Biquad) (f0 gainDb bw : F32) (fs : Nat) :
    IsPeaking (q.store (peaking f0 gainDb (.operand bw) fs)) f0.toReal gainDb.toReal bw.toReal fs := by
  refine ⟨coefOf_coefEval ?_, coefOf_coefEval ?_, coefOf_coefEval ?_, coefOf_coefEval ?_, coefOf_coefEval ?_⟩ <;>
    simp only [peaking, RealFormula.eval, eval_designW0, eval_designAlpha, Nat.cast_ofNat, Nat.cast_one]

/-- Settles O26: in the domain the check passes, and each coefficient is COEF_EVAL of its formula. -/
theorem passDesigns : Obligations.PassDesigns := by
  intro ch sel idx f0 bw fs s hinv hrun hin hdom
  have h : FilterReady s ch sel idx := .of_inv hinv hrun hin
  have hcheck := Params.designCheck_eq_none.2 hdom
  constructor
  · obtain ⟨t, ht, hrep, hhist⟩ := h.checked_store hcheck (lowPass f0 (.operand bw) fs.toNat)
    refine ⟨t, ht, hrep.responses, ?_, hhist, hrep.untouched⟩
    rw [hrep.filter]
    exact Biquad.isLowPass_store ..
  · obtain ⟨t, ht, hrep, hhist⟩ := h.checked_store hcheck (highPass f0 (.operand bw) fs.toNat)
    refine ⟨t, ht, hrep.responses, ?_, hhist, hrep.untouched⟩
    rw [hrep.filter]
    exact Biquad.isHighPass_store ..

/-- Settles O27: in the domain the gain alone decides between the design and BAD_PARAM. -/
theorem peakingDesign : Obligations.PeakingDesign := by
  intro ch sel idx f0 gainDb bw fs s hinv hrun hin hdom
  have h : FilterReady s ch sel idx := .of_inv hinv hrun hin
  have hcheck := Params.peakingCheck_of_none (Params.designCheck_eq_none.2 hdom) gainDb
  refine ⟨fun hgain => ?_, fun hgain => ?_⟩ <;> rw [hgain] at hcheck
  · rw [require_true] at hcheck
    obtain ⟨t, ht, hrep, hhist⟩ := h.checked_store hcheck (peaking f0 gainDb (.operand bw) fs.toNat)
    refine ⟨t, ht, hrep.responses, ?_, hhist, hrep.untouched⟩
    rw [hrep.filter]
    exact Biquad.isPeaking_store ..
  · exact unitCommand_checked_some hrun hin (hcheck.trans (require_false _)) _

end Machine

end Sys2Proof
end

section
/-! SUPPORT. The comb and allpass units (42_comb.md sections 1 and 2, 43_allpass.md section 2): what each CF command,
AP.CFG and AP.SETG leave of their line, O29, O31, O32, and the checks of the two CFG commands, O33. -/

namespace Sys2Proof.Machine

/-! ## A comb that commands may use -/

/-- A running block that meets the invariant, and a comb that it has. -/
structure CombReady (s : State) (ch : Chan) (idx : Nat) : Prop where
  parts : s.Parts
  running : s.estate = .running
  inRange : s.params.hasComb idx = true

/-- What a command leaves that replaced one comb by `c` and answered `d`. -/
structure CombReplaced (s : State) (ch : Chan) (idx : Nat) (c : Comb) (d : List Word) (t : State) : Prop where
  responses : t.responses = ⟨0, d⟩ :: s.responses
  comb : t.comb ch idx = c
  untouched : Untouched s t (only ch .comb idx) (only ch .damp idx) (onlyLine ch idx) noLine

section
variable {s t : State} {ch : Chan} {idx : Nat} {c : Comb} {d : List Word}

/-- Where the ring a command may have replaced is as it was, every ring is. -/
theorem Untouched.noRing {sel : RingSel} {filters : Chan → FilterSel → Nat → Prop} {combs aps : Chan → Nat → Prop}
    (h : Untouched s t (only ch sel idx) filters combs aps) (hring : t.ring ch sel idx = s.ring ch sel idx) :
    Untouched s t noneOf filters combs aps where
  registers := h.registers
  banks := h.banks
  rings ch' k i hi _ := by
    by_cases hsame : only ch sel idx ch' k i
    · obtain ⟨rfl, rfl, rfl⟩ := hsame
      exact hring
    · exact h.rings ch' k i hi hsame
  filters := h.filters
  combs := h.combs
  aps := h.aps

/-- Where the filter a command may have replaced is as it was, every filter is. -/
theorem Untouched.noFilter {sel : FilterSel} {rings : Chan → RingSel → Nat → Prop} {combs aps : Chan → Nat → Prop}
    (h : Untouched s t rings (only ch sel idx) combs aps) (hfilter : t.filter ch sel idx = s.filter ch sel idx) :
    Untouched s t rings noneOf combs aps where
  registers := h.registers
  banks := h.banks
  rings := h.rings
  filters ch' k i hi _ := by
    by_cases hsame : only ch sel idx ch' k i
    · obtain ⟨rfl, rfl, rfl⟩ := hsame
      exact hfilter
    · exact h.filters ch' k i hi hsame
  combs := h.combs
  aps := h.aps

theorem CombReady.of_inv (hinv : s.inv = true) (hrun : s.estate = .running) (hin : s.params.hasComb idx = true) :
    CombReady s ch idx :=
  ⟨State.inv_iff.1 hinv, hrun, hin⟩

theorem CombReady.ring_wf (h : CombReady s ch idx) : (s.comb ch idx).ring.wf s.params.rbCap = true :=
  h.parts.ring_wf (by simp [h.running]) ch .comb idx h.inRange

theorem CombReady.len_pos (h : CombReady s ch idx) : 1 ≤ (s.comb ch idx).ring.len.toNat :=
  (Ring.wf_iff.1 h.ring_wf).1.1

theorem CombReady.cursor_lt (h : CombReady s ch idx) :
    (s.comb ch idx).ring.cursor.toNat < (s.comb ch idx).ring.len.toNat :=
  (Ring.wf_iff.1 h.ring_wf).2.1

/-- A comb command that passes its checks (42_comb.md R170). -/
theorem CombReady.unitCommand_eq (h : CombReady s ch idx) (body : Result) :
    unitCommand s (s.params.hasComb idx) body = body :=
  unitCommand_running h.running h.inRange

theorem CombReady.setComb_replaced (h : CombReady s ch idx) (c : Comb) (d : List Word) :
    CombReplaced s ch idx c d ((s.setComb ch idx c).answered d) where
  responses := by rw [State.answered_responses, State.setComb_responses]
  comb := by
    rw [State.comb, State.answered_chan]
    exact State.comb_setComb (h.parts.shaped ch) h.inRange c
  untouched := .setComb c ((SameRegisters.setChan s ch _).trans (.answered _ d)) (sameBanks_setChan s ch _ d)
    fun ch' => by rw [State.answered_chan, State.chan_setComb]

theorem CombReplaced.bumpFree (h : CombReplaced s ch idx c d t) : CombReplaced s ch idx c d t.bumpFree where
  responses := h.responses
  comb := by rw [State.comb, State.chan_bumpFree, ← State.comb, h.comb]
  untouched := h.untouched.bumpFree

/-- The next command may use the comb too. -/
theorem CombReplaced.ready {i : Instr} (h : CombReplaced s ch idx c d t) (hs : CombReady s ch idx)
    (ht : exec i s = .next t) : CombReady t ch idx where
  parts := hs.parts.exec ht
  running := h.untouched.registers.estate.trans hs.running
  inRange := by rw [h.untouched.registers.params, hs.inRange]

/-! ## What the CF commands without checks of their own leave -/

/-- CF.PROC (42_comb.md R174). -/
theorem CombReady.exec_cfProc (h : CombReady s ch idx) (x : Word) :
    ∃ t, exec (.cfProc ch idx x) s = .next t ∧
      CombReplaced s ch idx ((s.comb ch idx).step s.params [s.freeCtr] (s.params.s2f x)).1
        [((s.comb ch idx).step s.params [s.freeCtr] (s.params.s2f x)).2] t :=
  ⟨_, h.unitCommand_eq _, (h.setComb_replaced _ _).bumpFree⟩

/-- CF.SETG (42_comb.md R173). -/
theorem CombReady.exec_cfSetg (h : CombReady s ch idx) (g : F32) :
    ∃ t, exec (.cfSetg ch idx g) s = .next t ∧ CombReplaced s ch idx { s.comb ch idx with g := g } [] t :=
  ⟨_, h.unitCommand_eq _, h.setComb_replaced _ _⟩

end

/-! ## An allpass that commands may use -/

/-- A running block that meets the invariant, and an allpass that it has. -/
structure AllpassReady (s : State) (ch : Chan) (idx : Nat) : Prop where
  parts : s.Parts
  running : s.estate = .running
  inRange : s.params.hasAp idx = true

/-- What a command leaves that replaced one allpass by `a` and answered `d`. -/
structure AllpassReplaced (s : State) (ch : Chan) (idx : Nat) (a : Allpass) (d : List Word) (t : State) : Prop where
  responses : t.responses = ⟨0, d⟩ :: s.responses
  ap : t.ap ch idx = a
  untouched : Untouched s t (only ch .allpass idx) noneOf noLine (onlyLine ch idx)

section
variable {s t : State} {ch : Chan} {idx : Nat} {a : Allpass} {d : List Word}

theorem AllpassReady.of_inv (hinv : s.inv = true) (hrun : s.estate = .running) (hin : s.params.hasAp idx = true) :
    AllpassReady s ch idx :=
  ⟨State.inv_iff.1 hinv, hrun, hin⟩

/-- An allpass command that passes its checks (43_allpass.md R190). -/
theorem AllpassReady.unitCommand_eq (h : AllpassReady s ch idx) (body : Result) :
    unitCommand s (s.params.hasAp idx) body = body :=
  unitCommand_running h.running h.inRange

theorem AllpassReady.setAp_replaced (h : AllpassReady s ch idx) (a : Allpass) (d : List Word) :
    AllpassReplaced s ch idx a d ((s.setAp ch idx a).answered d) where
  responses := by rw [State.answered_responses, State.setAp_responses]
  ap := by
    rw [State.ap, State.answered_chan]
    exact State.ap_setAp (h.parts.shaped ch) h.inRange a
  untouched := .setAp a ((SameRegisters.setChan s ch _).trans (.answered _ d)) (sameBanks_setChan s ch _ d)
    fun ch' => by rw [State.answered_chan, State.chan_setAp]

/-- AP.SETG (43_allpass.md R193). -/
theorem AllpassReady.exec_apSetg (h : AllpassReady s ch idx) (gin g : F32) :
    ∃ t, exec (.apSetg ch idx gin g) s = .next t ∧
      AllpassReplaced s ch idx { s.ap ch idx with gin := gin, g := g } [] t :=
  ⟨_, h.unitCommand_eq _, h.setAp_replaced _ _⟩

end

/-! ## The checks of the CFG commands (42_comb.md R172, 43_allpass.md R192) -/

/-- The checks that CF.CFG and AP.CFG share: those of the delay, then that of the percent. -/
def Params.lineOperandCheck (p : Params) (d : Word) (pct : F32) : Option ErrorCode :=
  firstError [p.delayCheck d, require (finitePos pct) .badParam]

theorem Params.lineOperandCheck_or (p : Params) (d : Word) (pct : F32) (check : Option ErrorCode) :
    (p.lineOperandCheck d pct).or check = firstError [p.delayCheck d, require (finitePos pct) .badParam, check] := by
  simp only [Params.lineOperandCheck, firstError_cons, firstError_nil, Option.or_none, Option.or_assoc]

/-- A delay is checked as two lengths: the line's own, and the one stereo enhancement may give it. -/
theorem Params.delayCheck_eq_lenCheck (p : Params) (d : Word) :
    p.delayCheck d = (p.lenCheck d.toNat).or (p.lenCheck (p.scaleLen d.toNat)) := by
  have hdelay : d ≠ 0 ↔ 1 ≤ d.toNat := by
    rw [Nat.one_le_iff_ne_zero, ne_eq, ne_eq, ← BitVec.toNat_inj]
    rfl
  have hscaled : p.scaleLen d.toNat ≠ 0 ↔ 1 ≤ p.scaleLen d.toNat := Nat.one_le_iff_ne_zero.symm
  simp only [Params.delayCheck, Params.lenCheck, hdelay, hscaled, ← firstError_append_or, List.cons_append,
    List.nil_append]

theorem Params.lenCheck_eq (p : Params) (len : Nat) :
    p.lenCheck len = if len = 0 then some .invalidDelay else if p.rbCap < len then some .capacity else none := by
  split_ifs with hzero hcap
  · exact Params.lenCheck_of_lt (by omega)
  · exact Params.lenCheck_of_gt (by omega) hcap
  · rw [Params.lenCheck_eq_none, LengthOk]
    omega

/-- The shared checks in their order, the scaled length over the reals (44_coefficients.md R220). -/
theorem Params.lineOperandCheck_eq {p : Params} (h : p.stereoRatio.isPos = true) (d : Word) (pct : F32) :
    p.lineOperandCheck d pct =
      if d.toNat = 0 then some .invalidDelay
      else if p.rbCap < d.toNat then some .capacity
      else if ⌊(d.toNat : ℝ) * p.stereoRatio.toReal⌋ = 0 then some .invalidDelay
      else if p.rbCap < ⌊(d.toNat : ℝ) * p.stereoRatio.toReal⌋ then some .capacity
      else if ¬(pct.isFinite = true ∧ 0 < pct.toReal) then some .badParam
      else none := by
  have hpct : require (finitePos pct) .badParam =
      if ¬(pct.isFinite = true ∧ 0 < pct.toReal) then some .badParam else none := by
    simp only [← finitePos_iff_toReal]
    cases finitePos pct <;> rfl
  rw [← RealParam.floorMul_eq h, ← Params.scaleLen, Params.lineOperandCheck, firstError_cons, firstError_cons,
    firstError_nil, Option.or_none, Params.delayCheck_eq_lenCheck, Params.lenCheck_eq, Params.lenCheck_eq, hpct]
  simp only [Nat.cast_eq_zero, Nat.cast_lt]
  split_ifs <;> rfl

theorem Params.stereoRatio_isPos {p : Params} (h : p.wf = true) : p.stereoRatio.isPos = true := by
  simp only [Params.wf, Params.realsOk, Bool.and_eq_true] at h
  tauto

/-- Every operand of LineConfig passes the shared checks. -/
theorem Params.lineOperandCheck_eq_none {p : Params} (h : p.stereoRatio.isPos = true) {d : Word} {pct : F32}
    (hpos : 1 ≤ d.toNat) (hcap : d.toNat ≤ p.rbCap) (hscaledPos : 1 ≤ ⌊(d.toNat : ℝ) * p.stereoRatio.toReal⌋)
    (hscaledCap : ⌊(d.toNat : ℝ) * p.stereoRatio.toReal⌋ ≤ p.rbCap) (hpct : pct.isFinite = true ∧ 0 < pct.toReal) :
    p.lineOperandCheck d pct = none := by
  rw [Params.lineOperandCheck_eq h, if_neg (by omega), if_neg (by omega), if_neg (by omega), if_neg (by omega),
    if_neg (not_not_intro hpct)]

section
variable {s : State} {ch : Chan} {idx : Nat} {d : Word} {pct f0 bw : F32} {fs : Word} {e : ErrorCode}

/-- CF.CFG past the common checks: the shared checks, then those of the design (42_comb.md R172). -/
theorem CombReady.exec_cfCfg (h : CombReady s ch idx) (d : Word) (pct f0 bw : F32) (fs : Word) :
    exec (.cfCfg ch idx d pct f0 bw fs) s =
      checked s ((s.params.lineOperandCheck d pct).or (s.params.designCheck f0 (.operand bw) fs.toNat))
        (succeed
          (s.setComb ch idx
            { s.comb ch idx with
              base := d
              ring := (s.comb ch idx).ring.setLen d
              pct := pct
              damp := (s.comb ch idx).damp.store (lowPass f0 (.operand bw) fs.toNat) }) []) := by
  rw [Params.lineOperandCheck_or]
  exact h.unitCommand_eq _

/-- AP.CFG past the common checks (43_allpass.md R192). -/
theorem AllpassReady.exec_apCfg (h : AllpassReady s ch idx) (d : Word) (pct : F32) :
    exec (.apCfg ch idx d pct) s =
      checked s (s.params.lineOperandCheck d pct)
        (succeed
          (s.setAp ch idx { s.ap ch idx with base := d, ring := (s.ap ch idx).ring.setLen d, pct := pct }) []) :=
  h.unitCommand_eq _

/-- CF.CFG reports a failing shared check, whatever the design. -/
theorem CombReady.exec_cfCfg_of_line (h : CombReady s ch idx) (hc : s.params.lineOperandCheck d pct = some e) :
    exec (.cfCfg ch idx d pct f0 bw fs) s = .next (s.failed e.value) := by
  rw [h.exec_cfCfg, hc, Option.some_or, checked_some, failWith_eq]

/-- CF.CFG reports a failing check of the design where the shared checks pass. -/
theorem CombReady.exec_cfCfg_of_design (h : CombReady s ch idx) (hline : s.params.lineOperandCheck d pct = none)
    (hc : s.params.designCheck f0 (.operand bw) fs.toNat = some e) :
    exec (.cfCfg ch idx d pct f0 bw fs) s = .next (s.failed e.value) := by
  rw [h.exec_cfCfg, hline, hc, Option.none_or, checked_some, failWith_eq]

theorem AllpassReady.exec_apCfg_of_line (h : AllpassReady s ch idx) (hc : s.params.lineOperandCheck d pct = some e) :
    exec (.apCfg ch idx d pct) s = .next (s.failed e.value) := by
  rw [h.exec_apCfg, hc, checked_some, failWith_eq]

end

/-! ## The obligations -/

/-- Settles O29: the comb that CF.PROC leaves, and its answer, are those of one comb step. -/
theorem combProc : Obligations.CombProc := by
  intro ch idx x s hinv hrun hin
  have h : CombReady s ch idx := .of_inv hinv hrun hin
  obtain ⟨t, ht, hrep⟩ := h.exec_cfProc x
  refine ⟨t, _, ht, hrep.responses, ?_, hrep.untouched⟩
  rw [hrep.comb]
  exact Comb.step_spec s.params _ _ h.len_pos

/-- Settles O31: the line that each SETG leaves differs from the one before in its gains alone. -/
theorem gainLoads : Obligations.GainLoads := by
  intro ch idx gin g s hinv hrun
  refine ⟨fun hin => ?_, fun hin => ?_⟩
  · obtain ⟨t, ht, hrep⟩ := (CombReady.of_inv hinv hrun hin : CombReady s ch idx).exec_cfSetg g
    have hring : (t.comb ch idx).ring = (s.comb ch idx).ring := by rw [hrep.comb]
    have hdamp : (t.comb ch idx).damp = (s.comb ch idx).damp := by rw [hrep.comb]
    exact ⟨t, ht, hrep.responses, hrep.comb, (hrep.untouched.noRing hring).noFilter hdamp⟩
  · obtain ⟨t, ht, hrep⟩ := (AllpassReady.of_inv hinv hrun hin : AllpassReady s ch idx).exec_apSetg gin g
    have hring : (t.ap ch idx).ring = (s.ap ch idx).ring := by rw [hrep.ap]
    exact ⟨t, ht, hrep.responses, hrep.ap, hrep.untouched.noRing hring⟩

/-- Settles O32: operands that pass every check reach the update, which keeps what it does not name. -/
theorem lineConfig : Obligations.LineConfig := by
  intro ch idx d pct s hinv hrun hpos hcap hscaledPos hscaledCap hfin hpct
  have hratio := Params.stereoRatio_isPos (State.inv_iff.1 hinv).wf
  have hline := Params.lineOperandCheck_eq_none hratio hpos hcap hscaledPos hscaledCap ⟨hfin, hpct⟩
  refine ⟨fun f0 bw fs hin hdom => ?_, fun hin => ?_⟩
  · have h : CombReady s ch idx := .of_inv hinv hrun hin
    rw [h.exec_cfCfg, hline, Option.none_or, Params.designCheck_eq_none.2 hdom, checked_none, succeed_eq]
    refine ⟨_, rfl, (h.setComb_replaced _ _).responses, ?_, (h.setComb_replaced _ _).untouched⟩
    rw [(h.setComb_replaced _ _).comb]
    exact ⟨rfl, rfl, rfl, rfl, rfl, Ring.setLen_spec _ d, Biquad.isLowPass_store .., rfl, rfl, rfl, rfl⟩
  · have h : AllpassReady s ch idx := .of_inv hinv hrun hin
    rw [h.exec_apCfg, hline, checked_none, succeed_eq]
    refine ⟨_, rfl, (h.setAp_replaced _ _).responses, ?_, (h.setAp_replaced _ _).untouched⟩
    rw [(h.setAp_replaced _ _).ap]
    exact ⟨rfl, rfl, rfl, rfl, rfl, Ring.setLen_spec _ d⟩

/-- Settles O33: the shared checks are the statement's chain, and the design is checked after them. -/
theorem lineConfigChecks : Obligations.LineConfigChecks := by
  intro ch idx d pct f0 bw fs s hinv hrun scaled lineCode
  have hratio := Params.stereoRatio_isPos (State.inv_iff.1 hinv).wf
  have hcode : lineCode = (s.params.lineOperandCheck d pct).map ErrorCode.value := by
    rw [Params.lineOperandCheck_eq hratio]
    simp only [lineCode, scaled]
    split_ifs <;> rfl
  rw [hcode]
  refine ⟨fun hin code hc => ?_, fun hin => ⟨fun code hc => ?_, fun hc hrate => ?_, fun hc hlo hhi hdom => ?_⟩⟩
  · obtain ⟨e, he, rfl⟩ := Option.map_eq_some_iff.1 hc
    exact (AllpassReady.of_inv hinv hrun hin).exec_apCfg_of_line he
  · obtain ⟨e, he, rfl⟩ := Option.map_eq_some_iff.1 hc
    exact (CombReady.of_inv hinv hrun hin).exec_cfCfg_of_line he
  · exact (CombReady.of_inv hinv hrun hin).exec_cfCfg_of_design (Option.map_eq_none_iff.1 hc)
      (Params.designCheck_of_rate hrate ..)
  · exact (CombReady.of_inv hinv hrun hin).exec_cfCfg_of_design (Option.map_eq_none_iff.1 hc)
      (Params.designCheck_of_not_domain hlo hhi hdom)

end Sys2Proof.Machine
end

section
/-! SUPPORT. A comb that was cleared (42_comb.md R176): while the ring answers zeros its feedback is zero, so each push is
the product of gain and input, and the first comes out when the ring has gone round: O34. -/

namespace Sys2Proof

/-! ## Zeros in sums and products -/

theorem F32.isZero_iff {w : F32} : w.isZero = true ↔ w.mag = 0 := decide_eq_true_iff

theorem F32.isZero_ofMag_zero (negative : Bool) : (F32.ofMag negative 0).isZero = true := by cases negative <;> decide

theorem F32.isFinite_of_isZero {w : F32} (h : w.isZero = true) : w.isFinite = true := by
  rw [F32.isFinite, F32.isZero_iff.1 h]
  rfl

theorem F32.unitsZ_of_isZero {w : F32} (h : w.isZero = true) : w.unitsZ = 0 := by
  rw [F32.unitsZ, F32.units_eq_zero_of_mag (F32.isZero_iff.1 h)]
  exact ite_self 0

theorem F32.isZero_neg {w : F32} (h : w.isZero = true) : w.neg.isZero = true := by
  rwa [F32.isZero_iff, F32.mag_neg, ← F32.isZero_iff]

theorem F32.isZero_add (site : Site) {a b : F32} (ha : a.isZero = true) (hb : b.isZero = true) :
    (F32.add site a b).isZero = true := by
  have hafin := F32.isFinite_of_isZero ha
  have hbfin := F32.isFinite_of_isZero hb
  have hsum : a.unitsZ + b.unitsZ = 0 := by rw [F32.unitsZ_of_isZero ha, F32.unitsZ_of_isZero hb, add_zero]
  simp [F32.add, F32.isNaN_eq_false_of_isFinite, F32.isInf_eq_false_of_isFinite, hafin, hbfin, hsum,
    F32.isZero_ofMag_zero]

theorem F32.isZero_sub (site : Site) {a b : F32} (ha : a.isZero = true) (hb : b.isZero = true) :
    (F32.sub site a b).isZero = true :=
  F32.isZero_add site ha (F32.isZero_neg hb)

theorem F32.isZero_mul (site : Site) {a b : F32} (ha : a.isFinite = true) (hb : b.isZero = true) :
    (F32.mul site a b).isZero = true := by
  rw [F32.mul_of_isFinite site ha (F32.isFinite_of_isZero hb), F32.units_eq_zero_of_mag (F32.isZero_iff.1 hb), mul_zero,
    show roundMag 0 149 = 0 by decide]
  exact F32.isZero_ofMag_zero _

theorem F32.isZero_ftz {w : F32} (h : w.isZero = true) : w.ftz.isZero = true := by
  unfold F32.ftz
  split
  · rfl
  · exact h

/-! ## Rounding a word that needs none -/

theorem roundHalfEven_mul_two_pow (q d : Nat) : roundHalfEven (q * 2 ^ d) d = q := by
  have hpos : 0 < 2 ^ d := by positivity
  simp only [roundHalfEven, Nat.mul_mod_left, Nat.mul_div_cancel _ hpos, Nat.mul_zero, if_pos hpos]

/-- The magnitude of a finite word is already rounded. -/
theorem roundMag_units {w : F32} (h : w.isFinite = true) : roundMag w.units 0 = w.mag := by
  have hfrac : w.frac < 2 ^ 23 := Nat.mod_lt _ (by decide)
  have hmag : w.expField * 2 ^ 23 + w.frac = w.mag := by
    rw [F32.expField, F32.frac, mul_comm]
    exact Nat.div_add_mod ..
  have hle : w.mag ≤ F32.infMag := (of_decide_eq_true h : w.mag < F32.infMag).le
  rw [F32.units]
  split
  case isTrue hexp =>
    have hlog : Nat.log2 w.frac - 23 = 0 := by
      rcases Nat.eq_zero_or_pos w.frac with hzero | hpos
      · rw [hzero, Nat.log2_zero]
      · have := (Nat.log2_lt hpos.ne').2 hfrac
        omega
    have hround : roundHalfEven w.frac 0 = w.frac := by simpa using roundHalfEven_mul_two_pow w.frac 0
    rw [roundMag, hlog, max_self, hround]
    omega
  case isFalse hexp =>
    obtain ⟨e, he⟩ := Nat.exists_eq_succ_of_ne_zero hexp
    have hlog : Nat.log2 ((2 ^ 23 + w.frac) * 2 ^ e) = 23 + e := by
      have hpos : (2 ^ 23 + w.frac) * 2 ^ e ≠ 0 := by positivity
      rw [Nat.log2_eq_iff hpos, pow_add, pow_add, pow_add]
      constructor
      · gcongr
        exact Nat.le_add_right ..
      · rw [mul_right_comm]
        gcongr
        omega
    rw [he, Nat.succ_sub_one, roundMag, hlog, Nat.add_sub_cancel_left, Nat.zero_max, roundHalfEven_mul_two_pow]
    omega

theorem F32.ofMag_sign_mag (w : F32) : F32.ofMag w.sign w.mag = w := by
  apply BitVec.eq_of_toNat_eq
  rw [F32.ofMag, BitVec.toNat_ofNat, F32.sign, F32.mag]
  have := w.isLt
  split <;> simp only [decide_eq_true_eq] at * <;> omega

/-- A zero of either sign added to any other number gives that number. -/
theorem F32.add_of_isZero (site : Site) {a b : F32} (hnan : a.isNaN = false) (hne : a.isZero = false)
    (hb : b.isZero = true) : F32.add site a b = a := by
  have hbfin := F32.isFinite_of_isZero hb
  have hbnan := F32.isNaN_eq_false_of_isFinite hbfin
  have hbinf := F32.isInf_eq_false_of_isFinite hbfin
  cases hinf : a.isInf
  case true => simp [F32.add, hnan, hinf, hbnan, hbinf]
  case false =>
    have hfin : a.isFinite = true := by
      simp only [F32.isNaN, F32.isInf, F32.isFinite, decide_eq_false_iff_not, decide_eq_true_eq] at *
      omega
    have hunits : 0 < a.units := F32.units_pos (Nat.pos_of_ne_zero (of_decide_eq_false hne))
    have hsum : a.unitsZ + b.unitsZ = a.unitsZ := by rw [F32.unitsZ_of_isZero hb, add_zero]
    have hsign : decide (a.unitsZ < 0) = a.sign := by
      cases hs : a.sign <;> simp [F32.unitsZ, hs, hunits]
    have habs : a.unitsZ.natAbs = a.units := by
      cases hs : a.sign <;> simp [F32.unitsZ, hs]
    have hz : a.unitsZ ≠ 0 := Int.natAbs_ne_zero.1 (habs ▸ hunits.ne')
    rw [F32.add_of_isFinite site hfin hbfin (hsum.trans_ne hz), hsum, hsign, habs, roundMag_units hfin,
      F32.ofMag_sign_mag]

namespace Machine

/-! ## A silent filter -/

theorem Params.isZero_s2f_zero (p : Params) : (p.s2f 0).isZero = true := by
  unfold Params.s2f
  split
  · rfl
  · exact isZero_fixedToF32_zero _

/-- Finite coefficients and a history of zeros, of either sign. -/
structure Biquad.Silent (q : Biquad) : Prop where
  coefs : q.finiteCoefs = true
  x1 : q.x1.isZero = true
  x2 : q.x2.isZero = true
  y1 : q.y1.isZero = true
  y2 : q.y2.isZero = true

theorem Biquad.finiteCoefs_iff {q : Biquad} :
    q.finiteCoefs = true ↔ q.b0.isFinite = true ∧ q.b1.isFinite = true ∧ q.b2.isFinite = true ∧ q.a1.isFinite = true ∧
      q.a2.isFinite = true := by
  simp only [Biquad.finiteCoefs, Bool.and_eq_true, and_assoc]

/-- A silent filter answers a zero with a zero: every product in its sum is zero (41_biquad.md R142). -/
theorem Biquad.Silent.isZero_process {q : Biquad} (h : q.Silent) (site : Site) {x : F32} (hx : x.isZero = true) :
    (q.process site x).2.isZero = true := by
  obtain ⟨hb0, hb1, hb2, ha1, ha2⟩ := Biquad.finiteCoefs_iff.1 h.coefs
  exact F32.isZero_ftz (F32.isZero_sub _
    (F32.isZero_sub _
      (F32.isZero_add _ (F32.isZero_add _ (F32.isZero_mul _ hb0 hx) (F32.isZero_mul _ hb1 h.x1))
        (F32.isZero_mul _ hb2 h.x2))
      (F32.isZero_mul _ ha1 h.y1))
    (F32.isZero_mul _ ha2 h.y2))

theorem Biquad.Silent.process {q : Biquad} (h : q.Silent) (site : Site) {x : F32} (hx : x.isZero = true) :
    (q.process site x).1.Silent where
  coefs := h.coefs
  x1 := hx
  x2 := h.x1
  y1 := h.isZero_process site hx
  y2 := h.y1

/-! ## A quiet comb -/

/-- The damping filter's step inside a comb step (42_comb.md R171). -/
def Comb.feedback (p : Params) (site : Site) (c : Comb) : Biquad × F32 :=
  c.damp.process (2 :: site) (F32.mul (1 :: site) c.g (p.s2f c.last))

/-- The word a comb step pushes (42_comb.md R171). -/
def Comb.pushed (p : Params) (site : Site) (c : Comb) (x : F32) : Word :=
  p.f2s (F32.ftz (F32.add (3 :: site) (F32.mul (0 :: site) c.g x) (c.feedback p site).2))

/-- A comb step by its two parts. -/
theorem Comb.step_eq (p : Params) (site : Site) (c : Comb) (x : F32) :
    c.step p site x =
      ({ c with
          ring := (c.ring.push (c.pushed p site x)).1
          damp := (c.feedback p site).1
          last := (c.ring.push (c.pushed p site x)).2 },
        (c.ring.push (c.pushed p site x)).2) := rfl

/-- A comb that feeds back nothing: a finite gain, a silent damping filter, and a last output of 0. -/
structure Comb.Quiet (c : Comb) : Prop where
  gain : c.g.isFinite = true
  damp : c.damp.Silent
  last : c.last = 0

section
variable {c : Comb} (p : Params) (site : Site)

/-- The product that a quiet comb gives its damping filter. -/
theorem Comb.Quiet.isZero_mul_last (h : c.Quiet) : (F32.mul (1 :: site) c.g (p.s2f c.last)).isZero = true := by
  rw [h.last]
  exact F32.isZero_mul _ h.gain p.isZero_s2f_zero

theorem Comb.Quiet.isZero_feedback (h : c.Quiet) : (c.feedback p site).2.isZero = true :=
  h.damp.isZero_process _ (h.isZero_mul_last p site)

/-- A quiet comb pushes the product of its gain and its input, where that is a number other than zero. -/
theorem Comb.Quiet.pushed_eq (h : c.Quiet) {x : F32} (hnan : (F32.mul (0 :: site) c.g x).isNaN = false)
    (hne : (F32.mul (0 :: site) c.g x).isZero = false) :
    c.pushed p site x = p.f2s (F32.ftz (F32.mul (0 :: site) c.g x)) := by
  rw [Comb.pushed, F32.add_of_isZero _ hnan hne (h.isZero_feedback p site)]

/-- A quiet comb stays quiet as long as its ring answers 0. -/
theorem Comb.Quiet.step (h : c.Quiet) (x : F32) (hout : (c.step p site x).2 = 0) : (c.step p site x).1.Quiet where
  gain := h.gain
  damp := h.damp.process _ (h.isZero_mul_last p site)
  last := hout

end

/-! ## A run of inputs into a cleared comb -/

/-- A comb that commands may use, quiet, whose ring recalls the words `hist` pushed since it was cleared. -/
structure CombListening (s : State) (ch : Chan) (idx : Nat) (hist : List Word) : Prop where
  ready : CombReady s ch idx
  quiet : (s.comb ch idx).Quiet
  recalls : (s.comb ch idx).ring.Recalls hist

/-- What the inputs `xs` leave that come before the ring has gone round: each answered 0. -/
structure SilentRun (s : State) (ch : Chan) (idx : Nat) (xs hist : List Word) (t : State) : Prop where
  ran : execAll (xs.map (.cfProc ch idx)) s = some t
  responses : t.responses = List.replicate xs.length ⟨0, [0]⟩ ++ s.responses
  len : (t.comb ch idx).ring.len = (s.comb ch idx).ring.len
  listening : ∃ newer : List Word, newer.length = xs.length ∧ CombListening t ch idx (newer ++ hist)

section
variable {s : State} {ch : Chan} {idx : Nat} {hist : List Word}

/-- The output of a comb step is the word that the ring recalls from its length ago (40_ring_buffer.md R131). -/
theorem CombListening.step_out (h : CombListening s ch idx hist) (site : Site) (x : F32) :
    ((s.comb ch idx).step s.params site x).2 = hist.getD ((s.comb ch idx).ring.len.toNat - 1) 0 := by
  rw [Comb.step_eq]
  exact h.recalls.push_out ((s.comb ch idx).pushed s.params site x) h.ready.cursor_lt

/-- CF.PROC answers that word. -/
theorem CombListening.exec_cfProc (h : CombListening s ch idx hist) (x : Word) :
    ∃ t, exec (.cfProc ch idx x) s = .next t ∧
      CombReplaced s ch idx ((s.comb ch idx).step s.params [s.freeCtr] (s.params.s2f x)).1
        [hist.getD ((s.comb ch idx).ring.len.toNat - 1) 0] t := by
  rw [← h.step_out [s.freeCtr] (s.params.s2f x)]
  exact h.ready.exec_cfProc x

/-- An input before the ring has gone round is answered 0, and the comb goes on listening. -/
theorem CombListening.proc (h : CombListening s ch idx hist) (x : Word)
    (hshort : hist.length < (s.comb ch idx).ring.len.toNat) :
    ∃ t, exec (.cfProc ch idx x) s = .next t ∧ t.responses = ⟨0, [0]⟩ :: s.responses ∧
      (t.comb ch idx).ring.len = (s.comb ch idx).ring.len ∧
      CombListening t ch idx ((s.comb ch idx).pushed s.params [s.freeCtr] (s.params.s2f x) :: hist) := by
  have hzero : hist.getD ((s.comb ch idx).ring.len.toNat - 1) 0 = 0 := List.getD_eq_default _ _ (by omega)
  obtain ⟨t, ht, hrep⟩ := h.exec_cfProc x
  refine ⟨t, ht, by rw [hrep.responses, hzero], by rw [hrep.comb]; rfl, hrep.ready h.ready ht, ?_, ?_⟩ <;>
    rw [hrep.comb]
  · exact h.quiet.step s.params _ _ ((h.step_out ..).trans hzero)
  · exact h.recalls.push _ h.ready.cursor_lt

theorem CombListening.exists_silentRun (h : CombListening s ch idx hist) (xs : List Word)
    (hshort : hist.length + xs.length ≤ (s.comb ch idx).ring.len.toNat) : ∃ t, SilentRun s ch idx xs hist t := by
  induction xs generalizing s hist with
  | nil => exact ⟨s, rfl, rfl, rfl, [], rfl, h⟩
  | cons x xs ih =>
    rw [List.length_cons] at hshort
    obtain ⟨u, hu, hresp, hlen, hnext⟩ := h.proc x (by omega)
    obtain ⟨t, hrun⟩ := ih hnext (by rw [hlen, List.length_cons]; omega)
    obtain ⟨newer, hnewer, hlast⟩ := hrun.listening
    exact ⟨t,
      { ran := by
          simp only [List.map_cons, execAll, hu]
          exact hrun.ran
        responses := by
          rw [hrun.responses, hresp, List.length_cons, List.replicate_succ', List.append_assoc, List.singleton_append]
        len := hrun.len.trans hlen
        listening := ⟨newer ++ [_], by rw [List.length_append, hnewer]; rfl, by rwa [List.append_assoc]⟩ }⟩

end

/-- Settles O34: the first push is the product alone, the inputs after it are answered 0 until the ring has gone round,
and the next push finds the first. -/
theorem combFirstEcho : Obligations.CombFirstEcho := by
  intro ch idx x xs z s hinv hrun hin hclear hlast hx1 hx2 hy1 hy2 hcoefs hg hlen hproduct
  have hstart : CombListening s ch idx [] :=
    { ready := .of_inv hinv hrun hin
      quiet := ⟨hg, ⟨hcoefs, by rw [hx1]; rfl, by rw [hx2]; rfl, by rw [hy1]; rfl, by rw [hy2]; rfl⟩, hlast⟩
      recalls := fun k _ => hclear _ }
  obtain ⟨hnan, hne⟩ := hproduct [0, s.freeCtr]
  have hfirst := hstart.quiet.pushed_eq s.params [s.freeCtr] hnan hne
  obtain ⟨t1, ht1, hresp1, hlen1, hlistening⟩ := hstart.proc x (by rw [List.length_nil]; omega)
  obtain ⟨t2, hsilent⟩ := hlistening.exists_silentRun xs (by rw [hlen1, List.length_singleton]; omega)
  obtain ⟨newer, hnewer, hlistening2⟩ := hsilent.listening
  obtain ⟨t3, ht3, hrep⟩ := hlistening2.exec_cfProc z
  have hran : execAll ((x :: xs).map (.cfProc ch idx)) s = some t2 := by
    simp only [List.map_cons, execAll, ht1]
    exact hsilent.ran
  have hecho : (newer ++ [(s.comb ch idx).pushed s.params [s.freeCtr] (s.params.s2f x)]).getD
      ((t2.comb ch idx).ring.len.toNat - 1) 0 =
        s.params.f2s (F32.ftz (F32.mul [0, s.freeCtr] (s.comb ch idx).g (s.params.s2f x))) := by
    have hindex : (t2.comb ch idx).ring.len.toNat - 1 = newer.length := by rw [hsilent.len, hlen1, hnewer]; omega
    rw [hindex, List.getD_append_right _ _ _ _ le_rfl, Nat.sub_self, ← hfirst]
    rfl
  refine ⟨t3, [0, s.freeCtr], ?_, ?_⟩
  · rw [List.map_append]
    exact execAll_append_singleton hran ht3
  · rw [hrep.responses, hecho, hsilent.responses, hresp1, List.replicate_succ', List.append_assoc,
      List.singleton_append]

end Machine

end Sys2Proof
end

section
/-! SUPPORT. AP.PROC (43_allpass.md R194, R197): the answer is the word that leaves the ring in one allpass step: O30. -/

namespace Sys2Proof.Machine

section
variable {s t : State} {ch : Chan} {idx : Nat} {a : Allpass} {d : List Word}

theorem AllpassReady.ring_wf (h : AllpassReady s ch idx) : (s.ap ch idx).ring.wf s.params.rbCap = true :=
  h.parts.ring_wf (by simp [h.running]) ch .allpass idx h.inRange

theorem AllpassReady.len_pos (h : AllpassReady s ch idx) : 1 ≤ (s.ap ch idx).ring.len.toNat :=
  (Ring.wf_iff.1 h.ring_wf).1.1

theorem AllpassReplaced.bumpFree (h : AllpassReplaced s ch idx a d t) : AllpassReplaced s ch idx a d t.bumpFree where
  responses := h.responses
  ap := by rw [State.ap, State.chan_bumpFree, ← State.ap, h.ap]
  untouched := h.untouched.bumpFree

/-- AP.PROC past the common checks stores the allpass after one step, and answers its output (43_allpass.md R194). -/
theorem AllpassReady.exec_apProc (h : AllpassReady s ch idx) (x : Word) :
    ∃ t, exec (.apProc ch idx x) s = .next t ∧
      AllpassReplaced s ch idx ((s.ap ch idx).step s.params [s.freeCtr] (s.params.s2f x)).1
        [((s.ap ch idx).step s.params [s.freeCtr] (s.params.s2f x)).2] t :=
  ⟨_, h.unitCommand_eq _, (h.setAp_replaced _ _).bumpFree⟩

end

/-- Settles O30: the allpass that AP.PROC leaves, and its answer, are those of one allpass step. The invariant gives the
ring a length of 1 at least, which the step's push needs. -/
theorem allpassProc : Obligations.AllpassProc := by
  intro ch idx x s hinv hrun hin
  have h : AllpassReady s ch idx := .of_inv hinv hrun hin
  obtain ⟨t, ht, hrep⟩ := h.exec_apProc x
  refine ⟨t, _, ht, hrep.responses, ?_, hrep.untouched⟩
  rw [hrep.ap]
  exact Allpass.step_spec s.params _ _ h.len_pos

end Sys2Proof.Machine
end

section
/-! SUPPORT. Which engine state accepts a command, and which command moves it (45_engine.md R240, R241, R302): O9, O10. -/

namespace Sys2Proof.Machine

/-! ## Commands that are not accepted -/

/-- Every check of the state comes first, so a command that the state does not accept fails whatever its operands
(45_engine.md R241). -/
theorem exec_of_not_accepted {i : Instr} {s : State} (h : acceptedIn s.estate i = false) :
    exec i s = .next (s.failed 0x02) := by
  cases i with
  | rbPush | rbRead | rbWrite | rbSetlen | rbClear | rbStat | bqSetlp | bqSethp | bqSetpk | bqReset | bqProc | bqLdcoef
  | bqRdcoef | bqRdhist | cfCfg | cfSetg | cfProc | cfRdstate | apCfg | apSetg | apProc | apRdstate =>
    exact unitCommand_notRunning (of_decide_eq_false h)
  | engActivate =>
    change checked s (require (acceptedIn s.estate .engActivate) _) _ = _
    rw [h]
    rfl
  | engProcess n =>
    change checked s (firstError [require (acceptedIn s.estate (.engProcess n)) _, _]) _ = _
    rw [h]
    rfl
  | engConfig | engCleanup | engCsrr | engCsrw | memRd | memWr => cases h

/-- In RUNNING the index is checked before the operands (30_encoding.md R95 to R97). -/
theorem exec_of_no_instance {i : Instr} {s : State} (he : s.estate = .running) (h : namesInstance s.params i = false) :
    exec i s = .next (s.failed 0x03) := by
  cases i with
  | rbPush | rbRead | rbWrite | rbSetlen | rbClear | rbStat | bqSetlp | bqSethp | bqSetpk | bqReset | bqProc | bqLdcoef
  | bqRdcoef | bqRdhist | cfCfg | cfSetg | cfProc | cfRdstate | apCfg | apSetg | apProc | apRdstate =>
    exact unitCommand_noInstance he h
  | engConfig | engActivate | engProcess | engCleanup | engCsrr | engCsrw | memRd | memWr => cases h

/-! ## The codes of the checks that do not look at the state -/

/-- A check that does not report BAD_STATE. -/
def SparesState (c : Option ErrorCode) : Prop := c ≠ some .badState

theorem SparesState.require {ok : Bool} {e : ErrorCode} (h : e ≠ .badState) : SparesState (require ok e) := by
  rcases require_cases ok e with ⟨-, heq⟩ | ⟨-, heq⟩ <;> rw [heq]
  · exact nofun
  · exact fun hsome => h (Option.some.inj hsome)

theorem SparesState.nil : SparesState (firstError []) := nofun

theorem SparesState.cons {c : Option ErrorCode} {cs : List (Option ErrorCode)} (hc : SparesState c)
    (hcs : SparesState (firstError cs)) : SparesState (firstError (c :: cs)) := by
  cases c with
  | none => exact hcs
  | some e => exact hc

theorem SparesState.map {α : Type} {f : α → Option ErrorCode} (h : ∀ x, SparesState (f x)) (xs : List α) :
    SparesState (firstError (xs.map f)) := by
  induction xs with
  | nil => exact .nil
  | cons x xs ih => exact (h x).cons ih

theorem SparesState.asBadParam (c : Option ErrorCode) : SparesState (asBadParam c) := by
  rcases asBadParam_eq_none_or c with heq | heq <;> rw [heq] <;> exact nofun

theorem SparesState.designCheck {p : Params} {f0 : F32} {bw : Bandwidth} {fs : Nat} :
    SparesState (p.designCheck f0 bw fs) :=
  .cons (.require nofun) (.cons (.require nofun) (.cons (.require nofun) (.cons (.require nofun) .nil)))

theorem SparesState.delayCheck {p : Params} {d : Word} : SparesState (p.delayCheck d) :=
  .cons (.require nofun) (.cons (.require nofun) (.cons (.require nofun) (.cons (.require nofun) .nil)))

theorem SparesState.lenCheck {p : Params} {len : Nat} : SparesState (p.lenCheck len) :=
  .cons (.require nofun) (.cons (.require nofun) .nil)

theorem SparesState.lineCheck {p : Params} {base i : Nat} : SparesState (p.lineCheck base i) := by
  rw [Params.lineCheck_eq]
  exact .map (fun _ => .lenCheck) _

theorem SparesState.combCheck {p : Params} {m i : Nat} : SparesState (p.combCheck m i) := .require nofun

theorem SparesState.apCheck {p : Params} {m j : Nat} : SparesState (p.apCheck m j) := .require nofun

/-- The validity of a mode is a matter of the ROM and the rate (20_memory.md R74). -/
theorem SparesState.modeCheck {p : Params} {fs m : Nat} : SparesState (p.modeCheck fs m) :=
  .cons (.require nofun)
    (.cons (.map (fun _ => .combCheck) _)
      (.cons (.map (fun _ => .apCheck) _)
        (.cons (.map (fun _ => .lineCheck) _)
          (.cons (.map (fun _ => .lineCheck) _)
            (.cons (.map (fun _ => .asBadParam _) _)
              (.cons (.asBadParam _) (.cons (.asBadParam _) .nil)))))))

theorem SparesState.configCheck {p : Params} {fs : Word} : SparesState (p.configCheck fs) :=
  .cons (.require nofun) (.cons (.map (fun _ => .modeCheck) _) .nil)

/-! ## Commands that are accepted -/

/-- A result that does not answer BAD_STATE. -/
def AvoidsBadState (r : Result) : Prop := ∀ t a rest, r = .next t → t.responses = a :: rest → a.word ≠ 0x02

section
variable {s : State}

theorem avoidsBadState_failWith {e : ErrorCode} (h : e ≠ .badState) : AvoidsBadState (failWith s e) := by
  rintro t a rest ⟨⟩ hresp
  obtain ⟨rfl, -⟩ := List.cons.inj hresp
  cases e with
  | badState => exact absurd rfl h
  | _ => decide

theorem avoidsBadState_succeed {d : List Word} : AvoidsBadState (succeed s d) := by
  rintro t a rest ⟨⟩ hresp
  obtain ⟨rfl, -⟩ := List.cons.inj hresp
  exact (by decide : (0 : Word) ≠ 0x02)

theorem avoidsBadState_fault {f : Fault} : AvoidsBadState (.fault f) := by
  intro t a rest h
  cases h

theorem avoidsBadState_unitCommand {ok : Bool} {body : Result} (he : s.estate = .running) (h : AvoidsBadState body) :
    AvoidsBadState (unitCommand s ok body) := by
  rcases unitCommand_cases s ok body with ⟨hne, -⟩ | ⟨-, -, heq⟩ | ⟨-, -, heq⟩
  · exact absurd he hne
  · rw [heq]
    exact avoidsBadState_failWith nofun
  · rwa [heq]

theorem avoidsBadState_checked {check : Option ErrorCode} {body : Result} (hc : SparesState check)
    (h : AvoidsBadState body) : AvoidsBadState (checked s check body) := by
  cases check with
  | none => exact h
  | some e => exact avoidsBadState_failWith fun he => hc (congrArg some he)

theorem avoidsBadState_memCommand {space a : Nat} {body : Space → Result} (h : ∀ sp, AvoidsBadState (body sp)) :
    AvoidsBadState (memCommand s space a body) := by
  cases hsp : Space.ofIdx space with
  | none =>
    rw [memCommand_none hsp]
    exact avoidsBadState_failWith nofun
  | some sp =>
    rw [memCommand_bank hsp]
    split
    · exact h sp
    · exact avoidsBadState_failWith nofun

theorem avoidsBadState_readSpace (a : Nat) (sp : Space) : AvoidsBadState (readSpace s a sp) := by
  cases sp with
  | rom => exact avoidsBadState_succeed
  | bank b =>
    rw [readSpace]
    split
    · exact avoidsBadState_succeed
    · exact avoidsBadState_fault

theorem avoidsBadState_writeSpace (a : Nat) (w : Word) (sp : Space) : AvoidsBadState (writeSpace s a w sp) := by
  cases sp with
  | rom => exact avoidsBadState_failWith nofun
  | bank b => exact avoidsBadState_succeed

theorem avoidsBadState_csrWrite (v : Word) (c : Csr) : AvoidsBadState (csrWrite s v c) := by
  cases c with
  | errclr | decayMs | dryDb | wetDb | flags => exact avoidsBadState_succeed
  | mode =>
    rw [csrWrite]
    split
    · exact avoidsBadState_succeed
    · exact avoidsBadState_failWith nofun
  | _ => exact avoidsBadState_failWith nofun

theorem avoidsBadState_engCsrr (a : Nat) : AvoidsBadState (execEngCsrr a s) := by
  rw [execEngCsrr]
  split
  · exact avoidsBadState_failWith nofun
  · exact avoidsBadState_succeed

theorem avoidsBadState_engCsrw (a : Nat) (v : Word) : AvoidsBadState (execEngCsrw a v s) := by
  rw [execEngCsrw]
  split
  · exact avoidsBadState_failWith nofun
  · exact avoidsBadState_csrWrite v _

/-- In RUNNING the first check of ENG.PROCESS passes, and the second is BLOCK_SIZE (45_engine.md R249). -/
theorem avoidsBadState_engProcess (he : s.estate = .running) (n : Nat) : AvoidsBadState (execEngProcess n s) := by
  refine avoidsBadState_checked ?_ ?_
  · rw [decide_eq_true he]
    exact .cons nofun (.cons (.require nofun) .nil)
  · split
    · exact avoidsBadState_fault
    · exact avoidsBadState_succeed

/-- No command that the state accepts reports BAD_STATE (45_engine.md R241). -/
theorem exec_avoidsBadState {i : Instr} (h : acceptedIn s.estate i = true) : AvoidsBadState (exec i s) := by
  cases i with
  | rbPush | rbRead | rbWrite | rbClear | rbStat | bqReset | bqProc | bqLdcoef | bqRdcoef | bqRdhist | cfSetg | cfProc
  | cfRdstate | apSetg | apProc | apRdstate =>
    exact avoidsBadState_unitCommand (of_decide_eq_true h) avoidsBadState_succeed
  | rbSetlen =>
    exact avoidsBadState_unitCommand (of_decide_eq_true h)
      (avoidsBadState_checked (.cons (.require nofun) (.cons (.require nofun) .nil)) avoidsBadState_succeed)
  | bqSetlp | bqSethp =>
    exact avoidsBadState_unitCommand (of_decide_eq_true h) (avoidsBadState_checked .designCheck avoidsBadState_succeed)
  | bqSetpk =>
    exact avoidsBadState_unitCommand (of_decide_eq_true h)
      (avoidsBadState_checked (.cons .designCheck (.cons (.require nofun) .nil)) avoidsBadState_succeed)
  | cfCfg =>
    exact avoidsBadState_unitCommand (of_decide_eq_true h)
      (avoidsBadState_checked (.cons .delayCheck (.cons (.require nofun) (.cons .designCheck .nil)))
        avoidsBadState_succeed)
  | apCfg =>
    exact avoidsBadState_unitCommand (of_decide_eq_true h)
      (avoidsBadState_checked (.cons .delayCheck (.cons (.require nofun) .nil)) avoidsBadState_succeed)
  | engConfig fs => exact avoidsBadState_checked .configCheck avoidsBadState_succeed
  | engActivate =>
    refine avoidsBadState_checked ?_ avoidsBadState_succeed
    rw [show decide (s.estate ≠ .uninit) = true from h]
    exact nofun
  | engProcess n => exact avoidsBadState_engProcess (of_decide_eq_true h) n
  | engCleanup => exact avoidsBadState_succeed
  | engCsrr a => exact avoidsBadState_engCsrr a
  | engCsrw a v => exact avoidsBadState_engCsrw a v
  | memRd => exact avoidsBadState_memCommand (avoidsBadState_readSpace _)
  | memWr => exact avoidsBadState_memCommand (avoidsBadState_writeSpace _ _)

end

/-- Settles O9: the check of the state comes before the check of the index, and that before the operands. -/
theorem stateAndIndexGateCommands : Obligations.StateAndIndexGateCommands :=
  ⟨fun _ _ => exec_of_not_accepted, fun _ s t r h ht hr => exec_avoidsBadState h t r s.responses ht hr,
    fun _ _ => exec_of_no_instance⟩

/-! ## The moves of the engine's state -/

theorem LocalUpdate.estate_eq {s u : State} (h : LocalUpdate s u) : u.estate = s.estate := by
  induction h with
  | none | controls => rfl
  | draw _ ih => exact ih
  | ring | filter | comb | ap | bank => simp

@[simp] theorem State.detect_estate (s : State) : s.detect.estate = s.estate := by
  rcases s.detect_cases with ⟨-, heq⟩ | ⟨-, -, heq⟩ | ⟨-, -, heq⟩ <;> rw [heq] <;> rfl

/-- A command that succeeds leaves the engine where R240 says. -/
theorem Effect.estate_eq {i : Instr} {s u : State} (h : Effect s i u) : u.estate = estateAfter s.estate i := by
  cases i with
  | engConfig fs =>
    obtain ⟨-, rfl⟩ := h
    rfl
  | engActivate =>
    obtain ⟨-, rfl⟩ := h
    rfl
  | engProcess n =>
    obtain ⟨-, -, v, hv, rfl⟩ := h
    exact (processFrom_frame hv).1.estate.trans s.detect_estate
  | engCleanup =>
    obtain rfl := h
    rfl
  | _ => exact LocalUpdate.estate_eq h

/-- Settles O10: a command fails and answers a code, or it has its effect and answers OK. -/
theorem engineStateMoves : Obligations.EngineStateMoves := by
  refine ⟨fun _ => rfl, fun i s t ht => ?_⟩
  rcases exec_endsIn i s t ht with ⟨e, rfl⟩ | ⟨u, d, hu, rfl⟩
  · exact ⟨e.response, rfl, (if_neg e.zeroExtend_ne_zero).symm⟩
  · exact ⟨okResponse d, congrArg _ (Effect.sameHostView hu).responses, (Effect.estate_eq hu).trans (if_pos rfl).symm⟩

end Sys2Proof.Machine
end

section
/-! SUPPORT. ENG.CONFIG where a check fails, ENG.ACTIVATE and ENG.CLEANUP (45_engine.md R246 to R248, R250): O35, O40,
O41. -/

namespace Sys2Proof.Machine

/-! ## A failing ENG.CONFIG -/

/-- The modes are checked in ascending order (45_engine.md R247). -/
theorem Params.romCheck_eq_some {p : Params} {fs m : Nat} {e : ErrorCode} (hm : m < p.numModes)
    (hlower : ∀ m', m' < m → p.modeCheck fs m' = none) (h : p.modeCheck fs m = some e) : p.romCheck fs = some e := by
  have hsplit : List.range p.numModes = List.range m ++ m :: (List.range (p.numModes - m - 1)).map (m + 1 + ·) := by
    rw [← List.singleton_append, ← List.append_assoc, ← List.range_succ, ← List.range_add]
    congr 1
    omega
  have hbefore : ∀ c ∈ (List.range m).map (p.modeCheck fs), c = none := by
    simpa only [List.forall_mem_map, List.mem_range] using hlower
  rw [Params.romCheck, hsplit, List.map_append, List.map_cons, firstError_append hbefore, h, firstError_cons_some]

theorem Params.configCheck_of_rate {p : Params} {fs : Word} (h : fs = 0 ∨ p.fsMax < fs.toNat) :
    p.configCheck fs = some .sampleRate := by
  have hrate : (decide (fs ≠ 0) && decide (fs.toNat ≤ p.fsMax)) = false := by simpa [imp_iff_not_or] using h
  rw [Params.configCheck, hrate, require_false, firstError_cons_some]

/-- Past the rate ENG.CONFIG reports what the ROM reports. -/
theorem Params.configCheck_of_romCheck {p : Params} {fs : Word} {e : ErrorCode} (hne : fs ≠ 0)
    (hmax : fs.toNat ≤ p.fsMax) (h : p.romCheck fs.toNat = some e) : p.configCheck fs = some e := by
  rw [Params.configCheck, decide_eq_true hne, decide_eq_true hmax, h]
  rfl

theorem exec_engConfig_failed {fs : Word} {s : State} {e : ErrorCode} (h : s.params.configCheck fs = some e) :
    exec (.engConfig fs) s = .next (s.failed e.value) := by
  change checked s _ _ = _
  rw [h, checked_some, failWith_eq]

/-- Settles O35: the rate is checked first, then the modes in ascending order. -/
theorem configReportsFirstFailure : Obligations.ConfigReportsFirstFailure := by
  intro fs s _
  refine ⟨fun h => exec_engConfig_failed (Params.configCheck_of_rate h), fun m e hne hmax hm hlower h => ?_⟩
  exact exec_engConfig_failed (Params.configCheck_of_romCheck hne hmax (Params.romCheck_eq_some hm hlower h))

/-! ## ENG.ACTIVATE -/

/-- A comb of a silenced channel (45_engine.md R248). -/
theorem Channel.comb_silence {c : Channel} {i : Nat} (h : i < c.combs.length) :
    c.silence.comb i =
      { c.comb i with ring := (c.comb i).ring.clear, damp := (c.comb i).damp.resetHistory, last := 0 } := by
  rw [Channel.comb, Channel.silence, List.getD_eq_getElem _ _ (by simpa using h), List.getElem_map,
    Channel.getElem_combs h]

/-- An allpass of a silenced channel (45_engine.md R248). -/
theorem Channel.ap_silence {c : Channel} {j : Nat} (h : j < c.aps.length) :
    c.silence.ap j = { c.ap j with ring := (c.ap j).ring.clear, last := 0 } := by
  rw [Channel.ap, Channel.silence, List.getD_eq_getElem _ _ (by simpa using h), List.getElem_map,
    Channel.getElem_aps h]

theorem Channel.ring_silence {p : Params} {c : Channel} (hs : c.shaped p = true) {sel : RingSel} {i : Nat}
    (h : p.hasRing sel i = true) : c.silence.ring sel i = (c.ring sel i).clear := by
  obtain ⟨hcombs, haps⟩ := Channel.shaped_iff.1 hs
  cases sel with
  | comb =>
    have hi : i < c.combs.length := hcombs ▸ of_decide_eq_true h
    rw [Channel.ring, Channel.comb_silence hi, Channel.ring]
  | allpass =>
    have hj : i < c.aps.length := haps ▸ of_decide_eq_true h
    rw [Channel.ring, Channel.ap_silence hj, Channel.ring]

theorem Channel.filter_silence {p : Params} {c : Channel} (hs : c.shaped p = true) {sel : FilterSel} {i : Nat}
    (h : p.hasFilter sel i = true) : c.silence.filter sel i = (c.filter sel i).resetHistory := by
  obtain ⟨hcombs, -⟩ := Channel.shaped_iff.1 hs
  cases sel with
  | damp =>
    have hi : i < c.combs.length := hcombs ▸ of_decide_eq_true h
    rw [Channel.filter, Channel.comb_silence hi, Channel.filter]
  | bandpass =>
    rw [Channel.filter, Channel.filter]
    split <;> rfl

/-- The state that ENG.ACTIVATE leaves before it answers (45_engine.md R248). -/
def State.activated (s : State) : State := { s.mapChans (fun _ c => c.silence) with estate := .running }

theorem State.chan_activated (s : State) (ch : Chan) : s.activated.chan ch = (s.chan ch).silence := by cases ch <;> rfl

theorem State.readBank_activated (s : State) (b : BankId) (a : Nat) : s.activated.readBank b a = s.readBank b a := by
  cases b <;> rfl

theorem exec_engActivate {s : State} (h : s.estate ≠ .uninit) :
    exec .engActivate s = .next (s.activated.answered []) := by
  change checked s (require (decide (s.estate ≠ .uninit)) _) _ = _
  rw [decide_eq_true h, require_true, checked_none, succeed_eq]
  rfl

/-- Settles O40: each instance of either channel is silenced, and the registers and banks are not touched. -/
theorem activateSilences : Obligations.ActivateSilences := by
  intro s hinv he
  have hshaped := (State.inv_iff.1 hinv).shaped
  have hchan (ch : Chan) : (s.activated.answered []).chan ch = (s.chan ch).silence := by
    rw [State.answered_chan, State.chan_activated]
  have hcombs (ch : Chan) := (Channel.shaped_iff.1 (hshaped ch)).1
  have haps (ch : Chan) := (Channel.shaped_iff.1 (hshaped ch)).2
  refine ⟨_, exec_engActivate he, rfl, rfl, by constructor <;> rfl, fun b a => ?_, fun ch sel i hi => ?_,
    fun ch sel i hi => ?_, fun ch i hi => ?_, fun ch j hj => ?_⟩
  · rw [State.answered_readBank, State.readBank_activated]
  · rw [State.ring, hchan, Channel.ring_silence (hshaped ch) hi]
    exact ⟨fun a => Ring.clear_read _ a, rfl, rfl⟩
  · rw [State.filter, State.filter, hchan, Channel.filter_silence (hshaped ch) hi]
    exact ⟨⟨rfl, rfl, rfl, rfl, rfl⟩, rfl, rfl, rfl, rfl⟩
  · rw [State.comb, hchan, Channel.comb_silence (hcombs ch ▸ of_decide_eq_true hi)]
    exact ⟨rfl, rfl, rfl, rfl, rfl⟩
  · rw [State.ap, hchan, Channel.ap_silence (haps ch ▸ of_decide_eq_true hj)]
    exact ⟨rfl, rfl, rfl, rfl, rfl⟩

/-! ## ENG.CLEANUP -/

/-- Settles O41: ENG.CLEANUP makes no check. -/
theorem cleanupReleases : Obligations.CleanupReleases := by
  intro s
  refine ⟨_, rfl, rfl, ?_, fun b a => ?_⟩
  · constructor <;> rfl
  · cases b <;> rfl

end Sys2Proof.Machine
end

section
/-! SUPPORT. Reload and recompute (45_engine.md R242, R243; 44_coefficients.md R212 to R223): what they make of each line and
of the bandpass pair, said once, and with it ENG.CONFIG, O37 to O39. -/

namespace Sys2Proof.Machine

/-! ## Coefficients of the configuration -/

theorem eval_designAlpha_param (ap : ℝ → ℝ) (f0 : F32) (r : RealParam) (fs : Nat) :
    (designAlpha f0 (.param r) fs).eval ap = realAlpha f0.toReal r.toReal fs := by
  simp only [designAlpha, RealFormula.eval, Bandwidth.formula, eval_designW0, realAlpha, Nat.cast_ofNat]

theorem Biquad.isLowPass_store_param (q : Biquad) (f0 : F32) (r : RealParam) (fs : Nat) :
    IsLowPass (q.store (lowPass f0 (.param r) fs)) f0.toReal r.toReal fs := by
  refine ⟨coefOf_coefEval ?_, coefOf_coefEval ?_, coefOf_coefEval ?_, coefOf_coefEval ?_, coefOf_coefEval ?_⟩ <;>
    simp only [lowPass, RealFormula.eval, eval_designW0, eval_designAlpha_param, Nat.cast_ofNat, Nat.cast_one]

theorem Biquad.isHighPass_store_param (q : Biquad) (f0 : F32) (r : RealParam) (fs : Nat) :
    IsHighPass (q.store (highPass f0 (.param r) fs)) f0.toReal r.toReal fs := by
  refine ⟨coefOf_coefEval ?_, coefOf_coefEval ?_, coefOf_coefEval ?_, coefOf_coefEval ?_, coefOf_coefEval ?_⟩ <;>
    simp only [highPass, RealFormula.eval, eval_designW0, eval_designAlpha_param, Nat.cast_ofNat, Nat.cast_one]

theorem Biquad.sameHistory_store (q : Biquad) (d : Design) : q.SameHistory (q.store d) := ⟨rfl, rfl, rfl, rfl⟩

theorem Params.isCombGain_combGain (p : Params) (len : Nat) (pct bright t : F32) (fs : Nat) :
    IsCombGain p len pct bright t fs (p.combGain len pct bright t fs) :=
  coefOf_coefEval (by simp only [RealFormula.eval, percentPower, Nat.cast_ofNat, Nat.cast_one])

theorem Params.isApGain_apGain (p : Params) (len : Nat) (pct t : F32) (fs : Nat) :
    IsApGain p len pct t fs (p.apGain len pct t fs) :=
  coefOf_coefEval (by simp only [RealFormula.eval, percentPower, Nat.cast_ofNat])

theorem coefOf_apInGain (t : F32) : CoefOf (Config.apInGain t.toReal) (apInGain t) := coefOf_coefEval rfl

/-! ## Lengths -/

/-- `base_len` over the reals (44_coefficients.md R219). -/
theorem cast_baseLen {d : F32} (hfin : d.isFinite = true) (hpos : 0 < d.toReal) (fs : Nat) :
    (baseLen d fs : ℤ) = ⌊d.toReal * fs / 1000⌋ := by
  rw [baseLen_eq_floor hfin hpos, Int.toNat_of_nonneg]
  positivity

theorem toNat_ofNat_of_le_rbCap {p : Params} (hp : p.wf = true) {n : Nat} (h : n ≤ p.rbCap) :
    (BitVec.ofNat 32 n).toNat = n := by
  rw [BitVec.toNat_ofNat, Nat.mod_eq_of_lt (h.trans_lt (Params.rbCap_lt hp))]

/-- A checked line is resized to its length over the reals (44_coefficients.md R220, R222). -/
theorem Ring.resized_stereoLen {p : Params} (hp : p.wf = true) {base i : Nat} (hline : p.lineCheck base i = none)
    (r : Ring) (ch : Chan) (st : Bool) :
    RingResized r (p.stereoLen base i ch st) (r.setLen (BitVec.ofNat 32 (p.stereoLen base i ch st))) := by
  have hspec := r.setLen_spec (BitVec.ofNat 32 (p.stereoLen base i ch st))
  rwa [toNat_ofNat_of_le_rbCap hp (Params.stereoLen_bounds hline ch st).2] at hspec

theorem RingResized.cursor_eq_zero {r r' : Ring} {n : Nat} (h : RingResized r n r') (h0 : r.cursor = 0) :
    r'.cursor = 0 := by
  apply BitVec.eq_of_toNat_eq
  rw [h.cursor, h0]
  exact ite_self _

/-! ## Recompute of one line (45_engine.md R243) -/

/-- What recompute makes of an active comb. -/
structure CombTuned (p : Params) (fs : Nat) (t : F32) (st : Bool) (ch : Chan) (i : Nat) (c c' : Comb) : Prop where
  gain : ∃ len : Nat, (len : ℤ) = realStereoLen p c.base.toNat i ch st ∧ RingResized c.ring len c'.ring ∧
    IsCombGain p len c.pct c.bright t fs c'.g
  damp : c'.damp = c.damp
  last : c'.last = c.last
  pct : c'.pct = c.pct
  bright : c'.bright = c.bright
  base : c'.base = c.base

/-- What recompute makes of an active allpass. -/
structure AllpassTuned (p : Params) (fs : Nat) (t : F32) (st : Bool) (ch : Chan) (j : Nat) (a a' : Allpass) : Prop where
  gain : ∃ len : Nat, (len : ℤ) = realStereoLen p a.base.toNat j ch st ∧ RingResized a.ring len a'.ring ∧
    IsApGain p len a.pct t fs a'.g
  gin : a'.gin = apInGain t
  last : a'.last = a.last
  pct : a'.pct = a.pct
  base : a'.base = a.base

section
variable {p : Params} (hp : p.wf = true) (fs : Nat) (t : F32) (st : Bool) (ch : Chan)
include hp

theorem Comb.tuned_recompute {c : Comb} {i : Nat} (h : p.lineCheck c.base.toNat i = none) :
    CombTuned p fs t st ch i c (c.recompute p fs t st ch i) where
  gain := ⟨p.stereoLen c.base.toNat i ch st, Params.cast_stereoLen (Params.stereoRatio_isPos hp) ..,
    Ring.resized_stereoLen hp h .., p.isCombGain_combGain ..⟩
  damp := rfl
  last := rfl
  pct := rfl
  bright := rfl
  base := rfl

theorem Allpass.tuned_recompute {a : Allpass} {j : Nat} (h : p.lineCheck a.base.toNat j = none) :
    AllpassTuned p fs t st ch j a (a.recompute p fs t st ch j) where
  gain := ⟨p.stereoLen a.base.toNat j ch st, Params.cast_stereoLen (Params.stereoRatio_isPos hp) ..,
    Ring.resized_stereoLen hp h .., p.isApGain_apGain ..⟩
  gin := rfl
  last := rfl
  pct := rfl
  base := rfl

end

/-! ## Reload of one line, then recompute (45_engine.md R242, R243) -/

/-- What a load of mode `m` makes of an active comb. -/
structure CombLoaded (p : Params) (fs m : Nat) (t : F32) (st : Bool) (ch : Chan) (i : Nat) (c c' : Comb) : Prop where
  pct : c'.pct = p.combPct m i
  bright : c'.bright = p.combBright m i
  last : c'.last = c.last
  base : (c'.base.toNat : ℤ) = ⌊(p.combDelay m i).toReal * fs / 1000⌋
  gain : ∃ len : Nat, (len : ℤ) = realStereoLen p c'.base.toNat i ch st ∧ RingResized c.ring len c'.ring ∧
    IsCombGain p len c'.pct c'.bright t fs c'.g
  damp : IsLowPass c'.damp (p.dampCutoff c'.bright fs).toReal p.dampBw.toReal fs

/-- What a load of mode `m` makes of an active allpass. -/
structure AllpassLoaded (p : Params) (fs m : Nat) (t : F32) (st : Bool) (ch : Chan) (j : Nat) (a a' : Allpass) : Prop where
  pct : a'.pct = p.apPct m j
  last : a'.last = a.last
  base : (a'.base.toNat : ℤ) = ⌊(p.apDelay m j).toReal * fs / 1000⌋
  gin : a'.gin = apInGain t
  gain : ∃ len : Nat, (len : ℤ) = realStereoLen p a'.base.toNat j ch st ∧ RingResized a.ring len a'.ring ∧
    IsApGain p len a'.pct t fs a'.g

section
variable {p : Params} {fs m : Nat} (hm : ModeOk p fs m) (hp : p.wf = true) (t : F32) (st : Bool) (ch : Chan)
include hm hp

/-- The active combs of a valid mode meet every premise of the load. -/
theorem ModeOk.combLoaded (c : Comb) {i : Nat} (hi : i < (p.nComb m).toNat) :
    CombLoaded p fs m t st ch i c ((c.reload p fs m i).recompute p fs t st ch i) := by
  obtain ⟨hcheck, hline⟩ := hm.comb i hi
  obtain ⟨hfin, -, -, hpos, -⟩ := Params.combCheck_eq_none.1 hcheck
  have hbase : (c.reload p fs m i).base.toNat = baseLen (p.combDelay m i) fs :=
    toNat_ofNat_of_le_rbCap hp (Params.base_bounds hline).2
  have htuned := Comb.tuned_recompute hp fs t st ch (c := c.reload p fs m i) (hbase ▸ hline)
  exact
    { pct := rfl
      bright := rfl
      last := rfl
      base := by rw [htuned.base, hbase, cast_baseLen hfin hpos]
      gain := htuned.gain
      damp := Biquad.isLowPass_store_param .. }

/-- The active allpasses of a valid mode meet every premise of the load. -/
theorem ModeOk.allpassLoaded (a : Allpass) {j : Nat} (hj : j < (p.nAp m).toNat) :
    AllpassLoaded p fs m t st ch j a ((a.reload p fs m j).recompute p fs t st ch j) := by
  obtain ⟨hcheck, hline⟩ := hm.ap j hj
  obtain ⟨hfin, -, hpos, -⟩ := Params.apCheck_eq_none.1 hcheck
  have hbase : (a.reload p fs m j).base.toNat = baseLen (p.apDelay m j) fs :=
    toNat_ofNat_of_le_rbCap hp (Params.base_bounds hline).2
  have htuned := Allpass.tuned_recompute hp fs t st ch (a := a.reload p fs m j) (hbase ▸ hline)
  exact
    { pct := rfl
      last := rfl
      base := by rw [htuned.base, hbase, cast_baseLen hfin hpos]
      gin := rfl
      gain := htuned.gain }

end

/-! ## The instances of a channel after reload and recompute -/

/-- A channel after reload of mode `m` and recompute with its line counts. -/
def Channel.loaded (p : Params) (fs m : Nat) (t : F32) (st : Bool) (ch : Chan) (c : Channel) : Channel :=
  (c.reload p fs m).recompute p fs (p.nComb m).toNat (p.nAp m).toNat t st ch

section
variable {p : Params} {fs m nC nA : Nat} {t : F32} {st : Bool} {ch : Chan} {c : Channel}

theorem Channel.comb_recompute {i : Nat} (h : i < c.combs.length) :
    (c.recompute p fs nC nA t st ch).comb i = if i < nC then (c.comb i).recompute p fs t st ch i else c.comb i :=
  getD_mapFrom _ _ _ _ h

theorem Channel.ap_recompute {j : Nat} (h : j < c.aps.length) :
    (c.recompute p fs nC nA t st ch).ap j = if j < nA then (c.ap j).recompute p fs t st ch j else c.ap j :=
  getD_mapFrom _ _ _ _ h

theorem Channel.comb_reload {i : Nat} (h : i < c.combs.length) :
    (c.reload p fs m).comb i = if i < (p.nComb m).toNat then (c.comb i).reload p fs m i else c.comb i :=
  getD_mapFrom _ _ _ _ h

theorem Channel.ap_reload {j : Nat} (h : j < c.aps.length) :
    (c.reload p fs m).ap j = if j < (p.nAp m).toNat then (c.ap j).reload p fs m j else c.ap j :=
  getD_mapFrom _ _ _ _ h

theorem Channel.comb_loaded {i : Nat} (h : i < c.combs.length) :
    (c.loaded p fs m t st ch).comb i =
      if i < (p.nComb m).toNat then ((c.comb i).reload p fs m i).recompute p fs t st ch i else c.comb i := by
  rw [Channel.loaded, Channel.comb_recompute (by rwa [Channel.reload, length_mapFrom]), Channel.comb_reload h]
  split <;> rfl

theorem Channel.ap_loaded {j : Nat} (h : j < c.aps.length) :
    (c.loaded p fs m t st ch).ap j =
      if j < (p.nAp m).toNat then ((c.ap j).reload p fs m j).recompute p fs t st ch j else c.ap j := by
  rw [Channel.loaded, Channel.ap_recompute (by rwa [Channel.reload, length_mapFrom]), Channel.ap_reload h]
  split <;> rfl

/-- Recompute leaves the filters alone. -/
theorem Channel.filter_recompute (hs : c.shaped p = true) {sel : FilterSel} {i : Nat} (h : p.hasFilter sel i = true) :
    (c.recompute p fs nC nA t st ch).filter sel i = c.filter sel i := by
  cases sel with
  | damp =>
    rw [Channel.filter, Channel.comb_recompute ((Channel.shaped_iff.1 hs).1 ▸ of_decide_eq_true h), Channel.filter]
    split <;> rfl
  | bandpass => rfl

/-- A load writes coefficients and keeps histories (44_coefficients.md R221). -/
theorem Channel.sameHistory_loaded (hs : c.shaped p = true) {sel : FilterSel} {i : Nat}
    (h : p.hasFilter sel i = true) : (c.filter sel i).SameHistory ((c.loaded p fs m t st ch).filter sel i) := by
  cases sel with
  | damp =>
    rw [Channel.filter, Channel.filter, Channel.comb_loaded ((Channel.shaped_iff.1 hs).1 ▸ of_decide_eq_true h)]
    split
    · exact Biquad.sameHistory_store ..
    · exact ⟨rfl, rfl, rfl, rfl⟩
  | bandpass =>
    rw [Channel.filter, Channel.filter]
    split <;> exact Biquad.sameHistory_store ..

/-- The bandpass pair of a mode (44_coefficients.md R223). -/
theorem Channel.bandpass_loaded :
    IsLowPass ((c.loaded p fs m t st ch).filter .bandpass 0) (p.bpHighHz m).toReal p.bpBw.toReal fs ∧
      IsHighPass ((c.loaded p fs m t st ch).filter .bandpass 1) (p.bpLowHz m).toReal p.bpBw.toReal fs :=
  ⟨Biquad.isLowPass_store_param .., Biquad.isHighPass_store_param ..⟩

end

/-! ## ENG.CONFIG (45_engine.md R246) -/

theorem Channel.comb_configured {c : Channel} {ctr i : Nat} {ch : Chan} (h : i < c.combs.length) :
    (c.configured ctr ch).comb i = Comb.configured [i, 0, chanTag ch, ctr] :=
  getD_mapFrom _ _ _ _ h

theorem Channel.ap_configured {c : Channel} {ctr j : Nat} {ch : Chan} (h : j < c.aps.length) :
    (c.configured ctr ch).ap j = Allpass.configured [j, 1, chanTag ch, ctr] :=
  getD_mapFrom _ _ _ _ h

/-- The state that a successful ENG.CONFIG leaves. -/
def State.afterConfig (s : State) (fs : Word) : State := (s.configure fs).bumpFree.answered []

theorem exec_engConfig {s : State} {fs : Word} (h : s.params.configCheck fs = none) :
    exec (.engConfig fs) s = .next (s.afterConfig fs) := by
  change checked s _ _ = _
  rw [h, checked_none, succeed_eq]
  rfl

theorem State.chan_afterConfig (s : State) (fs : Word) (ch : Chan) :
    (s.afterConfig fs).chan ch =
      ((s.chan ch).configured s.freeCtr ch).loaded s.params fs.toNat s.mode.toNat s.clampT s.stereoEn ch := by
  cases ch <;> rfl

/-- A comb after ENG.CONFIG: its defaults, loaded where it is active. -/
theorem State.Parts.comb_afterConfig {s : State} (h : s.Parts) (fs : Word) (ch : Chan) {i : Nat}
    (hi : i < s.params.maxCombs) :
    (s.afterConfig fs).comb ch i =
      if i < (s.params.nComb s.mode.toNat).toNat then
        ((Comb.configured [i, 0, chanTag ch, s.freeCtr]).reload s.params fs.toNat s.mode.toNat i).recompute s.params
          fs.toNat s.clampT s.stereoEn ch i
      else Comb.configured [i, 0, chanTag ch, s.freeCtr] := by
  have hlen : i < (s.chan ch).combs.length := (Channel.shaped_iff.1 (h.shaped ch)).1 ▸ hi
  rw [State.comb, State.chan_afterConfig, Channel.comb_loaded (by rwa [Channel.configured, length_mapFrom]),
    Channel.comb_configured hlen]

/-- An allpass after ENG.CONFIG: its defaults, loaded where it is active. -/
theorem State.Parts.ap_afterConfig {s : State} (h : s.Parts) (fs : Word) (ch : Chan) {j : Nat}
    (hj : j < s.params.maxAps) :
    (s.afterConfig fs).ap ch j =
      if j < (s.params.nAp s.mode.toNat).toNat then
        ((Allpass.configured [j, 1, chanTag ch, s.freeCtr]).reload s.params fs.toNat s.mode.toNat j).recompute s.params
          fs.toNat s.clampT s.stereoEn ch j
      else Allpass.configured [j, 1, chanTag ch, s.freeCtr] := by
  have hlen : j < (s.chan ch).aps.length := (Channel.shaped_iff.1 (h.shaped ch)).2 ▸ hj
  rw [State.ap, State.chan_afterConfig, Channel.ap_loaded (by rwa [Channel.configured, length_mapFrom]),
    Channel.ap_configured hlen]

/-- Settles O37: the registers are those of the reload and the recompute of the mode in MODE. -/
theorem configSetsEngine : Obligations.ConfigSetsEngine := by
  intro fs s _ hcheck
  refine ⟨_, exec_engConfig hcheck, rfl, rfl, rfl, rfl, rfl, rfl, rfl, rfl, BitVec.toNat_add .., rfl, rfl, rfl, rfl, rfl,
    rfl, rfl, rfl, fun b a => by cases b <;> rfl, fun ch => ?_⟩
  rw [State.filter, State.filter, State.chan_afterConfig]
  exact Channel.bandpass_loaded

/-- Settles O38: an active comb is its default loaded with a valid mode, and an inactive one its default. -/
theorem configSetsCombs : Obligations.ConfigSetsCombs := by
  intro fs s hinv hcheck
  have h := State.inv_iff.1 hinv
  obtain ⟨-, -, hrom⟩ := Params.configCheck_eq_none hcheck
  have hm := modeOk_of_romCheck hrom h.mode
  refine ⟨_, exec_engConfig hcheck, fun ch i hi => ?_⟩
  by_cases hactive : i < (s.params.nComb s.mode.toNat).toNat
  · have hloaded := hm.combLoaded h.wf s.clampT s.stereoEn ch (Comb.configured [i, 0, chanTag ch, s.freeCtr]) hactive
    rw [h.comb_afterConfig fs ch hi, if_pos hactive]
    obtain ⟨len, hlen, hring, hgain⟩ := hloaded.gain
    refine ⟨hring.cursor_eq_zero rfl, (if_pos hactive).mpr ?_⟩
    exact ⟨hloaded.pct, hloaded.bright, hloaded.base, hring.len ▸ hlen, hloaded.damp, hring.len ▸ hgain⟩
  · rw [h.comb_afterConfig fs ch hi, if_neg hactive]
    exact ⟨rfl, (if_neg hactive).mpr ⟨rfl, rfl, rfl, rfl, rfl, rfl, rfl, rfl, rfl, rfl⟩⟩

/-- Settles O39: as for the combs, with one input gain that depends on the clamped decay time alone. -/
theorem configSetsAllpasses : Obligations.ConfigSetsAllpasses := by
  intro fs s hinv hcheck
  have h := State.inv_iff.1 hinv
  obtain ⟨-, -, hrom⟩ := Params.configCheck_eq_none hcheck
  have hm := modeOk_of_romCheck hrom h.mode
  refine ⟨_, apInGain s.clampT, exec_engConfig hcheck, coefOf_apInGain _, fun ch j hj => ?_⟩
  by_cases hactive : j < (s.params.nAp s.mode.toNat).toNat
  · have hloaded := hm.allpassLoaded h.wf s.clampT s.stereoEn ch (Allpass.configured [j, 1, chanTag ch, s.freeCtr]) hactive
    rw [h.ap_afterConfig fs ch hj, if_pos hactive]
    obtain ⟨len, hlen, hring, hgain⟩ := hloaded.gain
    refine ⟨hring.cursor_eq_zero rfl, (if_pos hactive).mpr ?_⟩
    exact ⟨hloaded.pct, hloaded.base, hring.len ▸ hlen, hloaded.gin, hring.len ▸ hgain⟩
  · rw [h.ap_afterConfig fs ch hj, if_neg hactive]
    exact ⟨rfl, (if_neg hactive).mpr ⟨rfl, rfl, rfl, rfl, rfl⟩⟩

end Sys2Proof.Machine
end

section
/-! SUPPORT. Change detection (45_engine.md R244), seen in a block of no samples: O47, O48, O49. -/

namespace Sys2Proof.Machine

/-! ## What change detection makes of a channel -/

theorem State.detect_of_unchanged {s : State} (h : s.anyChanged = false) : s.detect = s := by
  rcases s.detect_cases with ⟨-, heq⟩ | ⟨hc, -⟩ | ⟨hc, -⟩
  · exact heq
  · simp [h] at hc
  · simp [h] at hc

theorem State.detect_of_recompute {s : State} (h : s.anyChanged = true) (hmode : s.mode = s.cacheM) :
    s.detect = s.recompute s.clampT s.stereoEn s.mode := by
  rcases s.detect_cases with ⟨hc, -⟩ | ⟨-, -, heq⟩ | ⟨-, hm, -⟩
  · simp [h] at hc
  · exact heq
  · exact absurd hmode (of_decide_eq_true hm)

theorem State.detect_of_mode {s : State} (hmode : s.mode ≠ s.cacheM) :
    s.detect = (s.reload s.mode.toNat).recompute s.clampT s.stereoEn s.mode := by
  have hm : s.modeChanged = true := decide_eq_true hmode
  rcases s.detect_cases with ⟨hc, -⟩ | ⟨-, hm', -⟩ | ⟨-, -, heq⟩
  · simp [State.anyChanged, hm] at hc
  · simp [hm] at hm'
  · exact heq

theorem State.chan_reload (s : State) (m : Nat) (ch : Chan) :
    (s.reload m).chan ch = (s.chan ch).reload s.params s.fs.toNat m := by
  cases ch <;> rfl

theorem State.chan_recompute (s : State) (t : F32) (st : Bool) (m : Word) (ch : Chan) :
    (s.recompute t st m).chan ch = (s.chan ch).recompute s.params s.fs.toNat s.nC.toNat s.nA.toNat t st ch := by
  cases ch <;> rfl

theorem State.chan_reload_recompute (s : State) (m : Nat) (t : F32) (st : Bool) (w : Word) (ch : Chan) :
    ((s.reload m).recompute t st w).chan ch = (s.chan ch).loaded s.params s.fs.toNat m t st ch := by
  rw [State.chan_recompute, State.chan_reload]
  rfl

/-! ## A block of no samples -/

/-- The state that ENG.PROCESS 0 leaves in RUNNING. -/
def State.afterDetect (s : State) : State := s.detect.bumpFree.answered []

theorem exec_engProcess_zero {s : State} (he : s.estate = .running) :
    exec (.engProcess 0) s = .next s.afterDetect := by
  change checked s (firstError _) _ = _
  rw [processCheck_eq_none.2 ⟨he, Nat.zero_le _⟩, checked_none]
  rfl

theorem State.chan_afterDetect (s : State) (ch : Chan) : s.afterDetect.chan ch = s.detect.chan ch := by
  rw [State.afterDetect, State.answered_chan, State.chan_bumpFree]

/-- A state with the registers, the banks and the channels of another. -/
theorem Untouched.of_chan {s t : State} (hreg : SameRegisters s t) (hbank : SameBanks s t)
    (hch : ∀ ch, t.chan ch = s.chan ch) : Untouched s t noneOf noneOf noLine noLine where
  registers := hreg
  banks := hbank
  rings ch sel i _ _ := by rw [State.ring, hch, State.ring]
  filters ch sel i _ _ := by rw [State.filter, hch, State.filter]
  combs ch i _ _ := by
    rw [State.comb, State.comb, hch]
    exact ⟨rfl, rfl, rfl, rfl, rfl⟩
  aps ch j _ _ := by
    rw [State.ap, State.ap, hch]
    exact ⟨rfl, rfl, rfl, rfl, rfl⟩

/-- Settles O47: change detection leaves the state alone. -/
theorem noChangeNoRecompute : Obligations.NoChangeNoRecompute := by
  intro s hinv he hpending
  have hiff := (State.inv_iff.1 hinv).anyChanged_iff (by simp [he])
  have hdetect : s.detect = s := State.detect_of_unchanged (Bool.eq_false_iff.2 (mt hiff.1 hpending))
  refine ⟨_, exec_engProcess_zero he, ?_, .of_chan ?_ (fun b a => ?_) fun ch => ?_⟩
  · rw [State.afterDetect, hdetect]
    rfl
  · rw [State.afterDetect, hdetect]
    exact (SameRegisters.bumpFree s).trans (.answered ..)
  · rw [State.afterDetect, hdetect, State.answered_readBank, State.readBank_bumpFree]
  · rw [State.chan_afterDetect, hdetect]

/-- Settles O48: the recompute tunes the active lines, whose stored base the invariant keeps checked. -/
theorem changeRecomputesLines : Obligations.ChangeRecomputesLines := by
  intro s hinv he hmode hpending
  have h := State.inv_iff.1 hinv
  have hdetect := State.detect_of_recompute ((h.anyChanged_iff (by simp [he])).2 hpending) hmode
  have hchan (ch : Chan) : s.afterDetect.chan ch =
      (s.chan ch).recompute s.params s.fs.toNat s.nC.toNat s.nA.toNat s.clampT s.stereoEn ch := by
    rw [State.chan_afterDetect, hdetect, State.chan_recompute]
  have hok := h.channelOk he
  refine ⟨_, apInGain s.clampT, exec_engProcess_zero he, coefOf_apInGain _, congrArg State.cacheT hdetect,
    congrArg State.cacheS hdetect, (congrArg State.nC hdetect :), (congrArg State.nA hdetect :), fun ch sel i hi => ?_,
    fun ch i hi => ?_, fun ch j hj => ?_⟩
  · rw [State.filter, hchan, Channel.filter_recompute (h.shaped ch) hi, State.filter]
  · have hlen : i < (s.chan ch).combs.length := (Channel.shaped_iff.1 (h.shaped ch)).1 ▸ hi
    rw [State.comb, State.comb, hchan, Channel.comb_recompute hlen]
    split
    case isTrue hactive =>
      have htuned := Comb.tuned_recompute h.wf s.fs.toNat s.clampT s.stereoEn ch
        (Comb.usable_iff.1 ((hok ch).combU i hactive)).1
      exact ⟨htuned.gain, htuned.last, htuned.pct, htuned.bright, htuned.base⟩
    case isFalse => rfl
  · have hlen : j < (s.chan ch).aps.length := (Channel.shaped_iff.1 (h.shaped ch)).2 ▸ hj
    rw [State.ap, State.ap, hchan, Channel.ap_recompute hlen]
    split
    case isTrue hactive =>
      have htuned := Allpass.tuned_recompute h.wf s.fs.toNat s.clampT s.stereoEn ch
        (Allpass.usable_iff.1 ((hok ch).apU j hactive)).1
      exact ⟨htuned.gain, htuned.gin, htuned.last, htuned.pct, htuned.base⟩
    case isFalse => rfl

/-- Settles O49: the mode in MODE is valid at the rate of the block, so its lines are loaded. -/
theorem modeSwitchReloads : Obligations.ModeSwitchReloads := by
  intro s hinv he hmode
  have h := State.inv_iff.1 hinv
  have hdetect := State.detect_of_mode hmode
  have hm := modeOk_of_romCheck (h.configured (by simp [he])).romCheck h.mode
  have hchan (ch : Chan) : s.afterDetect.chan ch =
      (s.chan ch).loaded s.params s.fs.toNat s.mode.toNat s.clampT s.stereoEn ch := by
    rw [State.chan_afterDetect, hdetect, State.chan_reload_recompute]
  have hnC : s.afterDetect.nC = s.params.nComb s.mode.toNat := congrArg State.nC hdetect
  have hnA : s.afterDetect.nA = s.params.nAp s.mode.toNat := congrArg State.nA hdetect
  refine ⟨_, apInGain s.clampT, exec_engProcess_zero he, coefOf_apInGain _, congrArg State.cacheT hdetect,
    congrArg State.cacheS hdetect, congrArg State.cacheM hdetect, hnC, hnA, fun ch => ?_, fun ch sel i hi => ?_,
    fun ch i hi => ?_, fun ch j hj => ?_⟩
  · rw [State.filter, State.filter, hchan]
    exact Channel.bandpass_loaded
  · rw [State.filter, State.filter, hchan]
    exact Channel.sameHistory_loaded (h.shaped ch) hi
  · have hlen : i < (s.chan ch).combs.length := (Channel.shaped_iff.1 (h.shaped ch)).1 ▸ hi
    rw [State.comb, State.comb, hchan, Channel.comb_loaded hlen, hnC]
    split
    case isTrue hactive =>
      have hloaded := hm.combLoaded h.wf s.clampT s.stereoEn ch ((s.chan ch).comb i) hactive
      exact ⟨hloaded.pct, hloaded.bright, hloaded.last, hloaded.base, hloaded.gain, hloaded.damp⟩
    case isFalse => rfl
  · have hlen : j < (s.chan ch).aps.length := (Channel.shaped_iff.1 (h.shaped ch)).2 ▸ hj
    rw [State.ap, State.ap, hchan, Channel.ap_loaded hlen, hnA]
    split
    case isTrue hactive =>
      have hloaded := hm.allpassLoaded h.wf s.clampT s.stereoEn ch ((s.chan ch).ap j) hactive
      exact ⟨hloaded.pct, hloaded.last, hloaded.base, hloaded.gin, hloaded.gain⟩
    case isFalse => rfl

end Sys2Proof.Machine
end

section
/-! SUPPORT. One sample step as its relation (45_engine.md R253 to R255): the accumulators of the comb stage and of the
allpass chain, written out. -/

namespace Sys2Proof.Machine

/-! ## The stages of a sample, each with its enable -/

/-- The comb stage, or none (45_engine.md R255). -/
def combsOrBypass (e : MixEnv) (site : Site) (c : Channel) (x : F32) : List Comb × F32 :=
  if e.combsEn then combStage e (0 :: site) x 0 c.combs x else (c.combs, x)

/-- The allpass chain, or none (45_engine.md R255). -/
def apsOrBypass (e : MixEnv) (site : Site) (c : Channel) (x : F32) : List Allpass × F32 :=
  if e.apsEn then apStage e (1 :: site) 0 c.aps x else (c.aps, x)

/-- The bandpass stage, or none (45_engine.md R255). -/
def bandOrBypass (e : MixEnv) (site : Site) (c : Channel) (x : F32) : Channel × F32 :=
  if e.bpEn then bandStage (2 :: site) c x else (c, x)

/-- The channel that the bandpass stage of a sample is given: its combs and allpasses have run. -/
def Channel.linesRun (e : MixEnv) (site : Site) (c : Channel) (x : F32) : Channel :=
  { c with
    combs := (combsOrBypass e site c x).1
    aps := (apsOrBypass e site c (combsOrBypass e site c x).2).1 }

/-- The value that the bandpass stage of a sample is given. -/
def linesOut (e : MixEnv) (site : Site) (c : Channel) (x : F32) : F32 :=
  (apsOrBypass e site c (combsOrBypass e site c x).2).2

/-- A sample step by its stages (45_engine.md R253). -/
theorem sampleStep_eq (e : MixEnv) (site : Site) (c : Channel) (x : F32) :
    sampleStep e site c x =
      ((bandOrBypass e site (c.linesRun e site x) (linesOut e site c x)).1,
        F32.add (5 :: site) (F32.mul (3 :: site) x e.dry)
          (F32.mul (4 :: site) (bandOrBypass e site (c.linesRun e site x) (linesOut e site c x)).2 e.wet)) := rfl

theorem bandOrBypass_combs (e : MixEnv) (site : Site) (c : Channel) (x : F32) :
    (bandOrBypass e site c x).1.combs = c.combs := by
  rw [bandOrBypass]
  split <;> rfl

theorem bandOrBypass_aps (e : MixEnv) (site : Site) (c : Channel) (x : F32) :
    (bandOrBypass e site c x).1.aps = c.aps := by
  rw [bandOrBypass]
  split <;> rfl

/-! ## The accumulators -/

/-- The sum after the combs below `i` (45_engine.md R254). -/
def combSum (e : MixEnv) (site : Site) (c : Channel) (x : F32) : Nat → F32
  | 0 => x
  | i + 1 => F32.add (1 :: i :: site) (combSum e site c x i)
      (e.params.s2f ((c.comb i).step e.params (0 :: i :: site) x).2)

/-- The value after the allpasses below `j` (45_engine.md R253). -/
def apChain (e : MixEnv) (site : Site) (c : Channel) (x : F32) : Nat → F32
  | 0 => x
  | j + 1 => e.params.s2f ((c.ap j).step e.params (j :: site) (apChain e site c x j)).2

/-- What the comb stage makes of comb `i`. -/
def combAfter (e : MixEnv) (site : Site) (x : F32) (i : Nat) (c : Comb) : Comb :=
  if i < e.nC then (c.step e.params (0 :: i :: site) x).1 else c

/-- What the allpass chain makes of allpass `j`. -/
def apAfter (e : MixEnv) (site : Site) (c : Channel) (x : F32) (j : Nat) (a : Allpass) : Allpass :=
  if j < e.nA then (a.step e.params (j :: site) (apChain e site c x j)).1 else a

theorem mapFrom_eq_self {α : Type} {f : Nat → α → α} {i : Nat} (h : ∀ j, i ≤ j → ∀ x, f j x = x) (xs : List α) :
    mapFrom f i xs = xs := by
  induction xs generalizing i with
  | nil => rfl
  | cons x xs ih => rw [mapFrom, h i le_rfl, ih fun j hj => h j (by omega)]

section
variable {e : MixEnv} {c : Channel} (site : Site) (x : F32)

/-- The comb stage from comb `i` on, where those below have run. -/
theorem combStage_drop (hn : e.nC ≤ c.combs.length) {i : Nat} (hi : i ≤ e.nC) :
    combStage e site x i (c.combs.drop i) (combSum e site c x i) =
      (mapFrom (combAfter e site x) i (c.combs.drop i), combSum e site c x e.nC) := by
  induction hi using Nat.decreasingInduction with
  | self =>
    rw [mapFrom_eq_self (f := combAfter e site x) fun j hj d => if_neg (not_lt.2 hj)]
    cases c.combs.drop e.nC with
    | nil => rfl
    | cons d ds => rw [combStage, if_neg (lt_irrefl _)]
  | of_succ i hi ih =>
    have hlen : i < c.combs.length := by omega
    rw [List.drop_eq_getElem_cons hlen, Channel.getElem_combs hlen, combStage, if_pos hi, mapFrom, combAfter, if_pos hi]
    simp only
    rw [← combSum, ih]

/-- The allpass chain from allpass `j` on, where those below have run. -/
theorem apStage_drop (hn : e.nA ≤ c.aps.length) {j : Nat} (hj : j ≤ e.nA) :
    apStage e site j (c.aps.drop j) (apChain e site c x j) =
      (mapFrom (apAfter e site c x) j (c.aps.drop j), apChain e site c x e.nA) := by
  induction hj using Nat.decreasingInduction with
  | self =>
    rw [mapFrom_eq_self (f := apAfter e site c x) fun i hi a => if_neg (not_lt.2 hi)]
    cases c.aps.drop e.nA with
    | nil => rfl
    | cons a as => rw [apStage, if_neg (lt_irrefl _)]
  | of_succ j hj ih =>
    have hlen : j < c.aps.length := by omega
    rw [List.drop_eq_getElem_cons hlen, Channel.getElem_aps hlen, apStage, if_pos hj, mapFrom, apAfter, if_pos hj]
    simp only
    rw [← apChain, ih]

end

/-! ## The relations -/

/-- A channel that the block's constants fit: each active line exists and its ring has a length. -/
structure MixReady (e : MixEnv) (c : Channel) : Prop where
  ok : ChannelOk e.params e.nC e.nA c
  nC : e.nC ≤ e.params.maxCombs
  nA : e.nA ≤ e.params.maxAps

section
variable {e : MixEnv} {c c' : Channel}

theorem MixReady.nC_le (h : MixReady e c) : e.nC ≤ c.combs.length := (Channel.shaped_iff.1 h.ok.shaped).1 ▸ h.nC

theorem MixReady.nA_le (h : MixReady e c) : e.nA ≤ c.aps.length := (Channel.shaped_iff.1 h.ok.shaped).2 ▸ h.nA

theorem MixReady.sampleStep (h : MixReady e c) (site : Site) (x : F32) : MixReady e (sampleStep e site c x).1 :=
  ⟨h.ok.runSample site x, h.nC, h.nA⟩

/-- The comb stage gives every active comb `x` and sums onto `x` (45_engine.md R253, R254). -/
theorem MixReady.combStage_spec (h : MixReady e c) (site : Site) (x : F32)
    (hc' : c'.combs = (combStage e site x 0 c.combs x).1) : CombStage e c x c' (combStage e site x 0 c.combs x).2 := by
  have hstage := combStage_drop site x h.nC_le (Nat.zero_le _)
  rw [List.drop_zero, combSum] at hstage
  rw [hstage] at hc' ⊢
  have hcomb {i : Nat} (hi : i < c.combs.length) : c'.comb i = combAfter e site x i (c.comb i) := by
    rw [Channel.comb, hc']
    exact getD_mapFrom _ _ _ _ hi
  refine ⟨combSum e site c x, rfl, rfl, fun i hi => ⟨_, 1 :: i :: site, ?_, rfl⟩, fun i hi => ?_⟩
  · have hring := h.ok.combR _ (Channel.comb_mem h.ok.shaped (hi.trans_le h.nC))
    rw [hcomb (hi.trans_le h.nC_le), combAfter, if_pos hi]
    exact Comb.step_spec _ _ _ (Ring.wf_iff.1 hring).1.1
  · rcases lt_or_ge i c.combs.length with hlt | hge
    · rw [hcomb hlt, combAfter, if_neg (not_lt.2 hi)]
    · rw [Channel.comb, Channel.comb, hc', getD_mapFrom_of_le _ _ _ _ hge, List.getD_eq_default _ _ hge]

/-- The allpass chain runs the active allpasses in series (45_engine.md R253, 43_allpass.md R198). -/
theorem MixReady.apStage_spec (h : MixReady e c) (site : Site) (x : F32)
    (hc' : c'.aps = (apStage e site 0 c.aps x).1) : AllpassStage e c x c' (apStage e site 0 c.aps x).2 := by
  have hstage := apStage_drop site x h.nA_le (Nat.zero_le _)
  rw [List.drop_zero, apChain] at hstage
  rw [hstage] at hc' ⊢
  have hap {j : Nat} (hj : j < c.aps.length) : c'.ap j = apAfter e site c x j (c.ap j) := by
    rw [Channel.ap, hc']
    exact getD_mapFrom _ _ _ _ hj
  refine ⟨apChain e site c x, rfl, rfl, fun j hj => ⟨_, ?_, rfl⟩, fun j hj => ?_⟩
  · have hring := h.ok.apR _ (Channel.ap_mem h.ok.shaped (hj.trans_le h.nA))
    rw [hap (hj.trans_le h.nA_le), apAfter, if_pos hj]
    exact Allpass.step_spec _ _ _ (Ring.wf_iff.1 hring).1.1
  · rcases lt_or_ge j c.aps.length with hlt | hge
    · rw [hap hlt, apAfter, if_neg (not_lt.2 hj)]
    · rw [Channel.ap, Channel.ap, hc', getD_mapFrom_of_le _ _ _ _ hge, List.getD_eq_default _ _ hge]

theorem bandStage_spec (site : Site) (c : Channel) (x : F32) :
    BandStage c x (bandStage site c x).1 (bandStage site c x).2 :=
  ⟨_, Biquad.process_spec .., Biquad.process_spec ..⟩

/-- A sample step is the relation of R253, stage by stage. -/
theorem MixReady.sampleStep_spec (h : MixReady e c) (site : Site) (x : F32) :
    SampleStep e c x (Machine.sampleStep e site c x).1 (Machine.sampleStep e site c x).2 := by
  rw [sampleStep_eq]
  refine ⟨(combsOrBypass e site c x).2, linesOut e site c x, _, ?_, ?_, ?_, _, _, _, rfl⟩
  · split
    case isTrue hen =>
      rw [combsOrBypass, if_pos hen]
      refine h.combStage_spec _ x ?_
      rw [bandOrBypass_combs, Channel.linesRun, combsOrBypass, if_pos hen]
    case isFalse hen =>
      rw [bandOrBypass_combs, Channel.linesRun, combsOrBypass, if_neg hen]
      exact ⟨rfl, rfl⟩
  · split
    case isTrue hen =>
      rw [linesOut, apsOrBypass, if_pos hen]
      refine h.apStage_spec _ _ ?_
      rw [bandOrBypass_aps, Channel.linesRun, apsOrBypass, if_pos hen]
    case isFalse hen =>
      rw [bandOrBypass_aps, Channel.linesRun, linesOut, apsOrBypass, if_neg hen]
      exact ⟨rfl, rfl⟩
  · rw [bandOrBypass]
    split
    case isTrue => exact bandStage_spec _ (c.linesRun e site x) _
    case isFalse => exact ⟨rfl, rfl, rfl⟩

end

end Sys2Proof.Machine
end

section
/-! SUPPORT. A block (45_engine.md R249, R256, R257): each channel and its output words as functions of the channel's own
state and input words, with what change detection sets, O44, O46, and that neither channel reads the other, O50. -/

namespace Sys2Proof.Machine

/-! ## One channel through a block -/

/-- The bank a channel reads (20_memory.md R60). -/
def inBank : Chan → BankId
  | .left => .inL
  | .right => .inR

/-- The bank a channel writes (20_memory.md R60). -/
def outBank : Chan → BankId
  | .left => .outL
  | .right => .outR

/-- A channel before sample `k` of a block with the input words `xs`. -/
def channelAt (e : MixEnv) (ch : Chan) (xs : Nat → Word) (c : Channel) : Nat → Channel
  | 0 => c
  | k + 1 => (sampleStep e [k, chanTag ch, e.ctr] (channelAt e ch xs c k) (e.params.s2f (xs k))).1

/-- What a channel gives for sample `k` of that block. -/
def outputAt (e : MixEnv) (ch : Chan) (xs : Nat → Word) (c : Channel) (k : Nat) : F32 :=
  (sampleStep e [k, chanTag ch, e.ctr] (channelAt e ch xs c k) (e.params.s2f (xs k))).2

/-- The input words below `n` of a state. -/
def InputWords (s : State) (n : Nat) (xs : Chan → Nat → Word) : Prop :=
  ∀ ch k, k < n → s.readBank (inBank ch) k = some (xs ch k)

/-- The input words of a state, 0 where one holds no value. -/
def State.inputWords (s : State) (ch : Chan) (k : Nat) : Word := (s.readBank (inBank ch) k).getD 0

theorem inputWords_of_written {s : State} {n : Nat} (h : ∀ ch k, k < n → s.readBank (inBank ch) k ≠ none) :
    InputWords s n s.inputWords := by
  intro ch k hk
  obtain ⟨w, hw⟩ := Option.ne_none_iff_exists'.1 (h ch k hk)
  rw [State.inputWords, hw, Option.getD_some]

/-- A thing of each channel. -/
def byChan {α : Type} (l r : α) : Chan → α
  | .left => l
  | .right => r

/-- What a block that began in `s` has made of each channel and its banks before sample `k`. -/
structure BlockAt (e : MixEnv) (xs : Chan → Nat → Word) (s : State) (k : Nat) (t : State) : Prop where
  chan : ∀ ch, t.chan ch = channelAt e ch (xs ch) (s.chan ch) k
  output : ∀ ch a, t.readBank (outBank ch) a =
    if a < k then some (e.params.f2s (outputAt e ch (xs ch) (s.chan ch) a)) else s.readBank (outBank ch) a
  input : ∀ ch a, t.readBank (inBank ch) a = s.readBank (inBank ch) a

section
variable {e : MixEnv} {xs : Chan → Nat → Word} {s t u : State} {k n : Nat}

theorem BlockAt.refl : BlockAt e xs s 0 s where
  chan _ := rfl
  output _ a := by rw [if_neg (Nat.not_lt_zero a)]
  input _ _ := rfl

/-- All that a sample of written input words does, one channel at a time (45_engine.md R249, R256). -/
theorem processSample_chan (hin : ∀ ch, t.readBank (inBank ch) k = some (xs ch k)) :
    ∃ u, processSample e k t = .ok u ∧
      (∀ ch, u.chan ch = (sampleStep e [k, chanTag ch, e.ctr] (t.chan ch) (e.params.s2f (xs ch k))).1) ∧
      (∀ ch a, u.readBank (outBank ch) a =
        if a = k then
          some (e.params.f2s (sampleStep e [k, chanTag ch, e.ctr] (t.chan ch) (e.params.s2f (xs ch k))).2)
        else t.readBank (outBank ch) a) ∧
      ∀ ch a, u.readBank (inBank ch) a = t.readBank (inBank ch) a := by
  rcases processSample_cases e k t with ⟨hl, -⟩ | ⟨-, -, hr, -⟩ | ⟨xl, xr, hl, hr, heq⟩
  · exact absurd (hl.symm.trans (hin .left)) nofun
  · exact absurd (hr.symm.trans (hin .right)) nofun
  · obtain rfl : xl = xs .left k := Option.some.inj (hl.symm.trans (hin .left))
    obtain rfl : xr = xs .right k := Option.some.inj (hr.symm.trans (hin .right))
    refine ⟨_, heq, fun ch => ?_, fun ch a => ?_, fun ch a => ?_⟩
    · rw [State.chan_writeBank, State.chan_writeBank]
      cases ch <;> rfl
    · rw [State.readBank_writeBank, State.readBank_writeBank]
      cases ch <;> simp only [outBank, reduceCtorEq, false_and, true_and, if_false] <;> rfl
    · rw [State.readBank_writeBank, State.readBank_writeBank]
      cases ch <;> rfl

theorem BlockAt.step (h : BlockAt e xs s k t) (hin : ∀ ch, s.readBank (inBank ch) k = some (xs ch k)) :
    ∃ u, processSample e k t = .ok u ∧ BlockAt e xs s (k + 1) u := by
  obtain ⟨u, hu, hchan, hout, hinput⟩ := processSample_chan (e := e) fun ch => (h.input ch k).trans (hin ch)
  refine ⟨u, hu, fun ch => ?_, fun ch a => ?_, fun ch a => (hinput ch a).trans (h.input ch a)⟩
  · rw [hchan, h.chan, channelAt]
  · rw [hout, h.output, h.chan]
    rcases lt_trichotomy a k with hlt | rfl | hgt
    · rw [if_neg hlt.ne, if_pos hlt, if_pos (by omega)]
    · rw [if_pos rfl, if_pos (by omega), outputAt]
    · rw [if_neg hgt.ne', if_neg (by omega), if_neg (by omega)]

/-- The samples from `k` on. -/
theorem BlockAt.processFrom (h : BlockAt e xs s k t) (hin : InputWords s (k + n) xs) :
    ∃ u, processFrom e n k t = .ok u ∧ BlockAt e xs s (k + n) u := by
  induction n generalizing k t with
  | zero => exact ⟨t, rfl, h⟩
  | succ n ih =>
    obtain ⟨v, hv, hnext⟩ := h.step fun ch => hin ch k (by omega)
    obtain ⟨u, hu, hlast⟩ := ih hnext (by rwa [Nat.add_right_comm, Nat.add_assoc])
    rw [Nat.add_right_comm, Nat.add_assoc] at hlast
    exact ⟨u, by rw [Machine.processFrom, hv]; exact hu, hlast⟩

/-- A channel that the block's constants fit still fits them before every sample. -/
theorem MixReady.channelAt {c : Channel} (h : MixReady e c) (ch : Chan) (xs : Nat → Word) (k : Nat) :
    MixReady e (channelAt e ch xs c k) := by
  induction k with
  | zero => exact h
  | succ k ih => exact ih.sampleStep ..

theorem MixReady.sampleStep_channelAt {c : Channel} (h : MixReady e c) (ch : Chan) (xs : Nat → Word) (k : Nat) :
    SampleStep e (Machine.channelAt e ch xs c k) (e.params.s2f (xs k)) (Machine.channelAt e ch xs c (k + 1))
      (outputAt e ch xs c k) :=
  (h.channelAt ch xs k).sampleStep_spec ..

end

/-! ## Change detection before a block -/

/-- What change detection leaves of the registers (45_engine.md R244): where nothing changed, the invariant has it that
the registers already hold what it would set. -/
theorem State.Parts.sameRegisters_detect {s : State} (h : s.Parts) (he : s.estate ≠ .uninit) :
    SameRegisters
      { s with
        nC := s.params.nComb s.mode.toNat, nA := s.params.nAp s.mode.toNat, cacheT := s.clampT, cacheS := s.stereoEn,
        cacheM := s.mode, recomputeCount := s.detect.recomputeCount }
      s.detect := by
  have hconf := h.configured he
  rcases s.detect_cases with ⟨hc, heq⟩ | ⟨-, hm, heq⟩ | ⟨-, -, heq⟩ <;> rw [heq]
  · have hpending := mt (h.anyChanged_iff he).2 (Bool.eq_false_iff.1 hc)
    simp only [ChangePending, not_or, not_not] at hpending
    obtain ⟨hmode, hT, hS⟩ := hpending
    constructor <;> simp [hmode, hT, hS, hconf.nC, hconf.nA]
  · have hmode : s.mode = s.cacheM := not_not.1 (of_decide_eq_false hm)
    constructor <;> simp [hmode, hconf.nC, hconf.nA]
  · constructor <;> rfl

theorem SameRegisters.dryGain {s t : State} (h : SameRegisters s t) : t.dryGain = s.dryGain := by
  rw [State.dryGain, State.dryGain, h.params, h.dryDb]

theorem SameRegisters.wetGain {s t : State} (h : SameRegisters s t) : t.wetGain = s.wetGain := by
  rw [State.wetGain, State.wetGain, h.params, h.wetDb]

@[simp] theorem State.readBank_reload (s : State) (m : Nat) (b : BankId) (a : Nat) :
    (s.reload m).readBank b a = s.readBank b a := by cases b <;> rfl

@[simp] theorem State.readBank_recompute (s : State) (t : F32) (st : Bool) (m : Word) (b : BankId) (a : Nat) :
    (s.recompute t st m).readBank b a = s.readBank b a := by cases b <;> rfl

theorem State.readBank_detect (s : State) (b : BankId) (a : Nat) : s.detect.readBank b a = s.readBank b a := by
  rcases s.detect_cases with ⟨-, heq⟩ | ⟨-, -, heq⟩ | ⟨-, -, heq⟩ <;> simp [heq]

theorem State.Parts.mixReady {s : State} (h : s.Parts) (he : s.estate = .running) (ch : Chan) :
    MixReady s.mixEnv (s.chan ch) :=
  ⟨h.channelOk he ch, h.nC, h.nA⟩

/-! ## ENG.PROCESS (45_engine.md R249) -/

/-- What ENG.PROCESS `n` leaves of a block of the input words `xs`. -/
structure BlockRun (xs : Chan → Nat → Word) (n : Nat) (s t : State) : Prop where
  responses : t.responses = ⟨0, []⟩ :: s.responses
  registers : SameRegisters s.detect t
  block : BlockAt s.detect.mixEnv xs s.detect n t

/-- A block of written input words completes. -/
theorem exec_engProcess_run {xs : Chan → Nat → Word} {n : Nat} {s : State} (he : s.estate = .running)
    (hn : n ≤ s.params.blockMax) (hin : InputWords s n xs) :
    ∃ t, exec (.engProcess n) s = .next t ∧ BlockRun xs n s t := by
  have hinput : InputWords s.detect (0 + n) xs := fun ch k hk => by rw [State.readBank_detect, hin ch k (by omega)]
  obtain ⟨u, hu, hblock⟩ := (BlockAt.refl (e := s.detect.mixEnv) (xs := xs) (s := s.detect)).processFrom hinput
  rw [Nat.zero_add] at hblock
  obtain ⟨hregs, hresp, -⟩ := processFrom_frame hu
  refine ⟨u.bumpFree.answered [], ?_, ?_, hregs.trans ((SameRegisters.bumpFree u).trans (.answered ..)), ?_⟩
  · change checked s (firstError _) _ = _
    rw [processCheck_eq_none.2 ⟨he, hn⟩, checked_none, hu]
    rfl
  · exact congrArg _ (hresp.trans s.sameHostView_detect.responses)
  · refine ⟨fun ch => ?_, fun ch a => ?_, fun ch a => ?_⟩
    · rw [State.answered_chan, State.chan_bumpFree, hblock.chan]
    · rw [State.answered_readBank, State.readBank_bumpFree, hblock.output]
    · rw [State.answered_readBank, State.readBank_bumpFree, hblock.input]

theorem exec_engProcess_tooLong {n : Nat} {s : State} (he : s.estate = .running) (hn : s.params.blockMax < n) :
    exec (.engProcess n) s = .next (s.failed 0x0C) := by
  change checked s (firstError [require (decide (s.estate = .running)) _, require (decide (n ≤ _)) _]) _ = _
  rw [decide_eq_true he, decide_eq_false (not_le.2 hn)]
  rfl

/-- Settles O44: change detection sets the registers, and each sample writes one word of each output bank. -/
theorem processCompletes : Obligations.ProcessCompletes := by
  intro n s hinv he
  have h := State.inv_iff.1 hinv
  refine ⟨exec_engProcess_tooLong he, fun hn hwritten => ?_⟩
  have hin : InputWords s n s.inputWords := inputWords_of_written fun ch k hk => by
    cases ch
    · exact (hwritten k hk).1
    · exact (hwritten k hk).2
  obtain ⟨t, ht, hrun⟩ := exec_engProcess_run he hn hin
  have hinput (ch : Chan) (a : Nat) : t.readBank (inBank ch) a = s.readBank (inBank ch) a := by
    rw [hrun.block.input, State.readBank_detect]
  have houtput (ch : Chan) {a : Nat} (ha : n ≤ a) : t.readBank (outBank ch) a = s.readBank (outBank ch) a := by
    rw [hrun.block.output, if_neg (not_lt.2 ha), State.readBank_detect]
  have hwrote (ch : Chan) {a : Nat} (ha : a < n) : t.readBank (outBank ch) a ≠ none := by
    rw [hrun.block.output, if_pos ha]
    exact Option.some_ne_none _
  refine ⟨t, ht, hrun.responses, ?_, fun a => ⟨hinput .left a, hinput .right a⟩,
    fun a ha => ⟨houtput .left ha, houtput .right ha⟩, fun a ha => ⟨hwrote .left ha, hwrote .right ha⟩⟩
  rw [hrun.registers.recomputeCount]
  exact (h.sameRegisters_detect (by simp [he])).trans hrun.registers

/-- Settles O46: the channels before each sample are those of `channelAt`, and each sample is one sample step. -/
theorem processRunsSampleSteps : Obligations.ProcessRunsSampleSteps := by
  intro n s xl xr hinv he hn hwords
  have h := State.inv_iff.1 hinv
  have hregs := h.sameRegisters_detect (by simp [he])
  obtain ⟨hd, hde⟩ := h.detected he
  have hready (ch : Chan) : MixReady s.detect.mixEnv (s.detect.chan ch) := hd.mixReady hde ch
  have hin : InputWords s n (byChan xl xr) := by
    intro ch k hk
    cases ch
    · exact (hwords k hk).1
    · exact (hwords k hk).2
  obtain ⟨t, ht, hrun⟩ := exec_engProcess_run he hn hin
  have hout (ch : Chan) {k : Nat} (hk : k < n) := (hrun.block.output ch k).trans (if_pos hk)
  refine ⟨⟨?_, ?_, ?_, ?_, ?_, ?_, ?_⟩, t, channelAt s.detect.mixEnv .left xl s.detect.chL,
    channelAt s.detect.mixEnv .right xr s.detect.chR, outputAt s.detect.mixEnv .left xl s.detect.chL,
    outputAt s.detect.mixEnv .right xr s.detect.chR, ht, rfl, rfl, hrun.block.chan .left, hrun.block.chan .right,
    fun k hk => ⟨?_, ?_, ?_, ?_⟩⟩
  · exact congrArg (·.getLsbD 0) hregs.flags
  · exact congrArg (·.getLsbD 1) hregs.flags
  · exact congrArg (·.getLsbD 2) hregs.flags
  · exact hregs.dryGain
  · exact hregs.wetGain
  · exact congrArg BitVec.toNat hregs.nC
  · exact congrArg BitVec.toNat hregs.nA
  all_goals rw [← s.detect_params]
  · exact (hready .left).sampleStep_channelAt .left xl k
  · exact (hready .right).sampleStep_channelAt .right xr k
  · exact hout .left hk
  · exact hout .right hk

/-! ## The two channels (45_engine.md R257) -/

/-- Two states that agree on all that one channel of a block reads. -/
structure AgreeOn (ch : Chan) (s s' : State) : Prop where
  registers : SameRegisters s s'
  freeCtr : s'.freeCtr = s.freeCtr
  chan : s'.chan ch = s.chan ch
  input : ∀ a, s'.readBank (inBank ch) a = s.readBank (inBank ch) a
  output : ∀ a, s'.readBank (outBank ch) a = s.readBank (outBank ch) a

theorem AgreeOnLeft.agreeOn {s s' : State} (h : AgreeOnLeft s s') : AgreeOn .left s s' :=
  ⟨h.registers, h.freeCtr, h.chL, fun a => congrArg (findCell · a) h.inL, fun a => congrArg (findCell · a) h.outL⟩

theorem AgreeOnRight.agreeOn {s s' : State} (h : AgreeOnRight s s') : AgreeOn .right s s' :=
  ⟨h.registers, h.freeCtr, h.chR, fun a => congrArg (findCell · a) h.inR, fun a => congrArg (findCell · a) h.outR⟩

section
variable {ch : Chan} {s s' t t' : State} {n : Nat}

theorem SameRegisters.clampT (h : SameRegisters s t) : t.clampT = s.clampT := by
  rw [State.clampT, State.clampT, h.params, h.decayMs]

theorem SameRegisters.stereoEn (h : SameRegisters s t) : t.stereoEn = s.stereoEn := by
  rw [State.stereoEn, State.stereoEn, h.flags]

theorem SameRegisters.modeChanged (h : SameRegisters s t) : t.modeChanged = s.modeChanged := by
  rw [State.modeChanged, State.modeChanged, h.mode, h.cacheM]

theorem SameRegisters.anyChanged (h : SameRegisters s t) : t.anyChanged = s.anyChanged := by
  rw [State.anyChanged, State.anyChanged, h.modeChanged, h.clampT, h.stereoEn, h.cacheT, h.cacheS]

theorem AgreeOn.reload (h : AgreeOn ch s s') (m : Nat) : AgreeOn ch (s.reload m) (s'.reload m) where
  registers := by
    obtain ⟨⟩ := h.registers
    constructor <;> simp [*]
  freeCtr := h.freeCtr
  chan := by
    rw [State.chan_reload, State.chan_reload, h.chan, h.registers.params, h.registers.fs]
  input a := by rw [State.readBank_reload, State.readBank_reload, h.input]
  output a := by rw [State.readBank_reload, State.readBank_reload, h.output]

theorem AgreeOn.recompute (h : AgreeOn ch s s') (t : F32) (st : Bool) (m : Word) :
    AgreeOn ch (s.recompute t st m) (s'.recompute t st m) where
  registers := by
    obtain ⟨⟩ := h.registers
    constructor <;> simp [*]
  freeCtr := h.freeCtr
  chan := by
    rw [State.chan_recompute, State.chan_recompute, h.chan, h.registers.params, h.registers.fs, h.registers.nC,
      h.registers.nA]
  input a := by rw [State.readBank_recompute, State.readBank_recompute, h.input]
  output a := by rw [State.readBank_recompute, State.readBank_recompute, h.output]

/-- Change detection looks at the registers alone, and treats each channel by itself (45_engine.md R244). -/
theorem AgreeOn.detect (h : AgreeOn ch s s') : AgreeOn ch s.detect s'.detect := by
  have hregs := h.registers
  rw [State.detect, State.detect, hregs.anyChanged, hregs.modeChanged, hregs.clampT, hregs.stereoEn, hregs.mode]
  have hloaded : AgreeOn ch (if s.modeChanged then s.reload s.mode.toNat else s)
      (if s.modeChanged then s'.reload s.mode.toNat else s') := by
    split
    · exact h.reload _
    · exact h
  split
  · exact hloaded.recompute ..
  · exact hloaded

theorem AgreeOn.mixEnv (h : AgreeOn ch s s') : s'.mixEnv = s.mixEnv := by
  have hregs := h.registers
  rw [State.mixEnv, State.mixEnv, hregs.dryGain, hregs.wetGain, State.combsEn, State.apsEn, State.bpEn, hregs.params,
    hregs.flags, hregs.nC, hregs.nA, h.freeCtr]
  rfl

/-- A block that does not fault has read no unwritten word. -/
theorem inputFault_of_processFrom {e : MixEnv} {k j : Nat} (h : processFrom e n k s = .ok t) (hlo : k ≤ j)
    (hhi : j < k + n) : s.inputFault j = none := by
  induction n generalizing k s with
  | zero => omega
  | succ n ih =>
    rcases processSample_input e k s with ⟨f, -, heq⟩ | ⟨u, hfault, heq, hsame⟩ <;> rw [processFrom, heq] at h
    · cases h
    · rcases hlo.eq_or_lt with rfl | hlt
      · exact hfault
      · exact hsame ▸ ih h hlt (by omega)

theorem inputFault_of_engProcess {j : Nat} (ht : exec (.engProcess n) s = .next t)
    (hc : s.estate = .running ∧ n ≤ s.params.blockMax) (hj : j < n) : s.inputFault j = none := by
  cases hblock : processFrom s.detect.mixEnv n 0 s.detect with
  | error f => exact absurd ((exec_engProcess_fault hc.1 hc.2 hblock).symm.trans ht) nofun
  | ok v =>
    rw [← State.inputFault_detect]
    exact inputFault_of_processFrom hblock (Nat.zero_le j) (by omega)

/-- All that ENG.PROCESS can do where it answers a next state: its own checks fail, or it runs a block of written input
words. -/
theorem engProcess_next_cases (ht : exec (.engProcess n) s = .next t) :
    (¬(s.estate = .running ∧ n ≤ s.params.blockMax) ∧ ∃ e : ErrorCode, t = s.failed e.value) ∨
      (s.estate = .running ∧ n ≤ s.params.blockMax) ∧ BlockRun s.inputWords n s t := by
  by_cases hc : s.estate = .running ∧ n ≤ s.params.blockMax
  · have hin : InputWords s n s.inputWords := inputWords_of_written fun ch k hk => by
      have hfault := inputFault_of_engProcess ht hc hk
      rw [State.inputFault_eq_none] at hfault
      cases ch
      · exact hfault.1
      · exact hfault.2
    obtain ⟨u, hu, hrun⟩ := exec_engProcess_run hc.1 hc.2 hin
    obtain rfl : u = t := Host.Outcome.next.inj (hu.symm.trans ht)
    exact .inr ⟨hc, hrun⟩
  · change checked s (firstError _) _ = _ at ht
    obtain ⟨e, he⟩ := Option.ne_none_iff_exists'.1 (mt processCheck_eq_none.1 hc)
    rw [he, checked_some, failWith_eq, Host.Outcome.next.injEq] at ht
    exact .inl ⟨hc, e, ht.symm⟩

theorem AgreeOn.inputWords (h : AgreeOn ch s s') : s'.inputWords ch = s.inputWords ch := by
  funext k
  rw [State.inputWords, State.inputWords, h.input]

/-- A block that both states run: the channel goes through it on the same words with the same constants. -/
theorem AgreeOn.blockRun (h : AgreeOn ch s s') (ht : BlockRun s.inputWords n s t)
    (ht' : BlockRun s'.inputWords n s' t') :
    t'.chan ch = t.chan ch ∧ ∀ a, t'.readBank (outBank ch) a = t.readBank (outBank ch) a := by
  have hd := h.detect
  refine ⟨?_, fun a => ?_⟩
  · rw [ht'.block.chan, ht.block.chan, hd.mixEnv, hd.chan, h.inputWords]
  · rw [ht'.block.output, ht.block.output, hd.mixEnv, hd.chan, h.inputWords, hd.output]

/-- The two states also agree on whether the block is accepted. -/
theorem AgreeOn.engProcess (h : AgreeOn ch s s') (ht : exec (.engProcess n) s = .next t)
    (ht' : exec (.engProcess n) s' = .next t') :
    t'.chan ch = t.chan ch ∧ ∀ a, t'.readBank (outBank ch) a = t.readBank (outBank ch) a := by
  have haccepted : (s'.estate = .running ∧ n ≤ s'.params.blockMax) ↔ s.estate = .running ∧ n ≤ s.params.blockMax := by
    rw [h.registers.estate, h.registers.params]
  rcases engProcess_next_cases ht with ⟨hc, e, rfl⟩ | ⟨hc, hrun⟩ <;>
    rcases engProcess_next_cases ht' with ⟨hc', e', rfl⟩ | ⟨hc', hrun'⟩
  · rw [← State.raise_eq_failed, ← State.raise_eq_failed, State.chan_raise, State.chan_raise]
    exact ⟨h.chan, fun a => by rw [State.readBank_raise, State.readBank_raise, h.output]⟩
  · exact absurd (haccepted.1 hc') hc
  · exact absurd (haccepted.2 hc) hc'
  · exact h.blockRun hrun hrun'

end

/-- Settles O50: each premise is agreement on one channel, which is all that the channel reads. -/
theorem channelsAreIndependent : Obligations.ChannelsAreIndependent :=
  fun _ _ _ _ _ ht ht' => ⟨fun h => h.agreeOn.engProcess ht ht', fun h => h.agreeOn.engProcess ht ht'⟩

end Sys2Proof.Machine
end

section
/-! SUPPORT. Silence in, silence out (45_engine.md R259): a channel that holds only zeros, of either sign, and multiplies only by
finite gains stays so, and the dry path gives the output its sign: O51. -/

namespace Sys2Proof

/-! ## Zeros with a sign -/

/-- +0.0 times a finite value with a clear sign is +0.0. -/
theorem F32.zero_mul_of_sign (site : Site) {b : F32} (hfin : b.isFinite = true) (hsign : b.sign = false) :
    F32.mul site 0 b = 0 := by
  rw [F32.mul_of_isFinite site rfl hfin, hsign, show F32.units 0 = 0 by decide, Nat.zero_mul]
  decide

theorem F32.isZero_mul_of_left (site : Site) {a b : F32} (ha : a.isZero = true) (hb : b.isFinite = true) :
    (F32.mul site a b).isZero = true := by
  rw [F32.mul_of_isFinite site (F32.isFinite_of_isZero ha) hb, F32.units_eq_zero_of_mag (F32.isZero_iff.1 ha), zero_mul,
    show roundMag 0 149 = 0 by decide]
  exact F32.isZero_ofMag_zero _

/-- +0.0 plus a zero of either sign is +0.0. -/
theorem F32.zero_add_of_isZero (site : Site) {b : F32} (hb : b.isZero = true) : F32.add site 0 b = 0 := by
  have hfin := F32.isFinite_of_isZero hb
  simp only [F32.add, F32.isNaN_eq_false_of_isFinite hfin, F32.isInf_eq_false_of_isFinite hfin,
    F32.unitsZ_of_isZero hb]
  rfl

namespace Machine

/-! ## Silent sample words -/

theorem Params.s2f_zero (p : Params) : p.s2f 0 = 0 := by
  cases hnum : p.numeric with
  | float => simp only [Params.s2f, hnum]
  | fixed w frac =>
    simp only [Params.s2f, hnum]
    rw [fixedToF32, show (0 : Word).toInt = 0 by decide, Int.natAbs_zero, Nat.zero_mul]
    decide

theorem f32ToFixed_of_isZero (width frac : Nat) {v : F32} (h : v.isZero = true) : f32ToFixed width frac v = 0 := by
  have hfin := F32.isFinite_of_isZero h
  have hrange : min (max (0 : ℤ) (-2 ^ (width - 1))) (2 ^ (width - 1) - 1) = 0 := by
    have hpos : (0 : ℤ) < 2 ^ (width - 1) := by positivity
    omega
  rw [f32ToFixed, if_neg (by simp [F32.isNaN_eq_false_of_isFinite hfin]),
    if_neg (by simp [F32.isInf_eq_false_of_isFinite hfin]), F32.units_eq_zero_of_mag (F32.isZero_iff.1 h), Nat.zero_mul,
    show roundHalfEven 0 149 = 0 by decide]
  simp only [Nat.cast_zero, neg_zero, ite_self, hrange]
  rfl

/-- A sample word that stands for a zero of either sign. -/
def Params.SilentWord (p : Params) (w : Word) : Prop := (p.s2f w).isZero = true

theorem Params.silentWord_zero (p : Params) : p.SilentWord 0 := p.isZero_s2f_zero

/-- F2S of a zero is silent: in FLOAT the zero itself, in FIXED the word 0 (10_state.md R25). -/
theorem Params.silentWord_f2s (p : Params) {v : F32} (h : v.isZero = true) : p.SilentWord (p.f2s v) := by
  cases hnum : p.numeric with
  | float => simpa only [Params.SilentWord, Params.f2s, Params.s2f, hnum] using h
  | fixed w frac =>
    have hword : p.f2s v = 0 := by simp only [Params.f2s, hnum, f32ToFixed_of_isZero w frac h]
    rw [hword]
    exact p.silentWord_zero

theorem Params.f2s_zero (p : Params) : p.f2s 0 = 0 := by
  cases hnum : p.numeric with
  | float => simp only [Params.f2s, hnum]
  | fixed w frac =>
    simp only [Params.f2s, hnum]
    exact f32ToFixed_of_isZero w frac (by decide)

/-! ## Silent instances -/

/-- Every slot of the ring holds a silent word. -/
def Ring.Silent (p : Params) (r : Ring) : Prop := ∀ a, p.SilentWord (r.stor.read a)

theorem Ring.Silent.push {p : Params} {r : Ring} (h : r.Silent p) {w : Word} (hw : p.SilentWord w) :
    (r.push w).1.Silent p := by
  intro a
  rw [Ring.push_fst_stor, RingStore.read_write]
  split
  · exact hw
  · exact h a

theorem Ring.silent_clear (p : Params) (r : Ring) : r.clear.Silent p := fun _ => p.silentWord_zero

/-- A comb that holds only zeros, with a finite gain. -/
structure Comb.Silent (p : Params) (c : Comb) : Prop where
  gain : c.g.isFinite = true
  damp : c.damp.Silent
  last : p.SilentWord c.last
  ring : c.ring.Silent p

/-- An allpass that holds only zeros, with finite gains. -/
structure Allpass.Silent (p : Params) (a : Allpass) : Prop where
  gain : a.g.isFinite = true
  product : ∀ site, (F32.mul site a.gin a.g).isFinite = true
  last : p.SilentWord a.last
  ring : a.ring.Silent p

section
variable {p : Params} (site : Site) {x : F32}

/-- A silent comb answers a zero with a silent word, and stays silent (42_comb.md R171). -/
theorem Comb.Silent.step {c : Comb} (h : c.Silent p) (hx : x.isZero = true) :
    (c.step p site x).1.Silent p ∧ p.SilentWord (c.step p site x).2 := by
  have hback : (F32.mul (1 :: site) c.g (p.s2f c.last)).isZero = true := F32.isZero_mul _ h.gain h.last
  have hpushed : p.SilentWord (c.pushed p site x) :=
    p.silentWord_f2s (F32.isZero_ftz (F32.isZero_add _ (F32.isZero_mul _ h.gain hx) (h.damp.isZero_process _ hback)))
  rw [Comb.step_eq]
  exact ⟨⟨h.gain, h.damp.process _ hback, h.ring _, h.ring.push hpushed⟩, h.ring _⟩

/-- A silent allpass answers a zero with a silent word, and stays silent (43_allpass.md R191). -/
theorem Allpass.Silent.step {a : Allpass} (h : a.Silent p) (hx : x.isZero = true) :
    (a.step p site x).1.Silent p ∧ p.SilentWord (a.step p site x).2 := by
  have hpushed := p.silentWord_f2s (F32.isZero_ftz (F32.isZero_add (3 :: site)
    (F32.isZero_mul (1 :: site) (h.product (0 :: site)) hx) (F32.isZero_mul (2 :: site) h.gain h.last)))
  exact ⟨⟨h.gain, h.product, h.ring _, h.ring.push hpushed⟩, h.ring _⟩

end

/-! ## The stages of a sample -/

/-- A channel whose instances are all silent. -/
structure Channel.Silent (p : Params) (c : Channel) : Prop where
  combs : ∀ x ∈ c.combs, x.Silent p
  aps : ∀ a ∈ c.aps, a.Silent p
  lp : c.lp.Silent
  hp : c.hp.Silent

section
variable {e : MixEnv} (site : Site) {x : F32}

theorem silent_combStage {cs : List Comb} (h : ∀ c ∈ cs, c.Silent e.params) (hx : x.isZero = true) (i : Nat) {acc : F32}
    (hacc : acc.isZero = true) :
    (∀ c ∈ (combStage e site x i cs acc).1, c.Silent e.params) ∧ (combStage e site x i cs acc).2.isZero = true := by
  induction cs generalizing i acc with
  | nil => exact ⟨nofun, hacc⟩
  | cons c cs ih =>
    obtain ⟨hc, hcs⟩ := List.forall_mem_cons.1 h
    rw [combStage]
    split
    · obtain ⟨hstep, hout⟩ := hc.step (0 :: i :: site) hx
      obtain ⟨hrest, hsum⟩ := ih hcs (i + 1) (F32.isZero_add (1 :: i :: site) hacc hout)
      exact ⟨List.forall_mem_cons.2 ⟨hstep, hrest⟩, hsum⟩
    · exact ⟨h, hacc⟩

theorem silent_apStage {as : List Allpass} (h : ∀ a ∈ as, a.Silent e.params) (j : Nat) (hx : x.isZero = true) :
    (∀ a ∈ (apStage e site j as x).1, a.Silent e.params) ∧ (apStage e site j as x).2.isZero = true := by
  induction as generalizing j x with
  | nil => exact ⟨nofun, hx⟩
  | cons a as ih =>
    obtain ⟨ha, has⟩ := List.forall_mem_cons.1 h
    rw [apStage]
    split
    · obtain ⟨hstep, hout⟩ := ha.step (j :: site) hx
      obtain ⟨hrest, hlast⟩ := ih has (j + 1) hout
      exact ⟨List.forall_mem_cons.2 ⟨hstep, hrest⟩, hlast⟩
    · exact ⟨h, hx⟩

variable {c : Channel} (h : c.Silent e.params)
include h

theorem Channel.Silent.combsOrBypass (hx : x.isZero = true) :
    (∀ d ∈ (combsOrBypass e site c x).1, d.Silent e.params) ∧ (combsOrBypass e site c x).2.isZero = true := by
  rw [Machine.combsOrBypass]
  split
  · exact silent_combStage _ h.combs hx 0 hx
  · exact ⟨h.combs, hx⟩

theorem Channel.Silent.apsOrBypass (hx : x.isZero = true) :
    (∀ a ∈ (apsOrBypass e site c x).1, a.Silent e.params) ∧ (apsOrBypass e site c x).2.isZero = true := by
  rw [Machine.apsOrBypass]
  split
  · exact silent_apStage _ h.aps 0 hx
  · exact ⟨h.aps, hx⟩

theorem Channel.Silent.bandOrBypass (hx : x.isZero = true) :
    (bandOrBypass e site c x).1.Silent e.params ∧ (bandOrBypass e site c x).2.isZero = true := by
  rw [Machine.bandOrBypass]
  split
  · have hlow := h.lp.isZero_process (0 :: 2 :: site) hx
    exact ⟨⟨h.combs, h.aps, h.lp.process _ hx, h.hp.process _ hlow⟩, h.hp.isZero_process _ hlow⟩
  · exact ⟨h, hx⟩

/-- A silent channel answers +0.0 with +0.0: the wet part is a zero, and the dry part is +0.0. -/
theorem Channel.Silent.sampleStep (hdry : e.dry.isFinite = true) (hsign : e.dry.sign = false)
    (hwet : e.wet.isFinite = true) :
    (sampleStep e site c 0).1.Silent e.params ∧ (sampleStep e site c 0).2 = 0 := by
  obtain ⟨hcombs, hsum⟩ := h.combsOrBypass site (x := 0) rfl
  obtain ⟨haps, hchain⟩ := h.apsOrBypass site hsum
  have hlines : (c.linesRun e site 0).Silent e.params := ⟨hcombs, haps, h.lp, h.hp⟩
  obtain ⟨hband, hout⟩ := hlines.bandOrBypass site hchain
  rw [sampleStep_eq, F32.zero_mul_of_sign _ hdry hsign]
  exact ⟨hband, F32.zero_add_of_isZero _ (F32.isZero_mul_of_left _ hout hwet)⟩

/-- A silent channel stays silent through a block of words 0, and answers each with +0.0. -/
theorem Channel.Silent.block (hdry : e.dry.isFinite = true) (hsign : e.dry.sign = false) (hwet : e.wet.isFinite = true)
    (ch : Chan) (k : Nat) :
    (channelAt e ch (fun _ => 0) c k).Silent e.params ∧ outputAt e ch (fun _ => 0) c k = 0 := by
  have hstep {d : Channel} (hd : d.Silent e.params) (k : Nat) :=
    hd.sampleStep [k, chanTag ch, e.ctr] hdry hsign hwet
  have hsilent : (channelAt e ch (fun _ => 0) c k).Silent e.params := by
    induction k with
    | zero => exact h
    | succ k ih =>
      rw [channelAt, Params.s2f_zero]
      exact (hstep ih k).1
  refine ⟨hsilent, ?_⟩
  rw [outputAt, Params.s2f_zero]
  exact (hstep hsilent k).2

end

/-! ## After ENG.ACTIVATE -/

theorem Biquad.silent_resetHistory {q : Biquad} (h : q.finiteCoefs = true) : q.resetHistory.Silent :=
  ⟨h, rfl, rfl, rfl, rfl⟩

/-- A channel that ENG.ACTIVATE has silenced, with finite gains (45_engine.md R248). -/
theorem Channel.silent_silence {c : Channel} (h : c.finiteGains) (p : Params) : c.silence.Silent p := by
  obtain ⟨hcombs, haps, hlp, hhp⟩ := h
  refine ⟨fun x hx => ?_, fun a ha => ?_, Biquad.silent_resetHistory hlp, Biquad.silent_resetHistory hhp⟩
  · obtain ⟨y, hy, rfl⟩ := List.mem_map.1 hx
    obtain ⟨hgain, hcoefs⟩ := hcombs y hy
    exact ⟨hgain, Biquad.silent_resetHistory hcoefs, p.silentWord_zero, Ring.silent_clear p y.ring⟩
  · obtain ⟨b, hb, rfl⟩ := List.mem_map.1 ha
    obtain ⟨hgain, hproduct⟩ := haps b hb
    exact ⟨hgain, hproduct, p.silentWord_zero, Ring.silent_clear p b.ring⟩

/-- Settles O51: ENG.ACTIVATE silences both channels and leaves no change pending, so the block runs on silent channels with
the same gains. -/
theorem silenceInSilenceOut : Obligations.SilenceInSilenceOut := by
  intro n s hinv he hpending hL hR hdry hdrySign hwet _ hn hwords
  have ht := exec_engActivate he
  have hparts := (State.inv_iff.1 hinv).exec ht
  have hpending' : ¬ChangePending (s.activated.answered []) := hpending
  have hdetect : (s.activated.answered []).detect = s.activated.answered [] :=
    State.detect_of_unchanged (Bool.eq_false_iff.2 (mt (hparts.anyChanged_iff nofun).1 hpending'))
  have hin : InputWords (s.activated.answered []) n fun _ _ => 0 := by
    intro ch k hk
    rw [State.answered_readBank, State.readBank_activated]
    cases ch
    · exact (hwords k hk).1
    · exact (hwords k hk).2
  obtain ⟨u, hu, hrun⟩ := exec_engProcess_run (s := s.activated.answered []) rfl hn hin
  have hblock := hrun.block
  rw [hdetect] at hblock
  have hsilent (ch : Chan) : ((s.activated.answered []).chan ch).Silent s.params := by
    rw [State.answered_chan, State.chan_activated]
    cases ch
    · exact Channel.silent_silence hL _
    · exact Channel.silent_silence hR _
  have hout (ch : Chan) {k : Nat} (hk : k < n) : u.readBank (outBank ch) k = some 0 := by
    rw [hblock.output, if_pos hk, (Channel.Silent.block (hsilent ch) hdry hdrySign hwet ch k).2, Params.f2s_zero]
  exact ⟨_, u, ht, hu, fun k hk => ⟨hout .left hk, hout .right hk⟩⟩

end Machine

end Sys2Proof
end

section
/-! SUPPORT. The MEM commands (46_sample_memory.md R280 to R282; 20_memory.md R67, R68): O52, O53. -/

namespace Sys2Proof.Machine

/-! ## The spaces -/

/-- The IDX of a bank (30_encoding.md R98). -/
theorem Space.ofIdx_bank {r : Nat × BankId}
    (h : r ∈ [(0, BankId.inL), (1, BankId.inR), (2, BankId.outL), (3, BankId.outR)]) :
    Space.ofIdx r.1 = some (.bank r.2) := by
  revert r
  decide

theorem Space.ofIdx_rom : Space.ofIdx 4 = some .rom := rfl

/-- An IDX above 4 names no space (30_encoding.md R98). -/
theorem Space.ofIdx_none {space : Nat} (h : 4 < space) : Space.ofIdx space = none := by
  match space, h with
  | _ + 5, _ => rfl

/-- The ROM of a well-formed record fills its space (00_scope.md R11). -/
theorem Params.spaceSize_rom {p : Params} (h : p.wf = true) : p.spaceSize .rom = p.rom.length := by
  simp only [Params.wf, Bool.and_eq_true, decide_eq_true_eq] at h
  obtain ⟨⟨⟨-, hlength⟩, -⟩, -⟩ := h
  exact hlength.symm

theorem Params.romRead_of_lt {p : Params} {a : Nat} (h : a < p.rom.length) : p.romRead a = p.rom[a] :=
  List.getD_eq_getElem _ _ h

/-! ## The checks (46_sample_memory.md R282) -/

section
variable {s : State} {space a : Nat} {sp : Space} {body : Space → Result}

theorem memCommand_inRange (hsp : Space.ofIdx space = some sp) (ha : a < s.params.spaceSize sp) :
    memCommand s space a body = body sp := by
  rw [memCommand_bank hsp, if_pos ha]

theorem memCommand_outOfRange (hsp : Space.ofIdx space = some sp) (ha : s.params.spaceSize sp ≤ a) :
    memCommand s space a body = .next (s.failed 0x03) := by
  rw [memCommand_bank hsp, if_neg (not_lt.2 ha)]
  rfl

theorem memCommand_noSpace (h : 4 < space) : memCommand s space a body = .next (s.failed 0x03) :=
  memCommand_none (Space.ofIdx_none h)

end

/-! ## The commands past their checks -/

theorem exec_memRd (space a : Nat) (s : State) : exec (.memRd space a) s = memCommand s space a (readSpace s a) := rfl

theorem exec_memWr (space a : Nat) (w : Word) (s : State) :
    exec (.memWr space a w) s = memCommand s space a (writeSpace s a w) := rfl

section
variable {s : State} {space a : Nat} {b : BankId}

/-- MEM.RD of a written bank word (46_sample_memory.md R280). -/
theorem exec_memRd_written {w : Word} (hsp : Space.ofIdx space = some (.bank b)) (ha : a < s.params.blockMax)
    (hw : s.readBank b a = some w) : exec (.memRd space a) s = .next (s.answered [w]) := by
  rw [exec_memRd, memCommand_inRange hsp ha, readSpace, hw]
  rfl

/-- MEM.RD of a bank word that nothing has written (20_memory.md R67). -/
theorem exec_memRd_unwritten (hsp : Space.ofIdx space = some (.bank b)) (ha : a < s.params.blockMax)
    (hw : s.readBank b a = none) : exec (.memRd space a) s = .fault (.unwrittenSample b a) := by
  rw [exec_memRd, memCommand_inRange hsp ha, readSpace, hw]

/-- MEM.WR to a bank (46_sample_memory.md R281). -/
theorem exec_memWr_bank (w : Word) (hsp : Space.ofIdx space = some (.bank b)) (ha : a < s.params.blockMax) :
    exec (.memWr space a w) s = .next ((s.writeBank b a w).answered []) := by
  rw [exec_memWr, memCommand_inRange hsp ha, writeSpace, succeed_eq]

end

/-! ## The frame of a bank write -/

theorem SameRegisters.writeBank (s : State) (b : BankId) (a : Nat) (w : Word) : SameRegisters s (s.writeBank b a w) := by
  constructor <;> simp

/-! ## The obligations -/

/-- Settles O52: each space and address passes its checks or fails one, and past the checks the word is there or is not. -/
theorem memReads : Obligations.MemReads := by
  intro a s hinv
  have hrom := Params.spaceSize_rom (State.inv_iff.1 hinv).wf
  refine ⟨fun r hr => ?_, fun ha => ?_, fun ha => ?_, fun space hspace => memCommand_noSpace hspace⟩
  · have hsp := Space.ofIdx_bank hr
    exact ⟨memCommand_outOfRange hsp,
      fun ha => ⟨fun w hw => exec_memRd_written hsp ha hw, fun hw => exec_memRd_unwritten hsp ha hw⟩⟩
  · rw [exec_memRd, memCommand_inRange Space.ofIdx_rom (hrom ▸ ha), readSpace, succeed_eq, Params.romRead_of_lt ha]
  · exact memCommand_outOfRange Space.ofIdx_rom (hrom ▸ ha)

/-- Settles O53: a bank write that passes the checks replaces one word, and MEM.RD in the state it leaves finds it. -/
theorem memWrites : Obligations.MemWrites := by
  intro a w s hinv
  have hrom := Params.spaceSize_rom (State.inv_iff.1 hinv).wf
  refine ⟨fun r hr => ?_, fun ha => ?_, fun ha => ?_, fun space hspace => memCommand_noSpace hspace⟩
  · have hsp := Space.ofIdx_bank hr
    refine ⟨memCommand_outOfRange hsp, fun ha => ?_⟩
    have hword (b : BankId) (a' : Nat) : ((s.writeBank r.2 a w).answered []).readBank b a' =
        if b = r.2 ∧ a' = a then some w else s.readBank b a' := by
      rw [State.answered_readBank, State.readBank_writeBank]
    have hregs : SameRegisters s ((s.writeBank r.2 a w).answered []) := (SameRegisters.writeBank ..).trans (.answered ..)
    have hread : exec (.memRd r.1 a) ((s.writeBank r.2 a w).answered []) = .next (.answered _ [w]) :=
      exec_memRd_written hsp (hregs.params ▸ ha) ((hword r.2 a).trans (if_pos ⟨rfl, rfl⟩))
    exact ⟨_, exec_memWr_bank w hsp ha, by rw [State.answered_responses, State.writeBank_responses], hread, hword, hregs,
      State.writeBank_chL .., State.writeBank_chR ..⟩
  · rw [exec_memWr, memCommand_inRange Space.ofIdx_rom (hrom ▸ ha), writeSpace, failWith_eq]
    rfl
  · exact memCommand_outOfRange Space.ofIdx_rom (hrom ▸ ha)

end Sys2Proof.Machine
end

section
/-! SUPPORT. The sticky error code (60_exceptions.md R301, R303): a failing command may set it, and only ENG.CSRW
ERRCLR writes it otherwise: O8. -/

namespace Sys2Proof.Machine

/-! ## What keeps the error code -/

/-- The error code is the one before. -/
def KeepsErrCode (s u : State) : Prop := u.errCode = s.errCode

theorem KeepsErrCode.refl (s : State) : KeepsErrCode s s := rfl

theorem KeepsErrCode.bumpFree {s u : State} (h : KeepsErrCode s u) : KeepsErrCode s u.bumpFree := h

theorem KeepsErrCode.detect (s : State) : KeepsErrCode s s.detect := by
  rcases s.detect_cases with ⟨-, heq⟩ | ⟨-, -, heq⟩ | ⟨-, -, heq⟩ <;> rw [heq] <;> rfl

/-- A CSR write other than to ERRCLR keeps the error code (45_engine.md R252). -/
theorem csrWrite_keepsErrCode (s : State) (v : Word) {c : Csr} (h : c ≠ .errclr) :
    EndsIn s (KeepsErrCode s) (csrWrite s v c) := by
  cases c with
  | errclr => exact absurd rfl h
  | decayMs | dryDb | wetDb | flags => exact endsIn_succeed rfl
  | mode =>
    rw [csrWrite]
    split
    · exact endsIn_succeed rfl
    · exact endsIn_failWith _
  | _ => exact endsIn_failWith _

theorem engCsrr_keepsErrCode (s : State) (a : Nat) : EndsIn s (KeepsErrCode s) (execEngCsrr a s) := by
  rw [execEngCsrr]
  split
  · exact endsIn_failWith _
  · exact endsIn_succeed (.refl s)

theorem engCsrw_keepsErrCode (s : State) {a : Nat} (v : Word) (h : a ≠ 0x0001) :
    EndsIn s (KeepsErrCode s) (execEngCsrw a v s) := by
  rw [execEngCsrw]
  split
  · exact endsIn_failWith _
  · next c hc =>
    refine csrWrite_keepsErrCode s v fun herrclr => h ?_
    rw [Csr.addr_of_ofAddr hc, herrclr, Csr.addr]

theorem readSpace_keepsErrCode (s : State) (a : Nat) (sp : Space) : EndsIn s (KeepsErrCode s) (readSpace s a sp) := by
  cases sp with
  | rom => exact endsIn_succeed (.refl s)
  | bank b =>
    rw [readSpace]
    split
    · exact endsIn_succeed (.refl s)
    · exact endsIn_fault _

theorem writeSpace_keepsErrCode (s : State) (a : Nat) (w : Word) (sp : Space) :
    EndsIn s (KeepsErrCode s) (writeSpace s a w sp) := by
  cases sp with
  | rom => exact endsIn_failWith _
  | bank b => exact endsIn_succeed (State.writeBank_errCode ..)

theorem engProcess_keepsErrCode (s : State) (n : Nat) : EndsIn s (KeepsErrCode s) (execEngProcess n s) := by
  refine endsIn_checked fun _ => ?_
  split
  · exact endsIn_fault _
  · next v hv =>
    have hblock : KeepsErrCode s.detect v := (processFrom_frame hv).1.errCode
    exact endsIn_succeed (.bumpFree (hblock.trans (KeepsErrCode.detect s)))

/-- Every command but ENG.CSRW ERRCLR keeps the error code where it succeeds (60_exceptions.md R303). -/
theorem exec_keepsErrCode {i : Instr} (s : State) (h : ∀ v, i ≠ .engCsrw 0x0001 v) :
    EndsIn s (KeepsErrCode s) (exec i s) := by
  cases i with
  | rbRead | rbStat | bqRdcoef | bqRdhist | cfRdstate | apRdstate =>
    exact endsIn_unitCommand fun _ _ => endsIn_succeed (.refl s)
  | rbPush | rbWrite | rbClear => exact endsIn_unitCommand fun _ _ => endsIn_succeed (State.setRing_errCode ..)
  | rbSetlen =>
    exact endsIn_unitCommand fun _ _ => endsIn_checked fun _ => endsIn_succeed (State.setRing_errCode ..)
  | bqReset | bqLdcoef => exact endsIn_unitCommand fun _ _ => endsIn_succeed (State.setFilter_errCode ..)
  | bqSetlp | bqSethp | bqSetpk =>
    exact endsIn_unitCommand fun _ _ => endsIn_checked fun _ => endsIn_succeed (State.setFilter_errCode ..)
  | bqProc => exact endsIn_unitCommand fun _ _ => endsIn_succeed (.bumpFree (State.setFilter_errCode ..))
  | cfSetg => exact endsIn_unitCommand fun _ _ => endsIn_succeed (State.setComb_errCode ..)
  | cfCfg => exact endsIn_unitCommand fun _ _ => endsIn_checked fun _ => endsIn_succeed (State.setComb_errCode ..)
  | cfProc => exact endsIn_unitCommand fun _ _ => endsIn_succeed (.bumpFree (State.setComb_errCode ..))
  | apSetg => exact endsIn_unitCommand fun _ _ => endsIn_succeed (State.setAp_errCode ..)
  | apCfg => exact endsIn_unitCommand fun _ _ => endsIn_checked fun _ => endsIn_succeed (State.setAp_errCode ..)
  | apProc => exact endsIn_unitCommand fun _ _ => endsIn_succeed (.bumpFree (State.setAp_errCode ..))
  | engConfig | engActivate => exact endsIn_checked fun _ => endsIn_succeed rfl
  | engProcess n => exact engProcess_keepsErrCode s n
  | engCleanup => exact endsIn_succeed rfl
  | engCsrr a => exact engCsrr_keepsErrCode s a
  | engCsrw a v => exact engCsrw_keepsErrCode s v fun ha => h v (congrArg (Instr.engCsrw · v) ha)
  | memRd => exact endsIn_memCommand fun sp _ => readSpace_keepsErrCode s _ sp
  | memWr => exact endsIn_memCommand fun sp _ => writeSpace_keepsErrCode s _ _ sp

/-! ## The two ways a step ends -/

/-- A command fails and leaves only its code, or answers OK and keeps or clears the error code. -/
theorem exec_failed_or_answered {i : Instr} {s t : State} (ht : exec i s = .next t) :
    (∃ e : ErrorCode, t = s.failed e.value) ∨
      (∃ d, t.responses = okResponse d :: s.responses) ∧
        (t.errCode = s.errCode ∨ t.errCode = 0 ∧ ∃ v, i = .engCsrw 0x0001 v) := by
  by_cases hclear : ∃ v, i = .engCsrw 0x0001 v
  · obtain ⟨v, rfl⟩ := hclear
    cases (exec_engCsrw s v .errclr).symm.trans ht
    exact .inr ⟨⟨[], rfl⟩, .inr ⟨rfl, v, rfl⟩⟩
  · rcases exec_endsIn i s t ht with hfail | ⟨u, d, hu, rfl⟩
    · exact .inl hfail
    · have hresp : (u.answered d).responses = okResponse d :: s.responses :=
        congrArg _ (Effect.sameHostView hu).responses
      rcases exec_keepsErrCode s (not_exists.1 hclear) _ ht with hfail | ⟨u', d', hu', heq⟩
      · exact .inl hfail
      · exact .inr ⟨⟨d, hresp⟩, .inl ((congrArg State.errCode heq).trans hu')⟩

/-- A step that takes a transaction ends as its command does, or with ILLEGAL_CMD (30_encoding.md R103). -/
theorem step_failed_or_answered {s t : State} {tr : Transaction} {rest : List Transaction} (hlink : s.link = tr :: rest)
    (ht : step s = .next t) :
    (∃ e : ErrorCode, t = (s.setLink rest).failed e.value) ∨
      (∃ d, t.responses = okResponse d :: s.responses) ∧
        (t.errCode = s.errCode ∨ t.errCode = 0 ∧ ∃ v, decode tr = .ok (.engCsrw 0x0001 v)) := by
  rw [step, hlink] at ht
  cases hcmd : commandOf tr with
  | error e =>
    simp only [hcmd, failWith_eq, Host.Outcome.next.injEq] at ht
    exact .inl ⟨e, ht.symm⟩
  | ok i =>
    simp only [hcmd] at ht
    rw [decode_of_commandOf hcmd]
    rcases exec_failed_or_answered ht with hfail | ⟨hresp, hcode⟩
    · exact .inl hfail
    · exact .inr ⟨hresp, hcode.imp_right fun ⟨hzero, v, hi⟩ => ⟨hzero, v, congrArg _ hi⟩⟩

/-- Settles O8: a step fails and changes nothing but the error code, or answers OK. -/
theorem failingCommandChangesNothing : Obligations.FailingCommandChangesNothing := by
  intro s t tr rest hlink ht
  rcases step_failed_or_answered hlink ht with ⟨e, rfl⟩ | ⟨⟨d, hresp⟩, hcode⟩
  · exact ⟨e.response, rfl, fun _ => ⟨e.value, e.value_ne_zero, rfl, rfl⟩, fun hok => absurd hok e.zeroExtend_ne_zero⟩
  · exact ⟨okResponse d, hresp, fun hne => absurd rfl hne, fun _ => hcode⟩

end Sys2Proof.Machine
end
